-- ==== Sys2Proof/Word.lean ====
section
/-! DEFINITION. The word types of the S9 and their plainest reading (00_scope R5, 02 R38, 06 R151). -/
namespace Sys2Proof

/-- One byte of memory. -/
abbrev Byte := BitVec 8
/-- A scalar register, a special register, an instruction word. -/
abbrev Word := BitVec 64
/-- An origin tag: SITE in [23:12], TEAM in [11:0] (02 R43). -/
abbrev Tag := BitVec 24
/-- One bit per lane, lanes 0 to 1023 (06 R152). -/
abbrev Mask := BitVec 1024
/-- A virtual address (02 R38). -/
abbrev VAddr := BitVec 57

end Sys2Proof
end

