-- ==== Sys2Proof/Syntax.lean ====
section
/-! DEFINITION. The syntax: operand forms of the five formats (02 R55), the packets and messages that events carry, and
Instr, one constructor per row of spec/opcode_table.json: 156 rows a team fetches, then 120 events and commands of the other agents. -/
namespace Sys2Proof

/-- TY codes 0-14 of 01 Table 1-2, in order. -/
inductive Ty where
  | i8 | n8 | i16 | n16 | i32 | n32 | i64 | n64 | f16 | bf16 | f32 | f64 | e4m3 | e5m2 | ky4
  deriving DecidableEq, Repr

/-- RM codes 000-110 of 03 Table 3-4, in order. -/
inductive Rm where
  | rne | rtz | rdn | rup | rna | dyn | rod
  deriving DecidableEq, Repr

/-- The modes of 02 R44. -/
inductive Mode where
  | user | super | firm
  deriving DecidableEq, Repr

/-- `cmp` conditions, FN 0-5 (04 Table 4-6). -/
inductive ICond where
  | eq | ne | lt | le | gt | ge
  deriving DecidableEq, Repr

/-- `cmpi` conditions, FN 0-9 (04 Table 4-7). -/
inductive CmpiCond where
  | eq | ne | lt | le | gt | ge | ltu | leu | gtu | geu
  deriving DecidableEq, Repr

/-- `fcmp` conditions, FN 0-7 (05 Table 5-4). -/
inductive FCond where
  | eq | ne | lt | le | gt | ge | un | ord
  deriving DecidableEq, Repr

/-- `cget` fields, FN 0-5 (04 Table 4-9). -/
inductive CapFld where
  | base | length | perms | otype | cursor | offset
  deriving DecidableEq, Repr

/-- `xred` and `xscan` operations (06 Table 6-7). -/
inductive RedOp where
  | add | min | max | and | or | xor
  deriving DecidableEq, Repr

/-- F-R (02 R55). MOP and FN stand in the constructor; bits [4:0] are zero. `ob` bit 2 is A, 1 is B, 0 is C (01 R19). -/
structure RForm where
  d  : BitVec 6
  a  : BitVec 6
  b  : BitVec 6
  c  : BitVec 6
  g  : BitVec 5
  gn : Bool
  ln : Bool
  ea : Bool
  eb : Bool
  ec : Bool
  ty : Ty
  rm : Rm
  sat : Bool
  ob : BitVec 3
  deriving DecidableEq, Repr

/-- F-I (02 R55). -/
structure IForm where
  d  : BitVec 6
  a  : BitVec 6
  g  : BitVec 5
  gn : Bool
  ln : Bool
  ea : Bool
  imm : BitVec 32
  deriving DecidableEq, Repr

/-- F-M (02 R55). -/
structure MForm where
  data  : BitVec 6
  cap   : BitVec 5
  index : BitVec 6
  g  : BitVec 5
  gn : Bool
  ln : Bool
  e  : Bool
  sz  : BitVec 3
  scl : BitVec 3
  obs : BitVec 8
  ord : BitVec 2
  tg  : Bool
  off : BitVec 14
  deriving DecidableEq, Repr

/-- F-B (02 R55); KND stands in the constructor, or beside the form in `brc`. -/
structure BForm where
  cnd : BitVec 5
  off : BitVec 32
  deriving DecidableEq, Repr

/-- F-E (02 R55). -/
structure EForm where
  sf : BitVec 6
  q  : BitVec 5
  g  : BitVec 5
  gn : Bool
  y  : Bool
  bq : BitVec 3
  cont : BitVec 32
  deriving DecidableEq, Repr

/-- A fabric packet: the header of 17 Table 17-2 and its line, if any. -/
structure Packet where
  cls   : BitVec 4
  op    : BitVec 6
  first : BitVec 6
  last  : BitVec 6
  src   : BitVec 12
  dst   : BitVec 12
  exp   : BitVec 16
  xid   : BitVec 16
  gen   : BitVec 16
  otag  : Tag
  kind  : BitVec 2
  obs   : BitVec 7
  addr  : BitVec 56
  seq   : BitVec 8
  scales : BitVec 32
  line  : List Byte
  count : BitVec 32 := 0              -- of its trailer flit under a fabric key (20 R397): COUNT, the sending port
  fport : BitVec 8 := 0
  tagOk : Bool := true                -- its GCM tag, or that of its run (20 R398), is good
  relay : Option Nat := none          -- the switch that has reduced it (20 R397)
  owner : Option Nat := none          -- of a collective packet that the device sends: the context of its group
  judged : Bool := false              -- it comes from an S7 run whose tag the port has tested (20 R398)
  deriving DecidableEq, Repr

/-- The header of a message of the firmware class, with nothing in the fields that a message does not use (17 R348). -/
def firmwareHead : Packet :=
  { cls := 2, op := 1, first := 0, last := 63, src := 0, dst := 0, exp := 0, xid := 0, gen := 0, otag := 0, kind := 0, obs := 0, addr := 0, seq := 0
    scales := 0, line := [] }

/-- A firmware request (17 R348): sender, CODE, SEQ, context id, argument bytes 8-63; the header of its packet. -/
structure FwMsg where
  src  : BitVec 12
  code : BitVec 16
  seq  : BitVec 16
  cid  : BitVec 32
  args : List Byte
  head : Packet := firmwareHead
  deriving DecidableEq, Repr

/-- A debug mailbox command (21 R412): the context whose mailbox was written, CODE, SEQ, bytes 4-7, argument bytes 8-63. -/
structure DbgMsg where
  ctx  : Nat
  code : BitVec 16
  seq  : BitVec 16
  args : List Byte
  rsv  : BitVec 32 := 0
  deriving DecidableEq, Repr

/-- A member's report in a collective (18 R374): code, failing member, step. -/
structure Report where
  code   : BitVec 8
  member : BitVec 8
  step   : BitVec 16
  deriving DecidableEq, Repr

/-- Where an uncorrectable error is found (14 R315, 09 R213). -/
inductive ErrAt where
  | line (addr : Nat)                 -- a line of device memory or of a slice
  | scratch (crew addr : Nat)         -- a scratchpad line
  | elem (team reg lane : Nat)        -- a lane register element
  | scalar (team reg : Nat)           -- a scalar register
  | cap (team reg : Nat)              -- a capability register
  | tile (crew tile idx : Nat)        -- a tile element
  | untagged (team : Nat)             -- untagged state of a team
  | crewState (crew : Nat)            -- untagged state of a crew
  | engineState (sched : Nat)         -- state of a running collective
  | keyState (world : Nat)            -- key state of a world
  deriving DecidableEq, Repr

/-- A transfer over a die link that fails for good (17 R329), which a number names: a team's access; an engine command, whose next line is on
another die; a line that a Mace or the firmware of a die sends to or asks of another one; a team's next fetch, in which the number is the
team's; a line of the area of a saved crew. -/
inductive DieXfer where
  | access (team : Nat)
  | command
  | sweep (die : Nat)
  | firmware (die : Nat)
  | fetch
  | area (crew : Nat)
  deriving DecidableEq, Repr

/-- What a group message says of the generation (18 R360, R361): the sender's, or the new one, which it confirms; the member that this one is to
pass it on to, where it is for another; the header of its packet. -/
structure GroupGen where
  gen     : Nat
  confirm : Bool
  onto    : Option (BitVec 12) := none
  head    : Packet := firmwareHead
  deriving DecidableEq, Repr

/-- One constructor per row of the opcode table. -/
inductive Instr where
  -- control (04 R109-R113, 07 R172, R177)
  | nop | br (f : BForm) | brc (neg : Bool) (f : BForm) | brany (f : BForm) | brall (f : BForm)
  | call (f : BForm) | ret | loop (f : IForm) | jmpc (f : RForm) | exit (f : RForm) | yield (f : RForm)
  -- integer (04 R94-R106)
  | add (f : RForm) | sub (f : RForm) | addc (f : RForm) | subc (f : RForm)
  | mulLo (f : RForm) | mulHi (f : RForm) | mulw (f : RForm) | mad (f : RForm) | div (f : RForm) | rem (f : RForm)
  | min (f : RForm) | max (f : RForm) | abs (f : RForm) | neg (f : RForm)
  | and (f : RForm) | or (f : RForm) | xor (f : RForm) | andn (f : RForm) | not (f : RForm)
  | shl (f : RForm) | shr (f : RForm) | sar (f : RForm) | rot (f : RForm)
  | clz (f : RForm) | popc (f : RForm) | brev (f : RForm) | bfx (f : RForm) | bfi (f : RForm)
  | sel (f : RForm) | mov (f : RForm) | cmp (c : ICond) (f : RForm) | lit (f : IForm) (x : Word)
  | addi (f : IForm) | andi (f : IForm) | ori (f : IForm) | xori (f : IForm)
  | shli (f : IForm) | shri (f : IForm) | sari (f : IForm) | roti (f : IForm)
  | cmpi (c : CmpiCond) (f : IForm) | movi (f : IForm) | movhi (f : IForm)
  -- capability (04 R119-R127)
  | cget (k : CapFld) (f : RForm) | cseta (f : RForm) | cinc (f : RForm) | cbnd (f : RForm) | cbndr (f : RForm)
  | cperm (f : RForm) | cseal (f : RForm) | cunseal (f : RForm) | cmov (f : RForm) | cnull (f : RForm)
  | ctest (f : RForm) | croot (f : RForm) | crev (f : RForm)
  -- floating point and conversion (05 R131-R146)
  | fadd (f : RForm) | fsub (f : RForm) | fmul (f : RForm) | fma (f : RForm) | fms (f : RForm) | fnma (f : RForm)
  | fdiv (f : RForm) | fsqrt (f : RForm) | frcp (f : RForm) | frsq (f : RForm)
  | fmin (f : RForm) | fmax (f : RForm) | fabs (f : RForm) | fneg (f : RForm)
  | fcmp (c : FCond) (f : RForm) | fclass (f : RForm) | fscale (f : RForm) | frnd (f : RForm)
  | cvt (src : Ty) (f : RForm) | pack (f : RForm) | unpack (f : RForm) | kenc (f : RForm) | kdec (f : RForm)
  -- lanes (06 R158-R170)
  | pset (f : RForm) | pand (f : RForm) | por (f : RForm) | pxor (f : RForm) | pnot (f : RForm) | pmov (f : RForm)
  | mpush (f : RForm) | melse (f : RForm) | mpop (f : RForm) | mall (f : RForm) | mset (f : RForm) | lid (f : RForm)
  | voteAny (f : RForm) | voteAll (f : RForm) | voteBallot (f : RForm)
  | xch (f : RForm) | xchi (f : IForm) | xup (f : IForm) | xdn (f : IForm) | xbc (f : IForm)
  | xred (o : RedOp) (f : RForm) | xscan (o : RedOp) (excl : Bool) (f : RForm)
  -- tags (05 R147-R149)
  | tget (f : RForm) | tset (f : RForm) | tmov (f : RForm) | ttestPoison (f : RForm) | ttestSpecial (f : RForm)
  -- memory (09 R214-R235)
  | ldG (f : MForm) | ldGCap (f : MForm) | stG (f : MForm) | stGCap (f : MForm) | ldS (f : MForm) | stS (f : MForm)
  | ldsTr (f : MForm) | ldc (f : MForm) | stc (f : MForm) | pref (f : MForm)
  | atom (f : MForm) | aCas (f : MForm) | aFadd (f : MForm) | fence (f : MForm)
  | pmapMap (f : MForm) | pmapUnmap (f : MForm) | pmapProtect (f : MForm) | pmapMigrateIn (f : MForm)
  -- synchronisation, push, system (07, 11, 14)
  | bar (f : IForm) | tsync (f : IForm) | twait (f : IForm) | cwait (f : RForm)
  | cancelLaunch (f : RForm) | cancelGraph (f : RForm) | cancelPhase (f : RForm) | cancelJob (f : RForm)
  | push (f : EForm) | launchRecord (f : EForm) | start (f : EForm) | trap (f : IForm) | eret (f : RForm) | rdsr (f : IForm) | wrsr (f : IForm)
  | lvlWrite (f : IForm) | crewstWrite (f : IForm) | trappcWrite (f : IForm)
  | bkpt (f : IForm) | halt (f : RForm) | kat (f : RForm) | csave (f : RForm) | crest (f : RForm)
  -- a word that is none of them (02 R65)
  | illegalEncoding (w : Word)
  -- events of teams and crews (02 R42, R46, 14 R302, 07 R182-R197); `timer` and `cancelled` act on the team that moves
  | fillArrival (team acc : Nat) | timer | siblingStop (team : Nat) | cancelled
  | launchTake (l : Nat) | crewSwitchIn (crew die core : Nat) | quantumEnd (crew : Nat) | allTeamsWait (crew : Nat)
  | ageingRise (crew core : Nat) | vacate (l : Nat) | saveComplete (crew : Nat) | launchComplete (l : Nat)
  -- engine commands (11 R264-R277, 12 R284-R292); `n` units (rows, lines, steps, pairs) are performed
  | commandStart (cmd : Nat) | commandComplete (cmd : Nat)
  | copy (cmd n : Nat) | fill (cmd n : Nat) | gather (cmd n : Nat) | zero (cmd n : Nat)
  | unpackKy4 (cmd n : Nat) | packKy4 (cmd n : Nat) | sweepwait (cmd : Nat)
  | mloop (cmd n : Nat) | mgen (cmd n : Nat) | mslice (cmd n : Nat) | mdrain (cmd : Nat) | mloadc (cmd : Nat) | mzero (cmd : Nat)
  -- memory events (10 R244, 09 R238, R240)
  | storePerformedAtHome (team acc : Nat) | l1CopyExpiry (core line : Nat) | maceSweepComplete (ctx root : Nat)
  | migrationHoldExpiry (ctx page : Nat)
  -- fabric (17 R329-R344)
  | fabricTimeout (req : Nat) | read (p : Packet) | readAcq (p : Packet) | write (p : Packet) | writeRel (p : Packet)
  | atomic (p : Packet) | data (p : Packet) | ack (p : Packet) | nack (p : Packet)
  | collectivePacket (p : Packet) | vote (p : Packet) (voter : Nat) (r : Option Report)   -- 18 R362, R375
  | hello (port : Nat) (dev : BitVec 12) (vers : List (Nat × Nat)) | credit (port cls n : Nat)
  | laneLockLoss (port : Nat) | replayFailure (port : Nat) | dieLinkFailure (x : DieXfer) (n : Nat) (response : Bool)
  | uncorrectable (at_ : ErrAt) | shadowMismatch (team pipe : Nat) (replay reissueFails : Bool) | replayQueueDrop (core : Nat)
  | knownAnswerFailure (core unit : Nat) | powerOn (failedDies : BitVec 4) | powerSample (watts : Nat) | temperatureLimit (deg : Nat)
  -- firmware commands (17 R349-R354, 18 R360, R361, 20 R396-R401, 21 R403, R419)
  | deviceQueryId (m : FwMsg) | deviceQueryHealth (m : FwMsg) | deviceQueryKillLog (m : FwMsg) | deviceQueryFaultLog (m : FwMsg)
  | negotiate (m : FwMsg) | contextCreate (m : FwMsg) | contextDestroy (m : FwMsg) | poolGrant (m : FwMsg)
  | jobStart (m : FwMsg) (object hostArgs : List Byte) | jobCancel (m : FwMsg) | windowExport (m : FwMsg) | windowImport (m : FwMsg)
  | windowCloseExport (m : FwMsg) | windowCloseRoot (m : FwMsg) | routeSet (m : FwMsg)
  | groupForm (m : FwMsg) (members : List (BitVec 12)) | groupReform (m : FwMsg) (members : List (BitVec 12))
  | groupMessage (ctx : Nat) (group : BitVec 16) (src : BitVec 12) (crc : BitVec 32) (said : GroupGen)
  | attest (m : FwMsg) | keyRotateRotate (m : FwMsg) | keyRotateCompartment (m : FwMsg) (code : List Byte)
  | keyRotateFabric (m : FwMsg) (cipher : List Byte) | lockState (m : FwMsg)
  | rotationThreshold (world compt : Nat) | rotationSweepComplete (world compt : Nat) | s7RunIdleTag (port : Nat)
  | recordStart (m : FwMsg) | recordStop (m : FwMsg) | replayStart (m : FwMsg)
  -- observation (21 R407-R420)
  | counterSnapshot (ctx : Nat) | pcSample (ctx die core : Nat) | epochEnd (ctx : Nat)
  -- debugger (21 R412-R416)
  | attach (m : DbgMsg) | detach (m : DbgMsg) | renew (m : DbgMsg) | bpSet (m : DbgMsg) | bpClr (m : DbgMsg)
  | wpSet (m : DbgMsg) | wpClr (m : DbgMsg) | debugHalt (m : DbgMsg) | resume (m : DbgMsg) | debugRead (m : DbgMsg)
  | debugWrite (m : DbgMsg) | leaseExpiry (ctx : Nat)
  -- collectives (18 R362-R380); `sc` is a schedule context, `k` an issued operation
  | startBegin (cmd : Nat) | send (sc k : Nat) | recv (sc k : Nat) | recvred (sc k : Nat)
  | schedCopy (sc k : Nat) | reduce (sc k : Nat) | signal (sc k : Nat) | wait (sc k : Nat) | gbar (sc k : Nat)
  | schedLoop (sc : Nat) | endloop (sc : Nat) | endSched (sc : Nat)
  | abortedTimeout (sc k : Nat) | abortDecide (sc : Nat)
  -- the rest
  | groupFormTimeout (ctx : Nat) (group : BitVec 16) | hostMigrationRequest (ctx page : Nat)
  | portRetrain (port : Nat) | linkAcknowledgement (port : Nat) (seq : BitVec 8) | packetReplay (port : Nat) (seq : BitVec 8)
  deriving DecidableEq, Repr

end Sys2Proof
end

