-- ==== Sys2Proof/Machine/Rows.lean ====
section
/-! DEFINITION. The opcode map (02 Table 2-9) as data: for each constructor a team fetches, its format, MOP, FN (or KND), the
kind of each register field, and the legal LN, G, TY, RM, SAT and mode columns; and the legality rules R56-R63 over those rows. -/
namespace Sys2Proof
namespace Rows

/-- Codes of the enumerations, in the order of 01 Table 1-2 and 03 Table 3-4. -/
def tyCode : Ty → Nat
  | .i8 => 0 | .n8 => 1 | .i16 => 2 | .n16 => 3 | .i32 => 4 | .n32 => 5 | .i64 => 6 | .n64 => 7
  | .f16 => 8 | .bf16 => 9 | .f32 => 10 | .f64 => 11 | .e4m3 => 12 | .e5m2 => 13 | .ky4 => 14

def tyOf : Nat → Option Ty
  | 0 => some .i8 | 1 => some .n8 | 2 => some .i16 | 3 => some .n16 | 4 => some .i32 | 5 => some .n32 | 6 => some .i64
  | 7 => some .n64 | 8 => some .f16 | 9 => some .bf16 | 10 => some .f32 | 11 => some .f64 | 12 => some .e4m3
  | 13 => some .e5m2 | 14 => some .ky4 | _ => none

def rmCode : Rm → Nat
  | .rne => 0 | .rtz => 1 | .rdn => 2 | .rup => 3 | .rna => 4 | .dyn => 5 | .rod => 6

def rmOf : Nat → Option Rm
  | 0 => some .rne | 1 => some .rtz | 2 => some .rdn | 3 => some .rup | 4 => some .rna | 5 => some .dyn | 6 => some .rod | _ => none

def icondCode : ICond → Nat
  | .eq => 0 | .ne => 1 | .lt => 2 | .le => 3 | .gt => 4 | .ge => 5

def cmpiCode : CmpiCond → Nat
  | .eq => 0 | .ne => 1 | .lt => 2 | .le => 3 | .gt => 4 | .ge => 5 | .ltu => 6 | .leu => 7 | .gtu => 8 | .geu => 9

def fcondCode : FCond → Nat
  | .eq => 0 | .ne => 1 | .lt => 2 | .le => 3 | .gt => 4 | .ge => 5 | .un => 6 | .ord => 7

def capFldCode : CapFld → Nat
  | .base => 0 | .length => 1 | .perms => 2 | .otype => 3 | .cursor => 4 | .offset => 5

def redCode : RedOp → Nat
  | .add => 0 | .min => 1 | .max => 2 | .and => 3 | .or => 4 | .xor => 5

/-- Type classes of R59. -/
def isInt (t : Ty) : Bool := tyCode t < 8
def isFp (t : Ty) : Bool := 8 ≤ tyCode t && tyCode t < 12
def isSigned (t : Ty) : Bool := match t with | .i8 | .i16 | .i32 | .i64 => true | _ => false
/-- Bits of a type's values (R68, R70); KY4 elements have 4. -/
def width : Ty → Nat
  | .i8 | .n8 | .e4m3 | .e5m2 => 8 | .i16 | .n16 | .f16 | .bf16 => 16 | .i32 | .n32 | .f32 => 32
  | .i64 | .n64 | .f64 => 64 | .ky4 => 4

/-- How many v elements a general operand takes in lane form. -/
inductive Wd where
  | ty        -- by TY: a pair for 64-bit types (R69)
  | src       -- by the source type of `cvt`
  | one       -- always one element
  | dbl       -- twice the width of TY (R98)
  | pair      -- always an even:odd pair
  deriving DecidableEq, Repr

/-- Kinds of a register field (R57, R64). -/
inductive Fld where
  | none                 -- not used: must be 0
  | gen (w : Wd)         -- general source
  | genD (w : Wd)        -- general destination
  | s | sD               -- always scalar
  | v (w : Wd) | vD (w : Wd)   -- always lane
  | p | pD               -- predicate: b in scalar form, p in lane form
  | bD                   -- b register
  | c | cD               -- capability: c register in scalar form, aligned v quad in lane form
  deriving DecidableEq, Repr

inductive LnC where
  | s | l | sl
  deriving DecidableEq, Repr

inductive TyC where
  | none | int | fp | intFp | cvt | pack
  deriving DecidableEq, Repr

inductive RmC where
  | none | rm | cv | rmIfFp
  deriving DecidableEq, Repr

/-- A row of Table 2-9 in format F-R. -/
structure RRow where
  d : Fld := .none
  a : Fld := .none
  b : Fld := .none
  c : Fld := .none
  ln : LnC := .sl
  g : Bool := true
  ty : TyC := .none
  rm : RmC := .none
  sat : Bool := false
  mode : Mode := .user
  deriving DecidableEq, Repr

/-- A row in format F-I; `imm` says which bits the row's sub-fields leave unused (R60). -/
structure IRow where
  d : Fld := .none
  a : Fld := .none
  ln : LnC := .sl
  g : Bool := true
  immZero : Nat := 0          -- mask of bits that must be zero
  mode : Mode := .user
  deriving DecidableEq, Repr

/-- What a word says: its format, MOP, FN or KND, its row and its fields. -/
inductive View where
  | r (mop fn : Nat) (row : RRow) (srcTy : Ty) (f : RForm)
  | i (mop fn : Nat) (row : IRow) (f : IForm)
  | m (mop : Nat) (f : MForm)
  | b (mop knd : Nat) (f : BForm)
  | e (f : EForm)
  | bare (mop : Nat)          -- every other bit zero
  | event                     -- no word
  deriving DecidableEq, Repr

/-- Shapes shared by many rows. -/
def int3 : RRow := { d := .genD .ty, a := .gen .ty, b := .gen .ty, ty := .int }
def int2 : RRow := { d := .genD .ty, a := .gen .ty, ty := .int }
def int4 : RRow := { d := .genD .ty, a := .gen .ty, b := .gen .ty, c := .gen .ty, ty := .int }
def fp3 : RRow := { d := .genD .ty, a := .gen .ty, b := .gen .ty, ty := .fp, rm := .rm }
def fp2 : RRow := { d := .genD .ty, a := .gen .ty, ty := .fp, rm := .rm }
def fp4 : RRow := { d := .genD .ty, a := .gen .ty, b := .gen .ty, c := .gen .ty, ty := .fp, rm := .rm }
def cap3 (w : Wd) : RRow := { d := .cD, a := .c, b := .gen w }
def pred3 : RRow := { d := .pD, a := .p, b := .p }
def maskRow : RRow := { ln := .l, g := false }
def imm3 : IRow := { d := .genD .one, a := .gen .one }
def shiftRow : IRow := { d := .genD .one, a := .gen .one, immZero := 0xFFFFFFC0 }
def crossRow : IRow := { d := .vD .one, a := .v .one, ln := .l }
def cancelRow : RRow := { a := .s, ln := .s }

/-- The row of every constructor a team fetches (Table 2-9). -/
def view : Instr → View
  | .nop => .bare 0x01
  | .br f => .b 0x02 0 f
  | .brc n f => .b 0x03 (if n then 1 else 0) f
  | .brany f => .b 0x04 0 f
  | .brall f => .b 0x04 1 f
  | .call f => .b 0x05 0 f
  | .ret => .bare 0x06
  | .loop f => .i 0x07 0 { d := .sD, ln := .s, g := false } f
  | .jmpc f => .r 0x08 0 { a := .c, ln := .s } .i8 f
  | .exit f => .r 0x09 0 { ln := .s } .i8 f
  | .yield f => .r 0x0A 0 { ln := .s, g := false } .i8 f
  | .add f => .r 0x10 0 { int3 with sat := true } .i8 f
  | .sub f => .r 0x10 1 { int3 with sat := true } .i8 f
  | .addc f => .r 0x10 2 int4 .i8 f
  | .subc f => .r 0x10 3 int4 .i8 f
  | .mulLo f => .r 0x11 0 { int3 with sat := true } .i8 f
  | .mulHi f => .r 0x11 1 int3 .i8 f
  | .mulw f => .r 0x11 2 { int3 with d := .genD .dbl } .i8 f
  | .mad f => .r 0x11 3 { int4 with sat := true } .i8 f
  | .div f => .r 0x12 0 int3 .i8 f
  | .rem f => .r 0x12 1 int3 .i8 f
  | .min f => .r 0x13 0 int3 .i8 f
  | .max f => .r 0x13 1 int3 .i8 f
  | .abs f => .r 0x13 2 { int2 with sat := true } .i8 f
  | .neg f => .r 0x13 3 { int2 with sat := true } .i8 f
  | .and f => .r 0x14 0 int3 .i8 f
  | .or f => .r 0x14 1 int3 .i8 f
  | .xor f => .r 0x14 2 int3 .i8 f
  | .andn f => .r 0x14 3 int3 .i8 f
  | .not f => .r 0x14 4 int2 .i8 f
  | .shl f => .r 0x15 0 int3 .i8 f
  | .shr f => .r 0x15 1 int3 .i8 f
  | .sar f => .r 0x15 2 int3 .i8 f
  | .rot f => .r 0x15 3 int3 .i8 f
  | .clz f => .r 0x16 0 int2 .i8 f
  | .popc f => .r 0x16 1 int2 .i8 f
  | .brev f => .r 0x16 2 int2 .i8 f
  | .bfx f => .r 0x16 3 int3 .i8 f
  | .bfi f => .r 0x16 4 int4 .i8 f
  | .sel f => .r 0x17 0 { int3 with c := .p } .i8 f
  | .mov f => .r 0x17 1 int2 .i8 f
  | .cmp c f => .r 0x18 (icondCode c) { int3 with d := .pD } .i8 f
  | .lit f _ => .i 0x19 0 { d := .genD .pair, immZero := 0xFFFFFFFF } f
  | .addi f => .i 0x1A 0 imm3 f
  | .andi f => .i 0x1B 0 imm3 f
  | .ori f => .i 0x1B 1 imm3 f
  | .xori f => .i 0x1B 2 imm3 f
  | .shli f => .i 0x1C 0 shiftRow f
  | .shri f => .i 0x1C 1 shiftRow f
  | .sari f => .i 0x1C 2 shiftRow f
  | .roti f => .i 0x1C 3 shiftRow f
  | .cmpi c f => .i 0x1D (cmpiCode c) { imm3 with d := .pD } f
  | .movi f => .i 0x1E 0 { d := .genD .one } f
  | .movhi f => .i 0x1F 0 { imm3 with ln := .s } f
  | .cget k f => .r 0x30 (capFldCode k)
      { d := .genD (match k with | .perms | .otype => .one | _ => .pair), a := .c } .i8 f
  | .cseta f => .r 0x31 0 (cap3 .pair) .i8 f
  | .cinc f => .r 0x31 1 (cap3 .pair) .i8 f
  | .cbnd f => .r 0x32 0 (cap3 .pair) .i8 f
  | .cbndr f => .r 0x32 1 (cap3 .pair) .i8 f
  | .cperm f => .r 0x33 0 (cap3 .one) .i8 f
  | .cseal f => .r 0x34 0 { d := .cD, a := .c, b := .c } .i8 f
  | .cunseal f => .r 0x34 1 { d := .cD, a := .c, b := .c } .i8 f
  | .cmov f => .r 0x35 0 { d := .cD, a := .c } .i8 f
  | .cnull f => .r 0x35 1 { d := .cD } .i8 f
  | .ctest f => .r 0x35 2 { d := .pD, a := .c } .i8 f
  | .croot f => .r 0x36 0 { d := .cD, a := .s, b := .s, ln := .s, mode := .super } .i8 f
  | .crev f => .r 0x36 1 { a := .c, ln := .s, mode := .super } .i8 f
  | .fadd f => .r 0x40 0 fp3 .i8 f
  | .fsub f => .r 0x40 1 fp3 .i8 f
  | .fmul f => .r 0x41 0 fp3 .i8 f
  | .fma f => .r 0x42 0 fp4 .i8 f
  | .fms f => .r 0x42 1 fp4 .i8 f
  | .fnma f => .r 0x42 2 fp4 .i8 f
  | .fdiv f => .r 0x43 0 fp3 .i8 f
  | .fsqrt f => .r 0x43 1 fp2 .i8 f
  | .frcp f => .r 0x44 0 fp2 .i8 f
  | .frsq f => .r 0x44 1 fp2 .i8 f
  | .fmin f => .r 0x45 0 { fp3 with rm := .none } .i8 f
  | .fmax f => .r 0x45 1 { fp3 with rm := .none } .i8 f
  | .fabs f => .r 0x45 2 { fp2 with rm := .none } .i8 f
  | .fneg f => .r 0x45 3 { fp2 with rm := .none } .i8 f
  | .fcmp c f => .r 0x46 (fcondCode c) { fp3 with d := .pD, rm := .none } .i8 f
  | .fclass f => .r 0x47 0 { fp2 with d := .genD .one, rm := .none } .i8 f
  | .fscale f => .r 0x48 0 { fp3 with b := .gen .one } .i8 f
  | .frnd f => .r 0x49 0 fp2 .i8 f
  | .cvt src f => .r 0x60 (tyCode src) { d := .genD .ty, a := .gen .src, ty := .cvt, rm := .cv, sat := true } src f
  | .pack f => .r 0x61 0 { d := .genD .one, a := .gen .one, b := .gen .one, ty := .pack, rm := .rmIfFp, sat := true } .i8 f
  | .unpack f => .r 0x61 1 { d := .genD .one, a := .gen .one, b := .gen .one, ty := .pack } .i8 f
  | .kenc f => .r 0x62 0 { d := .genD .one, a := .gen .one, ln := .l, rm := .rm } .i8 f
  | .kdec f => .r 0x62 1 { d := .genD .one, a := .gen .one, ln := .l } .i8 f
  | .pset f => .r 0x70 0 { d := .pD } .i8 f
  | .pand f => .r 0x70 1 pred3 .i8 f
  | .por f => .r 0x70 2 pred3 .i8 f
  | .pxor f => .r 0x70 3 pred3 .i8 f
  | .pnot f => .r 0x70 4 { d := .pD, a := .p } .i8 f
  | .pmov f => .r 0x70 5 { d := .pD, a := .p } .i8 f
  | .mpush f => .r 0x71 0 { maskRow with a := .p } .i8 f
  | .melse f => .r 0x71 1 maskRow .i8 f
  | .mpop f => .r 0x71 2 maskRow .i8 f
  | .mall f => .r 0x71 3 maskRow .i8 f
  | .mset f => .r 0x71 4 { maskRow with a := .s, b := .s } .i8 f
  | .lid f => .r 0x72 0 { d := .vD .one, ln := .l } .i8 f
  | .voteAny f => .r 0x73 0 { maskRow with d := .bD, a := .p } .i8 f
  | .voteAll f => .r 0x73 1 { maskRow with d := .bD, a := .p } .i8 f
  | .voteBallot f => .r 0x73 2 { maskRow with d := .sD, a := .p, b := .s } .i8 f
  | .xch f => .r 0x78 0 { d := .vD .ty, a := .v .ty, b := .gen .one, ln := .l, ty := .int } .i8 f
  | .xchi f => .i 0x79 0 { crossRow with immZero := 0xC0000000 } f
  | .xup f => .i 0x7A 0 { crossRow with immZero := 0xFFFFFC00 } f
  | .xdn f => .i 0x7A 1 { crossRow with immZero := 0xFFFFFC00 } f
  | .xbc f => .i 0x7B 0 { crossRow with immZero := 0xFFFFFC00 } f
  | .xred o f => .r 0x7C (redCode o)
      { d := .genD .ty, a := .v .ty, ln := .l, ty := if redCode o < 3 then .intFp else .int, rm := .rmIfFp } .i8 f
  | .xscan o x f => .r 0x7D (redCode o + if x then 8 else 0)
      { d := .vD .ty, a := .v .ty, ln := .l, ty := if redCode o < 3 then .intFp else .int, rm := .rmIfFp } .i8 f
  | .tget f => .r 0xB8 0 { d := .genD .one, a := .gen .one } .i8 f
  | .tset f => .r 0xB9 0 { a := .s, ln := .s } .i8 f
  | .tmov f => .r 0xBA 0 { d := .genD .one, a := .gen .one, b := .gen .one } .i8 f
  | .ttestPoison f => .r 0xBB 0 { d := .pD, a := .gen .one } .i8 f
  | .ttestSpecial f => .r 0xBB 1 { d := .pD, a := .gen .one } .i8 f
  | .ldG f => .m 0x80 f
  | .ldGCap f => .m 0x80 f
  | .stG f => .m 0x81 f
  | .stGCap f => .m 0x81 f
  | .ldS f => .m 0x82 f
  | .stS f => .m 0x83 f
  | .ldsTr f => .m 0x84 f
  | .ldc f => .m 0x85 f
  | .stc f => .m 0x86 f
  | .pref f => .m 0x87 f
  | .atom f => .m 0x88 f
  | .aCas f => .m 0x89 f
  | .aFadd f => .m 0x8A f
  | .fence f => .m 0x8B f
  | .pmapMap f => .m 0x8C f
  | .pmapUnmap f => .m 0x8C f
  | .pmapProtect f => .m 0x8C f
  | .pmapMigrateIn f => .m 0x8C f
  | .bar f => .i 0xA0 0 { d := .bD, ln := .s, g := false, immZero := 0xFFFFFFF0 } f
  | .tsync f => .i 0xA1 0 { d := .bD, ln := .s, g := false, immZero := 0xFFFF0000 } f
  | .twait f => .i 0xA2 0 { a := .s, ln := .s, g := false, immZero := 0xFFFFFFE0 } f
  | .cwait f => .r 0xA3 0 { a := .s, b := .s, ln := .s, g := false } .i8 f
  | .cancelLaunch f => .r 0xA4 0 cancelRow .i8 f
  | .cancelGraph f => .r 0xA4 1 cancelRow .i8 f
  | .cancelPhase f => .r 0xA4 2 cancelRow .i8 f
  | .cancelJob f => .r 0xA4 3 cancelRow .i8 f
  | .push f => .e f
  | .launchRecord f => .e f
  | .start f => .e f
  | .trap f => .i 0xC0 0 { ln := .s, immZero := 0xFFFF0000 } f
  | .eret f => .r 0xC1 0 { ln := .s, g := false, mode := .super } .i8 f
  | .rdsr f => .i 0xC2 0 { d := .genD (if f.imm.toNat % 256 = 20 then .pair else .one), immZero := 0xFFFFE000 } f
  | .wrsr f => .i 0xC3 0 { a := .s, ln := .s, immZero := 0xFFFFE000 } f
  | .lvlWrite f => .i 0xC3 0 { a := .s, ln := .s, immZero := 0xFFFFE000 } f
  | .crewstWrite f => .i 0xC3 0 { a := .s, ln := .s, immZero := 0xFFFFE000 } f
  | .trappcWrite f => .i 0xC3 0 { a := .s, ln := .s, immZero := 0xFFFFE000 } f
  | .bkpt f => .i 0xC4 0 { ln := .s, g := false, immZero := 0xFFFF0000 } f
  | .halt f => .r 0xC5 0 { ln := .s, g := false, mode := .super } .i8 f
  | .kat f => .r 0xC6 0 { ln := .s, g := false, mode := .firm } .i8 f
  | .csave f => .r 0xC7 0 { a := .c, ln := .s, g := false, mode := .firm } .i8 f
  | .crest f => .r 0xC8 0 { a := .c, ln := .s, g := false, mode := .firm } .i8 f
  | _ => .event

/-- Whether a constructor is a word that a team fetches. -/
def isWord (i : Instr) : Bool := match view i with | .event => false | _ => true

/-- v elements that an operand takes in lane form. -/
def elems (w : Wd) (ty src : Ty) : Nat :=
  match w with
  | .ty => if width ty = 64 then 2 else 1
  | .src => if width src = 64 then 2 else 1
  | .one => 1
  | .dbl => if width ty = 64 then 4 else if width ty = 32 then 2 else 1
  | .pair => 2

/-- Fields that name a v register (with the count of elements) in this form; `ob` is the field's broadcast bit. -/
def vElems (k : Fld) (ln ob : Bool) (ty src : Ty) : Nat :=
  if !ln || ob then 0 else
  match k with
  | .gen w | .genD w | .v w | .vD w => elems w ty src
  | .c | .cD => 4
  | _ => 0

/-- A field's register number is one its kind can name (R57); `V` is the team's register count. -/
def fldOk (V : Nat) (k : Fld) (r : BitVec 6) (ln ob : Bool) (ty src : Ty) : Bool :=
  let n := r.toNat
  match k with
  | .none => n = 0
  | .s | .sD => true
  | .bD => n < 8
  | .p => if ln then n ≤ 24 else n < 8
  | .pD => if ln then n < 24 else n < 8
  | .c => if ln then n % 4 = 0 && n + 4 ≤ V else n < 32
  | .cD => if ln then n % 4 = 0 && n + 4 ≤ V else n < 31
  | .gen w | .genD w | .v w | .vD w =>
    if !ln || ob then (match w with | .dbl => width ty = 64 → n % 2 = 0 | _ => true)
    else n % elems w ty src = 0 && n + elems w ty src ≤ V

/-- A field on which an E bit may stand: a used source of s or v registers (R58). -/
def eFld (k : Fld) (ln : Bool) : Bool :=
  match k with | .gen _ | .s | .v _ => true | .c => ln | _ => false

/-- A general source field, on which an OB bit may stand (R58). -/
def obFld (k : Fld) : Bool := match k with | .gen _ => true | _ => false

def lnOk (c : LnC) (ln : Bool) : Bool := match c with | .s => !ln | .l => ln | .sl => true

/-- R56: the guard field of a guarded or unguarded row. -/
def guardOk (guarded ln : Bool) (g : BitVec 5) (gn : Bool) : Bool :=
  let n := g.toNat
  if guarded then (n = 24 && !gn) || (if ln then n < 24 else n < 8)
  else n = 0 && !gn

/-- R59. -/
def tyOk (c : TyC) (t : Ty) : Bool :=
  match c with
  | .none => t = .i8
  | .int => isInt t
  | .fp => isFp t
  | .intFp => isInt t || isFp t
  | .cvt => t ≠ .ky4
  | .pack => width t < 32 && t ≠ .ky4

/-- R59, and R142, R169 for the rows that round only floating types. -/
def rmOk (c : RmC) (t : Ty) (r : Rm) : Bool :=
  match c with
  | .none => r = .rne
  | .rm => r ≠ .rod
  | .cv => true
  | .rmIfFp => if isInt t then r = .rne else r ≠ .rod

/-- R56-R59 for an F-R word. -/
def legalR (V : Nat) (row : RRow) (src : Ty) (f : RForm) : Bool :=
  let obA := f.ob.getLsbD 2; let obB := f.ob.getLsbD 1; let obC := f.ob.getLsbD 0
  lnOk row.ln f.ln && guardOk row.g f.ln f.g f.gn &&
  tyOk row.ty f.ty && rmOk row.rm f.ty f.rm && (row.sat || !f.sat) &&
  (!obA || (f.ln && obFld row.a)) && (!obB || (f.ln && obFld row.b)) && (!obC || (f.ln && obFld row.c)) &&
  (!f.ea || eFld row.a f.ln) && (!f.eb || eFld row.b f.ln) && (!f.ec || eFld row.c f.ln) &&
  fldOk V row.d f.d f.ln false f.ty src && fldOk V row.a f.a f.ln obA f.ty src &&
  fldOk V row.b f.b f.ln obB f.ty src && fldOk V row.c f.c f.ln obC f.ty src

/-- R56-R60 for an F-I word. -/
def legalI (V : Nat) (row : IRow) (f : IForm) : Bool :=
  lnOk row.ln f.ln && guardOk row.g f.ln f.g f.gn && (f.imm.toNat &&& row.immZero) = 0 &&
  (!f.ea || eFld row.a f.ln) &&
  fldOk V row.d f.d f.ln false .i8 .i8 && fldOk V row.a f.a f.ln false .i8 .i8

/-- v elements of a memory operand of size code `sz` (Table 9-4, R61). -/
def memElems (mop sz : Nat) : Nat :=
  if mop = 0x84 then 4
  else if mop = 0x89 then (if sz = 3 then 4 else 2)
  else if sz = 4 then 4 else if sz = 3 then 2 else 1

/-- R61 and Table 9-3 for an F-M word; `tg` 1 is legal only where R61 says so. -/
def legalM (V mop : Nat) (f : MForm) : Bool :=
  let sz := f.sz.toNat; let ord := f.ord.toNat; let data := f.data.toNat; let idx := f.index.toNat
  let aop := f.off.toNat / 2048
  let quad := f.ln && f.cap = 0 && idx ≠ 63
  guardOk true f.ln f.g f.gn &&
  -- the data register
  (if mop = 0x85 then data < 31 else if mop = 0x86 then data < 32
   else if mop = 0x87 || mop = 0x8B then data = 0
   else if mop = 0x8C then true
   else if f.ln then data % memElems mop sz = 0 && data + memElems mop sz ≤ V
   else if mop = 0x89 || sz = 4 then data % 2 = 0 else true) &&
  -- the index register
  (idx = 63 || !f.ln || (if quad then idx % 4 = 0 && idx + 4 ≤ V && f.scl = 0 else idx < V)) &&
  -- the form
  (if mop = 0x84 then f.ln
   else if mop = 0x85 || mop = 0x86 || mop = 0x8B || mop = 0x8C then !f.ln else true) &&
  -- the size
  (if mop ≤ 0x83 then sz ≤ 4 else if mop = 0x84 then sz ≤ 2
   else if mop = 0x85 || mop = 0x86 then sz = 4 else if mop = 0x87 then sz ≤ 1
   else if mop = 0x88 || mop = 0x89 then sz = 2 || sz = 3
   else if mop = 0x8A then 1 ≤ sz && sz ≤ 3 else sz = 0) &&
  -- TG
  (!f.tg || ((mop = 0x80 || mop = 0x81) && f.ln && sz = 4) || (mop = 0x88 && (aop = 1 || aop = 2))) &&
  -- ORD and OBS
  (if mop = 0x80 || mop = 0x82 || mop = 0x84 || mop = 0x85 then ord ≤ 1
   else if mop = 0x81 || mop = 0x83 || mop = 0x86 then ord = 0 || ord = 2
   else if mop = 0x87 || mop = 0x8C then ord = 0
   else if mop = 0x8B then 1 ≤ ord else true) &&
  (ord ≠ 0 || f.obs = 0) && !f.obs.getLsbD 7 &&
  -- operations of the atomics
  (mop ≠ 0x88 || aop ≠ 7) && ((mop ≠ 0x89 && mop ≠ 0x8A) || aop = 0) &&
  -- fence and pmap
  (mop ≠ 0x8B || (f.cap = 0 && idx = 63 && f.scl = 0 && f.off = 0 && !f.e)) &&
  (mop ≠ 0x8C || (idx = 63 && f.scl = 0)) &&
  -- E names a register
  (!f.e || idx ≠ 63 || mop = 0x8C || (mop = 0x81 || mop = 0x83 || mop = 0x88 || mop = 0x89 || mop = 0x8A))

/-- R63 for an F-B word. -/
def legalB (mop : Nat) (f : BForm) : Bool :=
  if mop = 0x03 then f.cnd.toNat < 8 else if mop = 0x04 then f.cnd.toNat ≤ 24 else f.cnd = 0

/-- R62. -/
def legalE (f : EForm) : Bool :=
  f.sf.toNat % 8 = 0 && f.q.toNat ≤ 8 && guardOk true false f.g f.gn && (f.y || f.cont = 0)

/-- R46: the selector of `rdsr` and `wrsr`. -/
def selectorOk (f : IForm) : Bool :=
  let num := f.imm.toNat % 256; let idx := f.imm.toNat / 256 % 32
  num < 23 && (idx = 0 || num = 16) && (!f.ln || num = 20)

/-- Which of the rows that share a format this constructor is, as far as the word says (R46, R50, R224, R262). -/
def rowFits : Instr → Bool
  | .ldG f => !f.tg
  | .stG f => !f.tg
  | .ldGCap f => f.tg
  | .stGCap f => f.tg
  | .cvt src _ => src ≠ .ky4
  | .rdsr f => selectorOk f
  | .wrsr f => selectorOk f && f.imm.toNat % 256 ≠ 13 && f.imm.toNat % 256 ≠ 15 && f.imm.toNat % 256 ≠ 22
  | .lvlWrite f => selectorOk f && f.imm.toNat % 256 = 22
  | .crewstWrite f => selectorOk f && f.imm.toNat % 256 = 13
  | .trappcWrite f => selectorOk f && f.imm.toNat % 256 = 15
  | .push f => f.q ≠ 6 && f.q ≠ 7
  | .launchRecord f => f.q = 6
  | .start f => f.q = 7
  | _ => true

/-- R56-R66: the word is legal for a team of `V` lane registers. An event has no word and is not legal as one. -/
def legal (V : Nat) (i : Instr) : Bool :=
  rowFits i &&
  match view i with
  | .r _ _ row src f => legalR V row src f
  | .i _ _ row f => legalI V row f
  | .m mop f => legalM V mop f
  | .b mop _ f => legalB mop f
  | .e f => legalE f
  | .bare _ => true
  | .event => false

/-- The lowest mode that can execute the word (Table 2-9). -/
def mode (i : Instr) : Mode :=
  match view i with
  | .r _ _ row _ _ => row.mode
  | .i _ _ row _ => row.mode
  | .m mop _ => if mop = 0x8C then .super else .user
  | _ => .user

/-- The word's bytes: 16 for `lit`, 8 otherwise (R55). -/
def size : Instr → Nat
  | .lit _ _ => 16
  | _ => 8

end Rows
end Sys2Proof
end

