-- ==== Sys2Proof/WellFormed.lean ====
section
/-! DEFINITION. Well-formedness of an instruction as syntax: a word a team fetches obeys R56-R63 and its row of 02 Table 2-9
for a full register file (64 lane registers); an event carries data of the shapes its chapter gives. -/
namespace Sys2Proof

/-- A packet is at most one line (17 R333), and LAST ≥ FIRST. -/
def Packet.wf (p : Packet) : Bool := (p.line.length = 64 || p.line.length = 0) && p.first.toNat ≤ p.last.toNat

/-- Argument bytes 8-63 of a message (17 R348). -/
def FwMsg.wf (m : FwMsg) : Bool := m.args.length = 56

def DbgMsg.wf (m : DbgMsg) : Bool := m.args.length = 56

/-- Well-formedness of an instruction. -/
def Instr.wf (i : Instr) : Bool :=
  if Rows.isWord i then Rows.legal 64 i else
  match i with
  | .read p => p.wf
  | .readAcq p => p.wf
  | .write p => p.wf && p.line.length = 64
  | .writeRel p => p.wf && p.line.length = 64
  | .atomic p => p.wf && p.line.length = 64
  | .data p => p.wf && p.line.length = 64
  | .ack p => p.wf
  | .nack p => p.wf && p.line.length = 64
  | .collectivePacket p => p.wf
  | .deviceQueryId m => m.wf
  | .deviceQueryHealth m => m.wf
  | .deviceQueryKillLog m => m.wf
  | .deviceQueryFaultLog m => m.wf
  | .negotiate m => m.wf
  | .contextCreate m => m.wf
  | .contextDestroy m => m.wf
  | .poolGrant m => m.wf
  | .jobStart m _ _ => m.wf
  | .jobCancel m => m.wf
  | .windowExport m => m.wf
  | .windowImport m => m.wf
  | .windowCloseExport m => m.wf
  | .windowCloseRoot m => m.wf
  | .routeSet m => m.wf
  | .groupForm m _ => m.wf
  | .groupReform m _ => m.wf
  | .attest m => m.wf
  | .keyRotateRotate m => m.wf
  | .keyRotateCompartment m _ => m.wf
  | .keyRotateFabric m _ => m.wf
  | .lockState m => m.wf
  | .recordStart m => m.wf
  | .recordStop m => m.wf
  | .replayStart m => m.wf
  | .attach m => m.wf
  | .detach m => m.wf
  | .renew m => m.wf
  | .bpSet m => m.wf
  | .bpClr m => m.wf
  | .wpSet m => m.wf
  | .wpClr m => m.wf
  | .debugHalt m => m.wf
  | .resume m => m.wf
  | .debugRead m => m.wf
  | .debugWrite m => m.wf
  | _ => true

end Sys2Proof
end

