-- ==== Sys2Proof/Decode.lean ====
section
/-! DEFINITION. Decoding of words and bytes (02 R55-R66, 06 R169) and the encoder, both written from the bit rulers of R55
and from Table 2-9. A word is a number; `fld w k n` is its bits [k+n-1:k]. -/
namespace Sys2Proof

/-- Why a word is not an instruction (R65), or bytes are none. -/
inductive Reject where
  | truncated      -- fewer bytes than the instruction has
  | unassignedMop  -- a MOP of R65
  | unlistedFn     -- an FN or KND that Table 2-9 does not list
  | reservedBits   -- a bit that no field holds is not zero
  | reservedType   -- TY 15 (R59)
  | reservedRounding   -- RM 111 (R59)
  | fieldRules     -- R56-R63
  deriving DecidableEq, Repr

/-- Bits [k+n-1:k] of a word. -/
def fld (w k n : Nat) : Nat := w / 2 ^ k % 2 ^ n
def flag (w k : Nat) : Bool := w / 2 ^ k % 2 = 1
def field (n w k : Nat) : BitVec n := BitVec.ofNat n (fld w k n)

/-- F-R (R55). -/
def decR (w : Nat) : Except Reject RForm :=
  match Rows.tyOf (fld w 12 4), Rows.rmOf (fld w 9 3) with
  | none, _ => .error .reservedType
  | _, none => .error .reservedRounding
  | some ty, some rm =>
    if fld w 0 5 ≠ 0 then .error .reservedBits else
    .ok { d := field 6 w 50, a := field 6 w 44, b := field 6 w 38, c := field 6 w 32, g := field 5 w 27, gn := flag w 26,
          ln := flag w 25, ea := flag w 24, eb := flag w 23, ec := flag w 22, ty := ty, rm := rm, sat := flag w 8,
          ob := field 3 w 5 }

/-- F-I (R55). -/
def decI (w : Nat) : IForm :=
  { d := field 6 w 50, a := field 6 w 44, g := field 5 w 39, gn := flag w 38, ln := flag w 37, ea := flag w 36,
    imm := field 32 w 0 }

/-- F-M (R55). -/
def decM (w : Nat) : MForm :=
  { data := field 6 w 50, cap := field 5 w 45, index := field 6 w 39, g := field 5 w 34, gn := flag w 33, ln := flag w 32,
    e := flag w 31, sz := field 3 w 28, scl := field 3 w 25, obs := field 8 w 17, ord := field 2 w 15, tg := flag w 14,
    off := field 14 w 0 }

/-- F-B (R55). Bits [47:32] are FN or zero, and no F-B row has an FN. -/
def decB (w : Nat) : Except Reject BForm :=
  if fld w 32 16 ≠ 0 then .error .reservedBits else .ok { cnd := field 5 w 51, off := field 32 w 0 }

/-- F-E (R55). -/
def decE (w : Nat) : Except Reject EForm :=
  if fld w 32 3 ≠ 0 then .error .reservedBits else
  .ok { sf := field 6 w 50, q := field 5 w 45, g := field 5 w 40, gn := flag w 39, y := flag w 38, bq := field 3 w 35,
        cont := field 32 w 0 }

/-- F-R rows: MOP, FN, instruction (Table 2-9). -/
def tableR1 : List (Nat × Nat × (RForm → Instr)) :=
  [(0x08, 0, .jmpc), (0x09, 0, .exit), (0x0A, 0, .yield),
   (0x10, 0, .add), (0x10, 1, .sub), (0x10, 2, .addc), (0x10, 3, .subc),
   (0x11, 0, .mulLo), (0x11, 1, .mulHi), (0x11, 2, .mulw), (0x11, 3, .mad), (0x12, 0, .div), (0x12, 1, .rem),
   (0x13, 0, .min), (0x13, 1, .max), (0x13, 2, .abs), (0x13, 3, .neg),
   (0x14, 0, .and), (0x14, 1, .or), (0x14, 2, .xor), (0x14, 3, .andn), (0x14, 4, .not),
   (0x15, 0, .shl), (0x15, 1, .shr), (0x15, 2, .sar), (0x15, 3, .rot),
   (0x16, 0, .clz), (0x16, 1, .popc), (0x16, 2, .brev), (0x16, 3, .bfx), (0x16, 4, .bfi),
   (0x17, 0, .sel), (0x17, 1, .mov),
   (0x18, 0, .cmp .eq), (0x18, 1, .cmp .ne), (0x18, 2, .cmp .lt), (0x18, 3, .cmp .le), (0x18, 4, .cmp .gt), (0x18, 5, .cmp .ge)]

def tableR2 : List (Nat × Nat × (RForm → Instr)) :=
  [(0x30, 0, .cget .base), (0x30, 1, .cget .length), (0x30, 2, .cget .perms), (0x30, 3, .cget .otype),
   (0x30, 4, .cget .cursor), (0x30, 5, .cget .offset), (0x31, 0, .cseta), (0x31, 1, .cinc), (0x32, 0, .cbnd), (0x32, 1, .cbndr),
   (0x33, 0, .cperm), (0x34, 0, .cseal), (0x34, 1, .cunseal), (0x35, 0, .cmov), (0x35, 1, .cnull), (0x35, 2, .ctest),
   (0x36, 0, .croot), (0x36, 1, .crev)]

def tableR3 : List (Nat × Nat × (RForm → Instr)) :=
  [(0x40, 0, .fadd), (0x40, 1, .fsub), (0x41, 0, .fmul), (0x42, 0, .fma), (0x42, 1, .fms), (0x42, 2, .fnma),
   (0x43, 0, .fdiv), (0x43, 1, .fsqrt), (0x44, 0, .frcp), (0x44, 1, .frsq),
   (0x45, 0, .fmin), (0x45, 1, .fmax), (0x45, 2, .fabs), (0x45, 3, .fneg),
   (0x46, 0, .fcmp .eq), (0x46, 1, .fcmp .ne), (0x46, 2, .fcmp .lt), (0x46, 3, .fcmp .le), (0x46, 4, .fcmp .gt),
   (0x46, 5, .fcmp .ge), (0x46, 6, .fcmp .un), (0x46, 7, .fcmp .ord),
   (0x47, 0, .fclass), (0x48, 0, .fscale), (0x49, 0, .frnd),
   (0x60, 0, .cvt .i8), (0x60, 1, .cvt .n8), (0x60, 2, .cvt .i16), (0x60, 3, .cvt .n16), (0x60, 4, .cvt .i32),
   (0x60, 5, .cvt .n32), (0x60, 6, .cvt .i64), (0x60, 7, .cvt .n64), (0x60, 8, .cvt .f16), (0x60, 9, .cvt .bf16),
   (0x60, 10, .cvt .f32), (0x60, 11, .cvt .f64), (0x60, 12, .cvt .e4m3), (0x60, 13, .cvt .e5m2), (0x60, 14, .cvt .ky4),
   (0x61, 0, .pack), (0x61, 1, .unpack), (0x62, 0, .kenc), (0x62, 1, .kdec)]

def tableR4 : List (Nat × Nat × (RForm → Instr)) :=
  [(0x70, 0, .pset), (0x70, 1, .pand), (0x70, 2, .por), (0x70, 3, .pxor), (0x70, 4, .pnot), (0x70, 5, .pmov),
   (0x71, 0, .mpush), (0x71, 1, .melse), (0x71, 2, .mpop), (0x71, 3, .mall), (0x71, 4, .mset), (0x72, 0, .lid),
   (0x73, 0, .voteAny), (0x73, 1, .voteAll), (0x73, 2, .voteBallot), (0x78, 0, .xch),
   (0x7C, 0, .xred .add), (0x7C, 1, .xred .min), (0x7C, 2, .xred .max), (0x7C, 3, .xred .and), (0x7C, 4, .xred .or),
   (0x7C, 5, .xred .xor),
   (0x7D, 0, .xscan .add false), (0x7D, 1, .xscan .min false), (0x7D, 2, .xscan .max false), (0x7D, 3, .xscan .and false),
   (0x7D, 4, .xscan .or false), (0x7D, 5, .xscan .xor false),
   (0x7D, 8, .xscan .add true), (0x7D, 9, .xscan .min true), (0x7D, 10, .xscan .max true), (0x7D, 11, .xscan .and true),
   (0x7D, 12, .xscan .or true), (0x7D, 13, .xscan .xor true)]

def tableR5 : List (Nat × Nat × (RForm → Instr)) :=
  [(0xA3, 0, .cwait), (0xA4, 0, .cancelLaunch), (0xA4, 1, .cancelGraph), (0xA4, 2, .cancelPhase), (0xA4, 3, .cancelJob),
   (0xB8, 0, .tget), (0xB9, 0, .tset), (0xBA, 0, .tmov), (0xBB, 0, .ttestPoison), (0xBB, 1, .ttestSpecial),
   (0xC1, 0, .eret), (0xC5, 0, .halt), (0xC6, 0, .kat), (0xC7, 0, .csave), (0xC8, 0, .crest)]

def tableR : List (Nat × Nat × (RForm → Instr)) := tableR1 ++ tableR2 ++ tableR3 ++ tableR4 ++ tableR5

/-- F-I rows. `x` is the extension word that `lit` carries. -/
def tableI : List (Nat × Nat × (IForm → Word → Instr)) :=
  [(0x07, 0, fun f _ => .loop f), (0x19, 0, fun f x => .lit f x), (0x1A, 0, fun f _ => .addi f),
   (0x1B, 0, fun f _ => .andi f), (0x1B, 1, fun f _ => .ori f), (0x1B, 2, fun f _ => .xori f),
   (0x1C, 0, fun f _ => .shli f), (0x1C, 1, fun f _ => .shri f), (0x1C, 2, fun f _ => .sari f), (0x1C, 3, fun f _ => .roti f),
   (0x1D, 0, fun f _ => .cmpi .eq f), (0x1D, 1, fun f _ => .cmpi .ne f), (0x1D, 2, fun f _ => .cmpi .lt f),
   (0x1D, 3, fun f _ => .cmpi .le f), (0x1D, 4, fun f _ => .cmpi .gt f), (0x1D, 5, fun f _ => .cmpi .ge f),
   (0x1D, 6, fun f _ => .cmpi .ltu f), (0x1D, 7, fun f _ => .cmpi .leu f), (0x1D, 8, fun f _ => .cmpi .gtu f),
   (0x1D, 9, fun f _ => .cmpi .geu f), (0x1E, 0, fun f _ => .movi f), (0x1F, 0, fun f _ => .movhi f),
   (0x79, 0, fun f _ => .xchi f), (0x7A, 0, fun f _ => .xup f), (0x7A, 1, fun f _ => .xdn f), (0x7B, 0, fun f _ => .xbc f),
   (0xA0, 0, fun f _ => .bar f), (0xA1, 0, fun f _ => .tsync f), (0xA2, 0, fun f _ => .twait f),
   (0xC0, 0, fun f _ => .trap f), (0xC2, 0, fun f _ => .rdsr f),
   (0xC3, 0, fun f _ =>      -- the row is the selector's (R46, R49, R50, 14 R310)
     if f.imm.toNat % 256 = 22 then .lvlWrite f else if f.imm.toNat % 256 = 13 then .crewstWrite f
     else if f.imm.toNat % 256 = 15 then .trappcWrite f else .wrsr f),
   (0xC4, 0, fun f _ => .bkpt f)]

/-- F-M rows have no FN; TG tells the capability forms apart (R61, 09 R224), and the operation of `pmap` stands in its
s register (09 R235), so that every `pmap` word decodes to its first row. -/
def tableM : List (Nat × (MForm → Instr)) :=
  [(0x80, fun f => if f.tg then .ldGCap f else .ldG f), (0x81, fun f => if f.tg then .stGCap f else .stG f),
   (0x82, .ldS), (0x83, .stS), (0x84, .ldsTr), (0x85, .ldc), (0x86, .stc), (0x87, .pref), (0x88, .atom), (0x89, .aCas),
   (0x8A, .aFadd), (0x8B, .fence), (0x8C, .pmapMap)]

/-- F-B rows: MOP, KND. -/
def tableB : List (Nat × Nat × (BForm → Instr)) :=
  [(0x02, 0, .br), (0x03, 0, .brc false), (0x03, 1, .brc true), (0x04, 0, .brany), (0x04, 1, .brall), (0x05, 0, .call)]

/-- Rows whose bits [55:0] are all zero. -/
def tableBare : List (Nat × Instr) := [(0x01, .nop), (0x06, .ret)]

/-- `push`; a record or a start is told by its queue (07 R184, 18 R364). -/
def pushOf (f : EForm) : Instr := if f.q = 6 then .launchRecord f else if f.q = 7 then .start f else .push f

/-- The entry of a key in a table of two columns of numbers. -/
def find2 {α : Type} (m n : Nat) : List (Nat × Nat × α) → Option α
  | [] => none
  | (a, b, x) :: t => if a = m && b = n then some x else find2 m n t

def find1 {α : Type} (m : Nat) : List (Nat × α) → Option α
  | [] => none
  | (a, x) :: t => if a = m then some x else find1 m t

/-- Whether some row has this MOP. -/
def hasMop {α : Type} (m : Nat) (t : List (Nat × α)) : Bool := (find1 m t).isSome

/-- Read the fields of a word by its MOP: R55, R64, R65. -/
def readFields (w x : Nat) : Except Reject Instr :=
  let mop := fld w 56 8
  if hasMop mop tableR then
    match find2 mop (fld w 16 6) tableR with
    | none => .error .unlistedFn
    | some mk => match decR w with | .error e => .error e | .ok f => .ok (mk f)
  else if hasMop mop tableI then
    match find2 mop (fld w 32 4) tableI with
    | none => .error .unlistedFn
    | some mk => .ok (mk (decI w) (BitVec.ofNat 64 x))
  else if hasMop mop tableB then
    match find2 mop (fld w 48 3) tableB with
    | none => .error .unlistedFn
    | some mk => match decB w with | .error e => .error e | .ok f => .ok (mk f)
  else
    match find1 mop tableM, find1 mop tableBare with
    | some mk, _ => .ok (mk (decM w))
    | none, some i => if fld w 0 56 = 0 then .ok i else .error .reservedBits
    | none, none =>
      if mop = 0xB0 then match decE w with | .error e => .error e | .ok f => .ok (pushOf f)
      else .error .unassignedMop

/-- Decode a word `w` below 2^64 with the word `x` after it, for a full register file: R66. -/
def decodeWord (w x : Nat) : Except Reject Instr :=
  match readFields w x with
  | .error e => .error e
  | .ok i => if Rows.legal 64 i then .ok i else .error .fieldRules

/-- A word carries an extension word (R51). -/
def isLit (w : Nat) : Bool := fld w 56 8 = 0x19

/-- What a team fetches, as an instruction: a word that is none is the ILLEGAL_ENCODING row (R65). -/
def readInstr (w x : Nat) : Instr :=
  match decodeWord w x with
  | .ok i => i
  | .error _ => .illegalEncoding (BitVec.ofNat 64 w)

/-- Bytes, the first at the lowest address, as a number (00 R5: little-endian). -/
def leNat : List Byte → Nat
  | [] => 0
  | b :: bs => b.toNat + 256 * leNat bs

/-- The `n` bytes of a number, the lowest first. -/
def leBytes : Nat → Nat → List Byte
  | 0, _ => []
  | n + 1, v => BitVec.ofNat 8 v :: leBytes n (v / 256)

/-- Decode the instruction at the head of a list of bytes and give what is left of the list. -/
def decode (bs : List Byte) : Except Reject (Instr × List Byte) :=
  if (bs.take 8).length < 8 then .error .truncated else
  let w := leNat (bs.take 8)
  if isLit w then
    if (bs.take 16).length < 16 then .error .truncated else
    match decodeWord w (leNat ((bs.drop 8).take 8)) with
    | .error e => .error e
    | .ok i => .ok (i, bs.drop 16)
  else
    match decodeWord w 0 with
    | .error e => .error e
    | .ok i => .ok (i, bs.drop 8)

/-! The encoder. -/

def bitOf (b : Bool) : Nat := if b then 1 else 0

/-- F-R with its MOP and FN (R55). -/
def encR (mop fn : Nat) (f : RForm) : Nat :=
  mop * 2 ^ 56 + f.d.toNat * 2 ^ 50 + f.a.toNat * 2 ^ 44 + f.b.toNat * 2 ^ 38 + f.c.toNat * 2 ^ 32 + f.g.toNat * 2 ^ 27 +
  bitOf f.gn * 2 ^ 26 + bitOf f.ln * 2 ^ 25 + bitOf f.ea * 2 ^ 24 + bitOf f.eb * 2 ^ 23 + bitOf f.ec * 2 ^ 22 + fn * 2 ^ 16 +
  Rows.tyCode f.ty * 2 ^ 12 + Rows.rmCode f.rm * 2 ^ 9 + bitOf f.sat * 2 ^ 8 + f.ob.toNat * 2 ^ 5

/-- F-I with its MOP and FN. -/
def encI (mop fn : Nat) (f : IForm) : Nat :=
  mop * 2 ^ 56 + f.d.toNat * 2 ^ 50 + f.a.toNat * 2 ^ 44 + f.g.toNat * 2 ^ 39 + bitOf f.gn * 2 ^ 38 + bitOf f.ln * 2 ^ 37 +
  bitOf f.ea * 2 ^ 36 + fn * 2 ^ 32 + f.imm.toNat

/-- F-M with its MOP. -/
def encM (mop : Nat) (f : MForm) : Nat :=
  mop * 2 ^ 56 + f.data.toNat * 2 ^ 50 + f.cap.toNat * 2 ^ 45 + f.index.toNat * 2 ^ 39 + f.g.toNat * 2 ^ 34 +
  bitOf f.gn * 2 ^ 33 + bitOf f.ln * 2 ^ 32 + bitOf f.e * 2 ^ 31 + f.sz.toNat * 2 ^ 28 + f.scl.toNat * 2 ^ 25 +
  f.obs.toNat * 2 ^ 17 + f.ord.toNat * 2 ^ 15 + bitOf f.tg * 2 ^ 14 + f.off.toNat

/-- F-B with its MOP and KND. -/
def encB (mop knd : Nat) (f : BForm) : Nat := mop * 2 ^ 56 + f.cnd.toNat * 2 ^ 51 + knd * 2 ^ 48 + f.off.toNat

/-- F-E. -/
def encE (f : EForm) : Nat :=
  0xB0 * 2 ^ 56 + f.sf.toNat * 2 ^ 50 + f.q.toNat * 2 ^ 45 + f.g.toNat * 2 ^ 40 + bitOf f.gn * 2 ^ 39 + bitOf f.y * 2 ^ 38 +
  f.bq.toNat * 2 ^ 35 + f.cont.toNat

/-- The words of an instruction: one, or two for `lit`; none for an event. -/
def encode (i : Instr) : List Nat :=
  match i with
  | .lit f x => [encI 0x19 0 f, x.toNat]
  | _ =>
    match Rows.view i with
    | .r mop fn _ _ f => [encR mop fn f]
    | .i mop fn _ f => [encI mop fn f]
    | .m mop f => [encM mop f]
    | .b mop knd f => [encB mop knd f]
    | .e f => [encE f]
    | .bare mop => [mop * 2 ^ 56]
    | .event => []

/-- The bytes of an instruction's words (00 R5). -/
def encodeBytes (i : Instr) : List Byte := (encode i).flatMap (leBytes 8)

/-- The constructor that a word decodes to: the four rows of `pmap` share their words (09 R235). -/
def canon (i : Instr) : Instr :=
  match i with
  | .pmapUnmap f => .pmapMap f
  | .pmapProtect f => .pmapMap f
  | .pmapMigrateIn f => .pmapMap f
  | i => i

/-- The instruction that the decoder reads from an instruction of `nbits` bits with value `w`; the bits above are zero. -/
def decodeTableWord (nbits w : Nat) : Option Instr :=
  if nbits = 0 || 128 < nbits || 2 ^ nbits ≤ w then none else
  match decode (leBytes 16 w) with
  | .ok (i, _) => some i
  | .error .truncated => none
  | .error _ => some (.illegalEncoding (BitVec.ofNat 64 w))

end Sys2Proof
end

