-- ==== Sys2Proof/Machine/Fp.lean ====
section
/-! DEFINITION. The floating-point formats, `rnd` and the exceptions (03 R70-R78), exact arithmetic before rounding, and KY4 (03 R73-R75). -/
namespace Sys2Proof.Machine

/-- Exceptions in the bit order of `fpst` (02 Table 2-5). -/
abbrev Exc := BitVec 5
def excNV : Exc := 1
def excDZ : Exc := 2
def excOF : Exc := 4
def excUF : Exc := 8
def excNX : Exc := 16

/-- A format of 03 Table 3-1. e4m3 has no infinity, and its only NaN is the all-ones pattern. -/
structure Fmt where
  eb : Nat          -- exponent bits
  fb : Nat          -- fraction bits
  bias : Nat
  ieee : Bool       -- has infinities
  deriving DecidableEq, Repr

def fmtF16 : Fmt := ⟨5, 10, 15, true⟩
def fmtBf16 : Fmt := ⟨8, 7, 127, true⟩
def fmtF32 : Fmt := ⟨8, 23, 127, true⟩
def fmtF64 : Fmt := ⟨11, 52, 1023, true⟩
def fmtE5m2 : Fmt := ⟨5, 2, 15, true⟩
def fmtE4m3 : Fmt := ⟨4, 3, 7, false⟩

/-- The format of a type; integer types have none and read as f32. -/
def fmtOf : Ty → Fmt
  | .f16 => fmtF16 | .bf16 => fmtBf16 | .f64 => fmtF64 | .e4m3 => fmtE4m3 | .e5m2 => fmtE5m2 | _ => fmtF32

def Fmt.width (f : Fmt) : Nat := 1 + f.eb + f.fb
/-- Exponent of the unit in the last place of the smallest values. -/
def Fmt.qmin (f : Fmt) : Int := 1 - f.bias - f.fb
/-- Largest finite magnitude as mantissa and exponent. -/
def Fmt.maxMant (f : Fmt) : Nat := if f.ieee then 2 ^ (f.fb + 1) - 1 else 2 ^ (f.fb + 1) - 2
def Fmt.maxQ (f : Fmt) : Int := (if f.ieee then 2 ^ f.eb - 2 else 2 ^ f.eb - 1 : Int) - f.bias - f.fb

/-- A value of a format: a NaN, an infinity, or ±m·2^e exactly. -/
inductive Fv where
  | nan (signalling : Bool)
  | inf (neg : Bool)
  | fin (neg : Bool) (m : Nat) (e : Int)
  deriving DecidableEq, Repr

def Fv.isNan : Fv → Bool
  | .nan _ => true | _ => false
def Fv.isSnan : Fv → Bool
  | .nan s => s | _ => false
def Fv.isInf : Fv → Bool
  | .inf _ => true | _ => false
def Fv.isZero : Fv → Bool
  | .fin _ m _ => m = 0 | _ => false
/-- NaN or infinite (R90). -/
def Fv.exceptional : Fv → Bool
  | .fin _ _ _ => false | _ => true
def Fv.neg : Fv → Bool
  | .nan _ => false | .inf n => n | .fin n _ _ => n
def Fv.flip : Fv → Fv
  | .nan s => .nan s | .inf n => .inf (!n) | .fin n m e => .fin (!n) m e

/-- Read a format's bits (R69-R71). -/
def readF (f : Fmt) (bits : Nat) : Fv :=
  let frac := bits % 2 ^ f.fb
  let ex := bits / 2 ^ f.fb % 2 ^ f.eb
  let neg := bits / 2 ^ (f.eb + f.fb) % 2 = 1
  if f.ieee && ex = 2 ^ f.eb - 1 then
    if frac = 0 then .inf neg else .nan (frac < 2 ^ (f.fb - 1))
  else if !f.ieee && ex = 2 ^ f.eb - 1 && frac = 2 ^ f.fb - 1 then .nan false
  else if ex = 0 then .fin neg frac f.qmin
  else .fin neg (2 ^ f.fb + frac) (f.qmin + (ex - 1 : Nat))

def signBit (f : Fmt) (neg : Bool) : Nat := if neg then 2 ^ (f.eb + f.fb) else 0
/-- Canonical NaN (Table 3-2). -/
def nanBits (f : Fmt) : Nat :=
  if f.ieee then (2 ^ f.eb - 1) * 2 ^ f.fb + 2 ^ (f.fb - 1) else (2 ^ f.eb - 1) * 2 ^ f.fb + (2 ^ f.fb - 1)
/-- An infinity; e4m3 has none and gives its NaN. -/
def infBits (f : Fmt) (neg : Bool) : Nat := if f.ieee then signBit f neg + (2 ^ f.eb - 1) * 2 ^ f.fb else nanBits f
def maxBits (f : Fmt) (neg : Bool) : Nat :=
  signBit f neg + (if f.ieee then (2 ^ f.eb - 1) * 2 ^ f.fb - 1 else (2 ^ f.eb - 1) * 2 ^ f.fb + 2 ^ f.fb - 2)
def zeroBits (f : Fmt) (neg : Bool) : Nat := signBit f neg

/-- Bits of mant·2^q, mant below 2^(fb+1) and q the format's own for it. -/
def finBits (f : Fmt) (neg : Bool) (mant : Nat) (q : Int) : Nat :=
  signBit f neg + (if mant < 2 ^ f.fb then mant else (q - f.qmin + 1).toNat * 2 ^ f.fb + (mant - 2 ^ f.fb))

/-- Whether the larger neighbour in magnitude is chosen (Table 3-4): `lsb` of the smaller, remainder `rem` of `2^d`. -/
def roundsUp (rm : Rm) (neg : Bool) (lsb : Nat) (rem d : Nat) : Bool :=
  if rem = 0 then false else
  match rm with
  | .rtz => false
  | .rdn => neg
  | .rup => !neg
  | .rna => 2 ^ d ≤ 2 * rem
  | .rod => lsb % 2 = 0
  | _ => 2 ^ d < 2 * rem || (2 ^ d = 2 * rem && lsb % 2 = 1)

/-- m·2^e as a multiple of 2^q: the rounded multiple, and whether it differs. -/
def roundAt (rm : Rm) (neg : Bool) (m : Nat) (e q : Int) : Nat × Bool :=
  if q ≤ e then (m * 2 ^ (e - q).toNat, false) else
  let d := min (q - e).toNat (Nat.log2 m + 3)     -- a longer shift rounds as this one does
  let lo := m / 2 ^ d
  let rem := m % 2 ^ d
  (if roundsUp rm neg lo rem d then lo + 1 else lo, rem ≠ 0)

/-- A result in a format: its bits, its exceptions, whether it is NaN or infinite. -/
structure FRes where
  bits : Nat
  exc : Exc := 0
  exceptional : Bool := false
  deriving DecidableEq, Repr

/-- The overflow result of Table 3-5. -/
def overflowRes (f : Fmt) (rm : Rm) (sat neg : Bool) : FRes :=
  let toMax := sat || (match rm with | .rtz | .rod => true | .rdn => !neg | .rup => neg | _ => false)
  if toMax then ⟨maxBits f neg, excOF ||| excNX, false⟩
  else ⟨infBits f neg, excOF ||| excNX, true⟩

/-- a·2^x < b·2^y; the values are shifted against each other only when they are of one magnitude. -/
def magLt (a : Nat) (x : Int) (b : Nat) (y : Int) : Bool :=
  if b = 0 then false else if a = 0 then true else
  let la := x + Nat.log2 a
  let lb := y + Nat.log2 b
  if la < lb then true else if lb < la then false
  else if x ≤ y then a < b * 2 ^ (y - x).toNat else a * 2 ^ (x - y).toNat < b

/-- `rnd` (R76, R77) of ±m·2^e. The sign of a zero is the caller's (R71). -/
def rnd (f : Fmt) (rm : Rm) (sat neg : Bool) (m : Nat) (e : Int) : FRes :=
  if m = 0 then ⟨zeroBits f neg, 0, false⟩ else
  let q0 : Int := e + Nat.log2 m - f.fb          -- unit of the value with its exponent range unbounded
  let q := if q0 < f.qmin then f.qmin else q0
  let (mant, inexact) := roundAt rm neg m e q
  if magLt f.maxMant f.maxQ mant q then overflowRes f rm sat neg else
  let (umant, _) := roundAt rm neg m e q0
  let tiny := magLt umant q0 (2 ^ f.fb) f.qmin
  let exc : Exc := if inexact then (if tiny then excUF ||| excNX else excNX) else 0
  if mant < 2 ^ (f.fb + 1) then ⟨finBits f neg mant q, exc, false⟩
  else ⟨finBits f neg (mant / 2) (q + 1), exc, false⟩

/-- The canonical NaN, with what it signals. -/
def nanRes (f : Fmt) (exc : Exc) : FRes := ⟨nanBits f, exc, true⟩
def infRes (f : Fmt) (neg : Bool) (exc : Exc := 0) : FRes := ⟨infBits f neg, exc, true⟩

/-- Round an exact finite sum: a zero has the sign that R71 gives. -/
def rndSigned (f : Fmt) (rm : Rm) (zeroNeg : Bool) (x : Int) (e : Int) : FRes :=
  if x = 0 then ⟨zeroBits f zeroNeg, 0, false⟩ else rnd f rm false (x < 0) x.natAbs e

def toInt (neg : Bool) (m : Nat) : Int := if neg then -(m : Int) else m

/-- The exact sum of two finite values, over the smaller exponent. -/
def exactSum (na : Bool) (ma : Nat) (ea : Int) (nb : Bool) (mb : Nat) (eb : Int) : Int × Int :=
  if ea ≤ eb then (toInt na ma + toInt nb mb * 2 ^ (eb - ea).toNat, ea)
  else (toInt na ma * 2 ^ (ea - eb).toNat + toInt nb mb, eb)

/-- A signalling NaN among the operands signals invalid (R72, R78). -/
def snanExc (xs : List Fv) : Exc := if xs.any Fv.isSnan then excNV else 0

/-- a + b (R131, R132). -/
def fAdd (f : Fmt) (rm : Rm) (a b : Fv) : FRes :=
  match a, b with
  | .inf x, .inf y => if x = y then infRes f x else nanRes f excNV
  | .fin na ma ea, .fin nb mb eb =>
    let (x, e) := exactSum na ma ea nb mb eb
    rndSigned f rm (if na = nb then na else rm = .rdn) x e
  | .inf x, .fin _ _ _ => infRes f x
  | .fin _ _ _, .inf y => infRes f y
  | _, _ => nanRes f (snanExc [a, b])

/-- a · b. -/
def fMul (f : Fmt) (rm : Rm) (a b : Fv) : FRes :=
  match a, b with
  | .fin na ma ea, .fin nb mb eb => rnd f rm false (na != nb) (ma * mb) (ea + eb)
  | .inf x, .inf y => infRes f (x != y)
  | .inf x, .fin nb mb _ => if mb = 0 then nanRes f excNV else infRes f (x != nb)
  | .fin na ma _, .inf y => if ma = 0 then nanRes f excNV else infRes f (na != y)
  | _, _ => nanRes f (snanExc [a, b])

/-- 0 × ∞. -/
def zeroTimesInf (a b : Fv) : Bool := (a.isZero && b.isInf) || (a.isInf && b.isZero)

/-- a · b + c, rounded once; 0 × ∞ signals invalid even beside a quiet NaN (Table 5-3). -/
def fFma (f : Fmt) (rm : Rm) (a b c : Fv) : FRes :=
  if a.isNan || b.isNan || c.isNan || zeroTimesInf a b then
    nanRes f (snanExc [a, b, c] ||| if zeroTimesInf a b then excNV else 0)
  else
    let np := a.neg != b.neg
    match a, b, c with
    | .fin _ ma ea, .fin _ mb eb, .fin nc mc ec =>
      let (x, e) := exactSum np (ma * mb) (ea + eb) nc mc ec
      rndSigned f rm (if np = nc then np else rm = .rdn) x e
    | .fin _ _ _, .fin _ _ _, c => infRes f c.neg
    | _, _, .inf y => if np = y then infRes f np else nanRes f excNV
    | _, _, _ => infRes f np

/-- a quotient's bits below this precision are gathered into one odd bit -/
def quotBits : Nat := 128

/-- a / b. -/
def fDiv (f : Fmt) (rm : Rm) (a b : Fv) : FRes :=
  match a, b with
  | .fin na ma ea, .fin nb mb eb =>
    if mb = 0 then (if ma = 0 then nanRes f excNV else infRes f (na != nb) excDZ)
    else if ma = 0 then ⟨zeroBits f (na != nb), 0, false⟩
    else
      let n := ma * 2 ^ quotBits
      rnd f rm false (na != nb) (2 * (n / mb) + if n % mb = 0 then 0 else 1) (ea - eb - quotBits - 1)
  | .inf x, .fin nb _ _ => infRes f (x != nb)
  | .fin na _ _, .inf y => ⟨zeroBits f (na != y), 0, false⟩
  | .inf _, .inf _ => nanRes f excNV
  | _, _ => nanRes f (snanExc [a, b])

/-- The integer square root, bit by bit from bit `k - 1`. -/
def isqrtFrom : Nat → Nat → Nat → Nat
  | 0, _, r => r
  | k + 1, n, r => isqrtFrom k n (if (r + 2 ^ k) * (r + 2 ^ k) ≤ n then r + 2 ^ k else r)

/-- √a. -/
def fSqrt (f : Fmt) (rm : Rm) (a : Fv) : FRes :=
  match a with
  | .nan s => nanRes f (if s then excNV else 0)
  | .inf neg => if neg then nanRes f excNV else infRes f false
  | .fin neg m e =>
    if m = 0 then ⟨zeroBits f neg, 0, false⟩ else if neg then nanRes f excNV else
    -- m·2^e = n·2^(2h), n with an even scale and at least 2·64 bits
    let odd := e % 2 = 1
    let n := m * 2 ^ (if odd then 129 else 128)
    let h : Int := ((if odd then e - 1 else e) - 128) / 2
    let r := isqrtFrom 96 n 0
    rnd f rm false false (2 * r + if r * r = n then 0 else 1) (h - 1)

/-- 1 / a. -/
def fRcp (f : Fmt) (rm : Rm) (a : Fv) : FRes := fDiv f rm (.fin false 1 0) a

/-- 1 / √a (Table 5-3). -/
def fRsq (f : Fmt) (rm : Rm) (a : Fv) : FRes :=
  match a with
  | .nan s => nanRes f (if s then excNV else 0)
  | .inf neg => if neg then nanRes f excNV else ⟨zeroBits f false, 0, false⟩
  | .fin neg m e =>
    if m = 0 then infRes f neg excDZ else if neg then nanRes f excNV else
    let odd := e % 2 = 1
    let m' := if odd then 2 * m else m
    let h : Int := (if odd then e - 1 else e) / 2            -- a = m'·2^(2h)
    let r := isqrtFrom 160 (2 ^ 256 / m') 0                  -- floor(2^128 / √m')
    rnd f rm false false (2 * r + if r * r * m' = 2 ^ 256 then 0 else 1) (-h - 129)

/-- a · 2^n (R137). -/
def fScale (f : Fmt) (rm : Rm) (a : Fv) (n : Int) : FRes :=
  match a with
  | .nan s => nanRes f (if s then excNV else 0)
  | .inf neg => infRes f neg
  | .fin neg m e => rnd f rm false neg m (e + n)

/-- Round to an integral value of the format (R138): exact but for inexact. -/
def fRnd (f : Fmt) (rm : Rm) (a : Fv) : FRes :=
  match a with
  | .nan s => nanRes f (if s then excNV else 0)
  | .inf neg => infRes f neg
  | .fin neg m e =>
    if 0 ≤ e then rnd f rm false neg m e else
    let (q, inexact) := roundAt rm neg m e 0
    let r := rnd f .rne false neg q 0
    { r with exc := if inexact then excNX else 0 }

/-- Order of two values that are not NaN: −0 below +0 where `zeros`, equal otherwise. -/
def fvLt (zeros : Bool) (a b : Fv) : Bool :=
  match a, b with
  | .inf x, .inf y => x && !y
  | .inf x, _ => x
  | _, .inf y => !y
  | .fin na ma ea, .fin nb mb eb =>
    if ma = 0 && mb = 0 then zeros && na && !nb
    else if ma = 0 then !nb
    else if mb = 0 then na
    else if na != nb then na
    else if na then magLt mb eb ma ea else magLt ma ea mb eb
  | _, _ => false

def fvEq (a b : Fv) : Bool := !a.isNan && !b.isNan && !fvLt false a b && !fvLt false b a

/-- Which operand `fmin` or `fmax` chooses (R133): 0 A, 1 B, 2 neither (both NaN). Of equal operands it is A (DESIGN CHOICE, log 34). -/
def fMinMaxPick (max : Bool) (a b : Fv) : Nat :=
  if a.isNan && b.isNan then 2 else if a.isNan then 1 else if b.isNan then 0
  else if max then (if fvLt true a b then 1 else 0) else (if fvLt true b a then 1 else 0)

/-- `fcmp` (Table 5-4). -/
def fCmp (c : FCond) (a b : Fv) : Bool × Exc :=
  let nan := a.isNan || b.isNan
  let q := snanExc [a, b]
  let o : Exc := if nan then excNV else 0
  match c with
  | .eq => (fvEq a b, q)
  | .ne => (!fvEq a b, q)
  | .lt => (!nan && fvLt false a b, o)
  | .le => (!nan && !fvLt false b a, o)
  | .gt => (!nan && fvLt false b a, o)
  | .ge => (!nan && !fvLt false a b, o)
  | .un => (nan, q)
  | .ord => (!nan, q)

/-- `fclass` (Table 5-5). -/
def fClass (f : Fmt) (a : Fv) : Nat :=
  match a with
  | .nan s => if s then 2 ^ 8 else 2 ^ 9
  | .inf neg => if neg then 1 else 2 ^ 7
  | .fin neg m _ =>
    if m = 0 then (if neg then 2 ^ 3 else 2 ^ 4)
    else if m < 2 ^ f.fb then (if neg then 2 ^ 2 else 2 ^ 5)
    else (if neg then 2 else 2 ^ 6)

/-- Floating to floating (Table 5-6). -/
def fToF (f : Fmt) (rm : Rm) (sat : Bool) (a : Fv) : FRes :=
  match a with
  | .nan s => nanRes f (if s then excNV else 0)
  | .inf neg =>
    if sat then ⟨maxBits f neg, excOF ||| excNX, false⟩
    else if f.ieee then infRes f neg else nanRes f excNV
  | .fin neg m e => rnd f rm sat neg m e

/-- Integer to floating (Table 5-6). -/
def iToF (f : Fmt) (rm : Rm) (sat : Bool) (x : Int) : FRes := rnd f rm sat (x < 0) x.natAbs 0

/-- The range of an integer type (R68). -/
def intMin (t : Ty) : Int := if Rows.isSigned t then -(2 ^ (Rows.width t - 1)) else 0
def intMax (t : Ty) : Int := if Rows.isSigned t then 2 ^ (Rows.width t - 1) - 1 else 2 ^ Rows.width t - 1
def clampTo (t : Ty) (x : Int) : Int := if x < intMin t then intMin t else if intMax t < x then intMax t else x

/-- Floating to integer (Table 5-6). -/
def fToI (t : Ty) (rm : Rm) (sat : Bool) (a : Fv) : Int × Exc :=
  match a with
  | .nan _ => (0, excNV)
  | .inf neg => (if neg then intMin t else intMax t, if sat then excNX else excNV)
  | .fin neg m e =>
    let (q, inexact) := roundAt rm neg m e 0
    let x := toInt neg q
    if x < intMin t then (intMin t, if sat then excNX else excNV)
    else if intMax t < x then (intMax t, if sat then excNX else excNV)
    else (x, if inexact then excNX else 0)

/-! KY4 (R73-R75). -/

/-- A 4-bit code as a signed number. -/
def ky4Signed (c : Nat) : Int := if c < 8 then c else (c : Int) - 16

/-- Value of an outlier nibble in units: ±(2 + m)·2^(e+2). -/
def ky4Outlier (n : Nat) : Int := (if 8 ≤ n then -1 else 1) * ((2 + n % 2 : Nat) * 2 ^ (n / 2 % 4 + 2) : Nat)

/-- Value of slot i of a block (Table 3-3): codes in slot order, scale s. -/
def ky4Slot (codes : List Nat) (s i : Nat) : Fv :=
  let c := codes.getD i 0
  let u : Int := (s : Int) - 127
  let val (x : Int) : Fv := .fin (x < 0) x.natAbs u
  if s = 255 then .nan false
  else if i % 2 = 0 then
    if c = 8 then val (ky4Outlier (codes.getD (i + 1) 0)) else val (ky4Signed c)
  else if codes.getD (i - 1) 0 = 8 then .fin false 0 0
  else if c = 8 then .nan false
  else val (ky4Signed c)

/-- The 32 codes of 16 bytes. -/
def ky4Codes (bytes : List Nat) : List Nat := bytes.flatMap fun b => [b % 16, b / 16 % 16]

/-- Insert in descending order of magnitude, and the n-th largest (from 0). -/
def magInsert (x : Nat × Int) : List (Nat × Int) → List (Nat × Int)
  | [] => [x]
  | y :: ys => if magLt y.1 y.2 x.1 x.2 then x :: y :: ys else y :: magInsert x ys
def magNth (n : Nat) (xs : List (Nat × Int)) : Nat × Int := (xs.foldr magInsert []).getD n (0, 0)

def fvMag : Fv → Nat × Int
  | .fin _ m e => (m, e) | _ => (0, 0)

/-- The smallest e with m·2^x / d ≤ 2^e, for m > 0: it is log2 of the quotient, rounded up. -/
def ceilLog2Div (m : Nat) (x : Int) (d : Nat) : Int :=
  let base : Int := Nat.log2 m - Nat.log2 d - 1
  -- base ≤ log2 (m/d) < base + 3
  let le (e : Int) : Bool := if 0 ≤ e then m ≤ d * 2 ^ e.toNat else m * 2 ^ (-e).toNat ≤ d
  x + (if le base then base else if le (base + 1) then base + 1 else if le (base + 2) then base + 2 else base + 3)

/-- Outlier magnitudes in ascending order, with their nibbles. -/
def outlierTable : List (Nat × Nat) := [(8, 0), (12, 1), (16, 2), (24, 3), (32, 4), (48, 5), (64, 6), (96, 7)]

/-- The pair of neighbours in the outlier table around m·2^e units (7 < value ≤ 96), chosen under rm. -/
def pickOutlier (rm : Rm) (neg : Bool) (m : Nat) (e : Int) : List (Nat × Nat) → Nat
  | [] => 7
  | [(_, n)] => n
  | (v, n) :: (v', n') :: t =>
    if !magLt v 0 m e then n                              -- value ≤ v
    else if magLt v' 0 m e then pickOutlier rm neg m e ((v', n') :: t)
    else if !magLt m e v' 0 then n'                       -- value = v'
    else
      match rm with
      | .rtz => n
      | .rdn => if neg then n' else n
      | .rup => if neg then n else n'
      | .rna => if magLt m (e + 1) (v + v') 0 then n else n'
      | _ => if magLt m (e + 1) (v + v') 0 then n
             else if magLt (v + v') 0 m (e + 1) then n' else if n % 2 = 0 then n else n'

/-- Codes of one pair of slots, given the unit exponent e. -/
def ky4Pair (rm : Rm) (e : Int) (x y : Fv) : List Nat :=
  let code (v : Fv) : Int :=
    match v with
    | .fin neg m q => toInt neg (roundAt rm neg m (q - e) 0).1
    | _ => 0
  let c := code x
  if -7 ≤ c && c ≤ 7 then
    [(c % 16).toNat, (code y % 16).toNat]
  else
    match x with
    | .fin neg m q => [8, (if neg then 8 else 0) + pickOutlier rm neg m (q - e) outlierTable]
    | _ => [8, 0]

def everyOther {α : Type} : List α → List α
  | [] => []
  | [x] => [x]
  | x :: _ :: t => x :: everyOther t

def pairUp {α : Type} : List α → List (α × α)
  | x :: y :: t => (x, y) :: pairUp t
  | _ => []

/-- Encode 32 values (R75): codes, scale, exceptions. The odd neighbour of an outlier counts as encoded as code 0 (DESIGN CHOICE, log 34). -/
def ky4Encode (rm : Rm) (xs : List Fv) : List Nat × Nat × Exc :=
  if xs.any Fv.exceptional then
    (List.replicate 32 0, 255, if xs.any Fv.isInf then excNV else 0)
  else
    let evens := (everyOther xs).map fvMag
    let odds := (everyOther (xs.drop 1)).map fvMag
    let cands := [(magNth 0 odds, 7), (magNth 0 evens, 96), (magNth 4 evens, 7)].filter fun c => c.1.1 ≠ 0
    if cands.isEmpty then (List.replicate 32 0, 127, 0) else
    let es := cands.map fun c => ceilLog2Div c.1.1 c.1.2 c.2
    let e0 := es.foldl (fun a b => if a < b then b else a) (-127)
    let codes := (pairUp xs).flatMap fun p => ky4Pair rm e0 p.1 p.2
    let s := (e0 + 127).toNat
    let differs (i : Nat) : Bool :=
      match xs.getD i (.fin false 0 0), ky4Slot codes s i with
      | .fin _ m q, .fin _ m' q' => magLt m q m' q' || magLt m' q' m q
      | _, _ => true
    let exc := (List.range 32).foldl (fun (x : Exc) i =>
      if differs i then
        x ||| excNX ||| (if s = 0 && (ky4Slot codes s i).isZero && !(xs.getD i (.fin false 0 0)).isZero then excUF else 0)
      else x) 0
    (codes, s, exc)

end Sys2Proof.Machine
end

