-- ==== Sys2Proof/Machine/Arith.lean ====
section
/-! DEFINITION. Integer values and operations (03 R68, 04 R95-R105) as functions of exact integers, and origin tags (00 R10, 03 R90). -/
namespace Sys2Proof.Machine

/-! Special tags (00 Table 0-4). -/
def tagExternal : Tag := 0x000000
def tagImm : Tag := 0x000001
def tagPoison : Tag := 0xFFF000
def tagZeroed : Tag := 0xFFF001
def tagInactive : Tag := 0xFFF002
def tagRfault : Tag := 0xFFF003
def tagRtimeout : Tag := 0xFFF004
def tagSched (n : Nat) : Tag := BitVec.ofNat 24 (0xFFF000 + n)

/-- Tag rules of `tagrule`.RULE (02 Table 2-6). -/
def ruleBirth : BitVec 2 := 0
def ruleDominant : BitVec 2 := 1
def ruleFrozen : BitVec 2 := 2

/-- An input of `tag_result`: its tag, whether it is NaN or infinite, and its magnitude m·2^e. -/
structure TagIn where
  tag : Tag
  exceptional : Bool := false
  m : Nat := 0
  e : Int := 0
  deriving DecidableEq, Repr

/-- The tag of the finite input of greatest magnitude, the first of equals. -/
def dominant (own : Tag) (ins : List TagIn) : Tag :=
  let best := ins.foldl (fun (b : Option TagIn) x =>
    if x.exceptional then b else
    match b with
    | none => some x
    | some y => if magLt y.m y.e x.m x.e then some x else b) none
  match best with
  | none => own
  | some x => x.tag

/-- `tag_result` (R90) under a rule, for a result that is exceptional (NaN or infinite) or not. -/
def tagResult (rule : BitVec 2) (own : Tag) (ins : List TagIn) (exceptional : Bool := false) : Tag :=
  if ins.any (fun x => x.tag = tagPoison) then tagPoison
  else if rule = ruleFrozen then tagImm
  else if exceptional then
    match ins.find? (fun x => x.exceptional) with
    | some x => x.tag
    | none => own
  else if rule = ruleBirth then own
  else dominant own ins

/-- The tag of results that are not moves and do not use the rule (R118, R147, R162, R163). -/
def tagFixed (rule : BitVec 2) (own : Tag) (sources : List Tag) : Tag :=
  if sources.any (· = tagPoison) then tagPoison else if rule = ruleFrozen then tagImm else own

/-! Integers. -/

/-- The low w bits of a number, read signed or unsigned. -/
def sextN (x w : Nat) : Int := if 2 ^ w ≤ 2 * (x % 2 ^ w) then (x % 2 ^ w : Nat) - 2 ^ w else (x % 2 ^ w : Nat)
def readInt (t : Ty) (bits : Nat) : Int :=
  if Rows.isSigned t then sextN bits (Rows.width t) else (bits % 2 ^ Rows.width t : Nat)

/-- The value modulo 2^w, read back by the type (R95). -/
def wrapTo (t : Ty) (x : Int) : Int := readInt t (x % 2 ^ Rows.width t).toNat
def narrow (t : Ty) (sat : Bool) (x : Int) : Int := if sat then clampTo t x else wrapTo t x

/-- A number's two's complement bits. -/
def bitsOf (w : Nat) (x : Int) : Nat := (x % 2 ^ w).toNat

/-- Operand content as w-bit unsigned. -/
def lowBits (t : Ty) (x : Int) : Nat := bitsOf (Rows.width t) x

/-- R99. -/
def divInt (a b : Int) : Int := if b = 0 then -1 else Int.tdiv a b
def remInt (a b : Int) : Int := if b = 0 then a else Int.tmod a b

/-- R101: shifts of a w-bit value by n. -/
def shlN (w a n : Nat) : Nat := if n < w then a * 2 ^ n % 2 ^ w else 0
def shrN (w a n : Nat) : Nat := if n < w then a / 2 ^ n else 0
def sarN (w a n : Nat) : Nat :=
  let k := min n w
  let neg := 2 ^ w ≤ 2 * a
  a / 2 ^ k + if neg then 2 ^ w - 2 ^ (w - k) else 0
def rotN (w a n : Nat) : Nat :=
  let k := n % w
  (a * 2 ^ k + a / 2 ^ (w - k)) % 2 ^ w

/-- R102. -/
def clzN (w a : Nat) : Nat := if a = 0 then w else w - 1 - Nat.log2 a
def popcN : Nat → Nat → Nat
  | 0, _ => 0
  | w + 1, a => a % 2 + popcN w (a / 2)
def brevN : Nat → Nat → Nat
  | 0, _ => 0
  | w + 1, a => a % 2 * 2 ^ w + brevN w (a / 2)

/-- `bfx`: bits pos to pos + len − 1 of a w-bit a, by the descriptor b. -/
def bfxN (signed : Bool) (w a b : Nat) : Int :=
  let pos := b % 64
  let len := min (b / 256 % 128) 64
  let x := a % 2 ^ w / 2 ^ pos % 2 ^ len
  if len = 0 then 0 else if signed then sextN x len else (x : Nat)

/-- `bfi`: c with bits pos to min(pos + len, w) − 1 replaced by the low bits of a. -/
def bfiN (w a b c : Nat) : Nat :=
  let pos := b % 64
  let top := min (pos + b / 256 % 128) w
  if top ≤ pos then c % 2 ^ w else
  let n := top - pos
  c % 2 ^ pos + a % 2 ^ n * 2 ^ pos + c % 2 ^ w / 2 ^ top * 2 ^ top

/-- Conditions of Table 4-6 and Table 4-7. -/
def icond (c : ICond) (a b : Int) : Bool :=
  match c with
  | .eq => a = b | .ne => a ≠ b | .lt => a < b | .le => a ≤ b | .gt => b < a | .ge => b ≤ a

/-- `cmpi` of a w-bit register content with the immediate's value (R105). -/
def cmpiCond (c : CmpiCond) (w a : Nat) (imm : Int) : Bool :=
  let x := sextN a w
  let u := a % 2 ^ w
  let v := bitsOf w imm
  match c with
  | .eq => x = imm | .ne => x ≠ imm | .lt => x < imm | .le => x ≤ imm | .gt => imm < x | .ge => imm ≤ x
  | .ltu => u < v | .leu => u ≤ v | .gtu => v < u | .geu => v ≤ u

/-- Combination of `xred` and `xscan` on integers (R169), and the identities of R81. -/
def redInt (o : RedOp) (t : Ty) (a b : Int) : Int :=
  match o with
  | .add => wrapTo t (a + b)
  | .min => if a ≤ b then a else b
  | .max => if b ≤ a then a else b
  | .and => wrapTo t (Nat.land (lowBits t a) (lowBits t b) : Nat)
  | .or => wrapTo t (Nat.lor (lowBits t a) (lowBits t b) : Nat)
  | .xor => wrapTo t (Nat.xor (lowBits t a) (lowBits t b) : Nat)
def redIdInt (o : RedOp) (t : Ty) : Int :=
  match o with
  | .add | .or | .xor => 0
  | .min => intMax t
  | .max => intMin t
  | .and => wrapTo t (-1)

end Sys2Proof.Machine
end

