-- ==== Sys2Proof/Config.lean ====
section
/-! DEFINITION. What the spec fixes for the part, and what it leaves open. An opaque constant has no body: nothing is known of its
value, and a statement that mentions it holds for every value. -/
namespace Sys2Proof

/-- Who moves next: the team of that index, or an event of the opcode table. -/
inductive Act where
  | team (i : Nat)
  | first (i : Nat)                  -- the team fetches the first word of a `lit` only (02 R54)
  | event (i : Instr)
  deriving DecidableEq, Repr, Inhabited

/-- One turn of the machine: `cycles` arithmetic-clock cycles pass, then one agent moves. -/
structure Turn where
  cycles : Nat
  act : Act
  deriving DecidableEq, Repr, Inhabited

namespace Config

/-! Fixed by the spec. -/

/-- Interface versions (00 R4), each a list of (major, minor). -/
def isaVersion : Nat × Nat := (1, 0)
def fwVersion : Nat × Nat := (3, 2)
def fabricVersion : Nat × Nat := (2, 1)
def scheduleVersion : Nat × Nat := (1, 0)
def objectVersion : Nat × Nat := (1, 0)

/-- Register numbers of the mode-dependent special registers end at 22 (02 Table 2-3). -/
def specialRegisters : Nat := 23
/-- The deepest mask stack (06 R151). -/
def maskStackDepth : Nat := 16
/-- No store waits longer for its home, and no L1 copy is older (10 R244). -/
def storeDeadline : Nat := 4096
/-- A migrated page is held for this many cycles (09 R238). -/
def migrationHold : Nat := 100000
/-- Instructions a sibling can issue past the stop of its crew (14 R302). -/
def maxSkid : Nat := 16
/-- Lines of the inbound fault log and of a home slice's scope records (17 R358, 10 R246). -/
def faultLogEntries : Nat := 256
def scopeRecords : Nat := 4096

/-! Left open by the spec: each is applied to what it can depend on, or to State.tick. -/

/-- The turn taken when State.agenda is empty (DESIGN CHOICE, log 1). -/
opaque freeTurn : Nat → Turn
/-- The word of mask ROM at an address of a die (DESIGN CHOICE, log 2). -/
opaque romWord : Nat → Nat → Nat
/-- The entry of a die's firmware in mask ROM (DESIGN CHOICE, log 2). -/
opaque romEntry : Nat → BitVec 57
/-- The trap entry of a die's firmware, and its data capability (DESIGN CHOICE, log 2). -/
opaque romTrapEntry : Nat → BitVec 57
opaque romDataCap : Nat → BitVec 128
/-- The fabric id that the package was given: any but 0xFFF (17 R335) (DESIGN CHOICE, log 2). -/
opaque deviceNumber : Fin 4095
def deviceId : BitVec 12 := BitVec.ofNat 12 deviceNumber.val
/-- Where the cycle counter of a die stands at reset (00 R3) (DESIGN CHOICE, log 4). -/
opaque dcycStart : Nat → BitVec 64
/-- A byte of a host page at the moment a migration brings it (09 R238): tick, page address, offset (DESIGN CHOICE, log 6). -/
opaque hostByte : Nat → Nat → Nat → BitVec 8
/-- Which of a route's ports carries a flow: the hash of SRCDEV, DSTDEV and EXPORT (17 R335) (DESIGN CHOICE, log 11). -/
opaque spreadHash : BitVec 12 → BitVec 12 → BitVec 16 → Nat
/-- The export of a host, and the address in it, at which a REMOTE page of a context lies: context, page address (09 R237) (DESIGN CHOICE, log 6). -/
opaque remotePage : Nat → Nat → BitVec 16 × BitVec 56
/-- Whether a migration request of the device wins the page lock (09 R238), and whether the returned copy of a protected context's
page passes its version check (20 R400) (DESIGN CHOICE, log 6). -/
opaque migrationWins : Nat → Bool
opaque versionPasses : Nat → Bool
/-- The status of a MIGRATE_IN whose page does not pass its version check: the spec names none (09 R237, DESIGN CHOICE, log 6). -/
opaque pmapStatus : Nat → BitVec 64
/-- Which units fail the known-answer set that `kat` runs (14 R311): bits 0-3 lane pipes, 4-5 scalar pipes, 6 matrix, 7 copy (DESIGN CHOICE, log 10). -/
opaque katFailure : Nat → BitVec 8

/-- Whether a fabric node is a host (17 R345) (DESIGN CHOICE, log 11). -/
opaque isHost : BitVec 12 → Bool
/-- The OP values of collective packets, which 17 Table 17-3 leaves to 18 and 18 does not give: credit, data, its acknowledgement,
signal, its acknowledgement, barrier, vote, in that order. A permutation, so that no two kinds of packet share one (DESIGN CHOICE, log 19). -/
opaque collCode : Equiv.Perm (BitVec 6)
def collOp (i : Nat) : BitVec 6 := collCode (BitVec.ofNat 6 i)
/-- The line of a VOTE packet, and what a line says as one (DESIGN CHOICE, log 19). -/
opaque voteLine : Nat → Option Report → List Byte
opaque voteOf : List Byte → Nat × Option Report
/-- The bytes of firmware messages whose layout the spec does not give: which message, its values (DESIGN CHOICE, log 20). -/
opaque layout : Nat → List Nat → List Byte
/-- What a firmware-class line says as a group message: id, CRC32 of the list, generation, whether it confirms; nothing where it is a request
(DESIGN CHOICE, log 20). -/
opaque groupMessageOf : List Byte → Option (BitVec 16 × BitVec 32 × Nat × Bool)
/-- Digests, keys and signatures of evidence, the certificate of the identity key, and whether a ciphertext decapsulates (20 R396, R399)
(DESIGN CHOICE, log 9). -/
opaque digestByte : Nat → Nat → BitVec 8
opaque signatureByte : List (BitVec 8) → Nat → BitVec 8
opaque certificate : List (BitVec 8)
opaque decapsulates : List (BitVec 8) → Bool
/-- What the log in a region was recorded of: code object, arguments, quantum, grant sizes (21 R419). The log does not hold them (DESIGN CHOICE,
log 21): context that reads it, address of the region, tick. -/
opaque recordedProfile : Nat → Nat → Nat → List (BitVec 8) × List (BitVec 8) × Nat × List Nat
/-- What of the counts depends on timing (21 R406-R410) (DESIGN CHOICE, log 21): time, place, which. -/
opaque counted : Nat → Nat → Nat → Nat
/-- How many entries of a core's replay queue find a lane slot in a stretch of cycles (14 R321) (DESIGN CHOICE, log 22): its start, core. -/
opaque recomputed : Nat → Nat → Nat
/-- Whether a core still holds a line of code that it fetches from (20 R393) (DESIGN CHOICE, log 9): time, line. -/
opaque codeHeld : Nat → Nat → Bool
/-- Whether a slice has evicted a line since its last request (21 R408) (DESIGN CHOICE, log 30): time, line. -/
opaque evicted : Nat → Nat → Bool
/-- Whether the identity digest of a switch is in a world's evidence (20 R397, R399) (DESIGN CHOICE, log 9): switch, world. -/
opaque switchKnown : Nat → Nat → Bool
/-- CRC32: the spec names no polynomial (DESIGN CHOICE, log 21). -/
opaque crc32 : List Byte → BitVec 32

/-- Whether a read by the firmware through an export is refused, or passes its deadline (17 R341, R352) (DESIGN CHOICE, log 20): tick. -/
opaque readRefused : Nat → Bool
/-- A byte of a save image that neither names the image nor is a capability (14 R317): tick, offset (DESIGN CHOICE, log 17). -/
opaque imageByte : Nat → Nat → BitVec 8

end Config
end Sys2Proof
end

