-- ==== Sys2Proof/Machine/State.lean ====
section
/-! DEFINITION. The state of the machine: everything the spec gives it, as plain data, and the state after reset. Entities that
come and go (teams, crews, launches, commands, contexts, requests) stand in lists at fixed indices and are marked ended, never
removed. -/
namespace Sys2Proof.Machine

/-! Registers and memory. -/

/-- A scalar register: 64 bits, origin tag, full/empty (02 R38). -/
structure SReg where
  v : Word := 0
  tag : Tag := 0xFFF001
  full : Bool := true
  deriving DecidableEq, Repr

/-- An element of a lane register (06 R151). -/
structure VElem where
  v : BitVec 32 := 0
  tag : Tag := 0xFFF001
  full : Bool := true
  deriving DecidableEq, Repr

/-- A capability register (02 R41, 04 R114); `busy` while an `ldc` to it has not completed. -/
structure CReg where
  bits : BitVec 128 := 0
  valid : Bool := false
  tag : Tag := 0xFFF001
  busy : Bool := false
  deriving DecidableEq, Repr

/-- The sideband of a line (09 R207). -/
structure Side where
  scales : BitVec 32 := 0
  kind : BitVec 4 := 0
  otag : Tag := 0xFFF001
  ctag : BitVec 4 := 0
  err : Bool := false                -- an uncorrectable error stands in the line (09 R213)
  deriving DecidableEq, Repr

/-- A scope record (10 R246); KIND 0 is no record. -/
structure ScopeRec where
  die : BitVec 2 := 0
  core : BitVec 6 := 0
  kind : BitVec 4 := 0
  obs : BitVec 8 := 0
  deriving DecidableEq, Repr

/-- Device memory, or a crew's scratchpad: bytes by address, sideband and scope records by line number. Each list is strictly
rising in its keys and holds no default entry. `lost`: ranges, as (start, bytes), whose keys are retired (20 R400). -/
structure Memory where
  cells : List Host.Cell := []
  lines : List (Nat × Side) := []
  recs : List (Nat × ScopeRec) := []
  lost : List (Nat × Nat) := []
  deriving DecidableEq, Repr

/-- A line in its home slice: its valid words, whether it has been written since it came there (09 R211, R212). -/
structure LlcLine where
  words : BitVec 16 := 0
  dirty : Bool := false
  deriving DecidableEq, Repr

/-! Roots and translation. -/

/-- The kind of a root (09 R201). -/
inductive RootKind where
  | loc | scratch | peer | host
  deriving DecidableEq, Repr

inductive RootState where
  | free | live | revoked
  deriving DecidableEq, Repr

/-- An entry of a context's root table (04 R126, 17 R336): LOCAL base and limit; the crew of a SCRATCH root; the device and export
of a window; the compartment (20 R388). -/
structure Root where
  kind : RootKind := .loc
  state : RootState := .free
  base : Nat := 0
  limit : Nat := 0
  ceil : BitVec 12 := 0
  crew : Nat := 0
  dev : BitVec 12 := 0
  exp : BitVec 16 := 0
  compt : Nat := 0
  sweeps : BitVec 4 := 0     -- dies whose Mace has still to sweep it (09 R239)
  deriving DecidableEq, Repr

/-- Residency of a page (09 R237); `failed`: its copy did not pass its version check (20 R400). -/
inductive Resid where
  | device | host | remote | failed
  deriving DecidableEq, Repr

/-- A stage-1 mapping (09 R232): page address, size, frame, permissions, residency, the end of its migration hold (09 R238), and the
compartment whose key its frame is stored under (20 R389). -/
structure Mapping where
  va : Nat
  size : Nat
  frame : Nat
  r : Bool
  w : Bool
  x : Bool
  resid : Resid := .device
  hold : Nat := 0
  compt : Nat := 0
  version : Nat := 0                 -- of its last departure to the host (20 R400)
  away : Option (List Host.Cell) := none   -- of a protected world: what left, by offset in the page (20 R400)
  deriving DecidableEq, Repr

/-! Memory instructions in flight. -/

/-- Operations of the atomics (09 R227-R229). -/
inductive AtomOp where
  | add | min | max | minu | maxu | and | or | xor | xch | cas | fadd
  deriving DecidableEq, Repr

inductive AccKind where
  | load | loadCap | loadTr | store | storeCap | atom (op : AtomOp)
  deriving DecidableEq, Repr

/-- Where an access goes: device memory, the crew's scratchpad, windows of peers, of hosts or of both. -/
inductive Space where
  | dev | scratch | window (peer host : Bool)
  deriving DecidableEq, Repr

/-- One lane's access: its address, the machine addresses of its bytes as runs, what it stores and with which tags. -/
structure LaneAcc where
  lane : Nat := 0
  addr : Nat := 0
  runs : List (Nat × Nat) := []      -- (start, bytes), in ascending address order
  data : List Byte := []
  tag : Tag := 0
  data2 : List Byte := []            -- the new value of a compare-and-swap
  tag2 : Tag := 0
  cap : Bool := false                -- a capability store's valid bit; that a capability load keeps a valid bit
  write : Bool := true               -- a written lane (`lds.tr` also reads for others)
  deriving DecidableEq, Repr

/-- Registers that a load or atomic fills. -/
inductive Dest where
  | none
  | s (n cnt : Nat)
  | v (n cnt : Nat)
  | c (n : Nat)
  | quad (n : Nat)
  deriving DecidableEq, Repr

/-- A memory instruction that has issued and is not yet performed. -/
structure Access where
  id : Nat
  kind : AccKind
  size : Nat := 0
  space : Space := .dev
  lanes : List LaneAcc := []
  dst : Dest := .none
  ord : BitVec 2 := 0
  obs : BitVec 8 := 0
  rel : BitVec 8 := 0                -- observers of a release: its OBS, or all where it is widened (10 R246, 17 R347)
  own : Tag := 0                     -- own_tag() at issue
  rule : BitVec 2 := 0               -- tagrule at issue
  time : Nat := 0                    -- State.now at issue
  reqs : List (Nat × Nat) := []      -- fabric requests that are out for it: (request, lane)
  before : BitVec 8 := 0             -- observers at which it is performed before what has followed it (10 R242, R251)
  beforeW : BitVec 8 := 0            -- the same, before later stores and atomics only (`fence.rel`)
  got : List (Nat × Nat × List Byte × Tag) := []   -- (lane, address, bytes, tag) that windows have answered
  fails : List (Nat × Nat × BitVec 8) := []        -- (lane, address, cause) that windows have refused
  deriving DecidableEq, Repr

/-- The window latch (09 R221). -/
structure Latch where
  cause : BitVec 8
  addr : Word
  site : Tag
  host : Bool := false               -- of a host window, else of a peer window
  deriving DecidableEq, Repr

/-! Teams. -/

/-- What a waiting team waits for (07 R175). -/
inductive Wait where
  | bar (n : Nat) (d : Nat)
  | tsync (m : BitVec 16) (d : Nat)
  | twait
  | cwait
  | push (q n : Nat) (target : VAddr)
  deriving DecidableEq, Repr

/-- What a handler entry saves (14 R305). -/
structure Frame where
  pc : VAddr
  mode : Mode
  m : Mask
  stack : List (Mask × Mask)
  c29 : CReg
  c31 : CReg
  sHigh : List SReg                  -- s56-s63
  b : List Bool
  fpen : BitVec 5                    -- fpctl[4:0]
  wait : Option Wait := none         -- the wait of a yielding `push` that the trap interrupted (07 R175)
  mismatch : Bool := false           -- a SYNC_MISMATCH is to be raised again after the handler (07 R174)
  deriving DecidableEq, Repr

/-- What a trap reports (14 Table 14-3). `addr` is per lane; `pc` is where the handler returns to. -/
structure TrapRec where
  cause : BitVec 8
  pc : VAddr
  mask : Mask := 0
  addr : List Word := []
  tagA : Tag := 0
  tagB : Tag := 0
  tagC : Tag := 0
  fault : Option (Nat × Nat) := none   -- the fault of a timeline that it reports: queue, number (11 R262)
  latched : Bool := false              -- it reports the window latch (09 R221)
  deriving DecidableEq, Repr

/-- Team states of 14 Table 14-2. WAIT is `run` with a wait. -/
inductive TState where
  | run | handler | skid (n : Nat) | stopped | ended
  deriving DecidableEq, Repr

/-- A team (02 Tables 2-1, 2-3; 06 Table 6-1; 14). -/
structure Team where
  crew : Nat := 0
  num : Nat := 0
  teamid : Word := 0
  pc : VAddr := 0
  half : Option Nat := none          -- the first word of a `lit`, fetched in a turn before (02 R54)
  code : List (Nat × List Byte) := []   -- lines of a REMOTE page that its next instruction lies in, by address (09 R237)
  codeReq : Option Nat := none       -- the fabric request for the next of them
  mode : Mode := .user
  nlanes : Nat := 32
  vregs : Nat := 16
  s : List SReg := []
  b : List Bool := []
  c : List CReg := []
  v : List (List VElem) := []        -- register, then lane
  vcap : List (List Bool) := []      -- quad, then lane (04 R115)
  p : List Mask := []
  m : Mask := 0
  stack : List (Mask × Mask) := []   -- (outer, taken), the deepest entry first
  ttimer : Word := 0
  fpctl : Word := 0
  fpst : Word := 0
  tagrule : Word := 0
  abandoned : Bool := false
  trapcause : BitVec 8 := 0
  trappc : VAddr := 0
  trapmask : Mask := 0
  traptagA : Tag := 0
  traptagB : Tag := 0
  traptagC : Tag := 0
  trapaddr : List Word := []         -- per lane; an empty list is 0 in every lane
  skid : BitVec 5 := 0
  frame : Option Frame := none
  entry : Option TrapRec := none     -- a trap taken whose entry waits for window loads (02 R42 rule 6, 14 R305)
  st : TState := .run
  wait : Option Wait := none
  halted : Bool := false             -- given to the debugger (14 R312, 21 R414)
  byEvent : Bool := false            -- by BREAKPOINT, WATCHPOINT or STEP (21 R415)
  outs : List Access := []           -- issued and not yet performed, in issue order
  nextAcc : Nat := 0
  latch : Option Latch := none
  cancelPending : Bool := false      -- CANCELLED to be taken at the next boundary (07 R182)
  cancelTaken : Bool := false
  mismatch : Bool := false           -- a SYNC_MISMATCH is to be raised again (07 R174, 14 R303)
  killPending : Option (BitVec 8 × Option VAddr) := none   -- a kill due at the next boundary: cause, instruction to name (14 R315, R321)
  bpSkip : Bool := false             -- one fetch passes its breakpoint (14 R309, 21 R415)
  steps : Nat := 0                   -- instructions left before STEP, 0 when not stepping (21 R412)
  stepPending : Bool := false
  retired : Nat := 0
  epochUsed : Nat := 0               -- instructions retired in the epoch (21 R417, R420)
  lastPc : VAddr := 0                -- instruction last issued, for samples (21 R410)
  stalled : Bool := false            -- its next instruction waits for an operand or an access (21 R410, R417)
  ordered : Bool := false            -- it waits for an access that it must not pass, not for an operand (21 R406)
  deriving DecidableEq, Repr

/-! Crews. -/

/-- A fault that a timeline holds (11 R261). -/
structure CmdFault where
  n : Nat
  cause : BitVec 8
  addr : Word
  deriving DecidableEq, Repr

/-- A timeline (11 R261); `done` holds completed numbers above VALUE. -/
structure Timeline where
  issued : Nat := 0
  value : Nat := 0
  done : List Nat := []
  faults : List CmdFault := []
  deriving DecidableEq, Repr

/-- Modes of a tile (12 R278). -/
inductive TileMode where
  | zero | i32 | f32 | f64
  deriving DecidableEq, Repr

/-- An accumulator tile: rows of (bits, tag). -/
structure Tile where
  mode : TileMode := .zero
  kcount : Nat := 0
  rows : List (List (BitVec 32 × Tag)) := List.replicate 64 (List.replicate 64 (0, 0xFFF001))
  deriving DecidableEq, Repr

/-- Crew states (07 Table 7-3). -/
inductive CrewState where
  | pending | ready | resident | saving | ended
  deriving DecidableEq, Repr

/-- A crew (07 R171, R188, R193-R195; 09 R202, R204; 11 R261; 12 R278; 14 R313). -/
structure Crew where
  launch : Nat := 0
  ctx : Option Nat := none           -- none: a die's firmware
  crewid : BitVec 32 := 0
  x : BitVec 32 := 0
  y : BitVec 32 := 0
  z : BitVec 32 := 0
  teams : List Nat := []
  started : Bool := false
  state : CrewState := .pending
  die : Nat := 0
  core : Nat := 0
  slot : Nat := 0
  prio : Nat := 0                    -- launch level (lvl.PRIO)
  raised : Nat := 0                  -- levels risen (07 R193)
  killed : BitVec 16 := 0            -- crewst.KILLED
  tcyc : Word := 0
  scrk : Nat := 0
  scratch : Memory := {}
  root : Nat := 0                    -- index of its SCRATCH root; 0 while it has none
  timelines : List Timeline := []    -- queues 0-8
  tiles : Option (List Tile) := none -- tiles while it owns a tile store, or carries them
  level : Nat := 0                   -- launch level of its quantum (02 R50)
  used : Nat := 0                    -- resident cycles, or instructions, of its quantum (07 R192)
  quantumAt : Nat := 0               -- when its quantum began
  joined : Nat := 0                  -- when it joined its FIFO
  ended8 : List (Nat × Nat) := []    -- quanta that a core has ended without placing it (07 R193)
  epochUsed : Nat := 0               -- instructions retired in the epoch (21 R417)
  area : Option Nat := none          -- the image that `csave` made of it, by its name (14 R320)
  linkFail : Bool := false           -- a line of it comes poisoned over a die link (17 R329)
  deriving DecidableEq, Repr

/-! Launches, levels and instances. -/

inductive LaunchState where
  | queued | taken | done
  deriving DecidableEq, Repr

/-- A launch record as accepted, and its launch (07 R184). -/
structure Launch where
  ctx : Option Nat := none
  pusher : Nat := 0                  -- crew that pushed it; the root launch has itself as none
  root : Bool := false               -- pushed by JOB_START (17 R352)
  number : Nat := 0
  die : Nat := 0
  code : CReg := {}
  tile : CReg := {}
  arg : CReg := {}
  plast : Bool := false
  glast : Bool := false
  policy : Nat := 0
  prio : Nat := 0
  entry : Nat := 0
  gx : Nat := 0
  gy : Nat := 0
  gz : Nat := 0
  stx : Nat := 0
  sty : Nat := 0
  stz : Nat := 0
  scrk : Nat := 0
  obs : BitVec 8 := 0
  dies : BitVec 4 := 0
  cores : BitVec 64 := 0
  pslot : Nat := 0
  gslot : Nat := 0
  lslot : Nat := 0
  dep0 : Word := 0
  dep1 : Word := 0
  firm : Bool := false
  malformed : Bool := false
  lanes : Nat := 32
  regs : Nat := 16
  teamsPer : Nat := 1
  g : Nat := 1
  h : Nat := 0
  k : Nat := 63
  state : LaunchState := .queued
  crews : List Nat := []
  cancelled : Bool := false
  kills : Nat := 0
  status : Nat := 0
  graph : Option Nat := none         -- index of its graph instance
  phase : Option Nat := none
  dealt : Nat := 0                   -- SPREAD: where in its allowed set the dealing stands (07 R191)
  deriving DecidableEq, Repr

/-- A graph or phase instance (07 R179, R180). -/
structure LevelRun where
  ctx : Nat
  level : Nat                        -- 1 graph, 2 phase
  slot : Nat
  parent : Option Nat := none        -- the phase instance of a graph
  closed : Bool := false
  cancelled : Bool := false
  done : Bool := false
  status : Nat := 0
  kills : Nat := 0
  obs : BitVec 8 := 0
  deriving DecidableEq, Repr

/-! Engine commands. -/

inductive CmdState where
  | queued | running | paused | away | done
  deriving DecidableEq, Repr

/-- A piece of a source row that a copy command has read: its offset in the row, its bytes, the sideband of its line. -/
structure SrcPiece where
  off : Nat
  bytes : List Byte
  side : Side := {}
  deriving DecidableEq, Repr

/-- An accepted engine command (11 R259-R270, 12 R280). -/
structure Cmd where
  q : Nat
  n : Nat                            -- its number on the crew's timeline
  crew : Nat
  team : Nat
  kind : Nat
  w : List Word
  dst : Option CReg := none          -- bound capabilities
  src : Option CReg := none
  aux : Option CReg := none
  slots : List (Option CReg) := []   -- buffer slots of a START (18 R364)
  die : Nat := 0
  core : Nat := 0
  own : Tag := 0
  rule : BitVec 2 := 0
  rnd : BitVec 3 := 0                -- fpctl.RND at the push
  compt : Nat := 0
  entry : Bool := false              -- holds a scoreboard entry
  reads : List (Nat × Nat) := []     -- scratchpad intervals [lo, hi)
  writes : List (Nat × Nat) := []
  tiles : BitVec 8 := 0
  behind : List Nat := []            -- commands whose completion it waits for (R264)
  state : CmdState := .queued
  begun : Bool := false              -- its first test is over (12 R284, R289, R292; 11 R277)
  idx : Nat := 0                     -- rows, steps or pairs performed
  rd : Nat := 0                      -- bytes read of the present row
  wr : Nat := 0                      -- bytes written of it
  buf : List SrcPiece := []          -- what it has read
  mid : Bool := false                -- it has written a scratchpad line in part (11 R265)
  row : Option Nat := none           -- the source row that an index has named (R273)
  exc : BitVec 5 := 0
  cause : BitVec 8 := 0
  addr : Word := 0
  cancelled : Bool := false
  linkFail : Option Bool := none     -- its next transfer over a die link fails: in the response (true), or the request (17 R329)
  record : Bool := false             -- a status record to be written
  list : List (Nat × Tag) := []      -- index list read at the start (12 R288)
  matA : List (List (Nat × Tag)) := []   -- rows of A, columns of B, as a split stage has read them (12 R292)
  matB : List (List (Nat × Tag)) := []
  matC : List (List (Nat × Tag)) := []   -- the tile's previous elements, where they are the first term (12 R292)
  req : Option Nat := none           -- the fabric request that is out for it
  sched : Option Nat := none         -- schedule context of a START
  deriving DecidableEq, Repr

/-! Cores, dies. -/

/-- A core (07 R189, R193; 09 R204, R206; 12 R279; 14 R321, R323). -/
structure CoreSt where
  split : Option (Nat × Nat × Nat) := none
  owner : Option Nat := none         -- crew that owns the tile store
  l1 : List (Nat × Nat) := []        -- (line, time of its fill)
  reservedTo : Option Nat := none    -- launch that the core is reserved to
  out : Bool := false                -- outside every allowed set (14 R323)
  retired : BitVec 8 := 0            -- units the firmware retired: lane pipes, scalar pipes, matrix, copy
  next : List Nat := []              -- crews that take the slots of crews being saved (07 R195)
  replayQ : List (Nat × VAddr × Nat) := [] -- shadow replay queue (14 R321): team, instruction, when it was entered
  replayDrops : Nat := 0             -- entries that it has dropped (21 R407)
  deriving DecidableEq, Repr

/-- A kill record (14 R313). -/
structure KillRec where
  die : Nat
  core : Nat
  crewid : BitVec 32
  team : Nat
  cause : BitVec 8
  point : BitVec 8
  pc : VAddr
  tag : Tag
  ctx : Option Nat
  deriving DecidableEq, Repr

/-- An entry of the inbound fault log (17 R358). -/
structure FaultRec where
  src : BitVec 12
  exp : BitVec 16
  addr : Nat
  cause : BitVec 8
  dcyc : Word
  deriving DecidableEq, Repr

/-- A die (00 R3; 14 R313; 17 R356, R358). -/
structure DieSt where
  dcyc : Word := 0
  kills : List KillRec := []
  usable : Bool := true
  faults : List FaultRec := []
  faultLoss : Nat := 0
  deriving DecidableEq, Repr

/-! Contexts. -/

/-- An entry of a kernel table (01 R36). -/
structure Kernel where
  entry : Nat
  lanes : Nat
  regs : Nat
  teams : Nat
  g : Nat
  h : Nat
  k : Nat
  deriving DecidableEq, Repr

/-- A breakpoint, a watchpoint (21 R412): address and `teamid` filter; space, kinds, range and `crewid` filter. -/
structure Breakpoint where
  addr : VAddr
  teamid : BitVec 32
  deriving DecidableEq, Repr

structure Watchpoint where
  scratch : Bool
  reads : Bool
  writes : Bool
  addr : Nat
  len : Nat
  crewid : BitVec 32
  deriving DecidableEq, Repr

/-- A debugger attached through the mailbox (21 R412-R416). -/
structure Debugger where
  attached : Bool := false
  seq : BitVec 16 := 0               -- SEQ of the last command
  lease : Nat := 0                   -- its lease in cycles
  until_ : Nat := 0                  -- when the lease ends
  bps : List (Nat × Breakpoint) := []
  wps : List (Nat × Watchpoint) := []
  deriving DecidableEq, Repr

/-- A recording (21 R403-R410): its streams, the region by virtual address, the periods; when it began and last wrote a snapshot; by core
the entries that the replay queue had dropped before, and the period of the last sample and whose turn the next is. -/
structure Recorder where
  on : Bool := false
  what : BitVec 4 := 0
  dies : BitVec 4 := 0
  region : Nat := 0
  areas : List (Nat × Nat) := []     -- by stream: offset and size of its area
  sper : Nat := 10
  snap : Nat := 0
  start : Nat := 0
  since : Nat := 0
  drops : List (Nat × Nat) := []
  seen : List Nat := []              -- cores that have held a team since then
  nextTeam : List (Nat × Nat × Nat) := []
  deriving DecidableEq, Repr

/-- A record of an arrival log (21 R418): an arrival, or the end of an epoch with the count and the CRC of what was sent. -/
inductive LogRec where
  | arrival (epoch seq kind : Nat) (p : Packet)
  | epochEnd (epoch sent : Nat) (crc : BitVec 32)
  deriving DecidableEq, Repr

/-- A replay (21 R419): what of the log is still to come. -/
structure Replay where
  log : List LogRec := []
  truncated : Bool := false
  deriving DecidableEq, Repr

/-- What an instruction of a team issues: in lane slots or in a scalar one; the leaf of each slot, and for how many cycles its pass takes the
scratchpad lane port (09 R205). -/
structure Issue where
  team : Nat
  lane : Bool
  passes : List (Nat × Nat)
  deriving DecidableEq, Repr

/-- What a core has counted for a recording (21 R406): its sixteen leaves, the lane and the scalar slots of the present cycle that are not charged
yet, the cycles from it on in which the lane port is taken, the teams that have issued in it, what is still to issue; known-answer operations
(21 R407). -/
structure SlotCount where
  leaves : List Nat := List.replicate 16 0
  laneOpen : Nat := 4
  scalarOpen : Nat := 2
  portBusy : Nat := 0
  issued : List Nat := []
  owed : List Issue := []
  kat : Nat := 0
  deriving DecidableEq, Repr

/-- A context (17 R350-R354, 09 R232, 07 R178). -/
structure Context where
  alive : Bool := true
  creator : BitVec 12 := 0
  world : Nat := 0
  replayable : Bool := false
  quantum : Nat := 4000000
  fabricTimeout : Nat := 2000000
  roots : List (Nat × Root) := []
  levelTable : Nat := 0              -- machine address of its level table (07 R178)
  intake : Nat := 0                  -- machine address of its intake area (17 R350); 0 before JOB_START
  maps : List Mapping := []
  grants : List (BitVec 4 × BitVec 64) := []   -- dies and cores of each POOL_GRANT (17 R351)
  sizes : List Nat := []             -- their memory, in bytes
  stage2 : List (Nat × Nat × Nat) := []   -- guest-physical start, machine start, bytes (09 R233)
  poolFree : List (Nat × Nat) := []  -- free frames of the grant, as (start, bytes)
  poolAll : List (Nat × Nat) := []
  h : CReg := {}                     -- handler code and data (14)
  hd : CReg := {}
  kernels : List Kernel := []
  sites : List (Nat × Nat) := []     -- (code offset, site) (01 R35)
  object : List Byte := []           -- what JOB_START read: the code object, the arguments (21 R419)
  hostArgs : List Byte := []
  codeBase : Nat := 0
  codeSize : Nat := 0
  nextVa : Nat := 0x1000000000       -- where the firmware places its next region
  mailbox : Nat := 0                 -- machine address of the debug mailbox (21 R411)
  own : List (Nat × Nat) := []       -- device memory of its tables and mailbox, outside any grant
  hentry : Nat := 0xFFFFFFFF         -- 17 R350
  hdsize : Nat := 64
  holdJob : Bool := false            -- the job waits for REPLAY_START (21 R419)
  destroying : Option (BitVec 12 × BitVec 16) := none   -- who destroys it, and the SEQ to be answered (17 R353)
  recorder : Recorder := {}
  epoch : Nat := 0                   -- 21 R417
  reqBase : Nat := 0                 -- its requests before the recording, or the replay, began (21 R418)
  held : List Instr := []            -- arrivals held until the epoch ends
  sentHeads : List Packet := []      -- what it has sent in the epoch
  replay : Option Replay := none
  dbg : Debugger := {}
  hasJob : Bool := false
  firstLaunch : Nat := 0             -- index of its root launch
  jobCancelled : Bool := false
  jobDone : Bool := false
  deriving DecidableEq, Repr

/-! The fabric (17 R331-R344). -/

inductive PortState where
  | training | up | down
  deriving DecidableEq, Repr

/-- An S7 run that is coming in (20 R398): its flits, the time of the last one, the packets whose last flit lies in it. -/
structure InRun where
  flits : Nat := 0
  last : Nat := 0
  held : List Instr := []
  deriving DecidableEq, Repr

/-- A port: state, far end and settled version (17 R332); packets sent and not yet acknowledged, packets waiting; credits by class;
error counter (17 R334). Under fabric keys (20 R394, R397, R398): packets that wait for a new epoch, as (world, packet); the last COUNT
accepted, and one more, of each world, sender and port; the open S7 runs, as (world, flits, time of the last one); tag flits sent; the S7 runs
that are coming in, by world. -/
structure Port where
  st : PortState := .training
  peer : BitVec 12 := 0xFFF
  major : Nat := 2
  minor : Nat := 1
  seq : BitVec 8 := 0                -- sequence number of the next packet
  unacked : List Packet := []
  queue : List Packet := []
  replays : Nat := 0                 -- consecutive failed replays
  credits : List (Nat × Nat) := []
  errors : Nat := 0
  stalled : List (Nat × Packet) := []
  heard : List (Nat × Nat) := []
  runs : List (Nat × Nat × Nat) := []
  tagFlits : Nat := 0
  inRuns : List (Nat × InRun) := []
  deriving DecidableEq, Repr

/-- Export states (17 Table 17-5). -/
inductive ExportState where
  | free | live | closed
  deriving DecidableEq, Repr

/-- An export (17 R338): its context and entry, root, range, permissions, allowed device. -/
structure Exported where
  ctx : Nat := 0
  entry : Nat := 0
  root : Nat := 0
  start : Nat := 0
  length : Nat := 0
  perms : BitVec 12 := 0
  allow : BitVec 12 := 0
  state : ExportState := .free
  deriving DecidableEq, Repr

/-- Who waits for a fabric request: a lane of a team's access, a team's fetch, an engine command, the firmware, the initiator of an inbound
request whose page is REMOTE (09 R237). -/
inductive ReqOwner where
  | firmware
  | relay (p : Packet)
  | fetch (team : Nat)
  | access (team acc lane : Nat)
  | command (c : Nat)
  deriving DecidableEq, Repr

/-- How a request stands: out, answered, refused with a cause. -/
inductive ReqState where
  | out
  | data (line : List Byte) (tag : Tag) (kind : BitVec 2) (scales : BitVec 32)
  | acked
  | refused (cause : BitVec 8)
  deriving DecidableEq, Repr

/-- A fabric request of this device (17 R339, R341, R343). -/
structure Req where
  owner : ReqOwner
  xid : BitVec 16
  dst : BitVec 12
  exp : BitVec 16
  addr : Nat                         -- window address of its lowest byte
  va : Nat := 0                      -- the access's own address of that byte
  len : Nat
  kind : Nat                         -- 0 load, 1 store, 2 atomic, 3 engine
  own : Tag
  ctx : Option Nat
  die : Nat
  host : Bool
  deadline : Nat
  st : ReqState := .out
  deriving DecidableEq, Repr

/-! Worlds (20 R387-R401). -/

inductive LockState where
  | unlocked | locked | run | error
  deriving DecidableEq, Repr

/-- A key of a world: its compartment, or 256 for its fabric key, its epoch, whether a rotation runs (20 R395). -/
structure KeySt where
  compt : Nat
  epoch : Nat := 1
  rotating : Bool := false
  deriving DecidableEq, Repr

/-- A world. Key values are no state that anything reads (20 R387); `sent` counts the invocations of each fabric port under the present epoch
of the fabric key (20 R393); `retired`: its keys are (20 R400). -/
structure World where
  id : Nat
  prot : Bool := false
  lock : LockState := .unlocked
  keys : List KeySt := [{ compt := 0 }]
  fabricKey : Bool := false
  runLen : Nat := 1
  digest : Nat := 0                  -- names the digests that CONFIG_LOCKED has fixed (20 R399, R401)
  sent : List (Nat × Nat) := []
  retired : Bool := false
  failing : Bool := false            -- its keys go when its crews have ended (20 R400)
  deriving DecidableEq, Repr

/-! The firmware's own tables. -/

/-- A sender of firmware requests (17 R349): the last answers by SEQ, the requests that are not yet answered, and of them those whose turn
has not come. -/
structure Sender where
  dev : BitVec 12
  replies : List (BitVec 16 × List Byte) := []
  waiting : List (BitVec 16) := []
  queue : List Instr := []
  deriving DecidableEq, Repr

/-- A GROUP_FORM or GROUP_REFORM that waits for its messages (18 R360, R361). -/
structure Forming where
  src : BitVec 12
  seq : BitVec 16
  reform : Bool
  members : List (BitVec 12)
  die : Nat
  deadline : Nat
  sent : Bool := false               -- the group messages have gone
  gen : Option Nat := none           -- of a re-form: the new generation, which it has confirmed (18 R361)
  deriving DecidableEq, Repr

/-- A group message that has been received (18 R360): CRC32 of the list, generation; `confirm`: a confirmation (18 R361). -/
structure GroupMsg where
  ctx : Nat
  group : BitVec 16
  src : BitVec 12
  crc : BitVec 32
  gen : Nat
  confirm : Bool := false
  deriving DecidableEq, Repr

/-- A group (18 R359-R362); `count` instances have begun; packets of later instances are held. -/
structure Group where
  ctx : Nat
  id : BitVec 16
  die : Nat
  members : List (BitVec 12)
  gen : Nat := 1
  count : Nat := 0
  ready : Bool := false
  gone : Bool := false
  forming : Option Forming := none
  held : List Instr := []            -- collective packets of instances that have not begun
  deriving DecidableEq, Repr

/-! Collectives (18 R363-R380). -/

inductive SOpState where
  | issued | started | done
  deriving DecidableEq, Repr

/-- An issued operation: its position in the schedule, its word, its peer; its chunks, each with its slot, the destination with its
number in the slot too; its number in its pair, its barrier's number; bytes done and acknowledged; when it last got a packet; the
pieces of its operands that it holds, what it has written of the line that it writes, and its fabric request. -/
structure SOp where
  j : Nat
  w : Word
  peer : Nat := 0
  dst : Option (Nat × Nat × Nat) := none   -- slot, chunk, address
  srcA : Option (Nat × Nat) := none        -- slot, address
  srcB : Option (Nat × Nat) := none
  k : Nat := 0
  st : SOpState := .issued
  bytes : Nat := 0
  acked : Nat := 0
  last : Nat := 0
  a : List SrcPiece := []
  b : List SrcPiece := []
  wr : Nat := 0
  req : Option Nat := none
  deriving DecidableEq, Repr

/-- An open LOOP: the position of its body, the iteration, the count. -/
structure SLoop where
  body : Nat
  i : Nat
  count : Nat
  deriving DecidableEq, Repr

inductive SchedState where
  | running | aborting | free
  deriving DecidableEq, Repr

/-- A schedule context (18 R363, R380) with its instance. -/
structure Sched where
  die : Nat
  slot : Nat
  cmd : Nat
  group : Nat
  inst : Nat
  gen : Nat
  st : SchedState := .running
  ops : List Word := []
  pc : Nat := 0
  loops : List SLoop := []
  issued : List SOp := []
  credits : List (Nat × Nat) := []   -- (peer, pair number) that a peer has given
  signals : List (Nat × Nat) := []   -- by peer
  barrier : Nat := 0                 -- barriers that it has arrived at
  arrived : List (Nat × Nat) := []   -- by peer, barriers that it has arrived at
  exc : BitVec 5 := 0
  votes : List (Nat × Option Report) := []
  mine : Option Report := none
  cause : BitVec 8 := 0
  addr : Word := 0
  abortAt : Nat := 0
  deriving DecidableEq, Repr

/-! The whole machine. -/

/-- The machine. -/
structure State where
  -- the model's own
  tick : Nat := 0                    -- index of the next free value
  agenda : List Turn := []
  cur : Nat := 0                     -- the team that moves
  now : Nat := 0                     -- arithmetic-clock cycles since power-on
  -- the spec's
  teams : List Team := []
  crews : List Crew := []
  launches : List Launch := []
  levelRuns : List LevelRun := []
  cmds : List Cmd := []
  contexts : List Context := []
  cores : List CoreSt := []          -- die * 64 + core, then the firmware cores
  dies : List DieSt := []
  mem : Memory := {}
  llc : List (Nat × LlcLine) := []   -- lines in their home slices (09 R211, R212)
  fwRoots : List (Nat × Root) := []  -- roots of the firmware's own capabilities
  ports : List Port := []
  routes : List (Nat × BitVec 36) := []   -- by destination device, the ports that lead to it (17 R335)
  exports : List (Nat × Exported) := []   -- by device-wide number (17 R338)
  reqs : List Req := []
  worlds : List World := []
  freeMem : List (Nat × Nat) := []   -- device memory of no context
  senders : List Sender := []
  groups : List Group := []
  groupMsgs : List GroupMsg := []
  scheds : List Sched := []
  slotCounts : List (Nat × SlotCount) := []   -- of recordings: context * 256 + core (21 R406)
  llcCounts : List (Nat × List Nat) := []     -- context * 4 + die (21 R408)
  transfers : List (Nat × Nat) := [] -- COUNT of the ports on the device by key, epoch and PORT (20 R393)
  clock : Nat := 1000                -- arithmetic clock in MHz (00 R2, 17 R357)
  poweredOn : Bool := false
  poweredDown : Bool := false
  deriving DecidableEq, Repr

/-! Reset. -/

/-- The code capability of a die's firmware (DESIGN CHOICE, log 2): root 1 of the firmware's own roots, all of its bounds, X and LD, with its
cursor in mask ROM: at the entry, or at the trap entry (14 R305). -/
def romCapAt (at_ : VAddr) : CReg :=
  { bits := BitVec.ofNat 128 (32767 * 2 ^ 113 + 31 * 2 ^ 93 + 0x011 * 2 ^ 77 + 1 * 2 ^ 57 + at_.toNat), valid := true, tag := 0 }
def romCap (die : Nat) : CReg := romCapAt (Config.romEntry die)

/-- The single team of a die's firmware core (02 R44): FIRM, 32 lanes; the rest as Tables 2-1 and 6-1 (DESIGN CHOICE, log 4). -/
def romTeam (die : Nat) : Team :=
  { crew := die, mode := .firm, nlanes := 32, vregs := 64, pc := Config.romEntry die &&& ~~~(7 : VAddr)
    s := List.replicate 64 {}, b := List.replicate 8 false, c := (List.replicate 31 {}) ++ [romCap die]
    v := List.replicate 64 (List.replicate 32 {}), vcap := List.replicate 16 (List.replicate 32 false)
    p := List.replicate 24 0, m := 0xFFFFFFFF }

/-- The crew of that team, on the die's firmware core, numbered 64 (DESIGN CHOICE, log 4). Its launch is a number that no launch has: it belongs to
none. -/
def romCrew (die : Nat) : Crew :=
  { launch := 2 ^ 64, teams := [die], started := true, state := .resident, die := die, core := 64, prio := 23, level := 23, timelines := List.replicate 9 {} }

/-- The machine right after reset: the firmware teams stand at their entries, nothing else exists, and the power-on of the package is
the next event (17 R356; DESIGN CHOICE, log 1). -/
def State.reset : State :=
  { agenda := [{ cycles := 0, act := .event (.powerOn 0) }]
    teams := [romTeam 0, romTeam 1, romTeam 2, romTeam 3]
    crews := [romCrew 0, romCrew 1, romCrew 2, romCrew 3]
    cores := List.replicate 260 {}
    dies := (List.range 4).map fun d => { dcyc := Config.dcycStart d }
    ports := List.replicate 36 {}
    fwRoots := [(1, { kind := .loc, state := .live, base := 0, limit := 2 ^ 57, ceil := 0x7FF })] }

/-- Why the machine stops. -/
inductive Fault where
  /-- Raised by `step` after TEMPERATURE_LIMIT has powered the package down (17 R357): nothing runs. Safe: the spec says the
  package is off. -/
  | poweredDown
  deriving DecidableEq, Repr

/-- Why the model gives no meaning. -/
inductive Refusal where
  /-- Raised by an arm of `exec` whose instruction has no meaning yet. Safe: no claim can follow from it. -/
  | notModelled (mnemonic : String)
  deriving DecidableEq, Repr

end Sys2Proof.Machine
end

