-- ==== Sys2Proof/Machine/Store.lean ====
section
/-! DEFINITION. Keyed lists in canonical form, and memory over them: bytes, line sideband (09 R207-R209, R213, R219, R220) and scope
records (10 R246). -/
namespace Sys2Proof.Machine

/-! Keyed lists: keys strictly rising, no entry equal to the default `d`. -/

def aget {α : Type} (d : α) : List (Nat × α) → Nat → α
  | [], _ => d
  | (a, x) :: t, k => if a = k then x else aget d t k

def aset {α : Type} [DecidableEq α] (d : α) : List (Nat × α) → Nat → α → List (Nat × α)
  | [], k, v => if v = d then [] else [(k, v)]
  | (a, x) :: t, k, v =>
    if a = k then (if v = d then t else (k, v) :: t)
    else if k < a then (if v = d then (a, x) :: t else (k, v) :: (a, x) :: t)
    else (a, x) :: aset d t k v

/-- Every key is at least `lo`, keys rise strictly, no entry is the default. -/
def awfFrom {α : Type} [DecidableEq α] (d : α) : Nat → List (Nat × α) → Bool
  | _, [] => true
  | lo, (a, x) :: t => lo ≤ a && x ≠ d && awfFrom d (a + 1) t

def awf {α : Type} [DecidableEq α] (d : α) (l : List (Nat × α)) : Bool := awfFrom d 0 l

/-- Sideband of a zeroed line (09 Table 9-2), and of a line nothing has written (DESIGN CHOICE, log 3). -/
def sideZero : Side := {}
/-- What a byte that nothing has written reads as (DESIGN CHOICE, log 3). -/
def byteZero : Byte := 0


/-- The canonical form. -/
def Memory.wf (m : Memory) : Bool := awf byteZero m.cells && awf sideZero m.lines && awf ({} : ScopeRec) m.recs

def Memory.byte (m : Memory) (a : Nat) : Byte := aget byteZero m.cells a
def Memory.setByte (m : Memory) (a : Nat) (v : Byte) : Memory := { m with cells := aset byteZero m.cells a v }
/-- The sideband of a line; one that nothing has written is `sideZero` (DESIGN CHOICE, log 3). -/
def Memory.line (m : Memory) (l : Nat) : Side := aget sideZero m.lines l
def Memory.setLine (m : Memory) (l : Nat) (v : Side) : Memory := { m with lines := aset sideZero m.lines l v }
def Memory.record (m : Memory) (l : Nat) : ScopeRec := aget ({} : ScopeRec) m.recs l
def Memory.setRecord (m : Memory) (l : Nat) (v : ScopeRec) : Memory := { m with recs := aset ({} : ScopeRec) m.recs l v }

/-- A line whose values are poisoned: it holds an uncorrectable error (09 R213), its key is retired (20 R400), or stage 2 maps it nowhere
(09 R233). -/
def Memory.bad (m : Memory) (l : Nat) : Bool :=
  (m.line l).err || m.lost.any (fun r => r.1 ≤ l * 64 && l * 64 < r.1 + r.2) || 2 ^ 58 ≤ l
/-- The tag that a line delivers (09 R213, R220). -/
def Memory.lineTag (m : Memory) (l : Nat) : Tag := if m.bad l then tagPoison else (m.line l).otag

/-- `n` bytes from `a`. -/
def Memory.bytes (m : Memory) (a : Nat) : Nat → List Byte
  | 0 => []
  | n + 1 => m.byte a :: m.bytes (a + 1) n

def Memory.setBytes (m : Memory) (a : Nat) : List Byte → Memory
  | [] => m
  | b :: bs => (m.setByte a b).setBytes (a + 1) bs


/-- Bytes of an access as runs of addresses, read in order. -/
def readRuns (m : Memory) (runs : List (Nat × Nat)) : List Byte := runs.flatMap fun r => m.bytes r.1 r.2

/-- Lines that runs touch, in order. -/
def linesOf (runs : List (Nat × Nat)) : List Nat :=
  runs.flatMap fun r => if r.2 = 0 then [] else (List.range ((r.1 + r.2 - 1) / 64 - r.1 / 64 + 1)).map (r.1 / 64 + ·)

/-- Tag of loaded bytes (09 R220): that of the line of the highest byte, or poison where a line it takes from is in error. -/
def runsTag (m : Memory) (runs : List (Nat × Nat)) : Tag :=
  if (linesOf runs).any m.bad then tagPoison
  else match (linesOf runs).getLast? with
    | none => tagZeroed
    | some l => m.lineTag l

/-- One written byte: address, value, tag of the element it belongs to. -/
abbrev WByte := Nat × Byte × Tag

/-- The writes of one lane: its bytes over its runs. -/
def laneWrites (runs : List (Nat × Nat)) (data : List Byte) (tag : Tag) : List WByte :=
  let addrs := runs.flatMap fun r => (List.range r.2).map (r.1 + ·)
  (addrs.zip data).map fun p => (p.1, p.2, tag)

def insertNat (k : Nat) : List Nat → List Nat
  | [] => [k]
  | a :: t => if k < a then k :: a :: t else if k = a then a :: t else a :: insertNat k t

/-- Distinct numbers in ascending order. -/
def distinct (xs : List Nat) : List Nat := xs.foldl (fun s x => insertNat x s) []

/-- The write at the highest address, the last of equals (09 R219, R220). -/
def topWrite : List WByte → Option WByte
  | [] => none
  | w :: ws => match topWrite ws with
    | none => some w
    | some x => if x.1 < w.1 then some w else some x

/-- Store bytes (09 R219, R220): values in order; per line the tag of the write at its highest address, CTAG cleared in the
granules touched, KIND and SCALES kept, the error mark cleared by a store of the whole line, the scope record replaced. -/
def storeBytes (m : Memory) (ws : List WByte) (rec_ : ScopeRec) : Memory :=
  let m1 := ws.foldl (fun (m : Memory) w => m.setByte w.1 w.2.1) m
  (distinct (ws.map (·.1 / 64))).foldl (fun (m : Memory) l =>
    let mine := ws.filter (·.1 / 64 = l)
    let side := m.line l
    let tag := match topWrite mine with | some w => w.2.2 | none => side.otag
    let keepErr := side.err && (distinct (mine.map (·.1))).length < 64
    let ct := mine.foldl (fun (c : BitVec 4) w => c &&& ~~~((1 : BitVec 4) <<< (w.1 % 64 / 16))) side.ctag
    (m.setLine l { side with otag := if keepErr then tagPoison else tag, ctag := ct, err := keepErr }).setRecord l rec_) m1

/-- The valid bit of the granule at `a`. -/
def Memory.setCtag (m : Memory) (a : Nat) (valid : Bool) : Memory :=
  let side := m.line (a / 64)
  let bit : BitVec 4 := 1 <<< (a % 64 / 16)
  m.setLine (a / 64) { side with ctag := if valid then side.ctag ||| bit else side.ctag &&& ~~~bit }
/-- Store capability granules together, as one store (09 R219, R224): addresses, bits, valid bits, tags; of two at one address the last stands. -/
def storeGranules (m : Memory) (gs : List (Nat × BitVec 128 × Bool × Tag)) (rec_ : ScopeRec) : Memory :=
  gs.foldl (fun (m : Memory) g => m.setCtag g.1 g.2.2.1)
    (storeBytes m (gs.flatMap fun g => laneWrites [(g.1, 16)] (leBytes 16 g.2.1.toNat) g.2.2.2) rec_)
/-- Store one capability granule: sixteen bytes, its valid bit (09 R223). -/
def storeGranule (m : Memory) (a : Nat) (bits : BitVec 128) (valid : Bool) (tag : Tag) (rec_ : ScopeRec) : Memory :=
  storeGranules m [(a, bits, valid, tag)] rec_

/-- Zero a region of whole lines (17 R355): every byte and line in it becomes unlisted. -/
def zeroRegion (m : Memory) (a n : Nat) : Memory :=
  { cells := m.cells.filter (fun c => c.1 < a || a + n ≤ c.1)
    lines := m.lines.filter (fun c => c.1 * 64 < a || a + n ≤ c.1 * 64)
    recs := m.recs.filter (fun c => c.1 * 64 < a || a + n ≤ c.1 * 64)
    lost := m.lost.filter (fun r => r.1 + r.2 ≤ a || a + n ≤ r.1) }

end Sys2Proof.Machine
end

