-- ==== Sys2Proof/Machine/Caps.lean ====
section
/-! DEFINITION. Capabilities (04 R114-R117, 00 R9, 09 R201, R202, 20 R389): fields, bounds, encodings of bounds, `cap_check`. -/
namespace Sys2Proof.Machine

/-- Permission bits as they stand in [88:77] (04 Table 4-8). -/
def pLD : BitVec 12 := 0x001
def pST : BitVec 12 := 0x002
def pLDC : BitVec 12 := 0x004
def pSTC : BitVec 12 := 0x008
def pX : BitVec 12 := 0x010
def pAT : BitVec 12 := 0x020
def pENG : BitVec 12 := 0x040
def pFAB : BitVec 12 := 0x080
def pSEAL : BitVec 12 := 0x100
def pGLB : BitVec 12 := 0x200
def pSYS : BitVec 12 := 0x400

def capLen (b : BitVec 128) : Nat := b.toNat / 2 ^ 113
def capBase (b : BitVec 128) : Nat := b.toNat / 2 ^ 98 % 2 ^ 15
def capExp (b : BitVec 128) : Nat := b.toNat / 2 ^ 93 % 2 ^ 5
def capOtype (b : BitVec 128) : Nat := b.toNat / 2 ^ 89 % 2 ^ 4
def capPerms (b : BitVec 128) : BitVec 12 := b.extractLsb' 77 12
def capRoot (b : BitVec 128) : Nat := b.toNat / 2 ^ 57 % 2 ^ 20
def capCursor (b : BitVec 128) : Nat := b.toNat % 2 ^ 57

/-- A capability as a register holds it: its reserved bit reads 0 (00 R7). -/
def capClean (b : BitVec 128) : BitVec 128 := b &&& ~~~(BitVec.twoPow 128 88)
/-- Compose a capability's bits. -/
def capMk (len base exp otype : Nat) (perms : BitVec 12) (root cursor : Nat) : BitVec 128 :=
  BitVec.ofNat 128 (len % 2 ^ 15 * 2 ^ 113 + base % 2 ^ 15 * 2 ^ 98 + exp % 2 ^ 5 * 2 ^ 93 + otype % 2 ^ 4 * 2 ^ 89 +
    perms.toNat * 2 ^ 77 + root % 2 ^ 20 * 2 ^ 57 + cursor % 2 ^ 57)

def capSetCursor (b : BitVec 128) (a : Nat) : BitVec 128 :=
  capMk (capLen b) (capBase b) (capExp b) (capOtype b) (capPerms b) (capRoot b) a
def capSetOtype (b : BitVec 128) (t : Nat) : BitVec 128 :=
  capMk (capLen b) (capBase b) (capExp b) t (capPerms b) (capRoot b) (capCursor b)
def capSetPerms (b : BitVec 128) (p : BitVec 12) : BitVec 128 :=
  capMk (capLen b) (capBase b) (capExp b) (capOtype b) p (capRoot b) (capCursor b)
def capSetBounds (b : BitVec 128) (exp base len : Nat) : BitVec 128 :=
  capMk len base exp (capOtype b) (capPerms b) (capRoot b) (capCursor b)

/-- lo(c) and hi(c) over the base of its root (00 R9). -/
def capLo (rb : Nat) (b : BitVec 128) : Nat := rb + capBase b * 2 ^ capExp b
def capHi (rb : Nat) (b : BitVec 128) : Nat := capLo rb b + capLen b * 2 ^ capExp b

/-- The null capability (02 R41). -/
def capNull (t : Tag) : CReg := { bits := 0, valid := false, tag := t }

/-- The smallest exponent from `e` on, at most `fuel` of them, for which `ok` holds. -/
def findExp (ok : Nat → Bool) : Nat → Nat → Option Nat
  | 0, _ => none
  | fuel + 1, e => if ok e then some e else findExp ok fuel (e + 1)

/-- Exact encoding of [nlo, nhi) in a root of base `rb` (R116): (E, B, L). -/
def exactEnc (rb nlo nhi : Nat) : Option (Nat × Nat × Nat) :=
  if nlo < rb || nhi < nlo then none else
  let off := nlo - rb
  let top := nhi - rb
  match findExp (fun e => off % 2 ^ e = 0 && top % 2 ^ e = 0 && off / 2 ^ e ≤ 32767 && (top - off) / 2 ^ e ≤ 32767) 32 0 with
  | none => none
  | some e => some (e, off / 2 ^ e, (top - off) / 2 ^ e)

/-- Rounded encoding (R116). -/
def roundedEnc (rb nlo nhi : Nat) : Option (Nat × Nat × Nat) :=
  if nlo < rb || nhi < nlo then none else
  let off := nlo - rb
  let top := nhi - rb
  let up (e : Nat) := (top + 2 ^ e - 1) / 2 ^ e
  match findExp (fun e => off / 2 ^ e ≤ 32767 && up e - off / 2 ^ e ≤ 32767) 32 0 with
  | none => none
  | some e => some (e, off / 2 ^ e, up e - off / 2 ^ e)

/-- A capability for [lo, hi) of a root, cursor at `cur`. -/
def capFor (root rb lo hi cur : Nat) (perms : BitVec 12) : Option (BitVec 128) :=
  match exactEnc rb lo hi with
  | none => none
  | some (e, b, l) => some (capMk l b e 0 perms root cur)

/-! Causes (14 Table 14-1). -/
def cILLEGAL : BitVec 8 := 0x01
def cPRIV : BitVec 8 := 0x02
def cEMPTY_READ : BitVec 8 := 0x03
def cCAP_TAG : BitVec 8 := 0x10
def cCAP_BOUNDS : BitVec 8 := 0x11
def cCAP_PERM : BitVec 8 := 0x12
def cCAP_SEAL : BitVec 8 := 0x13
def cCAP_REVOKED : BitVec 8 := 0x14
def cTAG_POISON : BitVec 8 := 0x18
def cPAGE_NOTMAPPED : BitVec 8 := 0x20
def cPAGE_PERM : BitVec 8 := 0x21
def cPAGE_INTEGRITY : BitVec 8 := 0x22
def cSCOPE : BitVec 8 := 0x28
def cSYNC_MISMATCH : BitVec 8 := 0x29
def cREMOTE_FAULT : BitVec 8 := 0x30
def cREMOTE_TIMEOUT : BitVec 8 := 0x31
def cTIMER : BitVec 8 := 0x38
def cBREAKPOINT : BitVec 8 := 0x39
def cWATCHPOINT : BitVec 8 := 0x3A
def cSTEP : BitVec 8 := 0x3B
def cSOFTWARE : BitVec 8 := 0x3C
def cUNCORRECTABLE : BitVec 8 := 0x40
def cSHADOW : BitVec 8 := 0x41
def cCANCELLED : BitVec 8 := 0x48
def cENGINE_FAULT : BitVec 8 := 0x50

/-- Who checks a capability: the crew whose SCRATCH root it may use, its current compartment, the root kinds accepted, and whether it
is for an access or a binding, which need FAB on a window (R203, R260). -/
structure Checker where
  crew : Nat
  compt : Nat := 0
  kinds : List RootKind := [.loc, .scratch, .peer, .host]
  fab : Bool := true
  deriving DecidableEq, Repr

def isWindow (k : RootKind) : Bool := match k with | .peer | .host => true | _ => false

/-- The root and its entry that a capability names; index 0 is never valid (04 Table 4-8). -/
def rootOf (roots : List (Nat × Root)) (b : BitVec 128) : Root :=
  if capRoot b = 0 then {} else aget ({} : Root) roots (capRoot b)

/-- `cap_check` (00 R9): the first cause that applies. The CAP_PERM step also holds the kind of the root (R201), the crew of a SCRATCH
root (R202), FAB for windows (R203) and the compartment (20 R389); `aligned` false fails the bounds (R216). -/
def capCheck (roots : List (Nat × Root)) (who : Checker) (c : CReg) (a n : Nat) (perm : BitVec 12) (aligned : Bool := true) :
    Option (BitVec 8) :=
  let r := rootOf roots c.bits
  if !c.valid || capRoot c.bits = 0 || r.state = .free then some cCAP_TAG
  else if r.state = .revoked then some cCAP_REVOKED
  else if capOtype c.bits ≠ 0 then some cCAP_SEAL
  else if (capPerms c.bits &&& perm) ≠ perm || !who.kinds.contains r.kind ||
      (r.kind = .scratch && r.crew ≠ who.crew) || (who.fab && isWindow r.kind && (capPerms c.bits &&& pFAB) = 0) ||
      (r.compt ≠ who.compt && r.compt ≠ 0) then some cCAP_PERM
  else if a < capLo r.base c.bits || capHi r.base c.bits < a + n || !aligned then some cCAP_BOUNDS
  else none

end Sys2Proof.Machine
end

