-- ==== Sys2Proof/Machine/Ops.lean ====
section
/-! DEFINITION. The named operations over the state: entities, registers, translation, accesses in flight and their performance
(09, 10), barriers (07), taking an exception and returning from one (14), kills and the end of teams and crews. -/
namespace Sys2Proof.Machine

/-- The sums of two lists, entry by entry; the longer one's rest. -/
def addLists : List Nat → List Nat → List Nat
  | x :: xs, y :: ys => (x + y) :: addLists xs ys
  | [], ys => ys
  | xs, [] => xs

/-! Entities by index. -/

def State.teamAt (s : State) (i : Nat) : Team := s.teams.getD i {}
def State.setTeamAt (s : State) (i : Nat) (t : Team) : State := { s with teams := s.teams.set i t }
def State.modTeam (s : State) (i : Nat) (f : Team → Team) : State := s.setTeamAt i (f (s.teamAt i))
/-- The team that moves. -/
def State.team (s : State) : Team := s.teamAt s.cur
def State.setTeam (s : State) (t : Team) : State := s.setTeamAt s.cur t
def State.crewAt (s : State) (i : Nat) : Crew := s.crews.getD i {}
def State.setCrewAt (s : State) (i : Nat) (c : Crew) : State := { s with crews := s.crews.set i c }
def State.modCrew (s : State) (i : Nat) (f : Crew → Crew) : State := s.setCrewAt i (f (s.crewAt i))
def State.crew (s : State) : Crew := s.crewAt s.team.crew
def State.launchAt (s : State) (i : Nat) : Launch := s.launches.getD i {}
def State.modLaunch (s : State) (i : Nat) (f : Launch → Launch) : State :=
  { s with launches := s.launches.set i (f (s.launchAt i)) }
def State.ctxAt (s : State) (i : Nat) : Context := s.contexts.getD i {}
def State.modCtx (s : State) (i : Nat) (f : Context → Context) : State :=
  { s with contexts := s.contexts.set i (f (s.ctxAt i)) }
def State.cmdAt (s : State) (i : Nat) : Cmd := s.cmds.getD i { q := 0, n := 0, crew := 0, team := 0, kind := 0, w := [] }
def State.modCmd (s : State) (i : Nat) (f : Cmd → Cmd) : State := { s with cmds := s.cmds.set i (f (s.cmdAt i)) }
/-- Core `die * 64 + core`; core 64 of a die is its firmware core. -/
def State.coreAt (s : State) (i : Nat) : CoreSt := s.cores.getD i {}
def State.modCore (s : State) (i : Nat) (f : CoreSt → CoreSt) : State := { s with cores := s.cores.set i (f (s.coreAt i)) }
def State.dieAt (s : State) (i : Nat) : DieSt := s.dies.getD i {}
def State.modDie (s : State) (i : Nat) (f : DieSt → DieSt) : State := { s with dies := s.dies.set i (f (s.dieAt i)) }

def Crew.place (c : Crew) : Nat := if c.core = 64 then 256 + c.die else c.die * 64 + c.core
/-- Indices of a list. -/
def indices {α : Type} (l : List α) : List Nat := List.range l.length

/-- The root table that a team's capabilities index: its context's, or the firmware's own. -/
def State.roots (s : State) (ctx : Option Nat) : List (Nat × Root) :=
  match ctx with | none => s.fwRoots | some c => (s.ctxAt c).roots
def State.setRoot (s : State) (ctx : Option Nat) (r : Nat) (e : Root) : State :=
  match ctx with
  | none => { s with fwRoots := aset ({} : Root) s.fwRoots r e }
  | some c => s.modCtx c fun x => { x with roots := aset ({} : Root) x.roots r e }
def State.rootAt (s : State) (ctx : Option Nat) (r : Nat) : Root := if r = 0 then {} else aget ({} : Root) (s.roots ctx) r

def State.replayable (s : State) (ctx : Option Nat) : Bool := match ctx with | none => false | some c => (s.ctxAt c).replayable
/-- A crew of a replayable context has retired the instructions of its epoch (21 R417). -/
def State.epochOver (s : State) (ci : Nat) : Bool :=
  let c := s.crewAt ci
  match c.ctx with
  | none => false
  | some x => (s.ctxAt x).replayable && decide ((s.ctxAt x).quantum ≤ c.epochUsed)

def State.ctxOf (s : State) (t : Team) : Option Nat := (s.crewAt t.crew).ctx

/-! Registers (02 R38-R42, 06 R151). -/

def Team.sreg (t : Team) (n : Nat) : SReg := t.s.getD n {}
def Team.setS (t : Team) (n : Nat) (v : Word) (tag : Tag) : Team := { t with s := t.s.set n { v := v, tag := tag, full := true } }
def Team.emptyS (t : Team) (n : Nat) : Team := { t with s := t.s.set n { t.sreg n with full := false } }
def Team.breg (t : Team) (n : Nat) : Bool := t.b.getD n false
def Team.setB (t : Team) (n : Nat) (v : Bool) : Team := { t with b := t.b.set n v }
def Team.preg (t : Team) (n : Nat) : Mask := t.p.getD n 0
def Team.setP (t : Team) (n : Nat) (v : Mask) : Team := { t with p := t.p.set n v }
def Team.velem (t : Team) (r l : Nat) : VElem := (t.v.getD r []).getD l {}
def Team.setV (t : Team) (r l : Nat) (e : VElem) : Team := { t with v := t.v.set r ((t.v.getD r []).set l e) }
/-- The valid bit of lane l of the quad that v register r belongs to (04 R115). -/
def Team.vvalid (t : Team) (r l : Nat) : Bool := (t.vcap.getD (r / 4) []).getD l false
def Team.setVvalid (t : Team) (r l : Nat) (v : Bool) : Team :=
  { t with vcap := t.vcap.set (r / 4) ((t.vcap.getD (r / 4) []).set l v) }
/-- Write an element as data: the lane's valid bit of its quad is cleared (04 R115). -/
def Team.writeV (t : Team) (r l : Nat) (x : BitVec 32) (tag : Tag) : Team :=
  (t.setV r l { v := x, tag := tag, full := true }).setVvalid r l false
def Team.emptyV (t : Team) (r l : Nat) : Team := t.setV r l { t.velem r l with full := false }
/-- Elements of a quad, or of a lane register, in a lane, and registers that have been filled take TAG_POISON. -/
def Team.poisonDest (t : Team) (d : Dest) (lane : Nat) : Team :=
  match d with
  | .none => t
  | .s n cnt => (List.range cnt).foldl (fun t q => t.setS (n + q) (t.sreg (n + q)).v tagPoison) t
  | .v n cnt => (List.range cnt).foldl (fun t q => t.setV (n + q) lane { t.velem (n + q) lane with tag := tagPoison }) t
  | .c n => { t with c := t.c.set n { t.c.getD n {} with tag := tagPoison } }
  | .quad n => (List.range 4).foldl (fun t q => t.setV (n + q) lane { t.velem (n + q) lane with tag := tagPoison }) t
/-- Read a c register: c0 is null with TAG_IMM, c31 has its cursor at the reading instruction (02 R41). -/
def Team.creg (t : Team) (n : Nat) : CReg :=
  if n = 0 then capNull tagImm
  else if n = 31 then { t.c.getD 31 {} with bits := capSetCursor (t.c.getD 31 {}).bits t.pc.toNat }
  else t.c.getD n {}
/-- Write a c register; a write of c0 is discarded (02 R41). -/
def Team.setC (t : Team) (n : Nat) (v : CReg) : Team := if n = 0 then t else { t with c := t.c.set n v }

/-- The mask of all the team's lanes. -/
def Team.allLanes (t : Team) : Mask := BitVec.ofNat 1024 (2 ^ t.nlanes - 1)
def lanesOf (m : Mask) (n : Nat) : List Nat := (List.range n).filter fun l => m.getLsbD l
def maskOf (ls : List Nat) : Mask := ls.foldl (fun m l => m ||| BitVec.twoPow 1024 l) 0
/-- Word w of a mask. -/
def maskWord (m : Mask) (w : Nat) : BitVec 32 := m.extractLsb' (32 * w) 32
/-- The summary word (06 R152). -/
def maskSummary (m : Mask) : BitVec 32 :=
  (List.range 32).foldl (fun x w => if maskWord m w = 0 then x else x ||| BitVec.twoPow 32 w) 0

/-- Advance the pc (57 bits, low three bits 0). -/
def pcAdd (pc : VAddr) (n : Nat) : VAddr := pc + BitVec.ofNat 57 n
def alignPc (a : Nat) : VAddr := BitVec.ofNat 57 (a / 8 * 8)

/-- The site of the instruction at a pc (01 R35): 4094 where the site table names none. -/
def State.siteAt (s : State) (t : Team) : Nat :=
  match s.ctxOf t with
  | none => 4094
  | some c =>
    let x := s.ctxAt c
    if t.pc.toNat < x.codeBase || x.codeBase + x.codeSize ≤ t.pc.toNat then 4094 else
    match x.sites.find? (fun e => e.1 = t.pc.toNat - x.codeBase) with
    | none => 4094
    | some e => e.2
/-- `own_tag()` (00 R9). -/
def State.ownTag (s : State) (t : Team) : Tag := BitVec.ofNat 24 (s.siteAt t * 4096 + t.teamid.toNat % 4096)
def Team.rule (t : Team) : BitVec 2 := t.tagrule.extractLsb' 0 2

/-- A team that runs mask ROM: a die's own firmware, or a FIRM team in its handler (14 R305). -/
def State.inRom (s : State) (t : Team) : Bool := (s.ctxOf t).isNone || (t.mode = .firm && t.frame.isSome)
/-- The root table that a team's c31 indexes. -/
def State.codeRoots (s : State) (t : Team) : List (Nat × Root) := if s.inRom t then s.fwRoots else s.roots (s.ctxOf t)
/-- The current compartment of a team: that of its c31's root (20 R388). -/
def State.comptOf (s : State) (t : Team) : Nat := (rootOf (s.codeRoots t) (t.c.getD 31 {}).bits).compt
def State.checker (s : State) (t : Team) (kinds : List RootKind) : Checker :=
  { crew := t.crew, compt := s.comptOf t, kinds := kinds }
/-- A capability check by the moving team. -/
def State.check (s : State) (t : Team) (kinds : List RootKind) (c : CReg) (a n : Nat) (perm : BitVec 12) (aligned : Bool := true) :
    Option (BitVec 8) :=
  capCheck (s.roots (s.ctxOf t)) (s.checker t kinds) c a n perm aligned
def anyKind : List RootKind := [.loc, .scratch, .peer, .host]
def State.capLoOf (s : State) (ctx : Option Nat) (b : BitVec 128) : Nat := capLo (rootOf (s.roots ctx) b).base b
def State.capHiOf (s : State) (ctx : Option Nat) (b : BitVec 128) : Nat := capHi (rootOf (s.roots ctx) b).base b

/-! Translation (09 R232, R237). -/

def findMap (maps : List Mapping) (a : Nat) : Option Mapping := maps.find? fun m => m.va ≤ a && a < m.va + m.size

/-- What an access needs of its pages. -/
structure Need where
  r : Bool := false
  w : Bool := false
  x : Bool := false
  compt : Nat := 0
  deriving DecidableEq, Repr

/-- What a mapped page refuses (R232, R237, 20 R389). -/
def pageCause (m : Mapping) (need : Need) : Option (BitVec 8) :=
  match m.resid with
  | .host => some cPAGE_NOTMAPPED
  | .failed => some cPAGE_INTEGRITY
  | _ =>
    if (need.r && !m.r) || (need.w && !m.w) || (need.x && !m.x) || m.compt ≠ need.compt then some cPAGE_PERM else none

/-- Translate n bytes from a: the runs of machine addresses and whether some page is REMOTE, or the first failing address and its
cause. `fuel` bounds the pages. -/
def xlate (maps : List Mapping) (need : Need) : Nat → Nat → Nat → Except (Nat × BitVec 8) (List (Nat × Nat) × Bool)
  | 0, _, _ => .ok ([], false)
  | fuel + 1, a, n =>
    if n = 0 then .ok ([], false) else
    match findMap maps a with
    | none => .error (a, cPAGE_NOTMAPPED)
    | some m =>
      match pageCause m need with
      | some c => .error (a, c)
      | none =>
        let k := min n (m.va + m.size - a)
        match xlate maps need fuel (a + k) (n - k) with
        | .error e => .error e
        | .ok (rs, rem) => .ok ((m.frame + (a - m.va), k) :: rs, rem || m.resid = .remote)

/-- Stage 2 (R233): the machine address of a guest-physical one. One that it does not map is an address of no memory, whose lines are in
error. -/
def stage2At (t : List (Nat × Nat × Nat)) (a : Nat) : Nat :=
  match t.find? fun e => e.1 ≤ a && a < e.1 + e.2.2 with
  | some e => e.2.1 + (a - e.1)
  | none => 2 ^ 64 + a
/-- Translate for a team: a context's stage 1, then its stage 2, under which a page lies whole; the firmware's own addresses are machine
addresses. -/
def State.translate (s : State) (ctx : Option Nat) (need : Need) (a n : Nat) : Except (Nat × BitVec 8) (List (Nat × Nat) × Bool) :=
  match ctx with
  | none => .ok (if n = 0 then [] else [(a, n)], false)
  | some c =>
    match xlate (s.ctxAt c).maps need (n / 65536 + 2) a n with
    | .error e => .error e
    | .ok (runs, far) => .ok (runs.map fun r => (stage2At (s.ctxAt c).stage2 r.1, r.2), far)

/-! Homes (09 R210). -/
def homeStack (x : Nat) : Nat := x / 4096 % 12
def homeDie (x : Nat) : Nat := homeStack x / 3
def homeSlice (x : Nat) : Nat := Nat.xor (x / 64 % 128) (x / 8192 % 128)
def homeCluster (x : Nat) : Nat := homeSlice x / 16

/-! Memory of a space. -/
def State.spaceMem (s : State) (crew : Nat) : Space → Memory
  | .dev => s.mem
  | .scratch => (s.crewAt crew).scratch
  | .window _ _ => {}
def State.setSpaceMem (s : State) (crew : Nat) (sp : Space) (m : Memory) : State :=
  match sp with
  | .dev => { s with mem := m }
  | .scratch => s.modCrew crew fun c => { c with scratch := m }
  | .window _ _ => s

/-! Observer masks (10 R241-R247). -/

/-- OBS as the checker reads it: 0 is CORE, DEV implies CORE. -/
def normObs (o : BitVec 8) : BitVec 8 :=
  let o := if o = 0 then 1 else o
  if o.getLsbD 1 then o ||| 1 else o
def obsWindow (o : BitVec 8) (k : RootKind) : Bool :=
  match k with | .peer => o.getLsbD 5 | .host => o.getLsbD 6 | _ => false

/-- A release on a line of device memory needs a record that its home slice has no room for (R246). -/
def Memory.sliceFull (m : Memory) (line : Nat) : Bool :=
  (m.record line).kind = 0 &&
    Config.scopeRecords ≤ (m.recs.filter fun r => homeSlice (r.1 * 64) = homeSlice (line * 64) && homeDie (r.1 * 64) = homeDie (line * 64)).length
/-- The records that writes with record `r` leave on lines, one by one (R246); scratchpad lines always have room. -/
def Memory.recordLines (m : Memory) (dev : Bool) (r : ScopeRec) (lines : List Nat) : Memory :=
  lines.foldl (fun (m : Memory) l => m.setRecord l (if dev && m.sliceFull l then {} else r)) m
/-- A release with record `r` finds no room for one of its lines: it is a release to all seven classes (R246). -/
def Memory.overflows : Memory → ScopeRec → List Nat → Bool
  | _, _, [] => false
  | m, r, l :: ls => m.sliceFull l || (m.setRecord l r).overflows r ls
/-- The record of a release by a team of a crew (R246). -/
def State.ownScope (s : State) (crew : Nat) (o : BitVec 8) : ScopeRec :=
  let c := s.crewAt crew
  if c.core = 64 then { kind := 5, obs := normObs o }
  else { die := BitVec.ofNat 2 c.die, core := BitVec.ofNat 6 c.core, kind := 1, obs := normObs o }
/-- The record that a store of an access leaves where there is room: a release's own, else none. -/
def State.scopeFor (s : State) (crew : Nat) (acc : Access) : ScopeRec := if acc.ord.getLsbD 1 then s.ownScope crew acc.obs else {}

/-- An acquire with mask `o` by a team on (die, core) passes a record (R247): the firmware, whose core is 64, is in every class (R241)
(DEDUCED, log 27). -/
def scopePass (r : ScopeRec) (die core : Nat) (o : BitVec 8) : Bool :=
  if r.kind = 0 then true else
  let o := normObs o
  let firm := core = 64
  if r.kind = 1 then
    let same := r.die.toNat = die && r.core.toNat = core
    (firm || (if same then r.obs.getLsbD 0 else r.obs.getLsbD 1)) && (if same then o.getLsbD 0 else o.getLsbD 1)
  else if r.kind = 2 then (firm || r.obs.getLsbD 1) && o.getLsbD 4
  else if r.kind = 3 then (firm || r.obs.getLsbD 5) && o.getLsbD 5
  else if r.kind = 4 then (firm || r.obs.getLsbD 6) && o.getLsbD 6
  else firm || r.obs.getLsbD 1

/-! Caches: presence only, for a copy always holds what its home holds (09 R206, 10 R251). -/
def wordsOf (runs : List (Nat × Nat)) (l : Nat) : BitVec 16 :=
  (List.range 16).foldl (fun (x : BitVec 16) w =>
    if runs.any (fun r => r.1 < l * 64 + 4 * w + 4 && l * 64 + 4 * w < r.1 + r.2) then x ||| BitVec.twoPow 16 w else x) 0
/-- Words of line l that the runs cover in part only. -/
def partWords (runs : List (Nat × Nat)) (l : Nat) : BitVec 16 :=
  (List.range 16).foldl (fun (x : BitVec 16) w =>
    if runs.any (fun r => let lo := l * 64 + 4 * w
        r.1 < lo + 4 && lo < r.1 + r.2 && (lo < r.1 || r.1 + r.2 < lo + 4)) then x ||| BitVec.twoPow 16 w else x) 0
/-- A request to the home of a line. -/
inductive HomeReq where
  | read | write | atomic
  deriving DecidableEq, Repr

/-- The context in whose memory a machine address lies. -/
def State.ownerOf (s : State) (a : Nat) : Option Nat :=
  (indices s.contexts).find? fun c => ((s.ctxAt c).poolAll ++ (s.ctxAt c).own).any fun r => r.1 ≤ a && a < r.1 + r.2
/-- Count events of line l for a recording of its context (21 R408): `n` of each, in the order of Table 21-6. -/
def State.countLlc (s : State) (l : Nat) (n : List Nat) : List (Nat × List Nat) :=
  match s.ownerOf (l * 64) with
  | none => s.llcCounts
  | some c =>
    let k := c * 4 + homeDie (l * 64)
    if (s.ctxAt c).recorder.on then aset [] s.llcCounts k (addLists (aget (List.replicate 11 0) s.llcCounts k) n) else s.llcCounts

/-- PORT of Table 20-2: die, kind, index. -/
def portId (die kind idx : Nat) : Nat := die * 16384 + kind * 4096 + idx
/-- The key of a count: world, compartment, epoch, port. -/
def countKey (world compt epoch port : Nat) : Nat := ((world * 512 + compt) * 65536 + epoch) * 65536 + port
/-- Ports count a transfer of line l under its key (20 R392-R394): a count stands still at its limit, where transfers wait for the next epoch. -/
def State.countTransfers (s : State) (l : Nat) (ports : List Nat) : List (Nat × Nat) :=
  match s.ownerOf (l * 64) with
  | none => s.transfers
  | some c =>
    let x := s.ctxAt c
    let compt := ((x.maps.find? fun m => m.frame ≤ l * 64 && l * 64 < m.frame + m.size).map (·.compt)).getD 0
    match s.worlds.find? fun w => w.id = x.world with
    | none => s.transfers
    | some w =>
      let epoch := ((w.keys.find? fun k => k.compt = compt).map (·.epoch)).getD 1
      ports.foldl (fun t p => let k := countKey x.world compt epoch p
                              aset 0 t k (min (aget 0 t k + 1) (2 ^ 32 - 1))) s.transfers

/-- Copies of a line are dropped in every L1. -/
def State.dropLine (s : State) (l : Nat) : State :=
  { s with cores := s.cores.map fun c => if c.l1.isEmpty then c else { c with l1 := c.l1.filter fun e => e.1 ≠ l } }
/-- A request reaches the home slice of a line (09 R212): a store makes its words valid; a load, an atomic or a fill that touches an invalid word,
and a store to a part of one, merges the line from memory. L1 copies of a line that has invalid words go (09 R206). The slice counts the
request; its transfers are those between the requesting cluster, the slice and, for a line that it brings in or has written back, the memory
controller (DESIGN CHOICE, log 9). -/
def State.noteLine (s : State) (runs : List (Nat × Nat)) (k : HomeReq) (cluster : Option Nat) (l : Nat) : State :=
  let held := aget ({} : LlcLine) s.llc l
  let gone := Config.evicted s.now l && held.words ≠ 0
  let old := if gone then 0 else held.words
  let touched := wordsOf runs l
  let fills := ((if k = .write then partWords runs l else touched) &&& ~~~old) ≠ 0
  let new := if fills then BitVec.allOnes 16 else if k = .write then old ||| touched else old
  let hit := old ≠ 0
  let bit (b : Bool) : Nat := if b then 1 else 0
  let slice := portId (homeDie (l * 64)) 1 (homeSlice (l * 64))
  let memory := [slice, portId (homeDie (l * 64)) 2 (homeStack (l * 64) % 3)]
  let s := { s with
    llc := aset ({} : LlcLine) s.llc l { words := new, dirty := k ≠ .read || (held.dirty && !gone) }
    llcCounts := s.countLlc l [bit (k = .read), bit (k = .write), bit (k = .atomic), bit hit, bit !hit, bit (!hit && k = .write),
                               bit (fills && (hit || k = .write))]
    transfers := s.countTransfers l ((match cluster with | some p => [portId (p / 8) 0 (p % 8)] | none => []) ++ [slice] ++
      (if gone && held.dirty then memory else []) ++ (if fills then memory else [])) }
  if new = BitVec.allOnes 16 then s else s.dropLine l
def State.noteHome (s : State) (runs : List (Nat × Nat)) (k : HomeReq) (cluster : Option Nat := none) : State :=
  (distinct (linesOf runs)).foldl (fun (s : State) l => s.noteLine runs k cluster l) s
/-- Lines that hold a record now and held none in memory `old`: they are counted (21 R408). -/
def State.noteRecords (s : State) (old : Memory) (lines : List Nat) : State :=
  lines.foldl (fun (s : State) l =>
    if (old.record l).kind = 0 && (s.mem.record l).kind ≠ 0 then { s with llcCounts := s.countLlc l [0, 0, 0, 0, 0, 0, 0, 0, 0, 1] } else s) s
/-- A core has an L1: its split gives it one (09 R206). -/
def CoreSt.hasL1 (c : CoreSt) : Bool := match c.split with | some (_, _, k) => k ≠ 0 | none => false
/-- Lines are loaded by a core (09 R206): one that its L1 holds asks nothing of its home, unless the load must see it (`fresh`); a miss fills the
whole line (DEDUCED, log 30). -/
def State.noteLoad (s : State) (core : Nat) (runs : List (Nat × Nat)) (fresh : Bool) : State :=
  (distinct (linesOf runs)).foldl (fun (s : State) l =>
    let c := s.coreAt core
    if !c.hasL1 then s.noteLine runs .read (some (core / 8)) l
    else if c.l1.any (fun e => e.1 = l) && !fresh then s
    else (s.noteLine [(l * 64, 64)] .read (some (core / 8)) l).modCore core fun c =>
      { c with l1 := (c.l1.filter fun e => e.1 ≠ l) ++ [(l, s.now)] }) s
/-- Copies of written lines are dropped in every L1 (DEDUCED, log 30). -/
def State.dropL1 (s : State) (runs : List (Nat × Nat)) : State :=
  let ls := linesOf runs
  { s with cores := s.cores.map fun c => if c.l1.isEmpty then c else { c with l1 := c.l1.filter fun e => !ls.contains e.1 } }
/-- An acquire wider than CORE drops its core's copies (10 R244). -/
def State.acquireL1 (s : State) (core : Nat) (o : BitVec 8) : State :=
  if normObs o = 1 then s else s.modCore core fun c => { c with l1 := [] }

/-! Accesses in flight (10 R242-R245). -/

def Access.isStore (a : Access) : Bool := match a.kind with | .store | .storeCap => true | _ => false
def Access.isAtom (a : Access) : Bool := match a.kind with | .atom _ => true | _ => false
def Access.isLoad (a : Access) : Bool := match a.kind with | .load | .loadCap | .loadTr => true | _ => false
def Access.isWindow (a : Access) : Bool := match a.space with | .window _ _ => true | _ => false
def Access.lines (a : Access) : List Nat := distinct (a.lanes.flatMap fun l => linesOf l.runs)
def sameLine (a b : Access) : Bool := a.space = b.space && a.lines.any (fun l => b.lines.contains l)

/-- Whether an access can be performed with `earlier` before it: loads and atomics keep the order of one line among themselves,
stores follow every access to their line. -/
def canPerform (earlier : List Access) (a : Access) : Bool :=
  if a.isLoad then !earlier.any (fun e => !e.isStore && sameLine e a)
  else !earlier.any (fun e => sameLine e a)

/-- An access through a window of a kind that the mask covers. -/
def Access.inMask (a : Access) (o : BitVec 8) : Bool :=
  match a.space with | .window p h => (p && o.getLsbD 5) || (h && o.getLsbD 6) | _ => false

/-- What must be over before the team's release, or fence, with mask `o` may go: window accesses of the mask (of an acquiring fence the
loads and atomics), and every window store where the latch is reported. -/
def Team.held (t : Team) (o : BitVec 8) (loadsOnly : Bool) : Bool :=
  t.outs.any fun a => a.isWindow && ((a.inMask o && (!loadsOnly || !a.isStore)) || (a.isStore && (o.getLsbD 5 || o.getLsbD 6)))

/-- The byte writes of a store (09 R219). -/
def Access.writes (a : Access) : List WByte := a.lanes.flatMap fun l => laneWrites l.runs l.data l.tag

/-- A store applied to a memory. -/
def applyStore (m : Memory) (a : Access) (rec_ : ScopeRec) : Memory :=
  match a.kind with
  | .storeCap => storeGranules m (a.lanes.filterMap fun l =>
      l.runs.head?.map fun r => (r.1, BitVec.ofNat 128 (leNat l.data), l.cap, l.tag)) rec_
  | _ => storeBytes m a.writes rec_

/-- The memory that a team sees at an access: its home with its own earlier stores (09 R206). -/
def overlay (m : Memory) (earlier : List Access) (sp : Space) : Memory :=
  earlier.foldl (fun m e => if e.isStore && e.space = sp then applyStore m e {} else m) m

/-- Fill the destination of one lane with loaded bytes (09 Table 9-4). -/
def Team.fill (t : Team) (d : Dest) (lane : Nat) (bytes : List Byte) (tag : Tag) : Team :=
  match d with
  | .none => t
  | .s n cnt =>
    let t := t.setS n (BitVec.ofNat 64 (leNat (bytes.take 8))) tag
    if cnt = 2 then t.setS (n + 1) (BitVec.ofNat 64 (leNat (bytes.drop 8))) tag else t
  | .v n cnt => (List.range cnt).foldl (fun t q => t.writeV (n + q) lane (BitVec.ofNat 32 (leNat ((bytes.drop (4 * q)).take 4))) tag) t
  | .c n => t.setC n { bits := capClean (BitVec.ofNat 128 (leNat bytes)), valid := false, tag := tag }
  | .quad n => (List.range 4).foldl (fun t q => t.setV (n + q) lane { v := BitVec.ofNat 32 (leNat ((bytes.drop (4 * q)).take 4)), tag := tag, full := true }) t

/-- Fill a capability destination with its valid bit. -/
def Team.fillCap (t : Team) (d : Dest) (lane : Nat) (bytes : List Byte) (tag : Tag) (valid : Bool) : Team :=
  match d with
  | .c n => t.setC n { bits := capClean (BitVec.ofNat 128 (leNat bytes)), valid := valid, tag := tag }
  | .quad n => (t.fill d lane bytes tag).setVvalid n lane valid
  | _ => t.fill d lane bytes tag

/-- New value of an atomic on w-bit values (09 R227-R229). -/
def atomNew (op : AtomOp) (size old x new : Nat) : Nat :=
  let w := 8 * size
  match op with
  | .add => (old + x) % 2 ^ w
  | .min => if sextN old w ≤ sextN x w then old else x
  | .max => if sextN x w ≤ sextN old w then old else x
  | .minu => min old x
  | .maxu => max old x
  | .and => Nat.land old x
  | .or => Nat.lor old x
  | .xor => Nat.xor old x
  | .xch => x
  | .cas => if old = x then new else old
  | .fadd =>
    let f := if size = 2 then fmtBf16 else if size = 4 then fmtF32 else fmtF64
    (fAdd f .rne (readF f old) (readF f x)).bits

/-- Magnitudes of an atomic's inputs (09 R226). -/
def atomTagIn (op : AtomOp) (size x : Nat) (tag : Tag) : TagIn :=
  match op with
  | .add | .min | .max => { tag := tag, m := (sextN x (8 * size)).natAbs }
  | .fadd =>
    let v := readF (if size = 2 then fmtBf16 else if size = 4 then fmtF32 else fmtF64) x
    { tag := tag, exceptional := v.exceptional, m := (fvMag v).1, e := (fvMag v).2 }
  | _ => { tag := tag, m := x }

/-- Tag of the value that an atomic stores. -/
def atomTag (a : Access) (op : AtomOp) (old new x : Nat) (oldTag xTag newTag : Tag) : Tag :=
  match op with
  | .xch => xTag
  | .cas => newTag
  | .fadd =>
    let v := readF (if a.size = 2 then fmtBf16 else if a.size = 4 then fmtF32 else fmtF64) new
    tagResult a.rule a.own [atomTagIn op a.size old oldTag, atomTagIn op a.size x xTag] v.exceptional
  | _ => tagResult a.rule a.own [atomTagIn op a.size old oldTag, atomTagIn op a.size x xTag]

/-- One lane of an atomic on a memory: the memory after, the old bytes and their tag. A failed `a.cas` changes nothing (R228). -/
def atomLane (m : Memory) (a : Access) (op : AtomOp) (l : LaneAcc) (rec_ : ScopeRec) : Memory × List Byte × Tag :=
  let oldB := readRuns m l.runs
  let oldTag := runsTag m l.runs
  let old := leNat oldB
  let x := leNat l.data
  let new := atomNew op a.size old x (leNat l.data2)
  if op = .cas && old ≠ x then (m, oldB, oldTag)
  else (storeBytes m (laneWrites l.runs (leBytes a.size new) (atomTag a op old new x oldTag l.tag l.tag2)) rec_, oldB, oldTag)

/-- The transposed load of one lane of a group (09 R222): for each row of its group, its bytes and tag. -/
def trElems (e col : Nat) (rows : List (List Byte × Tag)) : List (List Byte × Tag) :=
  let m := 16 / e
  let per := 4 / e              -- rows that feed one element
  (List.range 4).map fun q =>
    let mine := (List.range per).map fun k => rows.getD (q * per + k) (List.replicate 16 0, tagInactive)
    let bytes := mine.flatMap fun r => (r.1.drop (col % m * e)).take e
    let tag := if mine.any (fun r => r.2 = tagPoison) then tagPoison else (mine.getLast?.map (·.2)).getD tagInactive
    (bytes, tag)

/-- Rows of the group of a lane: a lane of `lanes` gives its row, another is inactive. -/
def trRows (m : Memory) (lanes : List LaneAcc) (e lane : Nat) : List (List Byte × Tag) :=
  let g := lane / (16 / e) * (16 / e)
  (List.range (16 / e)).map fun j =>
    match lanes.find? (fun l => l.lane = g + j) with
    | some l => (readRuns m l.runs, runsTag m l.runs)
    | none => (List.replicate 16 0, tagInactive)

def Team.fillTr (t : Team) (m : Memory) (a : Access) (l : LaneAcc) : Team :=
  match a.dst with
  | .v n _ =>
    (((trElems a.size l.lane (trRows m a.lanes a.size l.lane)).zip (List.range 4))).foldl (fun t p =>
      t.writeV (n + p.2) l.lane (BitVec.ofNat 32 (leNat p.1.1)) p.1.2) t
  | _ => t

/-- CTAG bit of the granule at machine address x. -/
def Memory.granuleValid (m : Memory) (x : Nat) : Bool := (m.line (x / 64)).ctag.getLsbD (x % 64 / 16)

/-- Fill a load's destination from the memory it reads. -/
def State.fillLoad (s : State) (i : Nat) (a : Access) (m : Memory) : State :=
  let t := s.teamAt i
  let roots := s.roots (s.ctxOf t)
  match a.kind with
  | .loadTr => s.setTeamAt i ((a.lanes.filter (·.write)).foldl (fun t l => t.fillTr m a l) t)
  | .loadCap => s.setTeamAt i (a.lanes.foldl (fun t l =>
      let bytes := readRuns m l.runs
      let bits := BitVec.ofNat 128 (leNat bytes)
      let v := l.cap && (match l.runs with | (x, _) :: _ => m.granuleValid x | [] => false) && (rootOf roots bits).state = .live
      t.fillCap a.dst l.lane bytes (runsTag m l.runs) v) t)
  | _ => s.setTeamAt i (a.lanes.foldl (fun t l => t.fill a.dst l.lane (readRuns m l.runs) (runsTag m l.runs)) t)

/-- A store applied with the records that it leaves, line by line. -/
def storeWith (m : Memory) (a : Access) (r : ScopeRec) : Memory :=
  let recs := m.recordLines (a.space = .dev) r a.lines
  a.lines.foldl (fun (x : Memory) l => x.setRecord l (recs.record l)) (applyStore m a {})
/-- The record of one lane of an atomic, which lies in one line. -/
def laneScope (m : Memory) (a : Access) (l : LaneAcc) (r : ScopeRec) : ScopeRec :=
  if a.space = .dev && (linesOf l.runs).any m.sliceFull then {} else r
/-- An access that a store or an atomic `a` overtakes is to be seen before it, where a fence or the release itself says so (10 R242). -/
def Access.overtaken (x a : Access) : Access :=
  if a.isLoad then x
  else { x with before := x.before ||| x.beforeW ||| (if a.ord.getLsbD 1 then a.rel else 0) }
/-- The accesses of a team without `a`, which overtakes those of `earlier`. -/
def outsWithout (outs earlier : List Access) (a : Access) : List Access :=
  (outs.filter fun x => x.id ≠ a.id).map fun x => if earlier.any (fun e => e.id = x.id) then x.overtaken a else x

/-- Perform an access of team i at its home, with `earlier` of the team's accesses before it, and remove it. -/
def State.performAcc (s : State) (i : Nat) (earlier : List Access) (a : Access) : State :=
  let t := s.teamAt i
  let place := (s.crewAt t.crew).place
  let rec_ := s.scopeFor t.crew a
  -- a release whose record finds no room is one to all classes (R246)
  let full := a.space = .dev && !a.isLoad && a.ord.getLsbD 1 && s.mem.overflows rec_ a.lines
  let s := s.modTeam i fun t => { t with outs := outsWithout t.outs earlier (if full then { a with rel := 0x7F } else a) }
  let runs := a.lanes.flatMap (·.runs)
  let cluster := some (place / 8)
  match a.kind with
  | .store | .storeCap =>
    let old := s.mem
    let s := s.setSpaceMem t.crew a.space (storeWith (s.spaceMem t.crew a.space) a rec_)
    if a.space = .dev then (s.noteHome runs .write cluster).noteRecords old a.lines else s
  | .atom op =>
    let old := s.mem
    let s := a.lanes.foldl (fun (s : State) l =>
      let m := s.spaceMem t.crew a.space
      let r := atomLane m a op l (laneScope m a l rec_)
      (s.setSpaceMem t.crew a.space r.1).modTeam i fun t => t.fill a.dst l.lane r.2.1 r.2.2) s
    if a.space = .dev then ((s.noteHome runs .atomic cluster).noteRecords old a.lines).dropL1 runs else s
  | _ =>
    let s := s.fillLoad i a (overlay (s.spaceMem t.crew a.space) earlier a.space)
    if a.space = .dev then s.noteLoad place runs (a.ord.getLsbD 0 && normObs a.obs ≠ 1) else s

/-- The accesses of a team before one of its accesses. -/
def earlierThan (outs : List Access) (id : Nat) : List Access := outs.takeWhile fun x => x.id ≠ id

/-- Perform access `id` of team i if it is there, is no window access, and may go now. -/
def State.tryPerform (s : State) (i id : Nat) : State :=
  let outs := (s.teamAt i).outs
  match outs.find? (fun x => x.id = id) with
  | none => s
  | some a => if a.isWindow || !canPerform (earlierThan outs id) a then s else s.performAcc i (earlierThan outs id) a

/-- Perform in order every access of the list that is no window access. -/
def State.drainList (s : State) (i : Nat) : List Access → State
  | [] => s
  | a :: rest => if a.isWindow then s.drainList i rest else (s.performAcc i [] a).drainList i rest
/-- Perform every access of team i to memory and scratchpad, in order: a release (10 R242). -/
def State.drain (s : State) (i : Nat) : State := s.drainList i (s.teamAt i).outs
/-- Perform access `id` at once, with what must go before it. -/
def State.performNow (s : State) (i id : Nat) : State :=
  let outs := (s.teamAt i).outs
  match outs.find? (fun x => x.id = id) with
  | none => s
  | some a =>
    if canPerform (earlierThan outs id) a then s.performAcc i (earlierThan outs id) a
    else (s.drainList i (earlierThan outs id)).tryPerform i id
/-- The class of team i as team j sees it: the firmware is in every class (10 Table 10-1). -/
def State.classFrom (s : State) (j i : Nat) : BitVec 8 :=
  let ci := s.crewAt (s.teamAt i).crew; let cj := s.crewAt (s.teamAt j).crew
  if i = j then 0 else if ci.core = 64 then 0x7F else if ci.place = cj.place then 0x01 else 0x02
/-- Accesses that a party must see before others of their team are performed before it moves, `cls` being its class as each team sees it: with
them the team's order is kept for the parties that its fences cover, and for no other (10 R251). Each is a move of its own team; `fuel` bounds
the chain. -/
def State.settleBy : Nat → (Nat → BitVec 8) → State → State
  | 0, _, s => s
  | fuel + 1, cls, s =>
    (indices s.teams).foldl (fun (s : State) j =>
      ((s.teamAt j).outs.filter fun a => (a.before &&& cls j) ≠ 0).foldl (fun (s : State) a =>
        (State.settleBy fuel (fun k => s.classFrom k j) s).performNow j a.id) s) s
/-- What team i must have seen is performed before it moves. -/
def State.settleFor (s : State) (i : Nat) : State := State.settleBy s.teams.length (fun j => s.classFrom j i) s
/-- The team's stores to memory and scratchpad are performed: its next release or fence has come (10 R244). -/
def State.storesHome (s : State) (i : Nat) : State :=
  ((s.teamAt i).outs.filter fun a => a.isStore && !a.isWindow).foldl (fun (s : State) a => s.performNow i a.id) s
/-- Accesses that are still out are to be seen by the observers of `o` before all that follows, or before later stores and atomics (10
R242, R251). -/
def State.orderOuts (s : State) (i : Nat) (o : BitVec 8) (writesOnly : Bool) : State :=
  s.modTeam i fun t => { t with outs := t.outs.map fun a =>
    if a.isWindow then a else if writesOnly then { a with beforeW := a.beforeW ||| o } else { a with before := a.before ||| o } }
/-- A release that holds its instruction for no access: the stores are performed, what is left is seen in order by the observers of `o`. -/
def State.release (s : State) (i : Nat) (o : BitVec 8) : State := (s.storesHome i).orderOuts i o false
/-- A store of the team has waited as long as R244 lets it wait. -/
def Access.expired (now : Nat) (a : Access) : Bool := a.isStore && !a.isWindow && a.time + Config.storeDeadline ≤ now
/-- Perform what has waited so long, with everything before it: a move of its team. -/
def State.expire (s : State) (i : Nat) : State :=
  if !(s.teamAt i).outs.any (Access.expired s.now) then s else
  let s := s.settleFor i
  let outs := (s.teamAt i).outs
  match (outs.filter (Access.expired s.now)).getLast? with
  | none => s
  | some a => s.drainList i (earlierThan outs a.id ++ [a])

/-- Observers of a `push` to a queue, and of a wait on its timeline (10 Table 10-2). -/
def queueObs (q : Nat) : BitVec 8 :=
  if q ≤ 3 then 0x04 else if q ≤ 5 then 0x08 else if q = 6 then 0x03 else if q = 7 then 0x10 else 0x7F

/-! Errors in lines (09 R213, 17 R329). -/

/-- Lines of memory in which an uncorrectable error is found. -/
def Memory.spoil (m : Memory) (lines : List Nat) : Memory :=
  lines.foldl (fun (m : Memory) l => m.setLine l { m.line l with err := true, otag := tagPoison }) m
/-- A line whose home is on another die: its transfers cross a die link. -/
def crosses (die line : Nat) : Bool := homeDie (line * 64) ≠ die

/-! Firmware stores. -/

/-- Bytes written to device memory at machine runs, under a tag, with the record of the write where there is room for one. -/
def State.writeRuns (s : State) (runs : List (Nat × Nat)) (bs : List Byte) (tag : Tag) (r : ScopeRec) (cluster : Option Nat := none)
    (k : HomeReq := .write) : State :=
  let lines := distinct (linesOf runs)
  let recs := s.mem.recordLines true r lines
  let m := lines.foldl (fun (m : Memory) l => m.setRecord l (recs.record l)) (storeBytes s.mem (laneWrites runs bs tag) {})
  ({ s with mem := m }.noteHome runs k cluster).noteRecords s.mem lines
/-- The record of a firmware release; none for a plain write. -/
def fwScope (o : BitVec 8) : ScopeRec := if o = 0 then {} else { kind := 5, obs := normObs o }
/-- The firmware writes bytes at a machine address, with a release to the observers of `o` (KIND 5; 0 for a plain write). -/
def State.fwStore (s : State) (a : Nat) (bs : List Byte) (o : BitVec 8 := 0) : State :=
  s.writeRuns [(a, bs.length)] bs tagExternal (fwScope o)
def State.fwLoad (s : State) (a n : Nat) : Nat := leNat (s.mem.bytes a n)
/-- OBS masks that the firmware uses. -/
def obsHost : BitVec 8 := 0x40
def obsHostDev : BitVec 8 := 0x43

/-! Barriers and syncs (07 R173, R174). -/

def State.crewTeams (s : State) (ci : Nat) : List Nat := (s.crewAt ci).teams
def Team.alive (t : Team) : Bool := t.st ≠ .ended
def Team.atBar (t : Team) (n : Nat) : Bool := match t.wait with | some (.bar k _) => k = n | _ => false
def Team.atSync (t : Team) : Option (BitVec 16) := match t.wait with | some (.tsync m _) => some m | _ => none

/-- An instruction of a team retires: the pc moves, the counts of instructions move (14 R302, R319, 21 R412). -/
def State.retireAt (s : State) (i : Nat) (pc : VAddr) : State :=
  let t := s.teamAt i
  let steps := t.frame.isNone && t.mode ≠ .firm && s.comptOf t = 0      -- 21 R413
  let s := s.setTeamAt i
    { t with pc := pc, lastPc := t.pc, retired := t.retired + 1, wait := none, bpSkip := false, stalled := false, half := none, code := []
             codeReq := none, epochUsed := if s.replayable (s.ctxOf t) then t.epochUsed + 1 else t.epochUsed
             st := match t.st with | .skid n => .skid (n + 1) | x => x
             steps := if steps then t.steps - 1 else t.steps, stepPending := t.stepPending || (steps && t.steps = 1) }
  let c := s.crewAt t.crew
  if s.replayable c.ctx then s.modCrew t.crew fun c => { c with tcyc := c.tcyc + 1, used := c.used + 1, epochUsed := c.epochUsed + 1 } else s

/-- A completed `bar` or `tsync`: b(d) and ABANDONED are written, the pc passes the instruction (R173). -/
def State.releaseWait (s : State) (i : Nat) (v : Bool) : State :=
  let t := s.teamAt i
  let go (d : Nat) : State := (s.modTeam i fun t => { t.setB d v with abandoned := t.abandoned || !v }).retireAt i (pcAdd t.pc 8)
  match t.wait with
  | some (.bar _ d) => go d
  | some (.tsync _ d) => go d
  | _ => s

/-- Complete barrier n of a crew if every team has arrived, exited or been killed. Stopped teams hold it back until they resume. -/
def State.checkBar (s : State) (ci n : Nat) : State :=
  let ts := s.crewTeams ci
  let waiting := ts.filter fun i => (s.teamAt i).atBar n && (s.teamAt i).alive
  if waiting.isEmpty || !ts.all (fun i => !(s.teamAt i).alive || (s.teamAt i).atBar n) ||
      waiting.any (fun i => (s.teamAt i).st = .stopped) then s else
  let v := (s.crewAt ci).killed = 0
  waiting.foldl (fun s i => s.releaseWait i v) s

/-- Complete the sync of mask m if every team of m is pending with it, exited or killed. -/
def State.checkSync (s : State) (ci : Nat) (m : BitVec 16) : State :=
  let named := (s.crewTeams ci).filter fun i => m.getLsbD (s.teamAt i).num
  let waiting := named.filter fun i => (s.teamAt i).atSync = some m && (s.teamAt i).alive
  if waiting.isEmpty || !named.all (fun i => !(s.teamAt i).alive || (s.teamAt i).atSync = some m) ||
      waiting.any (fun i => (s.teamAt i).st = .stopped) then s else
  let v := ((s.crewAt ci).killed &&& m) = 0
  waiting.foldl (fun s i => s.releaseWait i v) s

/-- Complete what an arrival, an end or a resumption has made complete. -/
def State.checkWaits (s : State) (ci : Nat) : State :=
  let s := (List.range 16).foldl (fun s n => s.checkBar ci n) s
  let ms := (s.crewTeams ci).filterMap fun i => (s.teamAt i).atSync
  ms.foldl (fun s m => s.checkSync ci m) s

/-! Stopping and resuming a crew (14 R302, R304). -/

/-- The next instruction of a team: a team that an event has halted goes on at its `trappc` (21 R415). -/
def Team.nextPc (t : Team) : VAddr := if t.halted && t.byEvent then t.trappc else t.pc
/-- A sibling stops at its boundary: trappc, skid and trapcause (R302). Its accesses are ordered before the handler. -/
def State.stopTeam (s : State) (i skid : Nat) : State :=
  (s.drain i).modTeam i fun t =>
    { t with st := .stopped, trappc := t.nextPc, skid := BitVec.ofNat 5 skid, trapcause := 0 }

/-- The stop is signalled to the siblings of a trapping team: waiting and halted ones stop at once, running ones begin to skid. -/
def State.stopSiblings (s : State) (i : Nat) : State :=
  ((s.crewTeams (s.teamAt i).crew).filter (· ≠ i)).foldl (fun s j =>
    let t := s.teamAt j
    if t.st = .run then (if t.wait.isSome || t.halted then s.stopTeam j 0 else s.modTeam j fun t => { t with st := .skid 0 }) else s) s

/-- The handler's team leaves it: stopped siblings run, or wait, again. -/
def State.resumeSiblings (s : State) (ci : Nat) : State :=
  ((s.crewTeams ci).foldl (fun s j =>
    let t := s.teamAt j
    match t.st with
    | .stopped | .skid _ => s.modTeam j fun t => { t with st := .run }
    | _ => s) s).checkWaits ci

/-- Whether every sibling of a handler's team has stopped (R302). -/
def State.siblingsStopped (s : State) (i : Nat) : Bool :=
  (s.crewTeams (s.teamAt i).crew).all fun j => match (s.teamAt j).st with | .skid _ => false | _ => true

/-! The end of teams and crews (07 R172, 09 R202, 14 R313). -/

def Cmd.open (c : Cmd) : Bool := c.state ≠ .done
/-- Engine commands of a crew that have not completed. -/
def State.crewBusy (s : State) (ci : Nat) : Bool := s.cmds.any fun c => c.crew = ci && c.open && c.q ≠ 6
def State.matrixBusy (s : State) (ci : Nat) : Bool := s.cmds.any fun c => c.crew = ci && c.open && (c.q = 4 || c.q = 5)

/-- The tile store of an ended crew is released when its matrix commands have completed (12 R279). -/
def State.freeTiles (s : State) (ci : Nat) : State :=
  let c := s.crewAt ci
  if c.state ≠ .ended || s.matrixBusy ci then s else
  (s.modCore c.place fun x => if x.owner = some ci then { x with owner := none } else x).modCrew ci fun c => { c with tiles := none }

/-- The SCRATCH root of an ended crew goes when its commands have completed (09 R202). The bytes of its scratchpad stand until the core
gives its pool to another crew (07 R172, Table 7-4). -/
def State.freeScratch (s : State) (ci : Nat) : State :=
  let c := s.crewAt ci
  if c.state ≠ .ended || s.crewBusy ci then s else
  let s := if c.root = 0 then s else s.setRoot c.ctx c.root {}
  s.modCrew ci fun c => { c with root := 0 }

/-- Crews on a core. -/
def State.crewsOn (s : State) (place : Nat) : List Nat :=
  (indices s.crews).filter fun i =>
    let c := s.crewAt i
    (c.state = .resident || c.state = .saving) && c.place = place
/-- A core that holds no crew has no split (09 R204). -/
def State.freeSlot (s : State) (place : Nat) : State :=
  if (s.crewsOn place).isEmpty then s.modCore place fun c => { c with split := none, l1 := [] } else s

/-- Engine commands that left their queues with a crew are queued again, on a core (11 R269, 12 R296). -/
def State.requeue (s : State) (ci place : Nat) : State :=
  { s with cmds := s.cmds.map fun (c : Cmd) =>
      if c.crew = ci && (c.state = CmdState.away || c.state = CmdState.paused) then
        { c with die := place / 64, core := place % 64, state := CmdState.queued }
      else c }
/-- Every team of the crew has ended (Table 7-3): its accesses are performed, its slot is free. Of one that ends while it is READY the commands
that left with it run on, where its core was (R172, R198, R313). -/
def State.crewCheckEnd (s : State) (ci : Nat) : State :=
  let c := s.crewAt ci
  if c.state = .ended || !c.teams.all (fun i => !(s.teamAt i).alive) then s else
  let s := c.teams.foldl (fun s i => s.drain i) s
  let s := s.modCrew ci fun c => { c with state := .ended }
  let s := if c.state = .resident || c.state = .saving then s.freeSlot c.place else s.requeue ci c.place
  (s.freeTiles ci).freeScratch ci

/-- A team ends: it waits for nothing, its siblings resume if it was in its handler, after its accesses (14 R302), its crew may end. -/
def State.endTeam (s : State) (i : Nat) : State :=
  let t := s.teamAt i
  let s := if t.st = .handler then s.drain i else s
  let s := s.modTeam i fun t =>
    { t with st := .ended, wait := none, halted := false, byEvent := false, latch := none, steps := 0, entry := none }
  let s := if t.st = .handler then s.resumeSiblings t.crew else s.checkWaits t.crew
  s.crewCheckEnd t.crew

/-- A kill (R313): the record names the compartment in place of the tag where that is not 0 (20 R391); `pc` is its `trappc` (DEDUCED, log 31). -/
def State.killTeam (s : State) (i : Nat) (cause point : BitVec 8) (tag : Tag) (pc : Option VAddr := none) : State :=
  let t := s.teamAt i
  if t.st = .ended then s else
  let c := s.crewAt t.crew
  let compt := s.comptOf t
  let k : KillRec := { die := c.die, core := c.core, crewid := c.crewid, team := t.num, cause := cause, point := point, pc := pc.getD t.pc,
                       tag := if compt = 0 then tag else BitVec.ofNat 24 compt, ctx := c.ctx }
  let s := s.modDie c.die fun d => { d with kills := d.kills ++ [k] }
  let s := s.modCrew t.crew fun c => { c with killed := c.killed ||| BitVec.twoPow 16 t.num }
  let s := s.modLaunch c.launch fun l => { l with kills := l.kills + 1 }
  s.endTeam i

/-- A kill with UNCORRECTABLE at the next boundary (R315). -/
def State.killSoon (s : State) (i : Nat) : State :=
  s.modTeam i fun t => if t.alive then { t with killPending := some (cUNCORRECTABLE, none) } else t

/-! Taking an exception (14 R300-R309). -/

def TrapRec.write (t : Team) (r : TrapRec) : Team :=
  { t with trapcause := r.cause, trappc := r.pc, trapmask := r.mask, trapaddr := r.addr, traptagA := r.tagA, traptagB := r.tagB,
           traptagC := r.tagC, skid := 0 }

/-- Causes of route K (Table 14-1); CANCELLED ends a team that has no handler. -/
def routeK (c : BitVec 8) : Bool := c = cTAG_POISON || c = cUNCORRECTABLE

/-- Handler code and data of a team: the context's H and HD, or the firmware's own trap entry in mask ROM and its data capability
(R305). A firmware team that has lowered its mode has no context, and traps to the same entry (DESIGN CHOICE, log 2). -/
def State.handlerOf (s : State) (t : Team) : CReg × CReg :=
  match t.mode, s.ctxOf t with
  | .firm, _ | _, none =>
    let die := (s.crewAt t.crew).die
    (romCapAt (Config.romTrapEntry die), { bits := Config.romDataCap die, valid := true, tag := 0 })
  | _, some c => ((s.ctxAt c).h, (s.ctxAt c).hd)

/-- What a handler keeps of a team's wait: that of a yielding `push` (07 R175). -/
def keptWait : Option Wait → Option Wait
  | some (.push q n x) => some (.push q n x)
  | _ => none

/-- Handler entry (R305). -/
def State.enterHandler (s : State) (i : Nat) (r : TrapRec) : State :=
  let t := s.teamAt i
  let h := s.handlerOf t
  let frame : Frame :=
    { pc := r.pc, mode := t.mode, m := t.m, stack := t.stack, c29 := t.c.getD 29 {}, c31 := t.c.getD 31 {}, sHigh := t.s.drop 56,
      b := t.b, fpen := t.fpctl.extractLsb' 0 5, wait := keptWait t.wait, mismatch := t.mismatch }
  let t := TrapRec.write t r
  s.setTeamAt i
    { t with frame := some frame, st := .handler, wait := none, stalled := false, mismatch := false, entry := none, half := none, code := [], codeReq := none
             fpctl := t.fpctl &&& ~~~(0x1F : Word)
             mode := if t.mode = .firm then .firm else .super
             c := (t.c.set 31 { h.1 with tag := tagExternal }).set 29 { h.2 with tag := tagExternal }
             m := if r.mask = 0 then t.m else r.mask
             stack := []
             pc := alignPc (capCursor h.1.bits) }

/-- An attached debugger takes BREAKPOINT, WATCHPOINT and STEP (21 R414): the team halts and an event is appended. -/
def State.debugEvent (s : State) (i cx : Nat) (r : TrapRec) : State :=
  let t := s.teamAt i
  let s := s.setTeamAt i { TrapRec.write t r with halted := true, byEvent := true }
  let base := (s.ctxAt cx).mailbox
  let head := s.fwLoad (base + 32896) 8
  let tail := s.fwLoad (base + 32904) 8
  if 480 ≤ head - tail then s else
  let lane := (lanesOf r.mask t.nlanes).headD 0
  let ev := leBytes 8 r.pc.toNat ++ leBytes 8 (r.addr.getD lane 0).toNat ++ leBytes 4 (maskWord r.mask 0).toNat ++
    [r.cause, BitVec.ofNat 8 r.tagA.toNat, 0, 0] ++ leBytes 4 (s.crewAt t.crew).crewid.toNat ++ [BitVec.ofNat 8 t.num] ++ List.replicate 35 0
  (s.fwStore (base + 34816 + 64 * (head % 480)) ev).fwStore (base + 32896) (leBytes 8 (head + 1)) obsHost

def debugCause (c : BitVec 8) : Bool := c = cBREAKPOINT || c = cWATCHPOINT || c = cSTEP
def State.attached (s : State) (t : Team) : Option Nat :=
  match s.ctxOf t with
  | none => none
  | some c => if (s.ctxAt c).dbg.attached then some c else none

def State.timeline (s : State) (ci q : Nat) : Timeline := (s.crewAt ci).timelines.getD q {}
def State.modTimeline (s : State) (ci q : Nat) (f : Timeline → Timeline) : State :=
  s.modCrew ci fun c => { c with timelines := c.timelines.set q (f (c.timelines.getD q {})) }

/-- A trap that is taken removes the fault, or the latch, that it reports (11 R262, 09 R221). -/
def State.reported (s : State) (i : Nat) (r : TrapRec) : State :=
  let s := if r.latched then s.modTeam i fun t => { t with latch := none } else s
  match r.fault with
  | none => s
  | some (q, n) => s.modTimeline (s.teamAt i).crew q fun tl => { tl with faults := tl.faults.filter fun f => f.n ≠ n }

/-- An acquire through a window is out, which the team may not pass (10 R243). -/
def Team.acquiring (t : Team) : Bool := t.outs.any fun a => a.isWindow && a.ord.getLsbD 0
/-- A load or an atomic of the team is out through a window. -/
def Team.filling (t : Team) : Bool := t.outs.any fun a => a.isWindow && !a.isStore

/-- The entry of a trap that has been taken: at once, or when the window loads that are out have filled their registers (02 R42 rule 6).
The team issues nothing until then. -/
def State.beginHandler (s : State) (i : Nat) (r : TrapRec) : State :=
  let s := s.drain i
  if (s.teamAt i).filling then s.modTeam i fun t => { t with entry := some r, st := .handler, wait := keptWait t.wait }
  else s.enterHandler i r

/-- TAKING AN EXCEPTION: the one operation through which a cause reaches a team (R300-R308). -/
def State.takeTrap (s : State) (i : Nat) (r : TrapRec) : State :=
  let t := s.teamAt i
  match t.st with
  | .skid n => s.stopTeam i n              -- a sibling stops before an instruction that would trap (R302, R303)
  | _ =>
    if routeK r.cause then s.killTeam i cUNCORRECTABLE r.cause r.tagA (some r.pc)
    else
      -- in a handler a debugger takes nothing (R308; DEDUCED, log 31)
      match (if debugCause r.cause && s.comptOf t = 0 && t.frame.isNone then s.attached t else none) with
      | some c => s.debugEvent i c r
      | none =>
        -- a compartment (20 R391), a trap in a handler (R308), no handler (R300)
        let s := s.reported i r
        if s.comptOf t ≠ 0 || t.frame.isSome || !(s.handlerOf t).1.valid then s.killTeam i r.cause 0 r.tagA (some r.pc)
        else (s.beginHandler i r).stopSiblings i

/-- The end of a team as by `exit` (R172): its accesses are performed, a set latch kills (09 R221). -/
def State.exitTeam (s : State) (i : Nat) : State :=
  let s := s.drain i
  match (s.teamAt i).latch with
  | some l => s.killTeam i l.cause 0 l.site
  | none => s.endTeam i

/-- A team ends through CANCELLED: as by `exit`, and it is not killed (R307, R308, R313). -/
def State.cancelEnd (s : State) (i : Nat) : State := (s.drain i).endTeam i
/-- Whether CANCELLED ends the team at once: it is in its handler, or has none (R307, R308). -/
def State.cancelEnds (s : State) (i : Nat) : Bool :=
  let t := s.teamAt i
  t.st = .handler || t.frame.isSome || (s.comptOf t = 0 && !(s.handlerOf t).1.valid)

/-- The observers of the release of an `exit`: those of the team's launch record (07 R172, 10 Table 10-2). -/
def State.exitObs (s : State) (t : Team) : BitVec 8 :=
  let o := (s.launchAt (s.crewAt t.crew).launch).obs
  if o = 0 then 0x03 else o
/-- CANCELLED can be taken: no window acquire is out, and an end by it is no release that must wait. -/
def State.cancelDue (s : State) (i : Nat) : Bool :=
  let t := s.teamAt i
  t.cancelPending && !t.acquiring && !(s.cancelEnds i && t.held (s.exitObs t) false)

/-- CANCELLED at a boundary (R307, R308). -/
def State.takeCancel (s : State) (i : Nat) : State :=
  let t := s.teamAt i
  let ends := s.cancelEnds i
  let s := s.modTeam i fun t => { t with cancelPending := false, cancelTaken := true, halted := false, byEvent := false, pc := t.nextPc }
  if ends then s.cancelEnd i
  else if s.comptOf t ≠ 0 then s.killTeam i cCANCELLED 0 0
  else s.beginHandler i { cause := cCANCELLED, pc := t.nextPc }

/-- RETURN FROM AN EXCEPTION (R309), for a team with an active frame: CANCELLED ends the team; else the frame is restored and the
siblings resume. -/
def State.returnTrap (s : State) (i : Nat) : State :=
  let t := s.teamAt i
  match t.frame with
  | none => s
  | some f =>
    if t.trapcause = cCANCELLED || t.cancelTaken then s.cancelEnd i else
    let s := s.drain i
    let t := s.teamAt i
    let s := s.setTeamAt i
      { t with mode := f.mode, m := f.m, stack := f.stack, c := (t.c.set 29 f.c29).set 31 f.c31, s := t.s.take 56 ++ f.sHigh, b := f.b
               fpctl := (t.fpctl &&& ~~~(0x1F : Word)) ||| f.fpen.setWidth 64
               pc := t.trappc, frame := none, st := .run, bpSkip := true
               wait := if t.trappc = f.pc then f.wait else none, mismatch := f.mismatch && t.trappc = f.pc }
    s.resumeSiblings t.crew

end Sys2Proof.Machine
end

