-- ==== Sys2Proof/Machine/Flags.lean ====
section
/-! DEFINITION. Rounding control, exception flags and enables (02 R47, 03 R76, R79). -/
namespace Sys2Proof.Machine

/-- `fpctl`.RND as a mode. -/
def Team.rnd (t : Team) : Rm := (Rows.rmOf (t.fpctl.toNat / 256 % 8)).getD .rne
/-- The mode of an RM field: 101 takes `fpctl`.RND. -/
def Team.mode' (t : Team) (rm : Rm) : Rm := if rm = .dyn then t.rnd else rm

/-- Sticky flags (R79). -/
def Team.orFpst (t : Team) (e : Exc) : Team := { t with fpst := t.fpst ||| e.setWidth 64 }
/-- Enabled exceptions among `e`. -/
def Team.enabled (t : Team) (e : Exc) : Exc := e &&& t.fpctl.extractLsb' 0 5
/-- The cause of the first enabled exception, and its bit (R79). -/
def excCause (e : Exc) : Option (BitVec 8 × Exc) :=
  if e.getLsbD 0 then some (0x04, excNV) else if e.getLsbD 1 then some (0x05, excDZ) else if e.getLsbD 2 then some (0x06, excOF)
  else if e.getLsbD 3 then some (0x07, excUF) else if e.getLsbD 4 then some (0x08, excNX) else none

end Sys2Proof.Machine
end

