-- ==== Sys2Proof/Machine/Operands.lean ====
section
/-! DEFINITION. How every instruction a team fetches is issued, reads its operand fields, writes its results and ends (02 R42, R51,
R56-R60, 03 R69, R79, 04 R94, 06 R153, R154, 14 R301, R306, 17 R342). -/
namespace Sys2Proof.Machine

/-- Why an instruction does not complete: it waits, or it traps, with the exceptions it has signalled. -/
inductive Stop where
  | wait
  | order                            -- for accesses that it must not pass (10 R243)
  | trap (r : TrapRec) (exc : Exc := 0)
  deriving DecidableEq, Repr

/-- An operand as read: its bits and its tag. -/
structure Opd where
  v : Nat := 0
  tag : Tag := 0
  deriving DecidableEq, Repr

/-- A result: its bits, its tag, what it signals. -/
structure Res where
  v : Nat
  tag : Tag
  exc : Exc := 0
  deriving DecidableEq, Repr

/-- A trap at the moving instruction. -/
def trapNow (t : Team) (cause : BitVec 8) (mask : Mask := 0) (addr : List Word := []) : Stop :=
  .trap { cause := cause, pc := t.pc, mask := mask, addr := addr }

/-- The same address in every lane (09 R215). -/
def everyLane (t : Team) (a : Nat) : List Word := List.replicate t.nlanes (BitVec.ofNat 64 a)
/-- Addresses of some lanes, 0 in the others. -/
def laneAddrs (t : Team) (xs : List (Nat × Nat)) : List Word :=
  (List.range t.nlanes).map fun l => match xs.find? (fun x => x.1 = l) with | some x => BitVec.ofNat 64 x.2 | none => 0

/-! Guards (R56, R153). -/

def Team.scalarGuard (t : Team) (g : BitVec 5) (gn : Bool) : Bool := if g = 24 then true else t.breg g.toNat != gn
/-- Lanes that a lane-form instruction writes. -/
def Team.laneGuard (t : Team) (guarded : Bool) (g : BitVec 5) (gn : Bool) : Mask :=
  if !guarded || g = 24 then t.m else if gn then t.m &&& ~~~(t.preg g.toNat) else t.m &&& t.preg g.toNat

/-- Whether a scalar-form guarded instruction is skipped (R51). -/
def skipped (t : Team) (i : Instr) : Bool :=
  match Rows.view i with
  | .r _ _ row _ f => !f.ln && row.g && !t.scalarGuard f.g f.gn
  | .i _ _ row f => !f.ln && row.g && !t.scalarGuard f.g f.gn
  | .m _ f => !f.ln && !t.scalarGuard f.g f.gn
  | .e f => !t.scalarGuard f.g f.gn
  | _ => false

/-- The moving team's instruction retires. -/
def State.retireTo (s : State) (pc : VAddr) : State := s.retireAt s.cur pc
def State.retire (s : State) (n : Nat) : State := s.retireTo (pcAdd s.team.pc n)

/-- The moving team waits: nothing changes, but that it is marked (21 R410, R417). -/
def State.stall (s : State) (ordered : Bool := false) : State := s.modTeam s.cur fun t => { t with stalled := true, ordered := ordered }
/-- An acquire that is refused is counted at the home of each line it names (21 R408). -/
def State.countScope (s : State) (r : TrapRec) : State :=
  match s.ctxOf s.team with
  | none => s
  | some c =>
    let named := if r.mask = 0 then [0] else lanesOf r.mask s.team.nlanes
    let lines := distinct (named.filterMap fun l =>
      match s.translate (some c) { compt := s.comptOf s.team } (r.addr.getD l 0).toNat 1 with
      | .ok ((a, _) :: _, _) => some (a / 64)
      | _ => none)
    lines.foldl (fun (s : State) l => { s with llcCounts := s.countLlc l [0, 0, 0, 0, 0, 0, 0, 0, 0, 0, 1] }) s
/-- The outcome of an instruction: complete, wait, or trap. -/
def conclude (s : State) : Except Stop State → Host.Outcome State Fault Refusal
  | .ok s' => .next s'
  | .error .wait => .next s.stall
  | .error .order => .next (s.stall true)
  | .error (.trap r exc) =>
    -- a sibling that stops here has not run the instruction (14 R302)
    let s := match s.team.st with | .skid _ => s | _ => s.setTeam (s.team.orFpst exc)
    .next ((if r.cause = cSCOPE then s.countScope r else s).takeTrap s.cur r)

/-- Rank of a mode (R44). -/
def modeRank : Mode → Nat
  | .user => 0 | .super => 1 | .firm => 2

/-! Special registers (R45). -/

/-- Registers that USER may not touch (02 Table 2-3). -/
def trapReg (n : Nat) : Bool := 14 ≤ n && n ≤ 21
def srNum (f : IForm) : Nat := f.imm.toNat % 256
def srIdx (f : IForm) : Nat := f.imm.toNat / 256 % 32
/-- What a mode that cannot write register n raises (R45): PRIV where a higher mode can, ILLEGAL where none can. -/
def srDenied (n : Nat) (m : Mode) : Option (BitVec 8) :=
  if trapReg n && m = .user then some cPRIV
  else if n ≤ 6 || n = 8 || n = 16 || n = 20 then some cILLEGAL
  else if (n = 7 || n = 22) && m ≠ .firm then some cPRIV
  else none
/-- Whether a constructor is an event: no word, and not the row of a word that is none. -/
def isEvent (i : Instr) : Bool := !Rows.isWord i && (match i with | .illegalEncoding _ => false | _ => true)
/-- What a word that names a special register raises before its guard is read (R45, R66). -/
def srCause (t : Team) (i : Instr) : Option (BitVec 8) :=
  match i with
  | .rdsr f => if trapReg (srNum f) && t.mode = .user then some cPRIV else none
  | .wrsr f => srDenied (srNum f) t.mode
  | .lvlWrite _ => srDenied 22 t.mode
  | .trappcWrite _ => srDenied 15 t.mode
  | _ => none

/-- Issue (R51): legality for the team's registers, mode, scalar guard; then the instruction's own effect. -/
def issue (i : Instr) (s : State) (body : Team → Except Stop State) : Host.Outcome State Fault Refusal :=
  let t := s.team
  if !Rows.legal t.vregs i then conclude s (.error (trapNow t cILLEGAL))
  else if modeRank t.mode < modeRank (Rows.mode i) then conclude s (.error (trapNow t cPRIV))
  else
    match srCause t i with
    | some c => conclude s (.error (trapNow t c))
    | none => if skipped t i then .next (s.retire (Rows.size i)) else conclude s (body t)

/-! Reading registers. -/

/-- The fault that a tag names (R342). -/
def remoteCause (tag : Tag) : Option (BitVec 8) :=
  if tag = tagRfault then some cREMOTE_FAULT else if tag = tagRtimeout then some cREMOTE_TIMEOUT else none

/-- Read a scalar register as a tag only (R148): empty registers wait or trap. -/
def readSTag (t : Team) (n : Nat) (pol : Bool) : Except Stop Opd :=
  let r := t.sreg n
  if !r.full then .error (if pol then trapNow t cEMPTY_READ else .wait) else .ok { v := r.v.toNat, tag := r.tag }
/-- Read a scalar register as a value. -/
def readS (t : Team) (n : Nat) (pol : Bool) : Except Stop Opd :=
  match readSTag t n pol with
  | .error e => .error e
  | .ok o =>
    match remoteCause o.tag with
    | some c => .error (trapNow t c 0 (everyLane t o.v))
    | none => .ok o

/-- Content of `cnt` consecutive elements of a lane, the lowest first, with the first element's tag (R69, R115). -/
def Team.velems (t : Team) (r cnt l : Nat) : Opd :=
  { v := (List.range cnt).foldr (fun q x => (t.velem (r + q) l).v.toNat + 2 ^ 32 * x) 0, tag := (t.velem r l).tag }
def Team.vempty (t : Team) (r cnt l : Nat) : Bool := (List.range cnt).any fun q => !(t.velem (r + q) l).full

/-- Read elements in lanes, as tags only: an empty one makes the whole instruction wait or trap (R94). -/
def readVTag (t : Team) (r cnt : Nat) (pol : Bool) (lanes : List Nat) : Except Stop (List Opd) :=
  let empty := lanes.filter fun l => t.vempty r cnt l
  if !empty.isEmpty then .error (if pol then trapNow t cEMPTY_READ (maskOf empty) else .wait)
  else .ok (lanes.map fun l => t.velems r cnt l)
/-- Lanes whose operand holds a fault tag trap, by the lowest of them (R342). -/
def remoteLanes (t : Team) (lanes : List Nat) (os : List Opd) : Except Stop (List Opd) :=
  let bad := (lanes.zip os).filter fun p => (remoteCause p.2.tag).isSome
  match bad with
  | [] => .ok os
  | (_, o) :: _ =>
    let same := bad.filter fun p => p.2.tag = o.tag
    .error (trapNow t ((remoteCause o.tag).getD 0) (maskOf (same.map (·.1))) (laneAddrs t (same.map fun p => (p.1, p.2.v % 2 ^ 32))))
def readV (t : Team) (r cnt : Nat) (pol : Bool) (lanes : List Nat) : Except Stop (List Opd) :=
  match readVTag t r cnt pol lanes with
  | .error e => .error e
  | .ok os => remoteLanes t lanes os

/-- Read a general source field: in scalar form, or broadcast, an s register seen by every lane; no lane reads nothing (R155). A trap on
a broadcast register names no lane in `trapmask` (DESIGN CHOICE, log 40). -/
def readGen (t : Team) (ln ob pol : Bool) (cnt n : Nat) (lanes : List Nat) : Except Stop (List Opd) :=
  if lanes.isEmpty then .ok [] else
  if !ln || ob then
    match readS t n pol with
    | .error e => .error e
    | .ok o => .ok (lanes.map fun _ => o)
  else readV t n cnt pol lanes
/-- The same, as tags only. -/
def readGenTag (t : Team) (ln ob pol : Bool) (n : Nat) (lanes : List Nat) : Except Stop (List Opd) :=
  if lanes.isEmpty then .ok [] else
  if !ln || ob then
    match readSTag t n pol with
    | .error e => .error e
    | .ok o => .ok (lanes.map fun _ => o)
  else readVTag t n 1 pol lanes

/-- A predicate in a lane, or a b register: p24 is `pt`. -/
def Team.pred (t : Team) (ln : Bool) (n lane : Nat) : Bool :=
  if !ln then t.breg n else if n = 24 then true else (t.preg n).getLsbD lane
/-- A predicate over all lanes. -/
def Team.predMask (t : Team) (n : Nat) : Mask := if n = 24 then t.allLanes else t.preg n

/-- Read a c register: it waits for an `ldc` (R41), and a fault tag traps (R342). -/
def readC (t : Team) (n : Nat) : Except Stop CReg :=
  let c := t.creg n
  if c.busy then .error .wait else
  match remoteCause c.tag with
  | some x => .error (trapNow t x 0 (everyLane t (c.bits.toNat % 2 ^ 64)))
  | none => .ok c
/-- Read a capability field (04 R115): a c register, or a quad per lane. -/
def readCap (t : Team) (ln pol : Bool) (n : Nat) (lanes : List Nat) : Except Stop (List CReg) :=
  if !ln then
    match readC t n with
    | .error e => .error e
    | .ok c => .ok (lanes.map fun _ => c)
  else
    match readV t n 4 pol lanes with
    | .error e => .error e
    | .ok os => .ok ((lanes.zip os).map fun p => { bits := BitVec.ofNat 128 p.2.v, valid := t.vvalid n p.1, tag := p.2.tag })

/-! Writing registers. -/

/-- A destination that is empty in a written lane makes the instruction wait (R42 rule 3, R41) (DEDUCED, log 5). -/
def destBusy (t : Team) (ln : Bool) (k : Rows.Fld) (n : Nat) (ty : Ty) (lanes : List Nat) : Bool :=
  match k with
  | .cD => if ln then lanes.any (fun l => t.vempty n 4 l) else (t.creg n).busy
  | .sD => !(t.sreg n).full
  | .genD w => if ln then lanes.any (fun l => t.vempty n (Rows.elems w ty ty) l)
               else !(t.sreg n).full || (w = .dbl && Rows.width ty = 64 && !(t.sreg (n + 1)).full)
  | .vD w => lanes.any (fun l => t.vempty n (Rows.elems w ty ty) l)
  | _ => false

/-- Write `cnt` elements of a lane. -/
def Team.writeVs (t : Team) (n cnt lane v : Nat) (tag : Tag) : Team :=
  (List.range cnt).foldl (fun t q => t.writeV (n + q) lane (BitVec.ofNat 32 (v / 2 ^ (32 * q))) tag) t
/-- Write a general destination: the result's bits, in two's complement, extended by the caller. -/
def Team.writeGen (t : Team) (ln : Bool) (w : Rows.Wd) (ty : Ty) (n lane v : Nat) (tag : Tag) : Team :=
  if ln then t.writeVs n (Rows.elems w ty ty) lane v tag
  else
    let t := t.setS n (BitVec.ofNat 64 v) tag
    if w = .dbl && Rows.width ty = 64 then t.setS (n + 1) (BitVec.ofNat 64 (v / 2 ^ 64)) tag else t
/-- Write a predicate destination in one lane, or a b register. -/
def Team.writePred (t : Team) (ln : Bool) (n lane : Nat) (v : Bool) : Team :=
  if !ln then t.setB n v
  else t.setP n (if v then t.preg n ||| BitVec.twoPow 1024 lane else t.preg n &&& ~~~(BitVec.twoPow 1024 lane))
/-- Write a capability destination. -/
def Team.writeCap (t : Team) (ln : Bool) (n lane : Nat) (c : CReg) : Team :=
  if ln then ((List.range 4).foldl (fun t q => t.setV (n + q) lane { v := c.bits.extractLsb' (32 * q) 32, tag := c.tag, full := true }) t).setVvalid n lane c.valid
  else t.setC n c

/-- Bits of an exact integer as a destination of this form holds it (R59): 128 cover every shape. -/
def extBits (x : Int) : Nat := bitsOf 128 x

/-! Operand tags of a trap record (R306). -/

/-- Tags of an s register, of `cnt` elements in a lane, of a c register: 0 where one is empty. -/
def Team.tagS (t : Team) (n : Nat) : Tag := if (t.sreg n).full then (t.sreg n).tag else 0
def Team.tagV (t : Team) (n cnt lane : Nat) : Tag := if t.vempty n cnt lane then 0 else (t.velem n lane).tag
def Team.tagC (t : Team) (n : Nat) : Tag := if (t.creg n).busy then 0 else (t.creg n).tag
/-- Tag of a field as read in a lane; 0 where it is unused. -/
def fieldTag (t : Team) (k : Rows.Fld) (ln ob : Bool) (ty src : Ty) (n lane : Nat) : Tag :=
  match k with
  | .gen w => if ln && !ob then t.tagV n (Rows.elems w ty src) lane else t.tagS n
  | .s => t.tagS n
  | .v w => t.tagV n (Rows.elems w ty src) lane
  | .c => if ln then t.tagV n 4 lane else t.tagC n
  | _ => 0

/-- Causes whose record holds the operand tags (Table 14-3). -/
def tagsCause (c : BitVec 8) : Bool :=
  c = cEMPTY_READ || (0x04 ≤ c.toNat && c.toNat ≤ 0x08) || (0x10 ≤ c.toNat && c.toNat ≤ 0x14) ||
  (0x20 ≤ c.toNat && c.toNat ≤ 0x22) || c = cSCOPE || c = cREMOTE_FAULT || c = cREMOTE_TIMEOUT || c = cTAG_POISON

/-- Add operand tags to the trap of an F-R instruction; `src` is the type of A in `cvt`. -/
def tagRs (row : Rows.RRow) (f : RForm) (src : Ty) (t : Team) : Except Stop State → Except Stop State
  | .error (.trap r exc) =>
    if tagsCause r.cause && r.tagA = 0 then
      let lane := (lanesOf r.mask t.nlanes).headD 0
      .error (.trap { r with tagA := fieldTag t row.a f.ln (f.ob.getLsbD 2) f.ty src f.a.toNat lane
                             tagB := fieldTag t row.b f.ln (f.ob.getLsbD 1) f.ty src f.b.toNat lane
                             tagC := fieldTag t row.c f.ln (f.ob.getLsbD 0) f.ty src f.c.toNat lane } exc)
    else .error (.trap r exc)
  | x => x
def tagR (row : Rows.RRow) (f : RForm) (t : Team) (x : Except Stop State) : Except Stop State := tagRs row f f.ty t x
def tagI (row : Rows.IRow) (f : IForm) (t : Team) : Except Stop State → Except Stop State
  | .error (.trap r exc) =>
    if tagsCause r.cause && r.tagA = 0 then
      .error (.trap { r with tagA := fieldTag t row.a f.ln false .i8 .i8 f.a.toNat ((lanesOf r.mask t.nlanes).headD 0) } exc)
    else .error (.trap r exc)
  | x => x

/-- The row of an F-I instruction whose A is an s register. -/
def sourceRow : Rows.IRow := { a := .s, ln := .s }

/-! Poison (14 R314). -/
def poisonTrap (t : Team) : Stop := .trap { cause := cTAG_POISON, pc := t.pc, tagA := tagPoison }

/-! The shared shape of an F-R instruction that computes lane by lane. -/

/-- The lanes that an instruction computes: its written lanes, or the one of the scalar form. -/
def Team.lanesFor (t : Team) (row : Rows.RRow) (f : RForm) : List Nat :=
  if f.ln then lanesOf (t.laneGuard row.g f.g f.gn) t.nlanes else [0]

/-- Read one source field of an F-R row in the lanes; an unused field, or one of another kind, gives zeros. -/
def readFld (t : Team) (k : Rows.Fld) (ln ob pol : Bool) (ty src : Ty) (n : Nat) (lanes : List Nat) : Except Stop (List Opd) :=
  match k with
  | .gen w => readGen t ln ob pol (Rows.elems w ty src) n lanes
  | .s => readGen t false false pol 1 n lanes
  | .v w => readGen t true false pol (Rows.elems w ty src) n lanes
  | .p => .ok (lanes.map fun l => { v := if t.pred ln n l then 1 else 0, tag := 0 })
  | _ => .ok (lanes.map fun _ => {})

/-- The exceptions of all lanes: complete, or trap by the first enabled cause in the lanes that signal it (R79). -/
def fpDone (t : Team) (ln : Bool) (excs : List (Nat × Exc)) : Except Stop Exc :=
  let u := excs.foldl (fun (x : Exc) e => x ||| e.2) 0
  match excCause (t.enabled u) with
  | none => .ok u
  | some (cause, bit) =>
    let m := if ln then maskOf ((excs.filter fun e => (e.2 &&& bit) ≠ 0).map (·.1)) else 0
    .error (.trap { cause := cause, pc := t.pc, mask := m } u)

/-- Lane passes that are shadowed, by MOP (14 R321). -/
def shadowMop (mop : Nat) : Bool := (0x10 ≤ mop && mop ≤ 0x1F) || (0x40 ≤ mop && mop ≤ 0x61)
/-- Active lanes of a word of M. -/
def Team.activeIn (t : Team) (w : Nat) : Nat := ((List.range 32).filter fun l => (maskWord t.m w).getLsbD l).length
/-- An entry for the core's replay queue; a full one, of 64, drops it and counts it (14 R321). -/
def CoreSt.enter (c : CoreSt) (e : Nat × VAddr × Nat) : CoreSt :=
  if c.replayQ.length < 64 then { c with replayQ := c.replayQ ++ [e] } else { c with replayDrops := c.replayDrops + 1 }
/-- Each pass that has more active lanes than inactive ones leaves some that nothing shadows: it enters the core's replay queue (14 R321;
DESIGN CHOICE, log 22). -/
def State.shadow (s : State) (mop : Nat) (ln : Bool) : State :=
  let t := s.team
  if ln && shadowMop mop then
    s.modCore s.crew.place fun c => ((List.range 32).filter fun w => 16 < t.activeIn w).foldl (fun c _ => c.enter (s.cur, t.pc, s.now)) c
  else s

/-- Read A, B, C; compute each lane; complete or trap; write the destination in every lane computed; retire (DEDUCED, log 5). -/
def mapLanes (i : Instr) (s : State) (op : Team → Opd → Opd → Opd → Res) : Host.Outcome State Fault Refusal :=
  issue i s fun t =>
    match Rows.view i with
    | .r mop _ row src f =>
      tagRs row f src t <|
      let lanes := t.lanesFor row f
      if destBusy t f.ln row.d f.d.toNat f.ty lanes then .error .wait else
      match readFld t row.a f.ln (f.ob.getLsbD 2) f.ea f.ty src f.a.toNat lanes with
      | .error e => .error e
      | .ok as =>
      match readFld t row.b f.ln (f.ob.getLsbD 1) f.eb f.ty src f.b.toNat lanes with
      | .error e => .error e
      | .ok bs =>
      match readFld t row.c f.ln (f.ob.getLsbD 0) f.ec f.ty src f.c.toNat lanes with
      | .error e => .error e
      | .ok cs =>
      let rs := (as.zip (bs.zip cs)).map fun x => op t x.1 x.2.1 x.2.2
      match fpDone t f.ln ((lanes.zip rs).map fun p => (p.1, p.2.exc)) with
      | .error e => .error e
      | .ok u =>
      let w := match row.d with | .genD w => w | .vD w => w | _ => .one
      let t' := (lanes.zip rs).foldl (fun (t : Team) p =>
        t.writeGen f.ln w f.ty f.d.toNat p.1 p.2.v p.2.tag) (t.orFpst u)
      .ok (((s.setTeam t').shadow mop f.ln).retire 8)
    | _ => .ok s

/-- The same for a predicate destination; `consume` makes poisoned sources trap (R314). -/
def mapPred (i : Instr) (s : State) (consume : Bool) (op : Team → Opd → Opd → Opd → Bool × Exc) : Host.Outcome State Fault Refusal :=
  issue i s fun t =>
    match Rows.view i with
    | .r mop _ row src f =>
      tagRs row f src t <|
      let lanes := t.lanesFor row f
      match readFld t row.a f.ln (f.ob.getLsbD 2) f.ea f.ty src f.a.toNat lanes with
      | .error e => .error e
      | .ok as =>
      match readFld t row.b f.ln (f.ob.getLsbD 1) f.eb f.ty src f.b.toNat lanes with
      | .error e => .error e
      | .ok bs =>
      if consume && (as ++ bs).any (fun o => o.tag = tagPoison) then .error (poisonTrap t) else
      let rs := (as.zip bs).map fun x => op t x.1 x.2 {}
      match fpDone t f.ln ((lanes.zip rs).map fun p => (p.1, p.2.2)) with
      | .error e => .error e
      | .ok u =>
      let t' := (lanes.zip rs).foldl (fun (t : Team) p => t.writePred f.ln f.d.toNat p.1 p.2.1) (t.orFpst u)
      .ok (((s.setTeam t').shadow mop f.ln).retire 8)
    | _ => .ok s

/-- The lanes of an F-I instruction. -/
def Team.lanesForI (t : Team) (row : Rows.IRow) (f : IForm) : List Nat :=
  if f.ln then lanesOf (t.laneGuard row.g f.g f.gn) t.nlanes else [0]

/-- The shape of an F-I instruction that computes lane by lane: read A, compute, write D (R105, R60). -/
def mapImm (i : Instr) (s : State) (op : Team → Opd → Res) : Host.Outcome State Fault Refusal :=
  issue i s fun t =>
    match Rows.view i with
    | .i mop _ row f =>
      tagI row f t <|
      let lanes := t.lanesForI row f
      if destBusy t f.ln row.d f.d.toNat .i8 lanes then .error .wait else
      match readFld t row.a f.ln false f.ea .i8 .i8 f.a.toNat lanes with
      | .error e => .error e
      | .ok as =>
      let w := match row.d with | .genD w => w | .vD w => w | _ => .one
      let t' := (lanes.zip as).foldl (fun (u : Team) p =>
        let r := op t p.2
        u.writeGen f.ln w .i8 f.d.toNat p.1 r.v r.tag) t
      .ok (((s.setTeam t').shadow mop f.ln).retire (Rows.size i))
    | _ => .ok s

end Sys2Proof.Machine
end

