-- ==== Sys2Proof/Machine/Packets.lean ====
section
/-! DEFINITION. Packets that leave the device and the answers they get: ports and routes (17 R332-R335, R344, R347), requests of window
accesses (17 R339, R341, 09 R221), the intake record (17 R343). -/
namespace Sys2Proof.Machine

def State.portAt (s : State) (i : Nat) : Port := s.ports.getD i {}
def State.modPort (s : State) (i : Nat) (f : Port → Port) : State := { s with ports := s.ports.set i (f (s.portAt i)) }
def State.reqAt (s : State) (i : Nat) : Option Req := s.reqs[i]?
def State.setReq (s : State) (i : Nat) (r : Req) : State := { s with reqs := s.reqs.set i r }
def State.worldOf (s : State) (ctx : Option Nat) : Option World :=
  match ctx with
  | none => none
  | some c => s.worlds.find? fun w => w.id = (s.ctxAt c).world
def State.modWorld (s : State) (id : Nat) (f : World → World) : State :=
  { s with worlds := s.worlds.map fun (w : World) => if w.id = id then f w else w }

/-- Ports of the route to a device that are UP. -/
def State.portsTo (s : State) (dst : BitVec 12) : List Nat :=
  let m := aget (0 : BitVec 36) s.routes dst.toNat
  (List.range 36).filter fun i => m.getLsbD i && (s.portAt i).st = .up

/-- The port of a flow (R335). -/
def State.portFor (s : State) (src dst : BitVec 12) (exp : BitVec 16) : Option Nat :=
  let ps := s.portsTo dst
  ps[Config.spreadHash src dst exp % ps.length]?

/-- The port that a device's packets arrive on: that of the neighbour, else the first UP one of its route (DESIGN CHOICE, log 11); none where
none is UP. -/
def State.portFrom (s : State) (src : BitVec 12) : Option Nat :=
  match (List.range 36).find? (fun i => (s.portAt i).peer = src && (s.portAt i).st = .up) with
  | some i => some i
  | none => (s.portsTo src).head?
/-- A device is reached in S7 compatibility mode (R347). -/
def State.toS7 (s : State) (dev : BitVec 12) : Bool :=
  match s.portFrom dev with
  | some i => (s.portAt i).major = 1
  | none => false

/-- The highest minor that a peer lists within a major, of those that are not above one's own; one's own where it lists only higher ones (00 R4)
(DESIGN CHOICE, log 32). -/
def bestMinor (own : Nat) (listed : List Nat) : Nat :=
  match listed.filter (· ≤ own) with
  | [] => own
  | ms => ms.foldl max 0
/-- Minors that a list of pairs names within a major. -/
def minorsOf (vers : List (Nat × Nat)) (major : Nat) : List Nat := (vers.filter fun v => v.1 = major).map (·.2)
/-- The version of an interface that two parties settle on (00 R4), `own` being this device's; the fabric has the S7's 1.x too (17 R347). -/
def versionOf (own : Nat × Nat) (fabric : Bool) (vers : List (Nat × Nat)) : Option (Nat × Nat) :=
  if vers.any (fun v => v.1 = own.1) then some (own.1, bestMinor own.2 (minorsOf vers own.1))
  else if fabric && vers.any (fun v => v.1 = 1) then some (1, (minorsOf vers 1).foldl max 0) else none

/-- Fields that an S7 link does not carry (R347). -/
def s7Strip (p : Packet) : Packet := { p with gen := 0, otag := 0, kind := 0, obs := 0, scales := 0 }

def flits (p : Packet) : Nat := if p.line.isEmpty then 1 else 3

/-- Send what the window of 255 and the credits allow: in order within a class, and a class without credit holds no other back (R332). -/
def sendReady : Nat → Port → Port
  | 0, pt => pt
  | fuel + 1, pt =>
    let credit (p : Packet) : Nat := aget 0 pt.credits p.cls.toNat
    match pt.queue.findIdx? fun p => credit p ≠ 0 with
    | none => pt
    | some k =>
      match pt.queue[k]? with
      | none => pt
      | some p =>
        if 255 ≤ pt.unacked.length then pt else
        sendReady fuel { pt with queue := pt.queue.eraseIdx k, unacked := pt.unacked ++ [{ p with seq := pt.seq }], seq := pt.seq + 1,
                                 credits := aset 0 pt.credits p.cls.toNat (credit p - 1) }
def pump (pt : Port) : Port := if pt.st = .up then sendReady pt.queue.length pt else pt

/-- How many runs the flits of a packet close on a port in S7 mode. -/
def Port.runsClosed (pt : Port) (world n flits : Nat) : Nat := ((aget (0, 0) pt.runs world).1 + flits) / n
/-- The flits of a world on a port in S7 mode: a tag flit follows every run of them (20 R398). -/
def Port.runFlits (pt : Port) (world n flits now : Nat) : Port :=
  let open_ := (aget (0, 0) pt.runs world).1 + flits
  { pt with runs := aset (0, 0) pt.runs world (if open_ % n = 0 then (0, 0) else (open_ % n, now)), tagFlits := pt.tagFlits + open_ / n }

/-- Packets that a fabric key protects: data and collective ones (20 R397). -/
def underKey (p : Packet) : Bool := p.cls = 0 || p.cls = 1 || p.cls = 3
/-- A fabric port's invocations under the fabric key of a world are counted (20 R393). -/
def State.countSent (s : State) (world port n : Nat) : State :=
  s.modWorld world fun w => { w with sent := aset 0 w.sent port (aget 0 w.sent port + n) }
/-- Put a packet of a world on a port. Under a fabric key a packet carries the port's next COUNT and its number (20 R393, R397), and waits
where that stands at its limit (20 R394); in S7 mode its flits join a run, whose tag is one invocation (20 R398). -/
def State.enqueueFor (s : State) (w : Option World) (i : Nat) (p : Packet) : State :=
  let s7 := (s.portAt i).major = 1
  let put (p : Packet) (s : State) : State := s.modPort i fun pt => pump { pt with queue := pt.queue ++ [p] }
  let q := if s7 then s7Strip p else p
  match w with
  | none => put q s
  | some w =>
    if !w.fabricKey || !underKey p then put q s else
    let n := aget 0 w.sent i
    if 2 ^ 32 - 1 ≤ n then s.modPort i fun pt => { pt with stalled := pt.stalled ++ [(w.id, p)] }
    else if s7 then
      put q ((s.countSent w.id i ((s.portAt i).runsClosed w.id (max w.runLen 1) (flits p))).modPort i fun pt =>
        pt.runFlits w.id (max w.runLen 1) (flits p) s.now)
    else put { q with count := BitVec.ofNat 32 n, fport := BitVec.ofNat 8 i } (s.countSent w.id i 1)
def State.enqueue (s : State) (ctx : Option Nat) (i : Nat) (p : Packet) : State := s.enqueueFor (s.worldOf ctx) i p
/-- A new epoch, or a new fabric key, stands at every port of the device (20 R394, R395, R397): counts begin again, and what has waited goes. -/
def State.newFabricEpoch (s : State) (world : Nat) : State :=
  (indices s.ports).foldl (fun (s : State) i =>
    let mine := ((s.portAt i).stalled.filter fun x => x.1 = world).map (·.2)
    let s := s.modPort i fun pt =>
      { pt with stalled := pt.stalled.filter fun x => x.1 ≠ world, heard := pt.heard.filter fun h => h.1 / 256 / 4096 ≠ world }
    mine.foldl (fun (s : State) p => s.enqueueFor (s.worlds.find? fun w => w.id = world) i p) s)
    (s.modWorld world fun w => { w with sent := [] })

/-- A replayable context runs in epochs (21 R417): while its job runs, and while its arrivals are recorded (DESIGN CHOICE, log 21). -/
def State.inEpoch (s : State) (ctx : Option Nat) : Bool :=
  match ctx with
  | none => false
  | some c => let x := s.ctxAt c; x.replayable && ((x.hasJob && !x.holdJob) || (x.recorder.on && x.recorder.what.getLsbD 3))
/-- Its ports replay a log: what it sends is absorbed, and nothing live reaches it (21 R419). -/
def State.replaying (s : State) (ctx : Option Nat) : Bool :=
  match ctx with
  | none => false
  | some c => (s.ctxAt c).replay.isSome
/-- How many requests of the context stand before request `i`, from the start of the recording or the replay: its name where a recording names
it (21 R418, DESIGN CHOICE, log 21). -/
def State.reqNumber (s : State) (c i : Nat) : Nat := ((s.reqs.take i).filter fun r => r.ctx = some c).length - (s.ctxAt c).reqBase
/-- A transaction id that no request has which is out: the number of the request in its context, or the next such (DESIGN CHOICE, log 11). -/
def freeXid (used : List Nat) : Nat → Nat → Nat
  | 0, n => n % 65536
  | fuel + 1, n => if used.contains (n % 65536) then freeXid used fuel (n + 1) else n % 65536
def State.nextXid (s : State) (ctx : Option Nat) : BitVec 16 :=
  let used := (s.reqs.filter fun r => r.st = .out).map fun r => r.xid.toNat
  BitVec.ofNat 16 (freeXid used used.length (s.reqs.filter fun r => r.ctx = ctx).length)
/-- The header of a packet that such a context sends joins its epoch's, as the port sends it (21 R418), a request's under its name
(DESIGN CHOICE, log 21). -/
def State.noteSent (s : State) (ctx : Option Nat) (p : Packet) : State :=
  match ctx with
  | none => s
  | some c =>
    let s7 : Bool := match s.portFor p.src p.dst p.exp with | some i => (s.portAt i).major = 1 | none => false
    let q := if s7 then s7Strip p else p
    let q := if q.cls = 0 then { q with xid := BitVec.ofNat 16 (s.reqNumber c s.reqs.length - 1) } else q
    if s.inEpoch ctx || s.replaying ctx then s.modCtx c fun x => { x with sentHeads := x.sentHeads ++ [{ q with seq := 0, line := [] }] } else s
/-- An arrival for a context: held until its epoch ends, or delivered (21 R417). -/
def State.arrive (s : State) (ctx : Option Nat) (i : Instr) (deliver : State → State) : State :=
  match ctx with
  | some c =>
    if s.replaying ctx then s
    else if s.inEpoch ctx then s.modCtx c fun x => { x with held := x.held ++ [i] } else deliver s
  | none => deliver s

/-- Send a packet; nothing when no port of its route is UP. -/
def State.send (s : State) (ctx : Option Nat) (p : Packet) : Option State :=
  if s.replaying ctx then some (s.noteSent ctx p) else
  match s.portFor p.src p.dst p.exp with
  | none => none
  | some i => some ((s.noteSent ctx p).enqueue ctx i p)

/-- The intake record (R343). -/
def State.intakeRecord (s : State) (r : Req) (cause : BitVec 8) : State :=
  match r.ctx with
  | none => s
  | some c =>
    let base := (s.ctxAt c).intake
    if base = 0 then s else
    let head := s.fwLoad (base + 16384) 8
    let tail := s.fwLoad (base + 16400) 8          -- software writes it
    if (head + 2 ^ 64 - tail) % 2 ^ 64 = 1024 then s.fwStore (base + 16392) (leBytes 8 (s.fwLoad (base + 16392) 8 + 1)) else
    let rec_ := leBytes 3 r.own.toNat ++ [cause] ++ leBytes 2 r.exp.toNat ++ leBytes 2 r.dst.toNat ++ leBytes 8 r.addr ++
      leBytes 8 (s.dieAt r.die).dcyc.toNat ++ [BitVec.ofNat 8 r.kind, BitVec.ofNat 8 r.die] ++ List.replicate 6 0
    (s.fwStore (base + 32768 + 32 * (head % 1024)) rec_).fwStore (base + 16384) (leBytes 8 (head + 1)) 0x03

/-- Fill a lane of a refused access (09 R221, 17 R342). -/
def Team.fillRefused (t : Team) (a : Access) (lane : Nat) (timeout : Bool) : Team :=
  let tag := if timeout then tagRtimeout else tagRfault
  match a.dst with
  | .none => t
  | .s n cnt =>
    let t := t.setS n (BitVec.ofNat 64 a.own.toNat) tag
    if cnt = 2 then t.setS (n + 1) (BitVec.ofNat 64 a.own.toNat) tag else t
  | .v n cnt => (List.range cnt).foldl (fun t q => t.writeV (n + q) lane (BitVec.ofNat 32 a.own.toNat) tag) t
  | .c n => t.setC n (capNull tag)
  | .quad n => (List.range 4).foldl (fun t q => t.writeV (n + q) lane (BitVec.ofNat 32 a.own.toNat) tag) t

/-- Insert an answered piece by its address. -/
def insertGot (x : Nat × Nat × List Byte × Tag) : List (Nat × Nat × List Byte × Tag) → List (Nat × Nat × List Byte × Tag)
  | [] => [x]
  | y :: ys => if x.2.1 < y.2.1 then x :: y :: ys else y :: insertGot x ys

/-- A lane of a window access has all its answers: its destination is filled, or the latch takes a failed store (09 R221). -/
def Team.windowLane (t : Team) (a : Access) (lane : Nat) (host : Bool) : Team :=
  let mine := a.got.filter fun g => g.1 = lane
  match a.fails.find? (fun f => f.1 = lane) with
  | some (_, addr, cause) =>
    let timeout := cause = cREMOTE_TIMEOUT
    if a.isStore then
      if t.latch.isSome then t else
      { t with latch := some { cause := if timeout then cREMOTE_TIMEOUT else cREMOTE_FAULT, addr := BitVec.ofNat 64 addr, site := a.own, host := host } }
    else t.fillRefused a lane timeout
  | none =>
    if a.isStore then t else
    let bytes := mine.flatMap (·.2.2.1)
    let tag := if mine.any (fun g => g.2.2.2 = tagPoison) then tagPoison else ((mine.getLast?.map (·.2.2.2)).getD tagZeroed)
    match a.kind with
    | .loadCap => t.fillCap a.dst lane bytes tag false
    | _ => t.fill a.dst lane bytes tag

/-- An answer reaches a team's access: when no request of the lane is out the lane completes, when none of the access is, it is over. -/
def State.accessAnswer (s : State) (team acc lane req : Nat) (host s7 : Bool)
    (piece : Except (Nat × BitVec 8) (Nat × List Byte × Tag)) : State :=
  let t := s.teamAt team
  match t.outs.find? (fun a => a.id = acc) with
  | none => s
  | some a =>
    let a := { a with reqs := a.reqs.filter fun r => r.1 ≠ req
                      got := match piece with | .ok (x, bs, tag) => insertGot (lane, x, bs, tag) a.got | .error _ => a.got
                      fails := match piece with | .ok _ => a.fails | .error (x, c) => a.fails ++ [(lane, x, c)] }
    let t := if a.reqs.any (fun r => r.2 = lane) then t else t.windowLane a lane host
    let outs := if a.reqs.isEmpty then t.outs.filter fun x => x.id ≠ acc
                else t.outs.map fun x => if x.id = acc then a else x
    let s := s.setTeamAt team { t with outs := outs }
    -- an acquire has its value: the core's copies go before a later load (10 R244); as for all classes from an S7 (R347)
    if a.reqs.isEmpty && a.ord.getLsbD 0 then s.acquireL1 (s.crewAt t.crew).place (if s7 then 0x7F else a.obs) else s

/-- Packet classes and operations (Table 17-3). -/
def opREAD : BitVec 6 := 0x01
def opREAD_ACQ : BitVec 6 := 0x02
def opWRITE : BitVec 6 := 0x04
def opWRITE_REL : BitVec 6 := 0x05
def opATOMIC (ord : BitVec 2) : BitVec 6 := 0x08 + ord.setWidth 6
def opDATA : BitVec 6 := 0x01
def opACK : BitVec 6 := 0x02
def opNACK : BitVec 6 := 0x03

/-- An answer to a request of another device: its fields are copied, its line is empty or whole. -/
def answerTo (p : Packet) (op : BitVec 6) (line : List Byte) : Packet :=
  { p with cls := 1, op := op, src := Config.deviceId, dst := p.src, gen := 0, otag := 0, kind := 0, obs := 0, seq := 0, scales := 0, line := line
           count := 0, fport := 0, tagOk := true, relay := none, owner := none, judged := false }
/-- A line image with bytes at an offset. -/
def lineWith (off : Nat) (bs : List Byte) : List Byte := (List.replicate off 0 ++ bs ++ List.replicate 64 0).take 64

/-- What the initiator of a relayed request is told. -/
def relayAnswer (p : Packet) (r : Req) (res : ReqState) : Packet :=
  match res with
  | .data line tag kind scales =>
    { answerTo p opDATA (lineWith p.first.toNat ((line.drop (r.addr % 64)).take r.len)) with otag := tag, kind := kind, scales := scales }
  | .refused c => answerTo p opNACK (c :: List.replicate 63 0)
  | _ => answerTo p opACK []

/-- A request is over: its owner learns, and a failure is recorded (R341, R343). -/
def State.closeReq (s : State) (i : Nat) (res : ReqState) : State :=
  match s.reqAt i with
  | none => s
  | some r =>
    if r.st ≠ .out then s else
    let s := s.setReq i { r with st := res }
    let s := match res, r.owner with
      | .refused _, .firmware | .refused _, .relay _ => s
      | .refused c, _ => s.intakeRecord r c
      | _, _ => s
    match r.owner with
    | .firmware | .command _ | .fetch _ => s
    | .relay p => (s.send r.ctx (relayAnswer p r res)).getD s
    | .access team acc lane =>
      let s7 := s.toS7 r.dst
      match res with
      | .refused c => s.accessAnswer team acc lane i r.host s7 (.error (r.va, c))
      | .data line tag _ _ => s.accessAnswer team acc lane i r.host s7 (.ok (r.va, (line.drop (r.addr % 64)).take r.len, tag))
      | _ => s.accessAnswer team acc lane i r.host s7 (.ok (r.va, [], tagZeroed))

/-- A request whose deadline has come: it is treated as refused (R341); in a replayable context at the end of the epoch (21 R417). -/
def State.timeoutReq (s : State) (i : Nat) : State :=
  match s.reqAt i with
  | none => s
  | some r =>
    let waits := match r.ctx with | some c => (s.ctxAt c).held.contains (.fabricTimeout i) | none => false
    if r.st ≠ .out || s.now < r.deadline || waits then s
    else s.arrive r.ctx (.fabricTimeout i) fun s => s.closeReq i (.refused cREMOTE_TIMEOUT)
/-- No request is out past its deadline (R341, 10 R252). -/
def State.timeouts (s : State) : State := (indices s.reqs).foldl State.timeoutReq s

/-- A port refuses a packet that it holds: its initiator gets a NACK. -/
def State.refuseAt (s : State) (ctx : Option Nat) (p : Packet) (cause : BitVec 8) : State :=
  let a := answerTo p opNACK (cause :: List.replicate 63 0)
  match s.portFor a.src a.dst a.exp with
  | none => s
  | some i => s.enqueue ctx i a

/-- A request packet for `len` bytes at a window address. -/
def requestPacket (r : Req) (op : BitVec 6) (tag : Tag) (obs : BitVec 8) (line : List Byte) : Packet :=
  { cls := 0, op := op, first := BitVec.ofNat 6 (r.addr % 64), last := BitVec.ofNat 6 (r.addr % 64 + r.len - 1)
    src := Config.deviceId, dst := r.dst, exp := r.exp, xid := r.xid, gen := 0, otag := tag, kind := 0
    obs := obs.setWidth 7, addr := BitVec.ofNat 56 (r.addr / 64 * 64), seq := 0, scales := 0, line := line }

/-- The NACK REMOTE_FAULT of the local port to request i (R335, R344): an arrival. -/
def State.localNack (s : State) (i : Nat) : State :=
  match s.reqAt i with
  | none => s
  | some r =>
    s.arrive r.ctx
      (.nack { cls := 1, op := opNACK, first := 0, last := 63, src := Config.deviceId, dst := Config.deviceId, exp := r.exp, xid := r.xid
               gen := 0, otag := 0, kind := 0, obs := 0, addr := 0, seq := 0, scales := 0, line := cREMOTE_FAULT :: List.replicate 63 0 })
      fun s => s.closeReq i (.refused cREMOTE_FAULT)

/-- A replay's log holds the local NACK of a request, which no port has sent (21 R418, R419). -/
def State.replayRefuses (s : State) (ctx : Option Nat) (n : Nat) : Bool :=
  match ctx.bind fun c => (s.ctxAt c).replay with
  | none => false
  | some r => r.log.any fun x => match x with | .arrival _ _ 5 p => p.xid = BitVec.ofNat 16 n | _ => false

/-- Issue a request; one without an UP port on its route is refused by the local port (R335). -/
def State.request (s : State) (r : Req) (op : BitVec 6) (tag : Tag) (obs : BitVec 8) (line : List Byte)
    (kind : BitVec 2 := 0) (scales : BitVec 32 := 0) : State :=
  let i := s.reqs.length
  let n := match r.ctx with | some c => s.reqNumber c i | none => 0
  let r := { r with xid := s.nextXid r.ctx }
  let s := { s with reqs := s.reqs ++ [r] }
  if s.replayRefuses r.ctx n then s else
  match s.send r.ctx { requestPacket r op tag obs line with kind := kind, scales := scales } with
  | some s => s
  | none => s.localNack i

/-- Pieces of [a, a + n) by line: address, length. `fuel` bounds the lines. -/
def linePieces : Nat → Nat → Nat → List (Nat × Nat)
  | 0, _, _ => []
  | fuel + 1, a, n =>
    if n = 0 then [] else
    let k := min n (64 - a % 64)
    (a, k) :: linePieces fuel (a + k) (n - k)

/-- Payload of an ATOMIC (Table 17-3). -/
def atomOpcode (op : AtomOp) (size : Nat) : Nat :=
  match op with
  | .add => 0 | .min => 1 | .max => 2 | .and => 3 | .or => 4 | .xor => 5 | .xch => 6 | .minu => 7 | .maxu => 8 | .cas => 9
  | .fadd => if size = 2 then 10 else if size = 4 then 11 else 12
def atomPayload (op : AtomOp) (size : Nat) (x new : List Byte) : List Byte :=
  (((x ++ List.replicate 8 0).take 8 ++ (new ++ List.replicate 8 0).take 8) ++
    [BitVec.ofNat 8 (atomOpcode op size), BitVec.ofNat 8 (Nat.log2 size)] ++ List.replicate 64 0).take 64

/-- The part of a window access that one request performs (R339): the lane, the access's own address, where it goes. -/
structure Piece where
  lane : LaneAcc
  va : Nat
  len : Nat
  dst : BitVec 12
  exp : BitVec 16
  at_ : Nat
  host : Bool
  deriving DecidableEq, Repr

/-- The request of one piece of access `a`. -/
def State.sendPiece (s : State) (team : Nat) (a : Access) (p : Piece) : State :=
  let c := s.crewAt (s.teamAt team).crew
  let timeout := match c.ctx with | none => 2000000 | some x => (s.ctxAt x).fabricTimeout
  let r : Req :=
    { owner := .access team a.id p.lane.lane, xid := 0, dst := p.dst, exp := p.exp, addr := p.at_, va := p.va, len := p.len, host := p.host
      kind := if a.isStore then 1 else if a.isAtom then 2 else 0
      own := a.own, ctx := c.ctx, die := c.die, deadline := s.now + timeout }
  match a.kind with
  | .atom op =>
    -- the tag of the stored value (09 R226)
    let tag :=
      if p.lane.tag = tagPoison || p.lane.tag2 = tagPoison then tagPoison else
      match op with
      | .xch => p.lane.tag
      | .cas => p.lane.tag2
      | _ => if a.rule = ruleFrozen then tagImm else a.own
    s.request r (opATOMIC a.ord) tag a.obs (atomPayload op a.size p.lane.data p.lane.data2)
  | .store | .storeCap =>
    s.request r (if a.ord.getLsbD 1 then opWRITE_REL else opWRITE) p.lane.tag a.obs
      (lineWith (p.at_ % 64) ((p.lane.data.drop (p.va - p.lane.addr)).take p.len))
  | _ => s.request r (if a.ord.getLsbD 0 then opREAD_ACQ else opREAD) 0 a.obs []

/-- Issue a window access: it knows all its requests before any of them can be answered. -/
def State.issueWindow (s : State) (team : Nat) (a : Access) (ps : List Piece) : State :=
  let base := s.reqs.length
  let s := s.modTeam team fun t =>
    { t with outs := t.outs ++ [{ a with reqs := (ps.zip (List.range ps.length)).map fun p => (base + p.2, p.1.lane.lane) }] }
  ps.foldl (fun (s : State) p => s.sendPiece team a p) s

/-! What the firmware reads and writes through exports of other devices. -/

/-- A request of the firmware for a context. -/
def State.ownReq (s : State) (ctx : Option Nat) (dst : BitVec 12) (exp : BitVec 16) (a n kind : Nat) : Req :=
  { owner := .firmware, xid := 0, dst := dst, exp := exp, addr := a, va := a, len := n, kind := kind, own := tagExternal, ctx := ctx, die := 0
    host := Config.isHost dst, deadline := s.now + (match ctx with | none => 2000000 | some c => (s.ctxAt c).fabricTimeout) }
/-- Bytes are read, a READ for each line (R341); whether they have come. What they are is with who asks, and whether a read is refused or passes
its deadline a free value (DESIGN CHOICE, log 20). -/
def State.readOut (s : State) (ctx : Option Nat) (dst : BitVec 12) (exp : BitVec 16) (off n : Nat) : State × Bool :=
  if n = 0 then (s, true) else
  let base := s.reqs.length
  let s1 := (linePieces (n / 64 + 2) off n).foldl (fun (s : State) p => s.request (s.ownReq ctx dst exp p.1 p.2 0) opREAD 0 0 []) s
  let s1 := { s1 with tick := s1.tick + 1, reqs := s1.reqs.take base ++ (s1.reqs.drop base).map fun (r : Req) => { r with st := .acked } }
  -- a port's own NACK goes to the firmware at once
  (match ctx with | some c => s1.modCtx c fun x => { x with held := (s.ctxAt c).held } | none => s1,
   s.replaying ctx || ((s.portFor Config.deviceId dst exp).isSome && !Config.readRefused s.tick))
/-- Bytes are written with WRITE_REL, a request for each line (R341). -/
def State.writeOut (s : State) (ctx : Option Nat) (dst : BitVec 12) (exp : BitVec 16) : List (Nat × Nat) → List Byte → State
  | [], _ => s
  | (a, n) :: rest, bs =>
    (s.request (s.ownReq ctx dst exp a n 1) opWRITE_REL tagExternal obsHost (lineWith (a % 64) (bs.take n))).writeOut ctx dst exp rest (bs.drop n)

end Sys2Proof.Machine
end

