-- ==== Sys2Proof/Machine/Counters.lean ====
section
/-! DEFINITION. The counters of a recording (21 R406): each cycle every issue slot of a core goes to one leaf. The order of the teams is open, and
the leaf of a team that has not moved in a cycle (DESIGN CHOICE, log 21). -/
namespace Sys2Proof.Machine

/-- The cores that a recording counts, as (context, core). -/
def State.countedCores (s : State) : List (Nat × Nat) :=
  (indices s.contexts).flatMap fun c =>
    let r := (s.ctxAt c).recorder
    if r.on && (r.what.getLsbD 0 || r.what.getLsbD 2) then ((List.range 256).filter fun p => r.dies.getLsbD (p / 64)).map fun p => (c, p) else []
def countSlot (c p : Nat) : Nat := c * 256 + p
def State.slotsOf (s : State) (c p : Nat) : SlotCount := aget {} s.slotCounts (countSlot c p)
def SlotCount.charge (k : SlotCount) (leaf n : Nat) : SlotCount := { k with leaves := k.leaves.set leaf (k.leaves.getD leaf 0 + n) }

/-- What an instruction issues in the present cycle: passes in ascending order while a slot of the kind is open and, for one that takes the lane
port, the port is free (06 R156, 09 R205); and what is left. -/
def SlotCount.run (k : SlotCount) (lane : Bool) : List (Nat × Nat) → SlotCount × List (Nat × Nat)
  | [] => (k, [])
  | (leaf, cycles) :: rest =>
    if (if lane then k.laneOpen else k.scalarOpen) = 0 || (cycles ≠ 0 && k.portBusy ≠ 0) then (k, (leaf, cycles) :: rest) else
    let k := k.charge leaf 1
    let k := if lane then { k with laneOpen := k.laneOpen - 1 } else { k with scalarOpen := k.scalarOpen - 1 }
    (if cycles = 0 then k else { k with portBusy := cycles }).run lane rest
/-- An instruction is to issue: now as far as it can, unless its team has issued in the cycle or has passes of an earlier one to issue (06 R156). -/
def SlotCount.take (k : SlotCount) (x : Issue) : SlotCount :=
  if x.passes.isEmpty then k else
  if k.issued.contains x.team || k.owed.any (fun o => o.team = x.team) then { k with owed := k.owed ++ [x] } else
  let r := k.run x.lane x.passes
  { r.1 with
    issued := if r.2.length < x.passes.length then k.issued ++ [x.team] else k.issued
    owed := if r.2.isEmpty then k.owed else k.owed ++ [{ x with passes := r.2 }] }

/-- The leaves of Table 21-4 that a team which has not issued can give a slot, as context c counts it. Of a team of which the state does not show
what it waits for, KIND and LANEPORT only where slots of a kind, or the port, are taken (DESIGN CHOICE, log 21). -/
def State.idleLeaves (s : State) (c : Nat) (k : SlotCount) (i : Nat) : List Nat :=
  let t := s.teamAt i
  let cr := s.crewAt t.crew
  if cr.ctx ≠ some c then [12] else
  match k.owed.find? fun o => o.team = i with
  | some o => if k.portBusy ≠ 0 && (o.passes.headD (0, 0)).2 ≠ 0 then [8] else [9]
  | none =>
    if t.wait.isSome || t.st = .stopped || t.halted || cr.state = .saving then [4]
    else if t.codeReq.isSome then [5]
    else if t.acquiring || (t.stalled && t.ordered) then [6]
    else if t.stalled then [7]
    else [5, 6, 7] ++ (if k.portBusy ≠ 0 then [8] else []) ++ (if k.laneOpen = 0 || k.scalarOpen = 0 then [9] else [])
/-- The leaf of the slots of core p that issue nothing in the present cycle. -/
def State.idleLeaf (s : State) (c p pick : Nat) (k : SlotCount) : Nat :=
  let teams := (s.crewsOn p).flatMap s.crewTeams
  let idle := teams.filter fun i => (s.teamAt i).alive && !k.issued.contains i
  let set := if teams.isEmpty then [11] else if idle.isEmpty then [10] else distinct (idle.flatMap (s.idleLeaves c k))
  set.getD (pick % set.length) 10
/-- The open slots of the present cycle are charged; known-answer operations use some of them. -/
def State.closeSlots (s : State) (c p : Nat) (pick : Nat → Nat) (k : SlotCount) : SlotCount :=
  let n := k.laneOpen + k.scalarOpen
  { k.charge (s.idleLeaf c p (pick 0) k) n with laneOpen := 0, scalarOpen := 0, kat := k.kat + pick 2 % (n + 1) }
/-- The next cycle begins: what has waited issues in it, the teams in round-robin order from one of them. -/
def SlotCount.next (k : SlotCount) (pick : Nat → Nat) : SlotCount :=
  let first := (k.owed.getD (pick 1 % max k.owed.length 1) { team := 0, lane := true, passes := [] }).team
  ((k.owed.filter fun o => first ≤ o.team) ++ k.owed.filter fun o => o.team < first).foldl SlotCount.take
    { k with laneOpen := 4, scalarOpen := 2, portBusy := k.portBusy - 1, issued := [], owed := [] }
/-- n cycles end. -/
def State.countCycles (s : State) (n : Nat) : State :=
  { s with slotCounts := s.countedCores.foldl (fun m x =>
      let key := countSlot x.1 x.2
      aset {} m key ((List.range n).foldl (fun k j =>
        let pick := Config.counted (s.now + j) key
        (s.closeSlots x.1 x.2 pick k).next pick) (aget {} m key))) s.slotCounts }

end Sys2Proof.Machine
end

