-- ==== Sys2Proof/Machine/Fetch.lean ====
section
/-! DEFINITION. What surrounds an instruction: the passing of time, the fetch and decoding of a word (02 R51, R54), hardware
breakpoints (21 R413), and a helper that places an instruction for the next step. -/
namespace Sys2Proof.Machine

/-! The end of a debugger (21 R415, R416). -/

def State.modDbg (s : State) (c : Nat) (f : Debugger → Debugger) : State := s.modCtx c fun x => { x with dbg := f x.dbg }

/-- A halted team runs on: past an event at `trappc`, where a breakpoint passes once; past `halt` and HALT at its pc (R415). -/
def State.resumeTeam (s : State) (i steps : Nat) : State :=
  s.modTeam i fun t =>
    let t := { t with steps := steps, stepPending := false }
    if !t.halted then t
    else if t.byEvent then { t with halted := false, byEvent := false, pc := t.trappc, bpSkip := true, half := none, code := [], codeReq := none }
    else { t with halted := false }

/-- Teams of a context. -/
def State.teamsOf (s : State) (c : Nat) : List Nat :=
  (indices s.teams).filter fun i => (s.crewAt (s.teamAt i).crew).ctx = some c
/-- DETACH. -/
def State.detachDbg (s : State) (c : Nat) : State :=
  (s.teamsOf c).foldl (fun (s : State) i => s.resumeTeam i 0) (s.modDbg c fun d => { seq := d.seq })

/-- Debuggers whose lease is over are detached (21 R416). -/
def State.leases (s : State) : State :=
  (indices s.contexts).foldl (fun (s : State) c =>
    if (s.ctxAt c).dbg.attached && (s.ctxAt c).dbg.until_ ≤ s.now then s.detachDbg c else s) s

/-! Time (00 R2, R3). -/

/-- Cycles pass: the slots of recorded cores are charged; every die's counter moves, and `tcyc` of the resident crews of contexts that are not
replayable (14 R319). Stores that have waited for R244's bound are performed, L1 copies of that age go, the oldest entries of the replay queues
are recomputed, at most four a cycle (14 R321), requests past their deadline and leases end. -/
def State.pass (s : State) (n : Nat) : State :=
  if n = 0 then s else
  let s := { s.countCycles n with
    now := s.now + n
    dies := s.dies.map fun (d : DieSt) => { d with dcyc := d.dcyc + BitVec.ofNat 64 n }
    crews := s.crews.map fun (c : Crew) =>
      if (c.state = CrewState.resident || c.state = CrewState.saving) && !s.replayable c.ctx then
        { c with tcyc := c.tcyc + BitVec.ofNat 64 n, used := c.used + n } else c }
  let s := (indices s.teams).foldl (fun s i => s.expire i) s
  let s := { s with cores := (s.cores.zip (indices s.cores)).map fun (x : CoreSt × Nat) =>
      let c := x.1
      let c := if c.replayQ.isEmpty then c else { c with replayQ := c.replayQ.drop (min (4 * n) (Config.recomputed s.now x.2)) }
      if c.l1.isEmpty then c else { c with l1 := c.l1.filter fun e => s.now < e.2 + Config.storeDeadline } }
  s.timeouts.leases

/-! Fetch. -/

/-- Read an 8-byte word for a team; `none` when its line is in error. One on a REMOTE page comes through the window, a line at a time (09 R237):
the team waits for the line. -/
def State.codeWord (s : State) (t : Team) (a : Nat) : Except Stop (Option Nat) :=
  match (if s.inRom t then none else s.ctxOf t) with
  | none => .ok (some (Config.romWord (s.crewAt t.crew).die a))
  | some c =>
    match s.translate (some c) { x := true, compt := s.comptOf t } a 8 with
    | .error (bad, cause) => .error (trapNow t cause 0 (everyLane t bad))
    | .ok (_, true) =>
      match t.code.find? (fun e => e.1 = a / 64 * 64) with
      | some e => .ok (some (leNat ((e.2.drop (a % 64)).take 8)))
      | none => .error .wait
    | .ok (runs, false) => if (linesOf runs).any s.mem.bad then .ok none else .ok (some (leNat (readRuns s.mem runs)))

/-- Check c31 for a fetch and read the word (R51). -/
def State.fetchWord (s : State) (t : Team) (a : Nat) : Except Stop (Option Nat) :=
  match capCheck (s.codeRoots t) (s.checker t anyKind) (t.c.getD 31 {}) a 8 pX true with
  | some cause => .error (trapNow t cause 0 (everyLane t a))
  | none => s.codeWord t a

/-- The row of a `pmap` word is the operation in its s register (09 R235). -/
def refine (t : Team) (i : Instr) : Instr :=
  match i with
  | .pmapMap f =>
    match (t.sreg f.data.toNat).v.toNat % 8 with
    | 1 => .pmapUnmap f
    | 2 => .pmapProtect f
    | 3 => .pmapMigrateIn f
    | _ => .pmapMap f
  | i => i

/-- The first word: one that has been fetched already stands, whatever a store has put there since (R54). -/
def State.firstWord (s : State) (t : Team) : Except Stop (Option Nat) :=
  match s.fetchWord t t.pc.toNat, t.half with
  | .ok (some _), some w => .ok (some w)
  | x, _ => x

/-- Fetch and decode (R51); `none` when an uncorrectable error is found in a fetched word (14 R315). The word after address 2^57 - 8 is that at 0
(DESIGN CHOICE, log 39). -/
def State.fetch (s : State) (t : Team) : Except Stop (Option Instr) :=
  match s.firstWord t with
  | .error e => .error e
  | .ok none => .ok none
  | .ok (some w) =>
    if isLit w then
      match s.fetchWord t ((t.pc.toNat + 8) % 2 ^ 57) with
      | .error e => .error e
      | .ok none => .ok none
      | .ok (some x) => .ok (some (readInstr w x))
    else .ok (some (refine t (readInstr w 0)))

/-- The moving team's fetch waits for a line of a REMOTE page: it is asked for, and kept when it has come; one that is refused traps (DESIGN
CHOICE, log 6). -/
def State.codeFetch (s : State) : State :=
  let t := s.team
  match t.codeReq with
  | some q =>
    match s.reqAt q with
    | none => s
    | some r =>
      match r.st with
      | .out => s
      | .refused c =>
        (s.setTeam { t with codeReq := none, code := [] }).takeTrap s.cur
          { cause := if c = cREMOTE_TIMEOUT then cREMOTE_TIMEOUT else cREMOTE_FAULT, pc := t.pc, addr := everyLane t r.va }
      | .data line _ _ _ => s.setTeam { t with codeReq := none, code := t.code ++ [(r.va, line)] }
      | .acked => s
  | none =>
    match s.ctxOf t with
    | none => s
    | some c =>
      let first := t.pc.toNat / 64 * 64
      let a := if t.code.any (fun e => e.1 = first) then (t.pc.toNat + 8) % 2 ^ 57 / 64 * 64 else first
      match findMap (s.ctxAt c).maps a with
      | none => s
      | some m =>
        let far := Config.remotePage c m.va
        let r : Req :=
          { owner := .fetch s.cur, xid := 0, dst := (s.ctxAt c).creator, exp := far.1, addr := far.2.toNat + (a - m.va), va := a, len := 64, kind := 0
            own := s.ownTag t, ctx := some c, die := (s.crewAt t.crew).die, host := true, deadline := s.now + (s.ctxAt c).fabricTimeout }
        (s.setTeam { t with codeReq := some s.reqs.length, stalled := true }).request r opREAD 0 0 []

/-- A breakpoint armed at the team's pc (21 R413). -/
def State.breakpointAt (s : State) (t : Team) : Option Nat :=
  match s.attached t with
  | none => none
  | some c =>
    if t.frame.isSome || t.mode = .firm || s.comptOf t ≠ 0 || t.bpSkip then none else
    ((s.ctxAt c).dbg.bps.find? (fun b => b.2.addr = t.pc && (b.2.teamid = 0xFFFFFFFF || b.2.teamid = t.teamid.setWidth 32))).map (·.1)

/-- The word is an instruction that the team may run (R51, R66). -/
def admissible (t : Team) (i : Instr) : Bool := Rows.legal t.vregs i && modeRank (Rows.mode i) ≤ modeRank t.mode && (srCause t i).isNone

/-! Waits on a timeline (11 R262, R267, 18 R379). -/

/-- The lowest unreported fault that a wait for `v` covers. -/
def Timeline.covered (tl : Timeline) (v : Nat) : Option CmdFault :=
  (tl.faults.filter fun f => f.n ≤ v).foldl (fun (b : Option CmdFault) f =>
    match b with | none => some f | some g => if f.n < g.n then some f else some g) none

/-- The record of ENGINE_FAULT (R267). -/
def engineFault (t : Team) (q : Nat) (f : CmdFault) (pc : VAddr) : TrapRec :=
  { cause := cENGINE_FAULT, pc := pc, addr := List.replicate t.nlanes f.addr
    tagA := BitVec.ofNat 24 (q * 256 + f.cause.toNat), tagB := BitVec.ofNat 24 f.n, fault := some (q, f.n) }

/-- A yielding `push` in its wait: the team stays, or acquires what it has waited for (R262) and traps with `trappc` at the target, or resumes
there (R259). -/
def State.pushWait (s : State) (q n : Nat) (target : VAddr) : State :=
  let t := s.team
  let tl := s.timeline t.crew q
  if tl.value < n then s else
  let s := s.acquireL1 (s.crewAt t.crew).place (queueObs q)
  match tl.covered n with
  | some f => (s.setTeam { t with wait := none }).takeTrap s.cur (engineFault t q f target)
  | none => s.retireTo target

/-! What a turn does before an instruction (14 R301, R302, R307, R308, R315; 02 R46, R51). -/

/-- What is decided of a turn: the package is off, the turn is over, or an instruction runs at a state. -/
inductive Plan where
  | off
  | idle (s : State)
  | run (i : Instr) (s : State)

/-- `ttimer` has been reached (02 R46). -/
def State.timerDue (s : State) (t : Team) : Bool := t.ttimer ≠ 0 && t.ttimer ≤ (s.crewAt t.crew).tcyc

/-- The quantum of a crew is over (07 R192, R196): it goes on after QUANTUM_END. In a replayable context the epoch's end ends it (21 R417). -/
def State.quantumOver (s : State) (ci : Nat) : Bool :=
  let c := s.crewAt ci
  match c.ctx with
  | none => false
  | some x => !(s.ctxAt x).replayable && decide ((s.ctxAt x).quantum ≤ c.used)

/-- A team can go no further before an arrival: an access or a fetch of its own is out through a window, or a crew that it saves has one out. -/
def State.awaitsArrival (s : State) (i : Nat) : Bool :=
  let t := s.teamAt i
  t.acquiring || t.codeReq.isSome || (t.entry.isSome && t.filling) ||
  (t.stalled && (t.outs.any Access.isWindow ||
    s.crews.any fun c => c.ctx = s.ctxOf t && c.state = .saving && c.area.isSome && c.teams.any fun j => (s.teamAt j).outs.any Access.isWindow))
/-- In a replayable context the teams of a crew go instruction by instruction: of those that neither wait, nor are stopped, nor await an arrival
the one that has retired the fewest in the epoch moves, the lowest of equals (21 R420) (DEDUCED, log 21). -/
def State.inTurn (s : State) (i : Nat) : Bool :=
  let t := s.teamAt i
  !s.replayable (s.ctxOf t) || (s.crewTeams t.crew).all fun j =>
    let u := s.teamAt j
    !u.alive || u.wait.isSome || u.halted || u.st = .stopped || s.awaitsArrival j || t.epochUsed < u.epochUsed || (t.epochUsed = u.epochUsed && i ≤ j)

/-- Whether a team is on a core and may move. -/
def State.canMove (s : State) (i : Nat) : Bool :=
  let t := s.teamAt i
  !s.quantumOver t.crew && i < s.teams.length && t.alive && !t.halted && (s.crewAt t.crew).state = .resident && t.st ≠ .stopped &&
  (t.st ≠ .handler || s.siblingsStopped i) && t.entry.isNone && !t.acquiring && !s.epochOver t.crew &&
  s.inTurn i

/-- A sibling that is to stop stops now: it has issued what it may, it waits, a trap is due in it, or its next instruction would trap STEP
(14 R301, R302). -/
def State.stopDue (s : State) (t : Team) : Bool :=
  match t.st with
  | .skid n => n = Config.maxSkid || t.wait.isSome || t.mismatch || t.stepPending || (t.steps = 1 && t.mode ≠ .firm && s.comptOf t = 0)
  | _ => false

/-- The moving team's fetch of n bytes asks the home of each of its lines, unless the core holds the line, which the spec leaves open (20 R393,
21 R408) (DESIGN CHOICE, log 9). -/
def State.noteFetch (s : State) (n : Nat) : State :=
  let t := s.team
  match (if s.inRom t then none else s.ctxOf t) with
  | none => s
  | some c =>
    match s.translate (some c) { x := true, compt := s.comptOf t } t.pc.toNat n with
    | .ok (runs, false) =>
      (distinct (linesOf runs)).foldl (fun (s : State) l =>
        if Config.codeHeld s.now l then s else s.noteLine [(l * 64, 64)] .read (some (s.crew.place / 8)) l) s
    | _ => s
/-- The fetch of the moving team, and what follows it. -/
def State.fetchPlan (s : State) : Plan :=
  let t := s.team
  match s.fetch t with
  | .error (.trap r _) => .idle (s.takeTrap s.cur r)
  | .error _ => .idle s.codeFetch
  | .ok none => .idle ((s.noteFetch 8).killTeam s.cur cUNCORRECTABLE 0 0)
  | .ok (some i) =>
    let s1 := s.noteFetch (Rows.size i)
    match s.breakpointAt t with
    | some n => if admissible t i then .idle (s.takeTrap s.cur { cause := cBREAKPOINT, pc := t.pc, tagA := BitVec.ofNat 24 n }) else .run i s1
    | none => .run i s1

/-- Boundary events of the moving team in the order of R301: a kill, CANCELLED, the end of a skid, STEP, TIMER; then its wait, or the
fetch. -/
def State.teamPlan (s : State) : Plan :=
  let t := s.team
  if !(s.cur < s.teams.length && t.alive) then .idle s else
  match t.killPending with
  | some (c, at_) =>
    .idle ((s.setTeam { t with pc := at_.getD t.pc, killPending := none }).killTeam s.cur c 0 0)
  | none =>
  if (s.crewAt t.crew).state ≠ .resident then .idle s
  else if s.cancelDue s.cur then .run .cancelled s
  else
  match t.entry with
  | some r => .idle (if t.filling then s else s.enterHandler s.cur r)
  | none =>
  if !s.canMove s.cur then .idle s
  else if s.stopDue t then .run (.siblingStop s.cur) s
  else if t.stepPending && t.frame.isNone then
    .idle ((s.setTeam { t with stepPending := false }).takeTrap s.cur { cause := cSTEP, pc := t.pc })
  else if s.timerDue t && t.frame.isNone then .run .timer s
  else if t.mismatch then .idle ((s.setTeam { t with mismatch := false }).takeTrap s.cur { cause := cSYNC_MISMATCH, pc := t.pc })
  else
    match t.wait with
    | some (.bar _ _) | some (.tsync _ _) => .idle s
    | some (.push q n x) => .idle (s.pushWait q n x)
    | _ => s.fetchPlan

/-- A turn that fetches the first word of a `lit` (R54): a team that would fetch keeps it; in any other case nothing happens. -/
def State.firstPlan (s : State) : Plan :=
  match s.teamPlan with
  | .run _ _ =>
    match s.fetchWord s.team s.team.pc.toNat with
    | .ok (some w) => .idle (if isLit w then (s.noteFetch 8).setTeam { s.team with half := some w } else s)
    | _ => .idle s
  | _ => .idle s

/-! Observers (10 R241, R251). -/

/-- The class, as team j sees it, of the party that moves in a turn. -/
def State.classOfAct (s : State) (j : Nat) : Act → BitVec 8
  | .team i | .first i => s.classFrom j i
  | .event e =>
    match e with
    | .fillArrival i _ | .storePerformedAtHome i _ | .siblingStop i => s.classFrom j i
    | .timer | .cancelled => s.classFrom j s.cur
    | .l1CopyExpiry _ _ | .data _ | .ack _ | .nack _ | .hello .. | .credit .. | .laneLockLoss _ => 0
    | .copy .. | .fill .. | .gather .. | .zero .. | .unpackKy4 .. | .packKy4 .. => 0x04
    | .mloop .. | .mgen .. | .mslice .. | .mdrain .. | .mloadc _ | .mzero _ => 0x08
    | .send .. | .recv .. | .recvred .. | .schedCopy .. | .reduce .. | .startBegin _ => 0x10
    | .read p | .readAcq p | .write p | .writeRel p | .atomic p => if Config.isHost p.src then 0x40 else 0x20
    | _ => 0x7F
/-- What the party of a turn must have seen is performed before it moves. -/
def State.settle (s : State) (act : Act) : State := State.settleBy s.teams.length (fun j => s.classOfAct j act) s

/-- The keys of a world that fails are retired once every crew of it has ended: its memory is lost (20 R400). -/
def State.retireKeys (s : State) : State :=
  s.worlds.foldl (fun (s : State) w =>
    let cs := (indices s.contexts).filter fun c => (s.ctxAt c).world = w.id && (s.ctxAt c).alive
    if !w.failing || w.retired || s.crews.any (fun k => k.state ≠ .ended && cs.any fun c => k.ctx = some c) then s else
    let s := s.modWorld w.id fun x => { x with retired := true }
    { s with mem := { s.mem with lost := s.mem.lost ++ cs.flatMap fun c => (s.ctxAt c).poolAll ++ (s.ctxAt c).own } }) s
/-- What comes before the move of a turn: its cycles pass, and what its party must see is performed. -/
def State.before (s : State) (t : Turn) : State := ((s.pass t.cycles).retireKeys).settle t.act

/-- The next turn: of the agenda, or a free one (DESIGN CHOICE, log 1). -/
def State.nextTurn (s : State) : Turn × State :=
  match s.agenda with
  | t :: rest => (t, { s with agenda := rest })
  | [] => (Config.freeTurn s.tick, { s with tick := s.tick + 1 })

/-- The whole of a step but the instruction's own meaning. -/
def State.plan (s : State) : Plan :=
  if s.poweredDown then .off else
  let x := s.nextTurn
  let s := x.2.before x.1
  match x.1.act with
  | .event i => if isEvent i then .run i s else .idle s
  | .team i => State.teamPlan { s with cur := i }
  | .first i => State.firstPlan { s with cur := i }

/-! Placing an instruction. -/

def testCap (lo hi cur root : Nat) (perms : BitVec 12) : CReg :=
  { bits := (capFor root 0 lo hi cur perms).getD 0, valid := true, tag := tagExternal }

/-- A context with one code page at address 0, on machine page 0, under root 1. -/
def placedContext : Context :=
  { world := 1, grants := [(0xF, BitVec.allOnes 64)]
    roots := [(1, { kind := .loc, state := .live, base := 0, limit := 65536, ceil := 0x7FF })]
    maps := [{ va := 0, size := 65536, frame := 0, r := true, w := true, x := true }]
    stage2 := [(0, 0, 65536)], codeSize := 65536, hasJob := true }

/-- A team as Tables 2-1 and 6-1 start it, at address 0 of that code. -/
def placedTeam (crew : Nat) : Team :=
  { crew := crew, nlanes := 32, vregs := 64
    s := { v := 0, tag := tagExternal } :: { v := 0, tag := tagExternal } :: List.replicate 62 {}
    b := List.replicate 8 false
    c := (List.replicate 31 {}) ++ [testCap 0 65536 0 1 (pLD ||| pX)]
    v := List.replicate 64 (List.replicate 32 {}), vcap := List.replicate 16 (List.replicate 32 false)
    p := List.replicate 24 0, m := 0xFFFFFFFF }

def placedCrew (ctx launch team : Nat) : Crew :=
  { launch := launch, ctx := some ctx, teams := [team], started := true, state := .resident, die := 0, core := 0,
    timelines := List.replicate 9 {} }

/-- A running team of a context, with the code of a placed program. -/
def State.placed (s : State) : State :=
  { s with
    contexts := s.contexts ++ [placedContext]
    launches := s.launches ++ [{ ctx := some s.contexts.length, root := true, gx := 1, gy := 1, gz := 1, dies := 0xF, cores := BitVec.allOnes 64,
                                 regs := 64, state := .taken, crews := [s.crews.length] }]
    crews := s.crews ++ [placedCrew s.contexts.length s.launches.length s.teams.length]
    teams := s.teams ++ [placedTeam s.crews.length]
    cores := s.cores.set 0 { s.coreAt 0 with split := some (1, 0, 63) }
    cur := s.teams.length }

/-- Whether the moving team is a running team of a context. -/
def State.hasTeam (s : State) : Bool :=
  s.cur < s.teams.length && (s.ctxOf s.team).isSome && s.team.alive && (s.crew).state = .resident

/-- The machine bytes at the team's pc replaced, where its pages map it; and that team moves next (DESIGN CHOICE, log 12). -/
def State.place (s : State) (bs : List Byte) : State :=
  let s := if s.hasTeam then s else s.placed
  let t := s.team
  let s :=
    match s.translate (s.ctxOf t) { compt := s.comptOf t } t.pc.toNat bs.length with
    | .ok (runs, _) => { s with mem := storeBytes s.mem (laneWrites runs bs tagExternal) {} }
    | .error _ => s
  { s with agenda := [{ cycles := 0, act := .team s.cur }] }

end Sys2Proof.Machine
end

