-- ==== Sys2Proof/Machine/Control.lean ====
section
/-! DEFINITION. Control flow inside a team: MOP 0x01-0x08 (04 R108-R113, 20 R390). -/
namespace Sys2Proof.Machine

/-- A relative target (R108). -/
def target (t : Team) (off : BitVec 32) : VAddr := t.pc + (off.signExtend 57 <<< 3)

/-- A branch: to the target when taken, else past the word. -/
def branch (s : State) (t : Team) (off : BitVec 32) (taken : Bool) : Except Stop State :=
  .ok (if taken then s.retireTo (target t off) else s.retire 8)

def execNop (s : State) : Host.Outcome State Fault Refusal := issue .nop s fun _ => .ok (s.retire 8)
def execBr (f : BForm) (s : State) : Host.Outcome State Fault Refusal := issue (.br f) s fun t => branch s t f.off true
def execBrc (neg : Bool) (f : BForm) (s : State) : Host.Outcome State Fault Refusal :=
  issue (.brc neg f) s fun t => branch s t f.off (t.breg f.cnd.toNat != neg)
/-- Over the active lanes as M stands (R110). -/
def execBrany (f : BForm) (s : State) : Host.Outcome State Fault Refusal :=
  issue (.brany f) s fun t => branch s t f.off ((t.predMask f.cnd.toNat &&& t.m) ≠ 0)
def execBrall (f : BForm) (s : State) : Host.Outcome State Fault Refusal :=
  issue (.brall f) s fun t => branch s t f.off ((t.predMask f.cnd.toNat &&& t.m) = t.m)

/-- R111; a poisoned counter is consumed (14 R314). -/
def execLoop (f : IForm) (s : State) : Host.Outcome State Fault Refusal :=
  issue (.loop f) s fun t =>
    match readS t f.d.toNat false with
    | .error e => .error e
    | .ok n =>
      if n.tag = tagPoison then .error (poisonTrap t)
      else if n.v = 0 then .ok (s.retire 8)
      else
        let t' := t.setS f.d.toNat (BitVec.ofNat 64 (n.v - 1))
          (tagResult t.rule (s.ownTag t) [{ tag := n.tag, m := (BitVec.ofNat 64 n.v).toInt.natAbs }])
        let s' := s.setTeam t'
        .ok (if n.v = 1 then s'.retire 8 else s'.retireTo (target t f.imm))

/-- The tag of a capability result that is no move (R118). -/
def capTag (s : State) (t : Team) (sources : List Tag) : Tag := tagFixed t.rule (s.ownTag t) sources

/-- R112. -/
def execCall (f : BForm) (s : State) : Host.Outcome State Fault Refusal :=
  issue (.call f) s fun t =>
    if (t.creg 30).busy then .error .wait else
    let k := t.creg 31
    let link : CReg := { bits := capSetOtype (capSetCursor k.bits (pcAdd t.pc 8).toNat) 1, valid := k.valid, tag := capTag s t [k.tag] }
    .ok ((s.setTeam (t.setC 30 link)).retireTo (target t f.off))

/-- A transfer through a capability (R113, R390); a poisoned one is consumed (14 R314) (DEDUCED, log 7). The low three bits of
its cursor are dropped, and one sealed for data is CAP_SEAL whatever its compartment (DESIGN CHOICE, log 39). -/
def transfer (s : State) (t : Team) (k : CReg) : Except Stop State :=
  let roots := s.roots (s.ctxOf t)
  let root := rootOf roots k.bits
  let cursor := capCursor k.bits
  let open_ : CReg := { k with bits := capSetOtype k.bits 0 }
  let stop (cause : BitVec 8) : Except Stop State := .error (trapNow t cause 0 (everyLane t cursor))
  let foreign := root.compt ≠ s.comptOf t && root.compt ≠ 0
  if k.tag = tagPoison then .error (poisonTrap t) else
  match capCheck roots { s.checker t anyKind with compt := root.compt, fab := false } open_ (capLo root.base k.bits) 0 pX with
  | some cause => stop cause
  | none =>
    if 2 ≤ capOtype k.bits then stop cCAP_SEAL
    else if foreign && (capOtype k.bits = 0 || t.mode ≠ .user) then stop cCAP_PERM
    else .ok ((s.setTeam { t with c := t.c.set 31 open_ }).retireTo (alignPc cursor))

def execRet (s : State) : Host.Outcome State Fault Refusal :=
  issue .ret s fun t =>
    match readC t 30 with
    | .error e => .error e
    | .ok k => transfer s t k
def execJmpc (f : RForm) (s : State) : Host.Outcome State Fault Refusal :=
  issue (.jmpc f) s fun t =>
    tagR { a := .c, ln := .s } f t <|
    match readC t f.a.toNat with
    | .error e => .error e
    | .ok k => transfer s t k

end Sys2Proof.Machine
end

