-- ==== Sys2Proof/Machine/Capability.lean ====
section
/-! DEFINITION. Capability instructions: MOP 0x30-0x36 (04 R114-R127, 20 R388, R389). -/
namespace Sys2Proof.Machine

/-- The order in which a failing cause is reported (R117). -/
def capOrder : List (BitVec 8) := [cCAP_TAG, cCAP_REVOKED, cCAP_SEAL, cCAP_PERM, cCAP_BOUNDS]

/-- Results of all lanes, or the trap of the first cause in order with the lanes that have it (R117). -/
def capLanes (t : Team) (ln : Bool) (rs : List (Nat × Except (BitVec 8) CReg)) : Except Stop (List (Nat × CReg)) :=
  let has (c : BitVec 8) (r : Nat × Except (BitVec 8) CReg) : Bool := match r.2 with | .error e => e = c | .ok _ => false
  match capOrder.find? (fun c => rs.any (has c)) with
  | some c => .error (trapNow t c (if ln then maskOf ((rs.filter (has c)).map (·.1)) else 0))
  | none => .ok (rs.filterMap fun r => match r.2 with | .ok k => some (r.1, k) | .error _ => none)

/-- A derivation: read A and B, compute each lane, write the capability destination. -/
def mapCap (i : Instr) (s : State) (op : Team → CReg → Opd → CReg → Except (BitVec 8) CReg) : Host.Outcome State Fault Refusal :=
  issue i s fun t =>
    match Rows.view i with
    | .r _ _ row _ f =>
      tagR row f t <|
      let lanes := t.lanesFor row f
      if destBusy t f.ln row.d f.d.toNat f.ty lanes then .error .wait else
      match (if row.a = .c then readCap t f.ln f.ea f.a.toNat lanes else .ok (lanes.map fun _ => {})) with
      | .error e => .error e
      | .ok as =>
      match readFld t row.b f.ln (f.ob.getLsbD 1) f.eb f.ty f.ty f.b.toNat lanes with
      | .error e => .error e
      | .ok xs =>
      match (if row.b = .c then readCap t f.ln f.eb f.b.toNat lanes else .ok (lanes.map fun _ => {})) with
      | .error e => .error e
      | .ok ks =>
      match capLanes t f.ln ((lanes.zip (as.zip (xs.zip ks))).map fun p => (p.1, op t p.2.1 p.2.2.1 p.2.2.2)) with
      | .error e => .error e
      | .ok rs => .ok ((s.setTeam (rs.foldl (fun (t : Team) p => t.writeCap f.ln f.d.toNat p.1 p.2) t)).retire 8)
    | _ => .ok s

/-- The check of R117: of the capability at its own lo. -/
def derive (s : State) (t : Team) (k : CReg) (perm : BitVec 12) : Option (BitVec 8) :=
  capCheck (s.roots (s.ctxOf t)) { s.checker t anyKind with fab := false } k (s.capLoOf (s.ctxOf t) k.bits) 0 perm

/-- A derived capability. -/
def derived (s : State) (t : Team) (bits : BitVec 128) (sources : List Tag) : CReg := { bits := bits, valid := true, tag := capTag s t sources }

/-- A field as `cget` reads it (R119). -/
def capFieldOf (s : State) (t : Team) (k : CapFld) (b : BitVec 128) : Int :=
  let r := rootOf (s.roots (s.ctxOf t)) b
  let lo : Nat := if r.state = .free then 0 else capLo r.base b
  let hi : Nat := if r.state = .free then 0 else capHi r.base b
  match k with
  | .base => lo
  | .length => (hi - lo : Nat)
  | .perms => (capPerms b &&& 0x7FF).toNat       -- its reserved bit reads 0 (00 R7)
  | .otype => capOtype b
  | .cursor => capCursor b
  | .offset => (capCursor b : Int) - lo

def execCget (k : CapFld) (f : RForm) (s : State) : Host.Outcome State Fault Refusal :=
  issue (.cget k f) s fun t =>
    match Rows.view (.cget k f) with
    | .r _ _ row _ _ =>
      tagR row f t <|
      let lanes := t.lanesFor row f
      if destBusy t f.ln row.d f.d.toNat f.ty lanes then .error .wait else
      match readCap t f.ln f.ea f.a.toNat lanes with
      | .error e => .error e
      | .ok as =>
      let w := match row.d with | .genD w => w | _ => .one
      let t' := (lanes.zip as).foldl (fun (u : Team) p =>
        u.writeGen f.ln w .i8 f.d.toNat p.1 (extBits (capFieldOf s t k p.2.bits)) p.2.tag) t
      .ok ((s.setTeam t').retire 8)
    | _ => .ok s

/-- R120. -/
def execCseta (f : RForm) (s : State) : Host.Outcome State Fault Refusal :=
  mapCap (.cseta f) s fun t k x _ =>
    match derive s t k 0 with
    | some e => .error e
    | none => .ok (derived s t (capSetCursor k.bits x.v) [k.tag, x.tag])
def execCinc (f : RForm) (s : State) : Host.Outcome State Fault Refusal :=
  mapCap (.cinc f) s fun t k x _ =>
    match derive s t k 0 with
    | some e => .error e
    | none => .ok (derived s t (capSetCursor k.bits (capCursor k.bits + x.v)) [k.tag, x.tag])

/-- Narrowing with an encoding (R121). -/
def narrowCap (enc : Nat → Nat → Nat → Option (Nat × Nat × Nat)) (s : State) (t : Team) (k : CReg) (n : Opd) : Except (BitVec 8) CReg :=
  match derive s t k 0 with
  | some e => .error e
  | none =>
    let ctx := s.ctxOf t
    let rb := (rootOf (s.roots ctx) k.bits).base
    let lo := s.capLoOf ctx k.bits; let hi := s.capHiOf ctx k.bits
    let nlo := capCursor k.bits; let nhi := nlo + n.v % 2 ^ 64
    if nlo < lo || hi < nhi then .error cCAP_BOUNDS else
    match enc rb nlo nhi with
    | none => .error cCAP_BOUNDS
    | some (e, b, l) =>
      if rb + b * 2 ^ e < lo || hi < rb + (b + l) * 2 ^ e then .error cCAP_BOUNDS
      else .ok (derived s t (capSetBounds k.bits e b l) [k.tag, n.tag])
def execCbnd (f : RForm) (s : State) : Host.Outcome State Fault Refusal := mapCap (.cbnd f) s fun t k n _ => narrowCap exactEnc s t k n
def execCbndr (f : RForm) (s : State) : Host.Outcome State Fault Refusal := mapCap (.cbndr f) s fun t k n _ => narrowCap roundedEnc s t k n

/-- R122. -/
def execCperm (f : RForm) (s : State) : Host.Outcome State Fault Refusal :=
  mapCap (.cperm f) s fun t k x _ =>
    match derive s t k 0 with
    | some e => .error e
    | none => .ok (derived s t (capSetPerms k.bits (capPerms k.bits &&& BitVec.ofNat 12 (x.v % 2 ^ 11))) [k.tag, x.tag])

/-- The check of a sealer (R123, R124). -/
def sealer (s : State) (t : Team) (k : CReg) (otype : Nat) : Option (BitVec 8) :=
  capCheck (s.roots (s.ctxOf t)) { s.checker t anyKind with fab := false } k otype 1 pSEAL

/-- R123. -/
def execCseal (f : RForm) (s : State) : Host.Outcome State Fault Refusal :=
  mapCap (.cseal f) s fun t c _ k =>
    match derive s t c 0 with
    | some e => .error e
    | none =>
      let o := capCursor k.bits
      match sealer s t k o with
      | some e => .error e
      | none =>
        if o < 1 || 15 < o then .error cCAP_BOUNDS
        else if o = 1 && (capPerms c.bits &&& pX) = 0 then .error cCAP_PERM
        else .ok (derived s t (capSetOtype c.bits o) [c.tag, k.tag])
/-- R124. -/
def execCunseal (f : RForm) (s : State) : Host.Outcome State Fault Refusal :=
  mapCap (.cunseal f) s fun t c _ k =>
    match derive s t { c with bits := capSetOtype c.bits 0 } 0 with
    | some e => .error e
    | none =>
      let o := capOtype c.bits
      if o = 0 || o = 1 then .error cCAP_SEAL else
      match sealer s t k o with
      | some e => .error e
      | none => .ok (derived s t (capSetOtype c.bits 0) [c.tag, k.tag])

/-- R125. -/
def execCmov (f : RForm) (s : State) : Host.Outcome State Fault Refusal :=
  mapCap (.cmov f) s fun t c _ _ =>
    .ok { c with valid := c.valid && (rootOf (s.roots (s.ctxOf t)) c.bits).state ≠ .revoked, busy := false }
def execCnull (f : RForm) (s : State) : Host.Outcome State Fault Refusal :=
  mapCap (.cnull f) s fun t _ _ _ => .ok (capNull (capTag s t []))
def execCtest (f : RForm) (s : State) : Host.Outcome State Fault Refusal :=
  issue (.ctest f) s fun t =>
    match Rows.view (.ctest f) with
    | .r _ _ row _ _ =>
      tagR row f t <|
      let lanes := t.lanesFor row f
      match readCap t f.ln f.ea f.a.toNat lanes with
      | .error e => .error e
      | .ok as =>
      let t' := (lanes.zip as).foldl (fun (u : Team) p =>
        u.writePred f.ln f.d.toNat p.1 (p.2.valid && (rootOf (s.roots (s.ctxOf t)) p.2.bits).state = .live)) t
      .ok ((s.setTeam t').retire 8)
    | _ => .ok s

/-- The lowest index from `k` on that no used entry of a rising list has. -/
def firstFree {α : Type} (used : α → Bool) : Nat → List (Nat × α) → Nat
  | k, [] => k
  | k, (a, r) :: t => if a < k then firstFree used k t else if a = k && used r then firstFree used (k + 1) t else k
def Root.used (r : Root) : Bool := r.state ≠ .free

/-- Claim a root of a table (R126, 09 R202, 17 R337): index and table, or nothing when it is full. -/
def State.claimRoot (s : State) (ctx : Option Nat) (r : Root) : Option (Nat × State) :=
  let k := firstFree Root.used 1 (s.roots ctx)
  if 2 ^ 20 ≤ k then none else some (k, s.setRoot ctx k r)

/-- R126. -/
def execCroot (f : RForm) (s : State) : Host.Outcome State Fault Refusal :=
  issue (.croot f) s fun t =>
    tagR { d := .cD, a := .s, b := .s, ln := .s } f t <|
    if (t.creg f.d.toNat).busy then .error .wait else
    match readS t f.a.toNat f.ea with
    | .error e => .error e
    | .ok a =>
    match readS t f.b.toNat f.eb with
    | .error e => .error e
    | .ok b =>
    let n := b.v % 2 ^ 47
    if 2 ^ 57 ≤ a.v || a.v % 65536 ≠ 0 || n = 0 || n % 65536 ≠ 0 then .error (trapNow t cCAP_BOUNDS) else
    match exactEnc 0 0 n with
    | none => .error (trapNow t cCAP_BOUNDS)
    | some (e, _, l) =>
      if b.v / 2 ^ 58 ≠ 0 then .error (trapNow t cCAP_PERM)
      else if f.d.toNat = 0 then .ok (s.retire 8)
      else
        let perms := BitVec.ofNat 12 (b.v / 2 ^ 47 % 2 ^ 11)
        let root : Root := { kind := .loc, state := .live, base := a.v, limit := a.v + n, ceil := perms, compt := s.comptOf t }
        match s.claimRoot (s.ctxOf t) root with
        | none => .ok ((s.setTeam (t.setC f.d.toNat (capNull (capTag s t [a.tag, b.tag])))).retire 8)
        | some (r, s') =>
          .ok ((s'.setTeam (t.setC f.d.toNat (derived s t (capMk l 0 e 0 perms r a.v) [a.tag, b.tag]))).retire 8)

/-- R127: the team's accesses are released to all seven classes (10 R242), the state changes, the sweep is queued on all four dies. -/
def execCrev (f : RForm) (s : State) : Host.Outcome State Fault Refusal :=
  issue (.crev f) s fun t =>
    tagR { a := .c, ln := .s } f t <|
    match readC t f.a.toNat with
    | .error e => .error e
    | .ok c =>
      match derive s t c pSYS with
      | some e => .error (trapNow t e)
      | none =>
        if t.held 0x7F false then .error .order else
        let ctx := s.ctxOf t
        let r := capRoot c.bits
        let s := s.drain s.cur
        .ok ((s.setRoot ctx r { s.rootAt ctx r with state := .revoked, sweeps := 0xF }).retire 8)

end Sys2Proof.Machine
end

