-- ==== Sys2Proof/Machine/Quince.lean ====
section
/-! DEFINITION. Groups and schedule contexts (18 R359, R362, R363), the packets of an instance, and the entry into ABORTING (R374, R375). -/
namespace Sys2Proof.Machine

def State.groupAt (s : State) (i : Nat) : Group := s.groups.getD i { ctx := 0, id := 0, die := 0, members := [] }
def State.modGroup (s : State) (i : Nat) (f : Group → Group) : State := { s with groups := s.groups.set i (f (s.groupAt i)) }
def State.schedAt (s : State) (i : Nat) : Sched := s.scheds.getD i { die := 0, slot := 0, cmd := 0, group := 0, inst := 0, gen := 0, st := .free }
def State.modSched (s : State) (i : Nat) (f : Sched → Sched) : State := { s with scheds := s.scheds.set i (f (s.schedAt i)) }

def Group.n (g : Group) : Nat := g.members.length
/-- The rank of a device; the size of the group for one that is no member. -/
def Group.rankOf (g : Group) (dev : BitVec 12) : Nat := g.members.findIdx fun d => d = dev
def Group.rank (g : Group) : Nat := g.rankOf Config.deviceId
def Group.dev (g : Group) (rank : Nat) : BitVec 12 := g.members.getD rank 0xFFF
/-- Ranks of the other members. -/
def Group.others (g : Group) : List Nat := (List.range g.n).filter fun r => r ≠ g.rank

/-- The group of a context. -/
def State.groupOf (s : State) (ctx : Nat) (id : BitVec 16) : Option Nat :=
  (indices s.groups).find? fun i => let g := s.groupAt i; !g.gone && g.ctx = ctx && g.id = id
/-- The group that a packet names: the device holds it, and the sender is a member (DESIGN CHOICE, log 19). -/
def State.packetGroup (s : State) (p : Packet) : Option Nat :=
  (indices s.groups).find? fun i => let g := s.groupAt i; !g.gone && g.id = p.exp && g.rankOf p.src < g.n
/-- The running instance of a group. -/
def State.instanceOf (s : State) (group : Nat) : Option Nat :=
  (indices s.scheds).find? fun i => let x := s.schedAt i; x.st ≠ .free && x.group = group

/-! Packets of an instance. -/

/-- What a collective packet carries, by its index in Config.collOp. -/
inductive Coll where
  | credit | data | dataAck | signal | sigAck | barrier | vote
  deriving DecidableEq, Repr
def Coll.code : Coll → BitVec 6
  | .credit => Config.collOp 0 | .data => Config.collOp 1 | .dataAck => Config.collOp 2 | .signal => Config.collOp 3
  | .sigAck => Config.collOp 4 | .barrier => Config.collOp 5 | .vote => Config.collOp 6
def collOf (op : BitVec 6) : Option Coll :=
  [Coll.credit, .data, .dataAck, .signal, .sigAck, .barrier, .vote].find? fun c => c.code = op

/-- A packet of instance `x` to a rank (R362); `addr` is an offset within the instance, or a number (DESIGN CHOICE, log 19). -/
def collPacket (g : Group) (x : Sched) (c : Coll) (rank addr : Nat) (first last : Nat := 0) (line : List Byte := []) : Packet :=
  { cls := 3, op := c.code, first := BitVec.ofNat 6 first, last := BitVec.ofNat 6 last, src := Config.deviceId, dst := g.dev rank, exp := g.id
    xid := BitVec.ofNat 16 x.inst, gen := BitVec.ofNat 16 x.gen, owner := some g.ctx, otag := 0, kind := 0, obs := 0, addr := BitVec.ofNat 56 addr, seq := 0, scales := 0
    line := line }

/-! ABORTING. -/

/-- Send a vote to every other member but its voter, over every UP route (R375). -/
def State.sendVote (s : State) (sc voter : Nat) (r : Option Report) : State :=
  let x := s.schedAt sc
  let g := s.groupAt x.group
  let ctx := some g.ctx
  (g.others.filter fun m => m ≠ voter).foldl (fun (s : State) m =>
    let p := collPacket g x .vote m 0 0 63 (Config.voteLine voter r)
    let s := s.noteSent ctx p
    if s.replaying ctx then s else (s.portsTo (g.dev m)).foldl (fun (s : State) i => s.enqueue ctx i p) s) s

/-- A running member enters ABORTING with its own report, or with none (R374, R375). -/
def State.enterAbort (s : State) (sc : Nat) (r : Option Report) (cause : BitVec 8) (addr : Nat) : State :=
  let x := s.schedAt sc
  if x.st ≠ .running then s else
  let me := (s.groupAt x.group).rank
  (s.modSched sc fun x => { x with
      st := .aborting, mine := r, cause := cause, addr := BitVec.ofNat 64 addr, votes := [(me, r)], abortAt := s.now }).sendVote sc me r

/-- A report: code, failing member, step. -/
def report (code member step : Nat) : Report :=
  { code := BitVec.ofNat 8 code, member := BitVec.ofNat 8 member, step := BitVec.ofNat 16 step }

/-- The lowest operation that has not completed. -/
def Sched.lowest (x : Sched) : Nat :=
  ((x.issued.filter fun o => o.st ≠ .done).map (·.j)).foldl min x.pc

/-- ABORTED_CANCEL (R374). -/
def State.cancelSched (s : State) (sc : Nat) : State :=
  let x := s.schedAt sc
  s.enterAbort sc (some (report 0x84 (s.groupAt x.group).rank x.lowest)) cCANCELLED 0

/-- ABORTED_LINK of operation `o`: a packet of it has been refused (R374). -/
def State.linkAbort (s : State) (sc : Nat) (o : SOp) (member addr : Nat) : State :=
  s.enterAbort sc (some (report 0x81 member o.j)) cREMOTE_FAULT addr

/-- The byte of a buffer that an operation moves at an offset in its chunk; 0 where it moves none. -/
def SOp.lineAddr (o : SOp) (off : Nat) : Nat :=
  match o.dst, o.srcA with
  | some (_, _, a), _ => a + off
  | none, some (_, a) => a + off
  | none, none => 0
def SOp.op (o : SOp) : Nat := o.w.toNat / 2 ^ 60

/-- The COUNT of a wait. -/
def SOp.count (o : SOp) : Nat := o.w.toNat % 65536
/-- The operation that a packet of an instance belongs to, done or not: what the member sent it for; the acknowledgement of a signal, the wait that
counts the signal. -/
def Sched.opOf (x : Sched) (c : Coll) (peer addr chunk : Nat) : Option Nat :=
  let isSend (o : SOp) : Bool := o.op = 1
  let isRecv (o : SOp) : Bool := o.op = 2 || o.op = 3
  let before (o : SOp) : Nat := ((x.issued.filter fun e => e.op = 6 && e.peer = o.peer && e.k < o.k).map SOp.count).sum
  (indices x.issued).find? fun i =>
    match x.issued[i]? with
    | none => false
    | some o =>
      match c with
        | .data => isSend o && o.peer = peer && o.k = addr / chunk
        | .credit | .dataAck => isRecv o && o.peer = peer && o.k = addr / chunk
        | .signal => o.op = 7 && o.peer = peer && o.k = addr
        | .barrier => o.op = 10 && o.k = addr
        | .sigAck => o.op = 6 && o.peer = peer && before o ≤ addr && addr < before o + o.count
        | .vote => false

/-- The bytes per chunk and the chunks per slot of an instance. -/
def State.chunkOf (s : State) (sc : Nat) : Nat := ((s.cmdAt (s.schedAt sc).cmd).w.getD 3 0).toNat / 2 ^ 32
def State.nchOf (s : State) (sc : Nat) : Nat := ((s.cmdAt (s.schedAt sc).cmd).w.getD 0 0).toNat / 2 ^ 32 % 512

/-- A collective packet of this member has been refused (R335, R344): the instance that it belongs to aborts. -/
def State.collRefused (s : State) (sc : Nat) (p : Packet) : State :=
  let x := s.schedAt sc
  let g := s.groupAt x.group
  match collOf p.op with
  | none => s
  | some c =>
    let peer := g.rankOf p.dst
    match x.opOf c peer p.addr.toNat (s.chunkOf sc) with
    | none => s
    | some i =>
      match x.issued[i]? with
      | none => s
      | some o =>
        let member := if c = .credit || c = .dataAck || c = .sigAck then peer else g.rank
        let addr := match c with
          | .data | .credit | .dataAck => o.lineAddr (p.addr.toNat - o.k * s.chunkOf sc)
          | _ => 0
        s.linkAbort sc o member addr

/-- Send a collective packet of an instance; with no UP port it is refused at once. -/
def State.sendColl (s : State) (sc : Nat) (p : Packet) : State :=
  match s.send (some (s.groupAt (s.schedAt sc).group).ctx) p with
  | some s => s
  | none => s.collRefused sc p

end Sys2Proof.Machine
end

