-- ==== Sys2Proof/Machine/Float.lean ====
section
/-! DEFINITION. Floating-point instructions: MOP 0x40-0x49 (05 R130-R138). -/
namespace Sys2Proof.Machine

/-- A floating-point input of `tag_result`. -/
def fpIn (v : Fv) (tag : Tag) : TagIn := { tag := tag, exceptional := v.exceptional, m := (fvMag v).1, e := (fvMag v).2 }

/-- A rounded result with its tag (R130). -/
def fpRes (s : State) (t : Team) (ins : List TagIn) (r : FRes) : Res :=
  { v := r.bits, tag := tagResult t.rule (s.ownTag t) ins r.exceptional, exc := r.exc }

def fp1 (s : State) (f : RForm) (op : Fmt → Rm → Fv → FRes) (t : Team) (a _b _c : Opd) : Res :=
  let fm := fmtOf f.ty; let x := readF fm a.v
  fpRes s t [fpIn x a.tag] (op fm (t.mode' f.rm) x)
def fp2 (s : State) (f : RForm) (op : Fmt → Rm → Fv → Fv → FRes) (t : Team) (a b _c : Opd) : Res :=
  let fm := fmtOf f.ty; let x := readF fm a.v; let y := readF fm b.v
  fpRes s t [fpIn x a.tag, fpIn y b.tag] (op fm (t.mode' f.rm) x y)
def fp3 (s : State) (f : RForm) (op : Fmt → Rm → Fv → Fv → Fv → FRes) (t : Team) (a b c : Opd) : Res :=
  let fm := fmtOf f.ty; let x := readF fm a.v; let y := readF fm b.v; let z := readF fm c.v
  fpRes s t [fpIn x a.tag, fpIn y b.tag, fpIn z c.tag] (op fm (t.mode' f.rm) x y z)

/-! R131, R132. -/
def execFadd (f : RForm) (s : State) : Host.Outcome State Fault Refusal := mapLanes (.fadd f) s (fp2 s f fAdd)
def execFsub (f : RForm) (s : State) : Host.Outcome State Fault Refusal :=
  mapLanes (.fsub f) s (fp2 s f fun fm rm a b => fAdd fm rm a b.flip)
def execFmul (f : RForm) (s : State) : Host.Outcome State Fault Refusal := mapLanes (.fmul f) s (fp2 s f fMul)
def execFma (f : RForm) (s : State) : Host.Outcome State Fault Refusal := mapLanes (.fma f) s (fp3 s f fFma)
def execFms (f : RForm) (s : State) : Host.Outcome State Fault Refusal :=
  mapLanes (.fms f) s (fp3 s f fun fm rm a b c => fFma fm rm a b c.flip)
def execFnma (f : RForm) (s : State) : Host.Outcome State Fault Refusal :=
  mapLanes (.fnma f) s (fp3 s f fun fm rm a b c => fFma fm rm a.flip b c)
def execFdiv (f : RForm) (s : State) : Host.Outcome State Fault Refusal := mapLanes (.fdiv f) s (fp2 s f fDiv)
def execFsqrt (f : RForm) (s : State) : Host.Outcome State Fault Refusal := mapLanes (.fsqrt f) s (fp1 s f fSqrt)
def execFrcp (f : RForm) (s : State) : Host.Outcome State Fault Refusal := mapLanes (.frcp f) s (fp1 s f fRcp)
def execFrsq (f : RForm) (s : State) : Host.Outcome State Fault Refusal := mapLanes (.frsq f) s (fp1 s f fRsq)

/-- R133. -/
def pickRes (max : Bool) (f : RForm) (a b : Opd) : Res :=
  let fm := fmtOf f.ty; let x := readF fm a.v; let y := readF fm b.v
  let pick := fMinMaxPick max x y
  { v := if pick = 0 then a.v % 2 ^ fm.width else if pick = 1 then b.v % 2 ^ fm.width else nanBits fm
    tag := if a.tag = tagPoison || b.tag = tagPoison then tagPoison else if pick = 1 then b.tag else a.tag
    exc := snanExc [x, y] }
def execFmin (f : RForm) (s : State) : Host.Outcome State Fault Refusal := mapLanes (.fmin f) s fun _ a b _ => pickRes false f a b
def execFmax (f : RForm) (s : State) : Host.Outcome State Fault Refusal := mapLanes (.fmax f) s fun _ a b _ => pickRes true f a b

/-- R134: the sign bit alone. -/
def execFabs (f : RForm) (s : State) : Host.Outcome State Fault Refusal :=
  mapLanes (.fabs f) s fun _ a _ _ => { v := a.v % 2 ^ ((fmtOf f.ty).width - 1), tag := a.tag }
def execFneg (f : RForm) (s : State) : Host.Outcome State Fault Refusal :=
  mapLanes (.fneg f) s fun _ a _ _ => { v := (a.v + 2 ^ ((fmtOf f.ty).width - 1)) % 2 ^ (fmtOf f.ty).width, tag := a.tag }

/-- R135. -/
def execFcmp (c : FCond) (f : RForm) (s : State) : Host.Outcome State Fault Refusal :=
  mapPred (.fcmp c f) s true fun _ a b _ => fCmp c (readF (fmtOf f.ty) a.v) (readF (fmtOf f.ty) b.v)

/-- R136; the tag as its last bullet concludes: the own tag, under DOMINANT too (DEDUCED, log 14). -/
def execFclass (f : RForm) (s : State) : Host.Outcome State Fault Refusal :=
  mapLanes (.fclass f) s fun t a _ _ =>
    { v := fClass (fmtOf f.ty) (readF (fmtOf f.ty) a.v), tag := tagFixed t.rule (s.ownTag t) [a.tag] }

/-- R137, R138. -/
def execFscale (f : RForm) (s : State) : Host.Outcome State Fault Refusal :=
  mapLanes (.fscale f) s fun t a b _ =>
    let fm := fmtOf f.ty; let x := readF fm a.v
    fpRes s t [fpIn x a.tag] (fScale fm (t.mode' f.rm) x (sextN b.v 32))
def execFrnd (f : RForm) (s : State) : Host.Outcome State Fault Refusal := mapLanes (.frnd f) s (fp1 s f fRnd)

end Sys2Proof.Machine
end

