-- ==== Sys2Proof/Machine/Convert.lean ====
section
/-! DEFINITION. Conversions: MOP 0x60-0x62 (05 R139-R146). -/
namespace Sys2Proof.Machine

/-- A value of a source type. -/
inductive Val where
  | int (x : Int)
  | fp (v : Fv)
  deriving DecidableEq, Repr

def readVal (t : Ty) (bits : Nat) : Val := if Rows.isInt t then .int (readInt t bits) else .fp (readF (fmtOf t) bits)

/-- Convert to a type (Table 5-6): the result's bits as a destination holds them, whether it is NaN or infinite, what it signals. -/
def convert (t : Ty) (rm : Rm) (sat : Bool) (v : Val) : FRes :=
  if Rows.isInt t then
    match v with
    | .int x => { bits := extBits (narrow t sat x) }
    | .fp x => let r := fToI t rm sat x; { bits := extBits r.1, exc := r.2 }
  else
    match v with
    | .int x => iToF (fmtOf t) rm sat x
    | .fp x => fToF (fmtOf t) rm sat x

/-- R139. -/
def execCvt (src : Ty) (f : RForm) (s : State) : Host.Outcome State Fault Refusal :=
  mapLanes (.cvt src f) s fun t a _ _ =>
    let r := convert f.ty (t.mode' f.rm) f.sat (readVal src a.v)
    { v := r.bits, tag := a.tag, exc := r.exc }

/-- The type that `pack` reads its sources as (R142). -/
def packSrc (t : Ty) : Ty := if !Rows.isInt t then .f32 else if Rows.isSigned t then .i32 else .n32

/-- R142. -/
def execPack (f : RForm) (s : State) : Host.Outcome State Fault Refusal :=
  mapLanes (.pack f) s fun t a b _ =>
    let w := Rows.width f.ty
    let conv (o : Opd) := convert f.ty (t.mode' f.rm) f.sat (readVal (packSrc f.ty) o.v)
    let x := conv a; let y := conv b
    { v := x.bits % 2 ^ w + y.bits % 2 ^ w * 2 ^ w
      tag := if a.tag = tagPoison || b.tag = tagPoison then tagPoison else if x.exceptional then a.tag else b.tag
      exc := x.exc ||| y.exc }

/-- R143. -/
def execUnpack (f : RForm) (s : State) : Host.Outcome State Fault Refusal :=
  mapLanes (.unpack f) s fun _ a b _ =>
    let w := Rows.width f.ty
    let x := a.v % 2 ^ 32 / 2 ^ (w * (b.v % (32 / w))) % 2 ^ w
    let r := if Rows.isInt f.ty then { bits := extBits (readInt f.ty x) } else fToF fmtF32 .rne false (readF (fmtOf f.ty) x)
    { v := r.bits, tag := if a.tag = tagPoison || b.tag = tagPoison then tagPoison else a.tag, exc := r.exc }

/-! KY4 blocks in registers (R144-R146). -/

/-- Mask words that hold a written lane. -/
def wordsWritten (lanes : List Nat) : List Nat := distinct (lanes.map (· / 32))

/-- Lane j of the layout of Table 5-8. -/
def ky4Lane (codes : List Nat) (scale j : Nat) : Nat :=
  if j < 4 then (List.range 8).foldr (fun k x => codes.getD (8 * j + k) 0 + 16 * x) 0 else if j = 4 then scale else 0

/-- What a block instruction computes for one word: 32 lanes of values with what each signals, a tag. -/
structure Block where
  vals : List Nat
  tag : Tag
  excs : List Exc
  deriving DecidableEq, Repr

/-- The shape of `kenc` and `kdec`: `reads` names the lanes read in a word, `op` computes its block from what they hold. Only
the slots of written lanes signal (DESIGN CHOICE, log 40). -/
def mapBlocks (i : Instr) (f : RForm) (s : State) (reads : Team → Nat → List Nat) (op : Team → List (Nat × Opd) → Block) :
    Host.Outcome State Fault Refusal :=
  issue i s fun t =>
    tagR { a := .gen .one } f t <|
    let lanes := lanesOf (t.laneGuard true f.g f.gn) t.nlanes
    if destBusy t true (.genD .one) f.d.toNat .i8 lanes then .error .wait else
    let words := wordsWritten lanes
    let sources := words.flatMap (reads t)
    match readGen t true (f.ob.getLsbD 2) f.ea 1 f.a.toNat sources with
    | .error e => .error e
    | .ok os =>
      let blocks := words.map fun w => (w, op t (((sources.zip os).filter fun p => p.1 / 32 = w).map fun p => (p.1 % 32, p.2)))
      let blockOf (l : Nat) : Block := ((blocks.find? fun b => b.1 = l / 32).map (·.2)).getD ⟨[], 0, []⟩
      match fpDone t true (lanes.map fun l => (l, (blockOf l).excs.getD (l % 32) 0)) with
      | .error e => .error e
      | .ok u =>
        let t' := lanes.foldl (fun (t : Team) l =>
          t.writeV f.d.toNat l (BitVec.ofNat 32 ((blockOf l).vals.getD (l % 32) 0)) (blockOf l).tag) (t.orFpst u)
        .ok ((s.setTeam t').retire 8)

/-- R145. -/
def execKenc (f : RForm) (s : State) : Host.Outcome State Fault Refusal :=
  mapBlocks (.kenc f) f s (fun t w => ((List.range 32).map (32 * w + ·)).filter fun l => t.m.getLsbD l) fun t os =>
    let xs := (List.range 32).map fun i =>
      match os.find? (fun p => p.1 = i) with | some p => readF fmtF32 p.2.v | none => .fin false 0 0
    let r := ky4Encode (t.mode' f.rm) xs
    { vals := (List.range 32).map (ky4Lane r.1 r.2.1)
      tag := if os.any (fun p => p.2.tag = tagPoison) then tagPoison else match os.getLast? with | some p => p.2.tag | none => 0
      excs := List.replicate 32 r.2.2 }

/-- R146: a lane signals what its own slot does (R79). -/
def execKdec (f : RForm) (s : State) : Host.Outcome State Fault Refusal :=
  mapBlocks (.kdec f) f s (fun _ w => (List.range 5).map (32 * w + ·)) fun _ os =>
    let word (i : Nat) : Nat := match os.find? (fun p => p.1 = i) with | some p => p.2.v % 2 ^ 32 | none => 0
    let codes := (List.range 32).map fun i => word (i / 8) / 16 ^ (i % 8) % 16
    let rs := (List.range 32).map fun i => fToF fmtF32 .rne false (ky4Slot codes (word 4 % 256) i)
    { vals := rs.map (·.bits)
      tag := if os.any (fun p => p.2.tag = tagPoison) then tagPoison else match os.getLast? with | some p => p.2.tag | none => 0
      excs := rs.map (·.exc) }

end Sys2Proof.Machine
end

