-- ==== Sys2Proof/Machine/Trace.lean ====
section
/-! DEFINITION. The observation region: records in its streams (21 R404, R405), trace records (R409). -/
namespace Sys2Proof.Machine

/-! The firmware at a virtual address of a context. -/

/-- Machine runs of [a, a + n) where every page of it is on the device. -/
def State.runsOf (s : State) (c a n : Nat) : Option (List (Nat × Nat)) :=
  match s.translate (some c) {} a n with
  | .ok (runs, false) => some runs
  | _ => none
def State.vLoad (s : State) (c a n : Nat) : Option (List Byte) := (s.runsOf c a n).map fun runs => readRuns s.mem runs
/-- Store, with a release to the observers of `o` unless it is 0; nothing where a page is not on the device (DESIGN CHOICE, log 21). -/
def State.vStore (s : State) (c a : Nat) (bs : List Byte) (o : BitVec 8 := 0) : State :=
  match s.runsOf c a bs.length with
  | none => s
  | some runs => s.writeRuns runs bs tagExternal (fwScope o)

/-! Records. -/

/-- Kinds of record (Table 21-3). -/
def recordWord (dcyc die core kind n : Nat) : Nat := dcyc % 2 ^ 32 * 2 ^ 32 + core % 64 * 2 ^ 26 + die % 4 * 2 ^ 24 + kind % 256 * 2 ^ 16 + n % 65536

/-- Write the record of a stream, wrapping in its area; one that does not fit is dropped, or ends the arrival stream (R405). -/
def State.recordTo (s : State) (c stream die core kind : Nat) (body : List Byte) : State :=
  let r := (s.ctxAt c).recorder
  if !r.on || !r.what.getLsbD stream then s else
  let area := r.areas.getD stream (0, 0)
  let bs := leBytes 8 (recordWord (s.dieAt die).dcyc.toNat die core kind (8 + body.length)) ++ body
  let h := r.region + 64 * stream
  match s.vLoad c h 64 with
  | none => s
  | some line =>
    let get (off : Nat) : Nat := leNat ((line.drop off).take 8)
    let head := get 0
    if stream = 3 && get 40 % 2 = 1 then s
    else if head + bs.length ≤ get 8 + area.2 then
      let p := head % area.2
      let k := area.2 - p
      let s := s.vStore c (r.region + area.1 + p) (bs.take k)
      let s := s.vStore c (r.region + area.1) (bs.drop k)
      s.vStore c h (leBytes 8 (head + bs.length)) obsHostDev
    else if stream = 3 then s.vStore c (h + 40) (leBytes 8 1)
    else s.vStore c (h + 16) (leBytes 8 (get 16 + 1))

/-! The memory trace. -/

/-- FORM of accesses (lane, address): one stride, else 32-bit offsets, else 64-bit ones (R409). -/
def traceForm (base l0 : Nat) (xs : List (Nat × Nat)) : Nat × Int :=
  let d (x : Nat × Nat) : Int := (x.2 : Int) - base
  let stride := match xs with
    | _ :: x :: _ => d x / ((x.1 : Int) - l0)
    | _ => 0
  let in32 (x : Int) : Bool := -(2 ^ 31 : Int) ≤ x && x < 2 ^ 31
  if in32 stride && xs.all (fun x => d x = stride * ((x.1 : Int) - l0)) then (1, stride)
  else if xs.all (fun x => in32 (d x)) then (2, 0) else (3, 0)

/-- Body of a trace record: the word, its pc, team and accesses; `fence` accesses nothing, a scalar form has one access (DESIGN CHOICE, log 21). -/
def traceBody (word pc teamid : Nat) (ln scratch window : Bool) (xs : List (Nat × Nat)) : List Byte :=
  let base := (xs.head?.map (·.2)).getD 0
  let l0 := (xs.head?.map (·.1)).getD 0
  let form : Nat × Int := if ln then traceForm base l0 xs else (0, 0)
  let m := if ln then maskOf (xs.map (·.1)) else 0
  let flags := word / 2 ^ 56 + word / 2 ^ 28 % 8 * 2 ^ 8 + bitOf scratch * 2 ^ 11 + bitOf window * 2 ^ 12 + form.1 * 2 ^ 13 + teamid % 4096 * 2 ^ 16
  let words := ((List.range 32).filter fun w => maskWord m w ≠ 0).flatMap fun w => leBytes 4 (maskWord m w).toNat
  let offs := xs.flatMap fun x =>
    if form.1 = 2 then leBytes 4 (bitsOf 32 ((x.2 : Int) - base)) else if form.1 = 3 then leBytes 8 (bitsOf 64 ((x.2 : Int) - base)) else []
  let body := leBytes 8 pc ++ leBytes 8 base ++ leBytes 4 flags ++ leBytes 4 (bitsOf 32 form.2) ++ leBytes 4 (maskSummary m).toNat ++
    leBytes 4 xs.length ++ words ++ offs
  body ++ List.replicate ((8 - body.length % 8) % 8) 0

/-- The trace record of the moving team's completed memory instruction (R409). -/
def State.trace (s : State) (t : Team) (i : Instr) (ln scratch window : Bool) (xs : List (Nat × Nat)) : State :=
  match s.ctxOf t with
  | none => s
  | some c =>
    let cr := s.crewAt t.crew
    if !(s.ctxAt c).recorder.dies.getLsbD cr.die then s else
    s.recordTo c 1 cr.die cr.core 3 (traceBody ((encode i).headD 0) t.pc.toNat t.teamid.toNat ln scratch window xs)

end Sys2Proof.Machine
end

