-- ==== Sys2Proof/Machine/MemoryInstr.lean ====
section
/-! DEFINITION. Memory instructions: MOP 0x80-0x8B (09 R214-R231, 10 R242-R247, 21 R413). Local accesses issue here and are performed
at their home by the events FILL_ARRIVAL and STORE_PERFORMED_AT_HOME, at once where an acquire needs the value. -/
namespace Sys2Proof.Machine

/-- What one accessing lane asks for (R214): its capability, the tag of its index, its address, its data. -/
structure Ask where
  lane : Nat
  k : CReg
  idx : Tag := 0
  a : Nat
  d : Opd := {}
  d2 : Opd := {}
  valid : Bool := false
  write : Bool := true
  deriving DecidableEq, Repr

/-- What the data field holds: nothing that is read, elements, the two operands of `a.cas`, a capability. -/
inductive DataForm where
  | none | elems (cnt : Nat) | cas (cnt : Nat) | cap
  deriving DecidableEq, Repr

/-- A memory instruction: its columns of Table 9-3, its data, its destination. -/
structure MemOp where
  kind : AccKind
  kinds : List RootKind
  perm : BitVec 12
  size : Nat
  unit : Nat
  off : Int
  aligned : Bool := false
  r : Bool := false
  w : Bool := false
  data : DataForm := .none
  dst : Dest := .none
  deriving DecidableEq, Repr

/-! Reading operands. -/

/-- Written lanes of a memory instruction, lane 0 in the scalar form (DEDUCED, log 25). -/
def Team.memLanes (t : Team) (f : MForm) : List Nat := if f.ln then lanesOf (t.laneGuard true f.g f.gn) t.nlanes else [0]

/-- Lanes that read memory: for `lds.tr` every active lane, the guard not consulted (R222). -/
def Team.readLanes (t : Team) (op : MemOp) (written : List Nat) : List Nat :=
  match op.kind with
  | .loadTr => lanesOf t.m t.nlanes
  | _ => written

/-- A destination still empty holds the instruction back (R218); a register that is also read is left to its read (02 R42) (DEDUCED, log 5). -/
def destWaits (t : Team) (op : MemOp) (lanes : List Nat) : Bool :=
  if op.data ≠ .none then false else
  match op.dst with
  | .none => false
  | .s n cnt => (List.range cnt).any fun q => !(t.sreg (n + q)).full
  | .v n cnt => lanes.any fun l => t.vempty n cnt l
  | .c n => (t.creg n).busy
  | .quad n => lanes.any fun l => t.vempty n 4 l

/-- Whether the word names a capability quad per lane (R214). -/
def perLane (f : MForm) : Bool := f.ln && f.cap = 0 && f.index ≠ 63

/-- Capability and index of each lane, and its address (R214). -/
def readAddr (t : Team) (f : MForm) (op : MemOp) (lanes : List Nat) : Except Stop (List Ask) :=
  let at_ (k : CReg) (x : Int) : Nat := (((capCursor k.bits : Int) + x * 2 ^ f.scl.toNat + op.off * op.unit) % 2 ^ 57).toNat
  if perLane f then
    match readCap t true f.e f.index.toNat lanes with
    | .error e => .error e
    | .ok ks => .ok ((lanes.zip ks).map fun p => { lane := p.1, k := p.2, idx := p.2.tag, a := at_ p.2 0 })
  else if lanes = [] then .ok []      -- no lane forms an address, so nothing is read
  else
    match readC t f.cap.toNat with
    | .error e => .error e
    | .ok k =>
      if f.index = 63 then .ok (lanes.map fun l => { lane := l, k := k, a := at_ k 0 }) else
      match readGen t f.ln false f.e 1 f.index.toNat lanes with
      | .error e => .error e
      | .ok xs => .ok ((lanes.zip xs).map fun p =>
          { lane := p.1, k := k, idx := p.2.tag, a := at_ k (if f.ln then sextN p.2.v 32 else sextN p.2.v 64) })

/-- Read `cnt` registers, or elements, of the data field as one value with the first one's tag (R69). -/
def readData (t : Team) (ln pol : Bool) (n cnt : Nat) (lanes : List Nat) : Except Stop (List Opd) :=
  if ln then readV t n cnt pol lanes
  else if cnt ≤ 1 then (readS t n pol).map fun x => lanes.map fun _ => x
  else
    match readSTag t (n + 1) pol, readS t n pol with
    | .error e, _ => .error (match readSTag t n pol with | .error e' => e' | .ok _ => e)
    | _, .error e => .error e
    | .ok y, .ok x => .ok (lanes.map fun _ => { v := x.v + 2 ^ 64 * y.v, tag := x.tag })

/-- Add the data to what the lanes ask for. -/
def withData (t : Team) (f : MForm) (op : MemOp) (xs : List Ask) : Except Stop (List Ask) :=
  let lanes := xs.map (·.lane)
  let n := f.data.toNat
  match op.data with
  | .none => .ok xs
  | .elems cnt =>
    match readData t f.ln f.e n cnt lanes with
    | .error e => .error e
    | .ok ds => .ok ((xs.zip ds).map fun p => { p.1 with d := p.2 })
  | .cas cnt =>
    match readData t f.ln f.e n cnt lanes with
    | .error e => .error e
    | .ok ds =>
    match readData t f.ln f.e (n + cnt) cnt lanes with
    | .error e => .error e
    | .ok es => .ok ((xs.zip (ds.zip es)).map fun p => { p.1 with d := p.2.1, d2 := p.2.2 })
  | .cap =>
    match readCap t f.ln f.e n lanes with
    | .error e => .error e
    | .ok ks => .ok ((xs.zip ks).map fun p => { p.1 with d := { v := p.2.bits.toNat, tag := p.2.tag }, valid := p.2.valid })

def askRoot (s : State) (t : Team) (x : Ask) : Root := rootOf (s.roots (s.ctxOf t)) x.k.bits

/-- A poisoned operand of an access (14 R314). -/
def poisoned (s : State) (t : Team) (op : MemOp) (x : Ask) : Bool :=
  x.k.tag = tagPoison || x.idx = tagPoison ||
  (isWindow (askRoot s t x).kind && op.data ≠ .none && (x.d.tag = tagPoison || x.d2.tag = tagPoison))

/-! Checks (R215). -/

/-- A trap in the lanes for which `bad` holds, with these addresses. -/
def laneTrap (t : Team) (ln : Bool) (cause : BitVec 8) (bad : List Nat) (addrs : List (Nat × Nat)) : Stop :=
  trapNow t cause (if ln then maskOf bad else 0) (if ln then laneAddrs t addrs else everyLane t ((addrs.map (·.2)).headD 0))

def askCause (s : State) (t : Team) (op : MemOp) (x : Ask) : Option (BitVec 8) :=
  s.check t op.kinds x.k x.a op.size op.perm (!op.aligned || x.a % op.size = 0)

/-- Pages of [a, a + n) that fail: the first byte on each, and its cause. -/
def pageFails (maps : List Mapping) (need : Need) : Nat → Nat → Nat → List (Nat × BitVec 8)
  | 0, _, _ => []
  | fuel + 1, a, n =>
    if n = 0 then [] else
    match findMap maps a with
    | none =>
      let k := min n (65536 - a % 65536)
      (a, cPAGE_NOTMAPPED) :: pageFails maps need fuel (a + k) (n - k)
    | some m =>
      let k := min n (m.va + m.size - a)
      match pageCause m need with
      | some c => (a, c) :: pageFails maps need fuel (a + k) (n - k)
      | none => pageFails maps need fuel (a + k) (n - k)

/-- The pages of one lane's access that fail. -/
def askPages (s : State) (t : Team) (op : MemOp) (x : Ask) : List (Nat × BitVec 8) :=
  let r := askRoot s t x
  match s.ctxOf t with
  | none => []
  | some c => if r.kind ≠ .loc then [] else pageFails (s.ctxAt c).maps { r := op.r, w := op.w, compt := r.compt } 4 x.a op.size

def checkCaps (s : State) (t : Team) (ln : Bool) (op : MemOp) (xs : List Ask) : Except Stop Unit :=
  match capOrder.find? (fun c => xs.any fun x => askCause s t op x = some c) with
  | some c => .error (laneTrap t ln c ((xs.filter fun x => askCause s t op x = some c).map (·.lane)) (xs.map fun x => (x.lane, x.a)))
  | none => .ok ()

def checkPages (s : State) (t : Team) (ln : Bool) (op : MemOp) (xs : List Ask) : Except Stop Unit :=
  let fails := xs.flatMap fun x => (askPages s t op x).map fun e => (x.lane, e.1, e.2)
  match [cPAGE_NOTMAPPED, cPAGE_PERM, cPAGE_INTEGRITY].find? (fun c => fails.any fun e => e.2.2 = c) with
  | some c =>
    let mine := fails.filter fun e => e.2.2 = c
    .error (laneTrap t ln c (mine.map (·.1)) (mine.map fun e => (e.1, e.2.1)))
  | none => .ok ()

/-- What a valid capability needs to be stored (R223). -/
def checkStored (s : State) (t : Team) (ln : Bool) (op : MemOp) (xs : List Ask) : Except Stop Unit :=
  let bad (x : Ask) : Bool := op.kind = .storeCap && x.valid &&
    ((capPerms x.k.bits &&& pSTC) = 0 || ((capPerms (BitVec.ofNat 128 x.d.v) &&& pGLB) = 0 && (askRoot s t x).kind ≠ .scratch))
  if xs.any bad then .error (laneTrap t ln cCAP_PERM ((xs.filter bad).map (·.lane)) (xs.map fun x => (x.lane, x.a))) else .ok ()

/-! Where the bytes lie. -/

/-- Parts of [a, a + n) by page: address, machine address, bytes, whether the page is REMOTE. -/
def mapParts (maps : List Mapping) : Nat → Nat → Nat → List (Nat × Nat × Nat × Option Mapping)
  | 0, _, _ => []
  | fuel + 1, a, n =>
    if n = 0 then [] else
    match findMap maps a with
    | none => []
    | some m =>
      let k := min n (m.va + m.size - a)
      (a, m.frame + (a - m.va), k, if m.resid = .remote then some m else none) :: mapParts maps fuel (a + k) (n - k)

def askParts (s : State) (t : Team) (op : MemOp) (x : Ask) : List (Nat × Nat × Nat × Option Mapping) :=
  match s.ctxOf t, (askRoot s t x).kind with
  | some c, .loc => (mapParts (s.ctxAt c).maps 4 x.a op.size).map fun p => (p.1, stage2At (s.ctxAt c).stage2 p.2.1, p.2.2)
  | _, _ => [(x.a, x.a, op.size, none)]

/-- Where a lane goes: device memory, scratchpad, or windows. -/
def askSpace (s : State) (t : Team) (op : MemOp) (x : Ask) : Space :=
  match (askRoot s t x).kind with
  | .scratch => .scratch
  | .peer => .window true false
  | .host => .window false true
  | .loc => if (askParts s t op x).any (fun p => p.2.2.2.isSome) then .window false true else .dev

/-- The lane's record in its access. -/
def laneOf (s : State) (t : Team) (op : MemOp) (x : Ask) : LaneAcc :=
  let win := match askSpace s t op x with | .window _ _ => true | _ => false
  let roots := s.roots (s.ctxOf t)
  let n := match op.data with | .none => 0 | _ => op.size
  { lane := x.lane, addr := x.a
    runs := if win then [] else (askParts s t op x).map fun p => (p.2.1, p.2.2.1)
    data := leBytes n x.d.v, tag := x.d.tag, data2 := leBytes n x.d2.v, tag2 := x.d2.tag, write := x.write
    cap := match op.kind with
      | .storeCap => x.valid && (rootOf roots (BitVec.ofNat 128 x.d.v)).state = .live && !win
      | .loadCap => (capPerms x.k.bits &&& pLDC) ≠ 0 && !win
      | _ => false }

/-- The requests of a lane that goes through windows (R339, 09 R237). -/
def askPieces (s : State) (t : Team) (op : MemOp) (x : Ask) : List Piece :=
  let l := laneOf s t op x
  let r := askRoot s t x
  if isWindow r.kind then
    (linePieces 3 x.a op.size).map fun p => { lane := l, va := p.1, len := p.2, dst := r.dev, exp := r.exp, at_ := p.1, host := r.kind = .host }
  else
    match s.ctxOf t with
    | none => []
    | some c => (askParts s t op x).flatMap fun p =>
        match p.2.2.2 with
        | none => []
        | some m =>
          let far := Config.remotePage c m.va
          let at_ := far.2.toNat + (p.1 - m.va)
          (linePieces 3 at_ p.2.2.1).map fun q =>
            { lane := l, va := p.1 + (q.1 - at_), len := q.2, dst := (s.ctxAt c).creator, exp := far.1, at_ := q.1, host := true }

/-! Ordering (10 R242, R243; R221). -/

/-- The report of the latch (R221). -/
def Team.latched (t : Team) (o : BitVec 8) : Option TrapRec :=
  match t.latch with
  | none => none
  | some l =>
    if (if l.host then o.getLsbD 6 else o.getLsbD 5) then
      some { cause := l.cause, pc := t.pc, addr := List.replicate t.nlanes l.addr, tagA := l.site, latched := true }
    else none

/-- The release part of an instruction, or a fence: it waits, reports the latch, performs the team's stores (10 R244). What it leaves out
is `after`: ordered by what follows (DEDUCED, log 14). -/
def State.releasePart (s : State) (o : BitVec 8) (loadsOnly : Bool) (after : State → State) : Except Stop State :=
  let t := s.team
  if t.held o loadsOnly then .error .order else
  match t.latched o with
  | some r => .error (.trap r)
  | none => .ok (after (s.storesHome s.cur))
/-- Accesses of the team to a line of `a`, and all before them, are performed. -/
def State.drainLines (s : State) (a : Access) : State :=
  let outs := s.team.outs
  match (outs.filter fun e => sameLine e a).getLast? with
  | none => s
  | some e => s.drainList s.cur (earlierThan outs e.id ++ [e])

/-- Lines of a lane's local bytes: address of a byte in it, line. -/
def localLines (s : State) (t : Team) (op : MemOp) (a : Access) (x : Ask) : List (Nat × Nat) :=
  if a.isWindow then
    if isWindow (askRoot s t x).kind then [] else
    ((askParts s t op x).filter fun p => p.2.2.2.isNone).flatMap fun p =>
      (linesOf [(p.2.1, p.2.2.1)]).map fun l => (p.1 + (l * 64 - p.2.1), l)
  else
    let l := linesOf (laneOf s t op x).runs
    (l.zip (List.range l.length)).map fun p => ((x.a / 64 + p.2) * 64, p.1)
/-- Lines of device memory that an access touches itself: its own, and those of the lanes that lie on a REMOTE page only in part. -/
def localPart (s : State) (t : Team) (op : MemOp) (p : Access × List Ask) : List Nat :=
  if p.1.space = .dev then p.1.lines else if p.1.isWindow then p.2.flatMap fun x => (localLines s t op p.1 x).map (·.2) else []
/-- The mask of a release: all seven classes where a record finds no room (10 R246), or where a part of it goes to an S7 (17 R347). -/
def State.releaseMask (s : State) (t : Team) (o : BitVec 8) (op : MemOp) (acs : List (Access × List Ask)) : BitVec 8 :=
  let r := s.ownScope t.crew o
  if acs.any (fun p => (!p.1.isLoad && s.mem.overflows r (localPart s t op p)) ||
      (p.1.isWindow && p.2.any fun x => (askPieces s t op x).any fun q => s.toS7 q.dst)) then 0x7F
  else normObs o

/-- Lanes that an acquire fails in, with the address of the line (10 R247). -/
def scopeFails (s : State) (t : Team) (op : MemOp) (p : Access × List Ask) : List (Nat × Nat) :=
  let c := s.crewAt t.crew
  let m := match p.1.space with | .window _ _ => s.mem | sp => s.spaceMem t.crew sp
  p.2.filterMap fun x =>
    match (localLines s t op p.1 x).find? (fun e => !scopePass (m.record e.2) c.die c.core p.1.obs) with
    | none => none
    | some (a, _) => some (x.lane, a / 64 * 64)

/-! Issue. -/

/-- Mark a destination empty in the written lanes. -/
def Team.emptyDest (t : Team) (d : Dest) (lanes : List Nat) : Team :=
  match d with
  | .none => t
  | .s n cnt => (List.range cnt).foldl (fun t q => t.emptyS (n + q)) t
  | .v n cnt => lanes.foldl (fun t l => (List.range cnt).foldl (fun t q => t.emptyV (n + q) l) t) t
  | .c n => t.setC n { t.creg n with busy := true }
  | .quad n => lanes.foldl (fun t l => (List.range 4).foldl (fun t q => t.emptyV (n + q) l) t) t

/-- The local parts of a lane that goes through windows are performed at once. -/
def State.localParts (s : State) (t : Team) (op : MemOp) (a : Access) (x : Ask) : State × List (Nat × Nat × List Byte × Tag) :=
  if isWindow (askRoot s t x).kind then (s, []) else
  let l := laneOf s t op x
  let cluster := some ((s.crewAt t.crew).place / 8)
  ((askParts s t op x).filter fun p => p.2.2.2.isNone).foldl (fun (acc : State × List (Nat × Nat × List Byte × Tag)) p =>
    let run := (p.2.1, p.2.2.1)
    let s := acc.1
    match a.kind with
    | .store | .storeCap =>
      let s := s.drain s.cur
      (s.writeRuns [run] ((l.data.drop (p.1 - x.a)).take p.2.2.1) l.tag (s.scopeFor t.crew a) cluster, acc.2)
    | _ =>
      let s := s.drain s.cur
      (s.noteHome [run] .read cluster, acc.2 ++ [(x.lane, p.1, s.mem.bytes run.1 run.2, runsTag s.mem [run])])) (s, [])

/-- The accesses of an instruction: one per local space, one for all its windows. -/
def accessesOf (s : State) (t : Team) (f : MForm) (op : MemOp) (xs : List Ask) : List (Access × List Ask) :=
  let mk (sp : Space) (ys : List Ask) : Access :=
    { id := 0, kind := op.kind, size := match op.kind with | .loadTr => 2 ^ f.sz.toNat | _ => op.size, space := sp
      lanes := ys.map (laneOf s t op), dst := op.dst, ord := f.ord, obs := f.obs, own := s.ownTag t, rule := t.rule, time := s.now }
  let dev := xs.filter fun x => askSpace s t op x = .dev
  let scr := xs.filter fun x => askSpace s t op x = .scratch
  let win := xs.filter fun x => askSpace s t op x ≠ .dev && askSpace s t op x ≠ .scratch
  let peer := win.any fun x => askSpace s t op x = .window true false
  let host := win.any fun x => askSpace s t op x = .window false true
  ([(Space.dev, dev), (Space.scratch, scr), (Space.window peer host, win)].filter fun p => !p.2.isEmpty).map fun p => (mk p.1 p.2, p.2)

/-- Issue one access under the team's next number. -/
def State.issueAccess (s : State) (op : MemOp) (p : Access × List Ask) : State :=
  let t := s.team
  let a := { p.1 with id := t.nextAcc }
  let s := s.setTeam { t with nextAcc := t.nextAcc + 1 }
  if a.isWindow then
    let r := p.2.foldl (fun (acc : State × List (Nat × Nat × List Byte × Tag)) x =>
      let q := acc.1.localParts t op a x
      (q.1, acc.2 ++ q.2)) (s, [])
    r.1.issueWindow r.1.cur { a with got := r.2 } (p.2.flatMap (askPieces s t op))
  else
    let s := s.modTeam s.cur fun t => { t with outs := t.outs ++ [a] }
    if a.ord.getLsbD 0 then s.performNow s.cur a.id else s

/-- What a store or an atomic through windows overtakes is to be seen before it, where a fence or the release says so (10 R242, R251). -/
def State.overtakeBy (s : State) (acs : List Access) : State :=
  match acs.find? Access.isWindow with
  | none => s
  | some a => s.modTeam s.cur fun t => { t with outs := t.outs.map fun x => if x.isWindow then x else x.overtaken a }

/-- A watchpoint that an instruction matches (21 R413): number, lanes, addresses. -/
def State.watchHit (s : State) (t : Team) (op : MemOp) (xs : List Ask) : Option (Nat × List (Nat × Nat)) :=
  match s.attached t with
  | none => none
  | some c =>
    if t.frame.isSome || t.mode = .firm || s.comptOf t ≠ 0 then none else
    let crewid := (s.crewAt t.crew).crewid
    let hits (w : Watchpoint) : List (Nat × Nat) :=
      if !((w.crewid = 0xFFFFFFFF || w.crewid = crewid) && ((w.reads && op.r) || (w.writes && op.w))) then [] else
      xs.filterMap fun x =>
        let kind := (askRoot s t x).kind
        if (if w.scratch then kind = .scratch else kind = .loc) && x.a < w.addr + w.len && w.addr < x.a + op.size
        then some (x.lane, max x.a w.addr) else none
    ((s.ctxAt c).dbg.wps.map fun w => (w.1, hits w.2)).find? fun h => !h.2.isEmpty

def State.watch (s : State) (old : State) (t : Team) (ln : Bool) (op : MemOp) (xs : List Ask) : State :=
  match old.watchHit t op xs with
  | none => s
  | some (n, hs) =>
    s.takeTrap s.cur { cause := cWATCHPOINT, pc := s.team.pc, mask := if ln then maskOf (hs.map (·.1)) else 0
                       addr := if ln then laneAddrs t hs else everyLane t ((hs.map (·.2)).headD 0), tagA := BitVec.ofNat 24 n }

/-- Operand tags of an F-M trap: capability, index, data (14 R306). -/
def tagM (f : MForm) (op : MemOp) (t : Team) : Except Stop State → Except Stop State
  | .error (.trap r exc) =>
    if tagsCause r.cause && !r.latched && r.tagA = 0 then
      let lane := (lanesOf r.mask t.nlanes).headD 0
      let elem (n cnt : Nat) : Tag := if f.ln then t.tagV n cnt lane else t.tagS n
      .error (.trap { r with
        tagA := if perLane f then elem f.index.toNat 4 else t.tagC f.cap.toNat
        tagB := if f.index = 63 || perLane f then 0 else elem f.index.toNat 1
        tagC := match op.data with
          | .none => 0
          | .cap => if f.ln then elem f.data.toNat 4 else t.tagC f.data.toNat
          | _ => elem f.data.toNat (max 1 (2 ^ f.sz.toNat / 4)) } exc)
    else .error (.trap r exc)
  | x => x

/-- Every memory instruction but `pref`, `fence` and `pmap`. -/
def memory (i : Instr) (f : MForm) (s : State) (op : MemOp) : Host.Outcome State Fault Refusal :=
  issue i s fun t =>
    tagM f op t <|
    let written := t.memLanes f
    if destWaits t op written then .error .wait else
    match readAddr t f op (t.readLanes op written) with
    | .error e => .error e
    | .ok xs =>
    match withData t f op (xs.map fun x => { x with write := written.contains x.lane }) with
    | .error e => .error e
    | .ok xs =>
    if xs.any (poisoned s t op) then .error (poisonTrap t) else
    match checkCaps s t f.ln op xs with
    | .error e => .error e
    | .ok _ =>
    match checkPages s t f.ln op xs with
    | .error e => .error e
    | .ok _ =>
    match checkStored s t f.ln op xs with
    | .error e => .error e
    | .ok _ =>
    let acs0 := accessesOf s t f op xs
    let mask := s.releaseMask t f.obs op acs0
    let acs := acs0.map fun p => ({ p.1 with rel := mask }, p.2)
    -- data of an access to a REMOTE page leaves the device too (14 R314)
    if op.data ≠ .none && acs.any (fun p => p.1.isWindow && p.2.any fun x => x.d.tag = tagPoison || x.d2.tag = tagPoison)
    then .error (poisonTrap t) else
    let mine := xs.filter (·.write)
    -- a sibling that is to stop does so before an instruction that a watchpoint follows (14 R302)
    if (match t.st with | .skid _ => true | _ => false) && (s.watchHit t op mine).isSome then .error (trapNow t cWATCHPOINT) else
    match (if f.ord.getLsbD 1 then
        s.releasePart mask false fun s => if f.ord.getLsbD 0 then s.drain s.cur else s
      else .ok s) with
    | .error e => .error e
    | .ok s1 =>
    let s2 := if f.ord.getLsbD 0 then acs.foldl (fun (s : State) p => if p.1.isWindow then s else s.drainLines p.1) s1 else s1
    let fails := if f.ord.getLsbD 0 then acs.flatMap (scopeFails s2 t op) else []
    if !fails.isEmpty then .error (laneTrap t f.ln cSCOPE (fails.map (·.1)) fails) else
    let s3 := s2.modTeam s.cur fun t => t.emptyDest op.dst written
    let s4 := acs.foldl (fun (s : State) p => s.issueAccess op p) (s3.overtakeBy (acs.map (·.1)))
    -- an acquire through a window drops the copies when its value has come
    let s5 := if f.ord.getLsbD 0 && !acs.any (·.1.isWindow) then s4.acquireL1 (s.crewAt t.crew).place f.obs else s4
    let kind (x : Ask) : RootKind := (askRoot s t x).kind
    let s6 := s5.trace t i f.ln (mine.any fun x => kind x = .scratch) (mine.any fun x => isWindow (kind x)) (mine.map fun x => (x.lane, x.a))
    .ok ((s6.retire 8).watch s t f.ln op mine)

/-! The instructions. -/

def memSize (f : MForm) : Nat := 2 ^ f.sz.toNat
/-- Registers, or elements, of the data field (Table 9-4). -/
def memCount (f : MForm) : Nat := if f.ln then Rows.memElems 0x80 f.sz.toNat else if f.sz = 4 then 2 else 1
def memDest (f : MForm) : Dest := if f.ln then .v f.data.toNat (memCount f) else .s f.data.toNat (memCount f)

def loadOp (f : MForm) (kinds : List RootKind) : MemOp :=
  { kind := .load, kinds := kinds, perm := pLD, size := memSize f, unit := memSize f, off := f.off.toInt, r := true, dst := memDest f }
def storeOp (f : MForm) (kinds : List RootKind) : MemOp :=
  { kind := .store, kinds := kinds, perm := pST, size := memSize f, unit := memSize f, off := f.off.toInt, w := true
    data := .elems (memCount f) }
def globalKinds : List RootKind := [.loc, .peer, .host]

/-- R218. -/
def execLdG (f : MForm) (s : State) : Host.Outcome State Fault Refusal := memory (.ldG f) f s (loadOp f globalKinds)
def execLdS (f : MForm) (s : State) : Host.Outcome State Fault Refusal := memory (.ldS f) f s (loadOp f [.scratch])
/-- R219. -/
def execStG (f : MForm) (s : State) : Host.Outcome State Fault Refusal := memory (.stG f) f s (storeOp f globalKinds)
def execStS (f : MForm) (s : State) : Host.Outcome State Fault Refusal := memory (.stS f) f s (storeOp f [.scratch])
/-- R224. -/
def execLdGCap (f : MForm) (s : State) : Host.Outcome State Fault Refusal :=
  memory (.ldGCap f) f s { loadOp f globalKinds with kind := .loadCap, aligned := true, dst := .quad f.data.toNat }
def execStGCap (f : MForm) (s : State) : Host.Outcome State Fault Refusal :=
  memory (.stGCap f) f s { storeOp f globalKinds with kind := .storeCap, aligned := true, data := .cap }
/-- R222. -/
def trOp (f : MForm) : MemOp :=
  { loadOp f [.scratch] with kind := .loadTr, size := 16, unit := 16, aligned := true, dst := .v f.data.toNat 4 }
def execLdsTr (f : MForm) (s : State) : Host.Outcome State Fault Refusal := memory (.ldsTr f) f s (trOp f)
/-- R223. -/
def execLdc (f : MForm) (s : State) : Host.Outcome State Fault Refusal :=
  memory (.ldc f) f s { loadOp f anyKind with kind := .loadCap, aligned := true, dst := .c f.data.toNat }
def execStc (f : MForm) (s : State) : Host.Outcome State Fault Refusal :=
  memory (.stc f) f s { storeOp f anyKind with kind := .storeCap, aligned := true, data := .cap }

/-- The offset of the atomics (02 R61). -/
def atomOff (f : MForm) : Int := (f.off.setWidth 11).toInt
def atomKind (f : MForm) : AtomOp :=
  match f.off.toNat / 2048, f.tg with
  | 0, _ => .add | 1, false => .min | 1, true => .minu | 2, false => .max | 2, true => .maxu
  | 3, _ => .and | 4, _ => .or | 5, _ => .xor | _, _ => .xch
/-- Registers of one operand of an atomic. -/
def atomCount (f : MForm) : Nat := if f.ln && f.sz = 3 then 2 else 1
def atomOf (f : MForm) (op : AtomOp) : MemOp :=
  { kind := .atom op, kinds := anyKind, perm := pLD ||| pST ||| pAT, size := memSize f, unit := memSize f, off := atomOff f, aligned := true
    r := true, w := true, data := if op = .cas then .cas (atomCount f) else .elems (atomCount f)
    dst := if f.ln then .v f.data.toNat (atomCount f) else .s f.data.toNat 1 }
/-- R227. -/
def execAtom (f : MForm) (s : State) : Host.Outcome State Fault Refusal := memory (.atom f) f s (atomOf f (atomKind f))
/-- R228. -/
def execACas (f : MForm) (s : State) : Host.Outcome State Fault Refusal := memory (.aCas f) f s (atomOf f .cas)
/-- R229. -/
def execAFadd (f : MForm) (s : State) : Host.Outcome State Fault Refusal := memory (.aFadd f) f s (atomOf f .fadd)

/-- R225: lines are brought in for the lanes that could load, the others are dropped. -/
def execPref (f : MForm) (s : State) : Host.Outcome State Fault Refusal :=
  issue (.pref f) s fun t =>
    let op : MemOp := { kind := .load, kinds := [.loc], perm := pLD, size := 1, unit := 64, off := f.off.toInt, r := true }
    -- a lane at a time: one that would wait or trap is dropped
    let all := (t.memLanes f).filterMap fun l => match readAddr t f op [l] with | .ok [x] => some x | _ => none
    let xs := all.filter fun x =>
      !(poisoned s t op x || (askCause s t op x).isSome || !(askPages s t op x).isEmpty || askSpace s t op x ≠ .dev)
    let kind (x : Ask) : RootKind := (askRoot s t x).kind
    let runs := xs.flatMap fun x => (askParts s t op x).map fun p => (p.2.1 / 64 * 64, 64)
    let place := (s.crewAt t.crew).place
    let s' := if f.sz = 0 then s.noteLoad place runs false else s.noteHome runs .read (some (place / 8))
    .ok ((s'.trace t (.pref f) f.ln (all.any fun x => kind x = .scratch) (all.any fun x => isWindow (kind x))
      (all.map fun x => (x.lane, x.a))).retire 8)

/-- R231: a fence performs the team's stores and orders its other accesses (10 R242-R244); an acquiring one drops the core's L1 copies. -/
def execFence (f : MForm) (s : State) : Host.Outcome State Fault Refusal :=
  issue (.fence f) s fun t =>
    match s.releasePart (normObs f.obs) (f.ord = 1) fun s => s.orderOuts s.cur (normObs f.obs) (f.ord = 2) with
    | .error e => .error e
    | .ok s' =>
      let s' := if f.ord.getLsbD 0 then s'.acquireL1 (s.crewAt t.crew).place f.obs else s'
      .ok ((s'.trace t (.fence f) false false false []).retire 8)

end Sys2Proof.Machine
end

