-- ==== Sys2Proof/Machine/Sched.lean ====
section
/-! DEFINITION. Crews on cores (07 R188-R197, 09 R202), the completion of engine commands (11 R261, R266, R268), levels, instances,
completion and cancel (07 R178-R187). -/
namespace Sys2Proof.Machine

/-! Cores. -/

def State.grantOf (s : State) (ctx : Option Nat) (die core : Nat) : Bool :=
  match ctx with
  | none => false
  | some c => (s.ctxAt c).grants.any fun g => g.1.getLsbD die && g.2.getLsbD core
/-- Dies of a context's grant. -/
def Context.dies (x : Context) : BitVec 4 := x.grants.foldl (fun m g => m ||| g.1) 0
/-- The lowest die of a grant, on which a replayable context runs (21 R417). -/
def Context.lowestDie (x : Context) : Nat := ((List.range 4).find? fun d => x.dies.getLsbD d).getD 0

/-- The allowed set of a launch, before what is reserved to others (R189; 14 R323, 17 R356); in a replayable context as though the record
named the lowest die of the grant (21 R417). -/
def State.allowedSet (s : State) (l : Launch) : List Nat :=
  (List.range 256).filter fun p =>
    let die := p / 64; let core := p % 64
    (l.dies = 0 || l.dies.getLsbD die || s.replayable l.ctx) && (l.cores = 0 || l.cores.getLsbD core) && s.grantOf l.ctx die core &&
      (s.dieAt die).usable && !(s.coreAt p).out && (!s.replayable l.ctx || die = (s.ctxAt (l.ctx.getD 0)).lowestDie)
/-- The cores on which launch `li` can place a crew now. -/
def State.allowed (s : State) (li : Nat) : List Nat :=
  (s.allowedSet (s.launchAt li)).filter fun p => match (s.coreAt p).reservedTo with | none => true | some r => r = li

/-- What a crew of a launch takes of a core: teams, register bytes, scratchpad bytes. -/
def Launch.regBytes (l : Launch) : Nat := l.teamsPer * l.lanes * l.regs * 7
/-- `slots(c)` (R189). -/
def Launch.slots (l : Launch) : Nat :=
  let a := min (32 / l.teamsPer) (l.g * 65536 / l.regBytes)
  if l.scrk = 0 then a else min a (l.h * 65536 / (l.scrk * 1024))

/-- Whether a core takes a crew of launch `li` while the crews of `except_` count as gone (R189, R204). -/
def State.fits (s : State) (li place : Nat) (except_ : Option Nat) : Bool :=
  let l := s.launchAt li
  let on := (s.crewsOn place).filter fun x => some x ≠ except_
  let ls := on.map fun x => s.launchAt (s.crewAt x).launch
  let sum (f : Launch → Nat) : Nat := ls.foldl (fun n x => n + f x) (f l)
  (match (s.coreAt place).split with | none => true | some x => x = (l.g, l.h, l.k)) &&
    sum (·.teamsPer) ≤ 32 && sum (·.regBytes) ≤ l.g * 65536 && sum (fun x => x.scrk * 1024) ≤ l.h * 65536

def Crew.eff (c : Crew) : Nat := if c.raised = 0 then c.level else max c.level (min 21 (c.level + c.raised))

/-- Crews of a context are placed and switched out: always, or in a replayable context only at the end of an epoch, before an instruction
of the next has retired (21 R417) (DEDUCED, log 8). -/
def State.epochStart (s : State) (ctx : Option Nat) : Bool :=
  !s.replayable ctx || s.crews.all fun c => c.ctx ≠ ctx || c.epochUsed = 0
/-- A READY crew that the dispatcher can place: no `csave` holds it, and it has its SCRATCH root or can claim one (09 R202). -/
def State.isReady (s : State) (ci : Nat) : Bool :=
  let c := s.crewAt ci
  c.state = .ready && c.area.isNone && (c.started || (s.claimRoot c.ctx {}).isSome)
/-- Eligible for a slot of a core (R175, R195). -/
def State.eligible (s : State) (place : Nat) (except_ : Option Nat) (ci : Nat) : Bool :=
  let c := s.crewAt ci
  s.isReady ci && (s.allowed c.launch).contains place && s.fits c.launch place except_
/-- The FIFO head of the highest effective level among the crews for which `ok` holds (R175, R194); of crews that joined in one cycle the lowest
index first (DESIGN CHOICE, log 38). -/
def State.readyHead (s : State) (ok : Nat → Bool) : Option Nat :=
  ((indices s.crews).filter ok).foldl (fun (b : Option Nat) x =>
    match b with
    | none => some x
    | some y =>
      let cx := s.crewAt x; let cy := s.crewAt y
      if cy.eff < cx.eff || (cy.eff = cx.eff && cx.joined < cy.joined) then some x else some y) none

/-- Whether a core can take the tile store that a crew carries (12 R279). -/
def State.tilesFit (s : State) (ci place : Nat) : Bool :=
  (s.crewAt ci).tiles.isNone || match (s.coreAt place).owner with | none => true | some o => o = ci
/-- Whether a crew may take a slot of a core that other crews have been promised: it is one of them, or none of them can take it. -/
def State.maySlot (s : State) (place ci : Nat) : Bool :=
  let heads := (s.coreAt place).next.filter fun x => s.eligible place none x && s.tilesFit x place
  heads.isEmpty || heads.contains ci
/-- A slot of a core is free for a crew that has just been taken: no crew has been promised it, and none waits for it in a FIFO (R195, R196). -/
def State.slotOpen (s : State) (ci place : Nat) : Bool :=
  s.fits (s.crewAt ci).launch place none && s.maySlot place ci &&
  !(List.range ci).any fun x => s.eligible place none x && s.tilesFit x place && s.epochStart (s.crewAt x).ctx

/-- Teams resident on a core. -/
def State.teamsOn (s : State) (place : Nat) : Nat := (s.crewsOn place).foldl (fun n x => n + (s.crewAt x).teams.length) 0
/-- The first of a list by a key. -/
def minBy (key : Nat → Nat) : List Nat → Option Nat
  | [] => none
  | x :: xs => match minBy key xs with
    | none => some x
    | some y => if key x ≤ key y then some x else some y

/-- The guest-physical address whose home is that of a tile address (R190, 09 R210). -/
def State.tileHome (s : State) (ctx : Option Nat) (a : Nat) : Nat :=
  match ctx with
  | none => a
  | some c => match findMap (s.ctxAt c).maps a with
    | none => a
    | some m => m.frame + (a - m.va)

/-- The core of a crew under HASH (R190). -/
def State.hashCore (s : State) (ci : Nat) : Option Nat :=
  let c := s.crewAt ci
  let l := s.launchAt c.launch
  let a := (capCursor l.tile.bits + c.x.toNat * l.stx + c.y.toNat * l.sty + c.z.toNat * l.stz) % 2 ^ 57
  let home := s.tileHome l.ctx a
  let free := (s.allowed c.launch).filter fun p => s.slotOpen ci p
  let clusters := (List.range 4).flatMap fun i => (List.range 8).map fun j => ((homeDie home + i) % 4, (homeCluster home + j) % 8)
  match clusters.find? (fun k => free.any fun p => p / 64 = k.1 && p % 64 / 8 = k.2) with
  | none => none
  | some k => minBy (fun p => s.teamsOn p * 256 + p) (free.filter fun p => p / 64 = k.1 && p % 64 / 8 = k.2)

/-- The core of a crew under SPREAD (R191), and where the dealing stands after it. -/
def State.spreadCore (s : State) (ci : Nat) : Option (Nat × Nat) :=
  let l := s.launchAt (s.crewAt ci).launch
  let set := s.allowed (s.crewAt ci).launch
  let order := (List.range set.length).map fun i => (l.dealt + i) % set.length
  match order.find? (fun i => s.slotOpen ci (set.getD i 0)) with
  | none => none
  | some i => some (set.getD i 0, (i + 1) % set.length)

/-! The start of a crew and its residency. -/

/-- c1 of a crew (R202). -/
def scratchCap (root scrk : Nat) : CReg :=
  { bits := (capFor root 0 0 (scrk * 1024) 0 (pLD ||| pST ||| pLDC ||| pSTC ||| pAT ||| pENG)).getD 0, valid := true, tag := tagExternal }

/-- A team at its start (02 Tables 2-1, 2-3, 06 Table 6-1). -/
def startTeam (ci : Nat) (c : Crew) (l : Launch) (codeLo num : Nat) : Team :=
  { crew := ci, num := num, teamid := BitVec.ofNat 64 (c.crewid.toNat * l.teamsPer + num)
    pc := alignPc (codeLo + l.entry), mode := if l.firm then .firm else .user, nlanes := l.lanes, vregs := l.regs
    s := { v := BitVec.ofNat 64 num, tag := tagExternal } :: { v := c.crewid.setWidth 64, tag := tagExternal } :: List.replicate 62 {}
    b := List.replicate 8 false
    c := {} :: scratchCap c.root l.scrk :: (if l.arg.bits = 0 && !l.arg.valid then {} else { l.arg with tag := tagExternal }) ::
      (List.replicate 28 {} ++ [{ l.code with tag := tagExternal }])
    v := List.replicate l.regs (List.replicate l.lanes {}), vcap := List.replicate (l.regs / 4 + 1) (List.replicate l.lanes false)
    p := List.replicate 24 0, m := BitVec.ofNat 1024 (2 ^ l.lanes - 1) }

/-- A crew that has never been resident gets its SCRATCH root and its teams; nothing when no root is FREE (09 R202). -/
def State.startCrew (s : State) (ci : Nat) : Option State :=
  let c := s.crewAt ci
  if c.started then some s else
  let l := s.launchAt c.launch
  let root : Root :=
    { kind := .scratch, state := .live, base := 0, limit := l.scrk * 1024, ceil := pLD ||| pST ||| pLDC ||| pSTC ||| pAT ||| pENG, crew := ci }
  match s.claimRoot c.ctx root with
  | none => none
  | some (r, s) =>
    let s := s.modCrew ci fun c => { c with root := r, started := true, timelines := List.replicate 9 {} }
    let c := s.crewAt ci
    let n := s.teams.length
    let s := s.modCrew ci fun c => { c with teams := (List.range l.teamsPer).map (n + ·) }
    let lo := capLo (rootOf (s.roots c.ctx) l.code.bits).base l.code.bits
    -- no capability on a root that is not LIVE is carried (09 R240)
    let live (k : CReg) : CReg := { k with valid := k.valid && (rootOf (s.roots c.ctx) k.bits).state = .live }
    let l := { l with code := live l.code, arg := live l.arg }
    some { s with teams := s.teams ++ (List.range l.teamsPer).map fun k => startTeam ci c l lo k }

/-- The lowest free slot of a core. -/
def State.freeSlotNum (s : State) (place : Nat) : Nat :=
  ((List.range 32).find? fun k => !(s.crewsOn place).any fun x => (s.crewAt x).slot = k).getD 0

/-- A core gives its pool to a crew: what an ended crew has left there is zeroed (R172, Table 7-4). -/
def State.handOver (s : State) (place : Nat) : State :=
  { s with crews := s.crews.map fun (c : Crew) => if c.state = CrewState.ended && c.root = 0 && c.place = place then { c with scratch := {} } else c }

/-- A crew becomes RESIDENT: on a slot of a core, with a new quantum, its tile store taken back, its engine commands requeued, those that
were paused among them (R195, 11 R269, 12 R296); an acquire at all seven classes (10 Table 10-2). A crew that joined its FIFO in this cycle
begins its quantum in the next (Table 7-5). -/
def State.switchIn (s : State) (ci place : Nat) (slot : Option Nat := none) : State :=
  match s.startCrew ci with
  | none => s
  | some s =>
    let l := s.launchAt (s.crewAt ci).launch
    let k := slot.getD (s.freeSlotNum place)
    let s := (s.handOver place).modCore place fun c =>
      { c with split := some (c.split.getD (l.g, l.h, l.k)), owner := if (s.crewAt ci).tiles.isSome then some ci else c.owner
               l1 := [], next := c.next.filter fun x => x ≠ ci }
    let s := s.modCrew ci fun c =>
      { c with state := .resident, die := place / 64, core := place % 64, slot := k, used := 0
               quantumAt := if c.joined = s.now then s.now + 1 else s.now, level := c.prio, area := none }
    let s := match (s.crewAt ci).ctx with
      | some c =>    -- 21 R407
        if (s.ctxAt c).recorder.on then s.modCtx c fun x => { x with recorder := { x.recorder with seen := distinct (place :: x.recorder.seen) } } else s
      | none => s
    s.requeue ci place

/-- A crew begins to be saved (R195): its quantum is over, and with it what its level had risen (R193). -/
def State.startSave (s : State) (ci : Nat) : State := s.modCrew ci fun c => { c with state := .saving, raised := 0 }
/-- A crew is saved, and `head` takes its slot (R195). -/
def State.saveFor (s : State) (ci head : Nat) : State :=
  (s.modCore (s.crewAt ci).place fun c => { c with next := c.next ++ [head] }).startSave ci

/-- The end of a quantum, or a `yield` (R177, R193, R195). Of the quanta that a core ends without placing a crew these alone count: one that is
cut short, or that ends with its crew, does not (DESIGN CHOICE, log 38). -/
def State.endQuantum (s : State) (ci : Nat) : State :=
  let c := s.crewAt ci
  let place := c.place
  let head := s.readyHead fun x =>
    s.eligible place (some ci) x && !(s.coreAt place).next.contains x && c.eff ≤ (s.crewAt x).eff && (s.crewAt x).joined < c.quantumAt
  let split := (s.coreAt place).split
  let s := { s with crews := (s.crews.zip (indices s.crews)).map fun (p : Crew × Nat) =>
    let l := s.launchAt p.1.launch
    if p.1.state = CrewState.ready && some p.2 ≠ head && (s.allowed p.1.launch).contains place && split = some (l.g, l.h, l.k) then
      { p.1 with ended8 := aset 0 p.1.ended8 place (aget 0 p.1.ended8 place + 1) }
    else p.1 }
  let s := s.modCrew ci fun c => { c with raised := 0 }
  match head with
  | some x => s.saveFor ci x
  | none => s.modCrew ci fun c => { c with used := 0, quantumAt := s.now, level := c.prio }

/-! Completion of engine commands. -/

/-- VALUE follows the completed numbers (R261). -/
def advanceValue : Nat → Timeline → Timeline
  | 0, t => t
  | fuel + 1, t =>
    if t.done.contains (t.value + 1) then advanceValue fuel { t with value := t.value + 1, done := t.done.filter fun n => n ≠ t.value + 1 }
    else t
/-- Number n has completed, with a fault or without. -/
def Timeline.complete (t : Timeline) (n : Nat) (f : Option CmdFault) : Timeline :=
  advanceValue (t.done.length + 1)
    { t with done := t.done ++ [n], faults := match f with | none => t.faults | some x => t.faults ++ [x] }

/-- The tag of a command's own values (R268). -/
def Cmd.ownTag (c : Cmd) : Tag := if c.rule = ruleFrozen then tagImm else c.own

/-- The status record (R268). -/
def Cmd.statusBytes (c : Cmd) : List Byte := leBytes 8 c.n ++ [c.cause, c.exc.setWidth 8, 0, 0, 0, 0, 0, 0]
def Cmd.statusOff (c : Cmd) : Nat :=
  (if c.q = 4 || c.q = 5 then (c.w.getD 4 0).toNat / 65536 % 65536 else (c.w.getD 3 0).toNat % 65536) * 64
/-- Engines write a crew's scratchpad; their writes leave no scope record. -/
def State.scratchStore (s : State) (ci off : Nat) (bs : List Byte) (tag : Tag) : State :=
  s.modCrew ci fun c => { c with scratch := storeBytes c.scratch (laneWrites [(off, bs.length)] bs tag) {} }

/-- A command completes (R257, R261, R266): its record is its last access, its number joins the timeline while its crew lives, and what
waits for an ended crew's commands goes. -/
def State.finishCmd (s : State) (i : Nat) : State :=
  let c := s.cmdAt i
  if c.state = .done then s else
  let s := if c.record then s.scratchStore c.crew c.statusOff c.statusBytes c.ownTag else s
  let s := s.modCmd i fun c => { c with state := .done, entry := false }
  let f : Option CmdFault := if c.cause = 0 then none else some { n := c.n, cause := c.cause, addr := c.addr }
  let s := if (s.crewAt c.crew).state = .ended then s else s.modTimeline c.crew c.q fun t => t.complete c.n f
  (s.freeTiles c.crew).freeScratch c.crew
/-- A command completes with its fault flag set (R266). -/
def State.faultCmd (s : State) (i : Nat) (cause : BitVec 8) (addr : Nat) : State :=
  (s.modCmd i fun c => { c with cause := cause, addr := BitVec.ofNat 64 addr }).finishCmd i

/-! Levels and instances (R178-R180). -/

def State.levelAt (s : State) (c level slot : Nat) : Nat := (s.ctxAt c).levelTable + (level * 65536 + slot) * 32
def State.count (s : State) (c level slot : Nat) : Nat := s.fwLoad (s.levelAt c level slot) 8
/-- A completion on a slot (R180): STATUS and KILLS, then COUNT with a release. -/
def State.bumpLevel (s : State) (c level slot status kills : Nat) (o : BitVec 8) : State :=
  let a := s.levelAt c level slot
  let s := s.fwStore (a + 8) (leBytes 4 status ++ leBytes 4 (min kills (2 ^ 32 - 1)))
  s.fwStore a (leBytes 8 (s.fwLoad a 8 + 1)) (if o = 0 then 0x03 else o)

/-- A handle: context level and slot; `none` when malformed (R178). -/
def handleOf (v : Nat) : Option (Nat × Nat) :=
  let level := v / 65536 % 4; let slot := v % 65536
  if 2 ^ 18 ≤ v || (if level = 3 then slot ≠ 0 else slot = 0) then none else some (level, slot)

/-- The condition of R180 for a launch. -/
def State.launchOver (s : State) (li : Nat) : Bool :=
  let l := s.launchAt li
  l.state = .done || (l.state = .taken && l.crews.all fun ci => (s.crewAt ci).state = .ended && !s.crewBusy ci)
def State.runAt (s : State) (g : Nat) : LevelRun := s.levelRuns.getD g { ctx := 0, level := 0, slot := 0 }
def State.modRun (s : State) (g : Nat) (f : LevelRun → LevelRun) : State := { s with levelRuns := s.levelRuns.set g (f (s.runAt g)) }
/-- Launches that belong to a graph or phase instance. -/
def State.membersOf (s : State) (g : Nat) : List Nat :=
  (indices s.launches).filter fun i => (s.launchAt i).graph = some g || (s.launchAt i).phase = some g
/-- Graph instances of a phase instance. -/
def State.graphsOf (s : State) (p : Nat) : List Nat := (indices s.levelRuns).filter fun i => (s.runAt i).parent = some p
/-- Launches of an instance, those of its graphs included. -/
def State.launchesOf (s : State) (g : Nat) : List Nat := distinct (s.membersOf g ++ (s.graphsOf g).flatMap s.membersOf)

/-- Rank of a status: DONE < FAULTED < CANCELLED. -/
def worst (a b : Nat) : Nat := if a = 1 || b = 1 then 1 else if a = 2 || b = 2 then 2 else 0

/-- Complete a graph or phase instance if it is closed and its members have completed. -/
def State.checkRun (s : State) (g : Nat) : State :=
  let r := s.runAt g
  if r.done || !r.closed || !(s.membersOf g).all (fun i => (s.launchAt i).state = .done) || !(s.graphsOf g).all (fun i => (s.runAt i).done)
  then s else
  let st0 := (s.membersOf g).foldl (fun n i => worst n (s.launchAt i).status) 0
  let st1 := (s.graphsOf g).foldl (fun n i => worst n (s.runAt i).status) st0
  let status := if r.cancelled then 1 else st1
  let kills := (s.launchesOf g).foldl (fun n i => n + (s.launchAt i).kills) 0
  (s.modRun g fun r => { r with done := true, status := status, kills := kills }).bumpLevel r.ctx r.level r.slot status kills r.obs

/-- A firmware notification to the creator of a context (17 R348). -/
def State.notify (s : State) (c code : Nat) (body : List Byte) : State :=
  let x := s.ctxAt c
  let line := (leBytes 2 code ++ [0, 0] ++ leBytes 4 (c + 1) ++ body ++ List.replicate 64 0).take 64
  let p : Packet :=
    { cls := 2, op := 3, first := 0, last := 63, src := Config.deviceId, dst := x.creator, exp := 0, xid := 0, gen := 0, otag := 0, kind := 0
      obs := 0, addr := 0, seq := 0, scales := 0, line := line }
  match s.send (some c) p with
  | some s => s
  | none => s

/-- Complete the job when every launch of the context has completed (R180, 17 R352): with the worst status of its launches, the sum of their
kills and the OBS of its root launch, which the rule does not give (DESIGN CHOICE, log 36). -/
def State.checkJob (s : State) (c : Nat) : State :=
  let x := s.ctxAt c
  let mine := (indices s.launches).filter fun i => (s.launchAt i).ctx = some c && x.firstLaunch ≤ i
  if !x.hasJob || !mine.all (fun i => (s.launchAt i).state = .done) then s else
  let status := if x.jobCancelled then 1 else mine.foldl (fun n i => worst n (s.launchAt i).status) 0
  let kills := mine.foldl (fun n i => n + (s.launchAt i).kills) 0
  let s := s.modCtx c fun x => { x with hasJob := false, jobDone := true }
  let o := ((mine.head?.map fun i => (s.launchAt i).obs)).getD 0
  (s.bumpLevel c 3 0 status kills o).notify c 0xC020 (leBytes 4 status)

/-- A launch completes (R180): its cores are given back, its slot, its timeline number, its instances and its job follow (DEDUCED, log 16). -/
def State.finishLaunch (s : State) (li : Nat) : State :=
  let l := s.launchAt li
  if l.state = .done then s else
  let status := if l.malformed then 2 else if l.cancelled then 1 else if l.kills ≠ 0 then 2 else 0
  let s := s.modLaunch li fun l => { l with state := .done, status := status }
  let s := { s with cores := s.cores.map fun (c : CoreSt) => if c.reservedTo = some li then { c with reservedTo := none } else c }
  match l.ctx with
  | none => s
  | some c =>
    let s := if l.lslot = 0 then s else s.bumpLevel c 0 l.lslot status l.kills l.obs
    let f : Option CmdFault := if l.malformed then some { n := l.number, cause := cILLEGAL, addr := 0 } else none
    let s := if l.root || (s.crewAt l.pusher).state = .ended then s else s.modTimeline l.pusher 6 fun t => t.complete l.number f
    let s := match l.graph with | some g => s.checkRun g | none => s
    let s := match l.phase with | some p => s.checkRun p | none => s
    let s := match l.graph with
      | some g => (match (s.runAt g).parent with | some p => s.checkRun p | none => s)
      | none => s
    s.checkJob c

/-! Cancel (R182, R183). -/

/-- Engine commands of a crew: those that are not running are discarded, which completes them with the fault CANCELLED and with the record of
R268 (DEDUCED, log 15); running ones stop at their next boundary. -/
def State.cancelCmds (s : State) (ci : Nat) : State :=
  (indices s.cmds).foldl (fun s i =>
    let c := s.cmdAt i
    if c.crew ≠ ci || !c.open || c.q = 6 then s else
    match c.state with
    | .running => s.modCmd i fun c => { c with cancelled := true }
    | _ => s.faultCmd i cCANCELLED 0) s

/-- CANCELLED is to be taken by every team of a crew; a crew that was never resident ends. -/
def State.cancelCrew (s : State) (ci : Nat) : State :=
  let c := s.crewAt ci
  if c.state = .ended then s.cancelCmds ci else
  if !c.started then s.modCrew ci fun c => { c with state := .ended } else
  let s := c.teams.foldl (fun s i => s.modTeam i fun t => if t.alive && !t.cancelTaken then { t with cancelPending := true } else t) s
  s.cancelCmds ci

/-- Cancel of a launch before its completion point. -/
def State.cancelLaunch (s : State) (li : Nat) : State :=
  if s.launchOver li then s else
  let l := s.launchAt li
  let s := s.modLaunch li fun l => { l with cancelled := true, state := .taken }
  l.crews.foldl (fun s ci => s.cancelCrew ci) s

/-- The condition of R180 for a graph or phase instance. -/
def State.runOver (s : State) (g : Nat) : Bool :=
  let r := s.runAt g
  r.done || (r.closed && (s.membersOf g).all s.launchOver && (s.graphsOf g).all fun i =>
    (s.runAt i).done || ((s.runAt i).closed && (s.membersOf i).all s.launchOver))
def State.cancelRun (s : State) (g : Nat) : State :=
  if s.runOver g then s else
  let open_ := ([g] ++ s.graphsOf g).filter fun i => !s.runOver i
  let s := open_.foldl (fun s i => s.modRun i fun r => { r with cancelled := true }) s
  (s.launchesOf g).foldl (fun s i => s.cancelLaunch i) s

/-- `cancel.job` (R182). -/
def State.cancelJob (s : State) (c : Nat) : State :=
  let x := s.ctxAt c
  let mine := (indices s.launches).filter fun i => (s.launchAt i).ctx = some c && x.firstLaunch ≤ i
  if !x.hasJob || mine.all s.launchOver then s else
  let s := s.modCtx c fun x => { x with jobCancelled := true }
  let runs := (indices s.levelRuns).filter fun i => (s.runAt i).ctx = c && !s.runOver i
  let s := runs.foldl (fun s i => s.modRun i fun r => { r with cancelled := true }) s
  mine.foldl (fun s i => s.cancelLaunch i) s

/-- Cancel every open instance of a handle. -/
def State.cancelHandle (s : State) (c level slot : Nat) : State :=
  if level = 3 then s.cancelJob c
  else if level = 0 then
    ((indices s.launches).filter fun i => (s.launchAt i).ctx = some c && (s.launchAt i).lslot = slot).foldl (fun s i => s.cancelLaunch i) s
  else
    ((indices s.levelRuns).filter fun i => let r := s.runAt i; r.ctx = c && r.level = level && r.slot = slot).foldl (fun s i => s.cancelRun i) s

end Sys2Proof.Machine
end

