-- ==== Sys2Proof/Machine/Paging.lean ====
section
/-! DEFINITION. Pages: `pmap` (09 R235, R236), residency and migration (R237, R238), the error of a world (20 R400, R401). -/
namespace Sys2Proof.Machine

/-! Frames of a grant. -/

/-- Put a chunk back, joined to its neighbours. -/
def addChunk (a n : Nat) : List (Nat × Nat) → List (Nat × Nat)
  | [] => [(a, n)]
  | (b, m) :: t =>
    if a + n < b then (a, n) :: (b, m) :: t
    else if a + n = b then (a, n + m) :: t
    else if b + m = a then addChunk b (m + n) t
    else (b, m) :: addChunk a n t

/-- Take `n` bytes at a multiple of `al`, first fit: the start, and what is left. -/
def takeChunk (n al : Nat) : List (Nat × Nat) → Option (Nat × List (Nat × Nat))
  | [] => none
  | (b, m) :: t =>
    let a := (b + al - 1) / al * al
    if a + n ≤ b + m then
      some (a, (if b < a then [(b, a - b)] else []) ++ (if a + n < b + m then [(a + n, b + m - (a + n))] else []) ++ t)
    else match takeChunk n al t with
      | none => none
      | some (x, r) => some (x, (b, m) :: r)

/-- Perform every local access of every team: none outlives the mapping it was translated under (R236). -/
def State.drainAll (s : State) : State := (indices s.teams).foldl (fun s i => s.drain i) s

/-- Drop the cached copies and the scope records of a region (R235, 10 R246). -/
def State.dropRegion (s : State) (a n : Nat) : State :=
  let out (l : Nat) : Bool := l * 64 + 64 ≤ a || a + n ≤ l * 64
  { s with
    mem := { s.mem with recs := s.mem.recs.filter fun r => out r.1 }
    llc := s.llc.filter fun e => out e.1
    cores := s.cores.map fun (c : CoreSt) => if c.l1.isEmpty then c else { c with l1 := c.l1.filter fun e => out e.1 } }
/-- Zero a region of device memory at a change of owner (17 R355). -/
def State.zeroOwner (s : State) (a n : Nat) : State :=
  let s := s.dropRegion a n
  { s with mem := zeroRegion s.mem a n }

/-! Worlds in error (20 R400, R401). -/
def State.contextsOf (s : State) (w : Nat) : List Nat := (indices s.contexts).filter fun c => (s.ctxAt c).world = w && (s.ctxAt c).alive
/-- ERROR: the jobs of the world are cancelled, its exports closed; its keys are retired when its crews have ended (DEDUCED, log 24). -/
def State.worldError (s : State) (w : Nat) : State :=
  let s := s.modWorld w fun x => { x with lock := .error, failing := true }
  let cs := s.contextsOf w
  let s := cs.foldl (fun s c => s.cancelJob c) s
  { s with exports := s.exports.map fun (e : Nat × Exported) =>
      if cs.contains e.2.ctx && e.2.state = ExportState.live then (e.1, { e.2 with state := ExportState.closed }) else e }

/-! pmap. -/

/-- Mappings that meet [a, a + n). -/
def overlaps (maps : List Mapping) (a n : Nat) : List Mapping := maps.filter fun m => m.va < a + n && a < m.va + m.size
def State.setMap (s : State) (c : Nat) (m : Mapping) : State :=
  s.modCtx c fun x => { x with maps := (x.maps.filter fun y => y.va ≠ m.va) ++ [m] }

/-- A page operation of a context: page address, size, permissions; the state after it and its status (Table 9-6). -/
abbrev PageOp := State → Nat → Nat → Nat → Nat → State × Word

/-- SIZECLASH comes first; then the operation sees the page's own mapping, if any. -/
def onPage (op : State → Nat → Nat → Nat → Nat → Option Mapping → State × Word) : PageOp := fun s c a z perm =>
  let ms := overlaps (s.ctxAt c).maps a z
  if ms.any (fun m => m.size ≠ z) then (s, 3) else op s c a z perm ms.head?

def permR (p : Nat) : Bool := p % 2 = 1
def permW (p : Nat) : Bool := p / 2 % 2 = 1
def permX (p : Nat) : Bool := p / 4 % 2 = 1

def pageMap : PageOp := onPage fun s c a z perm m =>
  match m with
  | some _ => (s, 1)
  | none =>
    match takeChunk z z (s.ctxAt c).poolFree with
    | none => (s, 2)
    | some (frame, rest) =>
      let s := (s.modCtx c fun x => { x with poolFree := rest }).zeroOwner frame z
      (s.setMap c { va := a, size := z, frame := frame, r := permR perm, w := permW perm, x := permX perm }, 0)

def pageUnmap : PageOp := onPage fun s c a z _ m =>
  match m with
  | none => (s, 6)
  | some m =>
    let s := s.drainAll
    let s := if m.resid = .device then (s.dropRegion m.frame z).modCtx c fun x => { x with poolFree := addChunk m.frame z x.poolFree } else s
    (s.modCtx c fun x => { x with maps := x.maps.filter fun y => y.va ≠ a }, 0)

def pageProtect : PageOp := onPage fun s c _ _ perm m =>
  match m with
  | none => (s, 6)
  | some m => (s.setMap c { m with r := permR perm, w := permW perm, x := permX perm }, 0)

/-- A page that comes from the host: bytes only, with TAG_EXTERNAL (DESIGN CHOICE, log 6). -/
def Memory.fromHost (m : Memory) (frame z : Nat) (bs : List Byte) : Memory :=
  (List.range (z / 64)).foldl (fun (m : Memory) l => m.setLine (frame / 64 + l) { otag := tagExternal })
    ((zeroRegion m frame z).setBytes frame bs)
/-- Cells of a region, by offset. -/
def regionCells (m : Memory) (a n : Nat) : List Host.Cell := (m.cells.filter fun c => a ≤ c.1 && c.1 < a + n).map fun c => (c.1 - a, c.2)

/-- MIGRATE_IN (R235, R238, 20 R400). -/
def pageMigrate : PageOp := onPage fun s c a z _ m =>
  match m with
  | none => (s, 6)
  | some m =>
    if m.resid = .device then (s, 1)
    else if s.now < m.hold then (s.setMap c { m with resid := .remote }, 5)
    else
    match takeChunk z z (s.ctxAt c).poolFree with
    | none => (s, 2)
    | some (frame, rest) =>
      let n := s.tick
      let s := { s with tick := n + 1 }
      if !Config.migrationWins n then (s.setMap c { m with resid := .remote, hold := s.now + Config.migrationHold }, 4)
      else if m.away.isSome && !Config.versionPasses n then
        (((s.setMap c { m with resid := .failed }).worldError (s.ctxAt c).world), Config.pmapStatus n)
      else
        let bs := match m.away with
          | some cells => (List.range z).map fun i => aget byteZero cells i
          | none => (List.range z).map fun i => Config.hostByte n a i
        let s := (s.modCtx c fun x => { x with poolFree := rest }).dropRegion frame z
        let s := { s with mem := s.mem.fromHost frame z bs }
        (s.setMap c { m with frame := frame, resid := .device, away := none, hold := s.now + Config.migrationHold }, 0)

/-- `pmap` (R235). A firmware team has no context, so no grant and no page (DESIGN CHOICE, log 6). -/
def pmapInstr (i : Instr) (f : MForm) (s : State) (op : PageOp) : Host.Outcome State Fault Refusal :=
  issue i s fun t =>
    tagM f { kind := .load, kinds := [.loc], perm := pSYS, size := 1, unit := 65536, off := f.off.toInt, data := .elems 1 } t <|
    match readC t f.cap.toNat with
    | .error e => .error e
    | .ok k =>
    match readS t f.data.toNat f.e with
    | .error e => .error e
    | .ok x =>
    if k.tag = tagPoison || x.tag = tagPoison then .error (poisonTrap t) else
    let sz := x.v / 8 % 4
    if 256 ≤ x.v || 4 ≤ x.v % 8 || sz = 3 then .error (trapNow t cILLEGAL) else
    let z := if sz = 0 then 2 ^ 16 else if sz = 1 then 2 ^ 21 else 2 ^ 30
    let at_ := (((capCursor k.bits : Int) + f.off.toInt * 65536) % 2 ^ 57).toNat
    let a := at_ / z * z
    match s.check t [.loc] k a z pSYS with
    | some cause => .error (trapNow t cause 0 (everyLane t a))
    | none =>
      let r := match s.ctxOf t with
        | some c => op s c a z (x.v / 32 % 8)
        | none => (s, if x.v % 8 = 0 then 2 else 6)
      .ok (((r.1.trace t i false false false [(0, at_)]).modTeam s.cur fun t => t.setS f.data.toNat r.2 (s.ownTag t)).retire 8)

def execPmapMap (f : MForm) (s : State) : Host.Outcome State Fault Refusal := pmapInstr (.pmapMap f) f s pageMap
def execPmapUnmap (f : MForm) (s : State) : Host.Outcome State Fault Refusal := pmapInstr (.pmapUnmap f) f s pageUnmap
def execPmapProtect (f : MForm) (s : State) : Host.Outcome State Fault Refusal := pmapInstr (.pmapProtect f) f s pageProtect
def execPmapMigrateIn (f : MForm) (s : State) : Host.Outcome State Fault Refusal := pmapInstr (.pmapMigrateIn f) f s pageMigrate

/-! Migration events. -/

/-- HOST_MIGRATION_REQUEST (R238): a page of the device goes to the host unless it is in its hold; a protected world's page is sealed
under a raised version. -/
def execHostMigrationRequest (ctx page : Nat) (s : State) : Host.Outcome State Fault Refusal :=
  match (s.ctxAt ctx).maps.find? (fun m => m.va = page) with
  | none => .next s
  | some m =>
    if m.resid ≠ .device || s.now < m.hold then .next s else
    let s := s.drainAll
    let prot := match s.worldOf (some ctx) with | some w => w.prot | none => false
    let cells := regionCells s.mem m.frame m.size
    let s := (s.dropRegion m.frame m.size).modCtx ctx fun x => { x with poolFree := addChunk m.frame m.size x.poolFree }
    .next (s.setMap ctx
      { m with resid := .host, hold := s.now + Config.migrationHold, version := if prot then m.version + 1 else m.version
               away := if prot then some cells else none })

/-- MIGRATION_HOLD_EXPIRY (R238). -/
def execMigrationHoldExpiry (ctx page : Nat) (s : State) : Host.Outcome State Fault Refusal :=
  match (s.ctxAt ctx).maps.find? (fun m => m.va = page) with
  | none => .next s
  | some m =>
    if s.now < m.hold || m.hold = 0 then .next s
    else .next (s.setMap ctx { m with hold := 0, resid := if m.resid = .remote then .host else m.resid })

end Sys2Proof.Machine
end

