-- ==== Sys2Proof/Machine/Message.lean ====
section
/-! DEFINITION. Firmware messages (17 R348, R349): senders and their cached replies, statuses; the steps of CONTEXT_DESTROY (R353). -/
namespace Sys2Proof.Machine

/-! Statuses of R349. -/
def stOK : Nat := 0
def stMALFORMED : Nat := 1
def stNOVERSION : Nat := 2
def stDENIED : Nat := 3
def stNOSPACE : Nat := 4
def stNOTFOUND : Nat := 5
def stBUSY : Nat := 6
def stBADOBJECT : Nat := 7
def stSTATE : Nat := 8

/-! Arguments. -/

/-- Bytes off to off + n - 1 of a message (R348). -/
def fwArg (args : List Byte) (off n : Nat) : Nat := leNat ((args.drop (off - 8)).take n)
/-- Every byte outside the named (offset, length) fields is zero. -/
def reservedZero (args : List Byte) (used : List (Nat × Nat)) : Bool :=
  (List.range 56).all fun i => used.any (fun u => u.1 ≤ i + 8 && i + 8 < u.1 + u.2) || args.getD i 0 = 0

/-- What the firmware reads for a message through exports of its sender: export, offset, length (Table 17-8, 18 R360, 20 R396). -/
def fwSources (m : FwMsg) : List (BitVec 16 × Nat × Nat) :=
  let sub := fwArg m.args 8 1
  let at_ (e a n : Nat) : BitVec 16 × Nat × Nat := (BitVec.ofNat 16 (fwArg m.args e 2), fwArg m.args a 8, n)
  if m.code = 0x20 then [at_ 24 8 (fwArg m.args 16 8), at_ 24 36 (fwArg m.args 32 4)]
  else if m.code = 0x30 || m.code = 0x31 then [at_ 12 16 (2 * fwArg m.args 11 1)]
  else if m.code = 0x41 && sub = 1 then [at_ 24 32 (fwArg m.args 40 8)]
  else if m.code = 0x41 && sub = 2 then [at_ 24 32 1568] else []
/-- The firmware reads it (17 R352); whether all has come. -/
def State.readFor (s : State) (c : Nat) (m : FwMsg) : State × Bool :=
  (fwSources m).foldl (fun (r : State × Bool) x => if r.2 then r.1.readOut (some c) m.src x.1 x.2.1 x.2.2 else r) (s, true)

/-! Replies. -/

def State.sender (s : State) (dev : BitVec 12) : Sender := (s.senders.find? fun x => x.dev = dev).getD { dev := dev }
def State.setSender (s : State) (x : Sender) : State := { s with senders := (s.senders.filter fun y => y.dev ≠ x.dev) ++ [x] }

def replyLine (code seq : BitVec 16) (status : Nat) (body : List Byte) : List Byte :=
  (leBytes 2 (code ||| 0x8000).toNat ++ leBytes 2 seq.toNat ++ leBytes 4 status ++ body ++ List.replicate 64 0).take 64
/-- Send a reply; with no UP port it is lost. -/
def State.sendReply (s : State) (ctx : Option Nat) (dst : BitVec 12) (line : List Byte) : State :=
  (s.send ctx
    { cls := 2, op := 2, first := 0, last := 63, src := Config.deviceId, dst := dst, exp := 0, xid := 0, gen := 0, otag := 0, kind := 0
      obs := 0, addr := 0, seq := 0, scales := 0, line := line }).getD s
/-- Answer a request: the reply joins the sender's last 16 (R349). -/
def State.fwAnswer (s : State) (ctx : Option Nat) (dst : BitVec 12) (code seq : BitVec 16) (status : Nat) (body : List Byte) : State :=
  let line := replyLine code seq status body
  let x := s.sender dst
  let all := x.replies ++ [(seq, line)]
  (s.setSender { x with replies := all.drop (all.length - 16), waiting := x.waiting.filter fun q => q ≠ seq }).sendReply ctx dst line

/-- What a command does: the state after it, and its status and results unless it answers later. -/
abbrev FwDo := State → State × Option (Nat × List Byte)

/-- The context that a message names. -/
def fwCtx (m : FwMsg) : Option Nat := if m.cid = 0 then none else some (m.cid.toNat - 1)

/-- Perform a command and answer it. -/
def State.fwServe (s : State) (ctx : Option Nat) (m : FwMsg) (go : FwDo) : State :=
  let r := go s
  match r.2 with
  | none => r.1
  | some (status, body) => r.1.fwAnswer ctx m.src m.code m.seq status body

/-- The event is the command that its message names (Table 17-8); DEVICE_QUERY 0 also stands for what the table does not list. -/
def isCommand (i : Instr) : Bool :=
  let is_ (m : FwMsg) (code : BitVec 16) : Bool := m.code = code
  let sub (m : FwMsg) : Nat := fwArg m.args 8 1
  match i with
  | .deviceQueryId m =>
    (m.code = 0x01 && !([1, 2, 3].contains (sub m))) ||
      !([0x01, 0x02, 0x10, 0x11, 0x12, 0x20, 0x21, 0x28, 0x29, 0x2A, 0x2B, 0x30, 0x31, 0x40, 0x41, 0x42, 0x50, 0x51, 0x52].contains m.code)
  | .deviceQueryHealth m => is_ m 0x01 && sub m = 1
  | .deviceQueryKillLog m => is_ m 0x01 && sub m = 2
  | .deviceQueryFaultLog m => is_ m 0x01 && sub m = 3
  | .negotiate m => is_ m 0x02
  | .contextCreate m => is_ m 0x10
  | .contextDestroy m => is_ m 0x11
  | .poolGrant m => is_ m 0x12
  | .jobStart m _ _ => is_ m 0x20
  | .jobCancel m => is_ m 0x21
  | .windowExport m => is_ m 0x28
  | .windowImport m => is_ m 0x29
  | .windowCloseExport m => is_ m 0x2A && sub m ≠ 1
  | .windowCloseRoot m => is_ m 0x2A && sub m = 1
  | .routeSet m => is_ m 0x2B
  | .groupForm m _ => is_ m 0x30
  | .groupReform m _ => is_ m 0x31
  | .attest m => is_ m 0x40
  | .keyRotateRotate m => is_ m 0x41 && !([1, 2].contains (sub m))
  | .keyRotateCompartment m _ => is_ m 0x41 && sub m = 1
  | .keyRotateFabric m _ => is_ m 0x41 && sub m = 2
  | .lockState m => is_ m 0x42
  | .recordStart m => is_ m 0x50
  | .recordStop m => is_ m 0x51
  | .replayStart m => is_ m 0x52
  | _ => false

/-- The message of a firmware command. -/
def fwMsgOf (i : Instr) : Option FwMsg :=
  match i with
  | .deviceQueryId m | .deviceQueryHealth m | .deviceQueryKillLog m | .deviceQueryFaultLog m | .negotiate m | .contextCreate m | .contextDestroy m
  | .poolGrant m | .jobStart m _ _ | .jobCancel m | .windowExport m | .windowImport m | .windowCloseExport m | .windowCloseRoot m | .routeSet m
  | .groupForm m _ | .groupReform m _ | .attest m | .keyRotateRotate m | .keyRotateCompartment m _ | .keyRotateFabric m _ | .lockState m
  | .recordStart m | .recordStop m | .replayStart m => some m
  | _ => none
/-- SEQ a stands before b. -/
def seqBefore (a b : BitVec 16) : Bool := a ≠ b && (b - a).toNat < 2 ^ 15
/-- A request of the sender that stands before this one waits for the end of an epoch, or for its turn (R349). -/
def State.seqHeld (s : State) (m : FwMsg) : Bool :=
  (s.contexts.flatMap (·.held) ++ (s.sender m.src).queue).any fun i =>
    match fwMsgOf i with | some x => x.src = m.src && seqBefore x.seq m.seq | none => false

/-- A request arrives over an UP port (R345, R349): a repeated one gets its cached reply, a seventeenth BUSY, one whose turn has not
come waits; `i` is the arrival, `go` what it does. -/
def fwArrive (ctx : Option Nat) (m : FwMsg) (i : Instr) (go : FwDo) (s : State) : Host.Outcome State Fault Refusal :=
  let x := s.sender m.src
  if (s.portFrom m.src).isNone || s.replaying ctx || !isCommand i then .next s else
  match x.replies.find? (fun r => r.1 = m.seq) with
  | some r => .next (s.sendReply ctx m.src r.2)
  | none =>
    if x.waiting.contains m.seq then .next s
    else if 16 ≤ x.waiting.length then .next (s.sendReply ctx m.src (replyLine m.code m.seq stBUSY []))
    else
      let x := { x with waiting := x.waiting ++ [m.seq] }
      if s.seqHeld m then .next (s.setSender { x with queue := x.queue ++ [i] })
      else .next ((s.setSender x).arrive ctx i fun s => s.fwServe ctx m go)

/-- A device command: the context id is 0. -/
def fwDevice (m : FwMsg) (used : List (Nat × Nat)) (go : FwDo) : FwDo := fun s =>
  if m.cid ≠ 0 || !reservedZero m.args used then (s, some (stMALFORMED, [])) else go s

/-- A context command (R349, R353): from the device that created the context, while it is not being destroyed. -/
def fwContext (m : FwMsg) (used : List (Nat × Nat)) (go : Nat → FwDo) : FwDo := fun s =>
  if !reservedZero m.args used then (s, some (stMALFORMED, [])) else
  match fwCtx m with
  | none => (s, some (stNOTFOUND, []))
  | some c =>
    let x := s.ctxAt c
    if !(c < s.contexts.length && x.alive) then (s, some (stNOTFOUND, []))
    else if x.creator ≠ m.src then (s, some (stDENIED, []))
    else if x.destroying.isSome then (s, some (stSTATE, []))
    else go c s

/-- A configuration command of a world (20 R401): outside CONFIG_UNLOCKED it gets STATE and has no effect; one in CONFIG_LOCKED or RUN puts the
interface in ERROR. -/
def fwConfig (world : Nat) (go : FwDo) : FwDo := fun s =>
  match s.worlds.find? (fun w => w.id = world) with
  | none => go s
  | some w =>
    match w.lock with
    | .unlocked => go s
    | .error => (s, some (stSTATE, []))
    | _ => (s.modWorld world fun w => { w with lock := .error }, some (stSTATE, []))

/-! CONTEXT_DESTROY (R353). -/

/-- Give memory back to the device, zeroed. -/
def State.giveBack (s : State) (r : Nat × Nat) : State :=
  let s := s.zeroOwner r.1 r.2
  { s with freeMem := addChunk r.1 r.2 s.freeMem }

/-- The next step that can be taken: when the job has completed the exports close, the groups go and the roots are revoked; when the
sweeps have finished the memory is zeroed, the id is free, and the world goes with its last context (20 R387). -/
def State.destroyStep (s : State) (c : Nat) : State :=
  let x := s.ctxAt c
  match x.destroying with
  | none => s
  | some (dev, seq) =>
    if x.hasJob then s
    else if x.roots.any (fun r => r.2.state = .live) then
      let s := { s with
          exports := s.exports.map fun (e : Nat × Exported) => if e.2.ctx = c then (e.1, { e.2 with state := ExportState.closed }) else e
          groups := s.groups.map fun (g : Group) => if g.ctx = c then { g with gone := true } else g }
      s.modCtx c fun x => { x with roots := x.roots.map fun (r : Nat × Root) => (r.1, { r.2 with state := RootState.revoked, sweeps := 0xF }) }
    else if !x.roots.isEmpty then s
    else
      let s := (x.poolAll ++ x.own).foldl State.giveBack s
      let s := { s with exports := s.exports.filter fun e => e.2.ctx ≠ c }
      let s := s.modCtx c fun x => { x with alive := false, destroying := none, maps := [], stage2 := [], poolFree := [], poolAll := [], own := [], held := [] }
      let s := if (s.contextsOf x.world).isEmpty then { s with worlds := s.worlds.filter fun w => w.id ≠ x.world } else s
      s.fwAnswer none dev 0x11 seq stOK []

end Sys2Proof.Machine
end

