-- ==== Sys2Proof/Machine/Crew.lean ====
section
/-! DEFINITION. Synchronisation, waits, cancel, `exit` and `yield`: MOP 0x09, 0x0A, 0xA0-0xA4 (07 R172-R182), and the events of teams,
crews and launches (02 R42, R46, 14 R302, R307, 07 R186-R197, 10 R244). -/
namespace Sys2Proof.Machine

/-! Instructions. -/

/-- R173. Its arrival is a release on its core (10 Table 10-2). -/
def execBar (f : IForm) (s : State) : Host.Outcome State Fault Refusal :=
  issue (.bar f) s fun t =>
    let n := f.imm.toNat % 16
    .ok (((s.release s.cur 1).modTeam s.cur fun t => { t with wait := some (.bar n f.d.toNat) }).checkBar t.crew n)

/-- Pending teams that conflict with a sync of mask m by team number `num` (R174). -/
def State.syncConflicts (s : State) (i : Nat) (m : BitVec 16) : List Nat :=
  let t := s.teamAt i
  (s.crewTeams t.crew).filter fun j =>
    let u := s.teamAt j
    j ≠ i && u.alive && match u.atSync with
      | some mu => mu ≠ m && (m.getLsbD u.num || mu.getLsbD t.num)
      | none => false

/-- R174. Of the teams that conflict the lowest that is not stopped traps now, the others when they run again (14 R303); one in its
handler is killed for its trap (14 R308). -/
def execTsync (f : IForm) (s : State) : Host.Outcome State Fault Refusal :=
  issue (.tsync f) s fun t =>
    let m : BitVec 16 := f.imm.setWidth 16
    if !m.getLsbD t.num || 2 ^ (s.crewTeams t.crew).length ≤ m.toNat then .error (trapNow t cILLEGAL) else
    let cs := s.syncConflicts s.cur m
    if cs.isEmpty then
      .ok (((s.release s.cur 1).modTeam s.cur fun t => { t with wait := some (.tsync m f.d.toNat) }).checkSync t.crew m)
    else
      match t.st with
      | .skid _ => .error (trapNow t cSYNC_MISMATCH)
      | _ =>
        let all := s.cur :: cs
        let s := all.foldl (fun s i => s.modTeam i fun t => { t with wait := none, mismatch := true }) s
        let first := if t.frame.isSome then s.cur else (minBy (fun i => (s.teamAt i).num) (all.filter fun i => (s.teamAt i).st ≠ .stopped)).getD s.cur
        .ok ((s.modTeam first fun t => { t with mismatch := false }).takeTrap first
          { cause := cSYNC_MISMATCH, pc := (s.teamAt first).pc })

/-- R176, 11 R262: it waits, or acquires what it covers and then completes or traps for the lowest fault (DEDUCED, log 31). -/
def execTwait (f : IForm) (s : State) : Host.Outcome State Fault Refusal :=
  issue (.twait f) s fun t =>
    let q := f.imm.toNat % 32
    if 9 ≤ q then .error (trapNow t cILLEGAL) else
    tagI sourceRow f t <|
    match readS t f.a.toNat f.ea with
    | .error e => .error e
    | .ok v =>
      if v.tag = tagPoison then .error (poisonTrap t) else
      let tl := s.timeline t.crew q
      if tl.issued < v.v then .error (trapNow t cILLEGAL)
      else if tl.value < v.v then .ok (s.setTeam { t with wait := some .twait })
      else
        let s := s.acquireL1 (s.crewAt t.crew).place (queueObs q)
        match tl.covered v.v with
        | some x => .ok (s.takeTrap s.cur (engineFault t q x t.pc))
        | none => .ok (s.retire 8)

/-- The observers of the completions that a handle counts (R180). -/
def State.doneObs (s : State) (c level slot : Nat) : BitVec 8 :=
  let os :=
    if level = 0 || level = 3 then
      (s.launches.filter fun l => l.ctx = some c && l.state = .done && (if level = 0 then l.lslot = slot else l.root)).map (·.obs)
    else (s.levelRuns.filter fun r => r.ctx = c && r.level = level && r.slot = slot && r.done).map (·.obs)
  os.foldl (fun m o => m ||| (if o = 0 then 0x03 else o)) 0
/-- R181. A firmware team has no context and so no level table: no handle is one of its own (DESIGN CHOICE, log 38). -/
def execCwait (f : RForm) (s : State) : Host.Outcome State Fault Refusal :=
  issue (.cwait f) s fun t =>
    tagR { a := .s, b := .s, ln := .s, g := false } f t <|
    match readS t f.a.toNat f.ea with
    | .error e => .error e
    | .ok h =>
    match readS t f.b.toNat f.eb with
    | .error e => .error e
    | .ok n =>
      if h.tag = tagPoison || n.tag = tagPoison then .error (poisonTrap t) else
      match handleOf h.v, s.ctxOf t with
      | some (level, slot), some c =>
        if s.count c level slot < n.v then .ok (s.setTeam { t with wait := some .cwait })
        else .ok ((s.acquireL1 (s.crewAt t.crew).place (s.doneObs c level slot)).retire 8)
      | _, _ => .error (trapNow t cILLEGAL)

/-- R182. Of a firmware team no handle is one of its own, as in `cwait` (DESIGN CHOICE, log 38). -/
def cancelAt (i : Instr) (level : Nat) (f : RForm) (s : State) : Host.Outcome State Fault Refusal :=
  issue i s fun t =>
    tagR Rows.cancelRow f t <|
    match readS t f.a.toNat f.ea with
    | .error e => .error e
    | .ok h =>
      if h.tag = tagPoison then .error (poisonTrap t) else
      match handleOf h.v, s.ctxOf t with
      | some (l, slot), some c => if l = level then .ok ((s.cancelHandle c level slot).retire 8) else .error (trapNow t cILLEGAL)
      | _, _ => .error (trapNow t cILLEGAL)
def execCancelLaunch (f : RForm) (s : State) : Host.Outcome State Fault Refusal := cancelAt (.cancelLaunch f) 0 f s
def execCancelGraph (f : RForm) (s : State) : Host.Outcome State Fault Refusal := cancelAt (.cancelGraph f) 1 f s
def execCancelPhase (f : RForm) (s : State) : Host.Outcome State Fault Refusal := cancelAt (.cancelPhase f) 2 f s
def execCancelJob (f : RForm) (s : State) : Host.Outcome State Fault Refusal := cancelAt (.cancelJob f) 3 f s

/-- R172: a release to the observers of the team's launch record (10 Table 10-2), then the team ends. -/
def execExit (f : RForm) (s : State) : Host.Outcome State Fault Refusal :=
  issue (.exit f) s fun t =>
    if t.held (s.exitObs t) false then .error .wait else .ok ((s.retireTo t.pc).exitTeam s.cur)

/-- R177. In a replayable context the quantum ends with the epoch (21 R417). -/
def execYield (f : RForm) (s : State) : Host.Outcome State Fault Refusal :=
  issue (.yield f) s fun t =>
    match (s.crewAt t.crew).ctx with
    | some c => if (s.ctxAt c).replayable then .ok ((s.retire 8).modCrew t.crew fun x => { x with used := max x.used (s.ctxAt c).quantum })
                else .ok ((s.retire 8).endQuantum t.crew)
    | none => .ok ((s.retire 8).endQuantum t.crew)

/-! Events of teams. -/

/-- FILL_ARRIVAL (02 R42): a load or an atomic is performed and fills its destination. -/
def execFillArrival (team acc : Nat) (s : State) : Host.Outcome State Fault Refusal :=
  match (s.teamAt team).outs.find? (fun a => a.id = acc) with
  | none => .next s
  | some a => if a.isStore then .next s else .next (s.tryPerform team acc)
/-- STORE_PERFORMED_AT_HOME (10 R244). -/
def execStorePerformedAtHome (team acc : Nat) (s : State) : Host.Outcome State Fault Refusal :=
  match (s.teamAt team).outs.find? (fun a => a.id = acc) with
  | none => .next s
  | some a => if a.isStore then .next (s.tryPerform team acc) else .next s

/-- TIMER (02 R46): the moving team traps, `ttimer` becomes 0. A sibling that is to stop stops first (14 R301). -/
def execTimer (s : State) : Host.Outcome State Fault Refusal :=
  let t := s.team
  if !s.canMove s.cur || !s.timerDue t || t.frame.isSome then .next s else
  match t.st with
  | .skid n => .next (s.stopTeam s.cur n)
  | _ => .next ((s.setTeam { t with ttimer := 0 }).takeTrap s.cur { cause := cTIMER, pc := t.pc })

/-- SIBLING_STOP (14 R302). -/
def execSiblingStop (team : Nat) (s : State) : Host.Outcome State Fault Refusal :=
  match (s.teamAt team).st with
  | .skid n => if (s.teamAt team).alive && !(s.teamAt team).acquiring then .next (s.stopTeam team n) else .next s
  | _ => .next s

/-- CANCELLED (14 R307): the moving team takes it. -/
def execCancelled (s : State) : Host.Outcome State Fault Refusal :=
  let t := s.team
  if s.cur < s.teams.length && t.alive && (s.crewAt t.crew).state = .resident && s.cancelDue s.cur then .next (s.takeCancel s.cur)
  else .next s

/-! Events of crews and launches. -/

/-- The condition on DEP word `d` of launch `li` (R186) (DEDUCED, log 29). -/
def State.depOk (s : State) (li : Nat) (d : Word) : Bool :=
  if d = 0 then true else
  let l := s.launchAt li
  let level := d.toNat / 2 ^ 62; let slot := d.toNat / 2 ^ 46 % 65536
  match l.ctx with
  | none => false
  | some c =>
    d.toNat % 2 ^ 46 ≤ s.count c level slot &&
      (List.range li).all fun j =>
        let e := s.launchAt j
        !(e.state = .queued && !e.root && e.pusher = l.pusher && e.ctx = l.ctx &&
          (if level = 0 then e.lslot else if level = 1 then e.gslot else e.pslot) = slot)

/-- The crews of a launch (R188). -/
def crewsOf (l : Launch) (li now : Nat) : List Crew :=
  (List.range (l.gx * l.gy * l.gz)).map fun i =>
    { launch := li, ctx := l.ctx, crewid := BitVec.ofNat 32 i, x := BitVec.ofNat 32 (i % l.gx), y := BitVec.ofNat 32 (i / l.gx % l.gy)
      z := BitVec.ofNat 32 (i / (l.gx * l.gy)), state := .ready, prio := l.prio, level := l.prio, scrk := l.scrk, joined := now }

/-- Place one crew by its launch's policy (R190, R191). -/
def State.placeCrew (s : State) (ci : Nat) : State :=
  let li := (s.crewAt ci).launch
  let l := s.launchAt li
  if l.policy = 0 && l.tile.bits ≠ 0 then
    match s.hashCore ci with
    | none => s
    | some p => s.switchIn ci p
  else
    match s.spreadCore ci with
    | none => s
    | some (p, k) => (s.modLaunch li fun l => { l with dealt := k }).switchIn ci p

/-- A queued record whose DEP words let it be taken (R186). -/
def State.takeable (s : State) (li : Nat) : Bool :=
  let r := s.launchAt li
  r.state = .queued && s.depOk li r.dep0 && s.depOk li r.dep1
/-- An earlier record of the same crew is still queued: a crew's records are taken in push order (R186, 11 R257). -/
def State.earlierQueued (s : State) (li : Nat) : Bool :=
  let r := s.launchAt li
  !r.root && (List.range li).any fun j => let e := s.launchAt j; e.state = .queued && !e.root && e.pusher = r.pusher && e.ctx = r.ctx

/-- LAUNCH_TAKE (R186-R191). -/
def execLaunchTake (l : Nat) (s : State) : Host.Outcome State Fault Refusal :=
  let r := s.launchAt l
  let held := match r.ctx with | some c => (s.ctxAt c).holdJob | none => false      -- 21 R419
  if !(l < s.launches.length && s.takeable l && !s.earlierQueued l && !held && s.epochStart r.ctx) then .next s else
  let n := s.crews.length
  let cs := crewsOf r l s.now
  let s := { s with crews := s.crews ++ cs }
  let mine := (List.range cs.length).map (n + ·)
  let s := s.modLaunch l fun r => { r with state := .taken, crews := mine }
  .next (mine.foldl (fun s ci => s.placeCrew ci) s)

/-- CREW_SWITCH_IN (R194, R195): the FIFO head of the highest level takes a free slot of its split; one for which a crew was saved goes first. -/
def execCrewSwitchIn (crew die core : Nat) (s : State) : Host.Outcome State Fault Refusal :=
  let place := die * 64 + core
  if die < 4 && core < 64 && s.epochStart (s.crewAt crew).ctx &&
      s.readyHead (fun x => s.eligible place none x && s.tilesFit x place && s.maySlot place x) = some crew then .next (s.switchIn crew place)
  else .next s

/-- QUANTUM_END (R195). -/
def execQuantumEnd (crew : Nat) (s : State) : Host.Outcome State Fault Refusal :=
  let c := s.crewAt crew
  match c.ctx with
  | none => .next s
  | some x => if c.state = .resident && (s.ctxAt x).quantum ≤ c.used && s.epochStart c.ctx then .next (s.endQuantum crew) else .next s

/-- ALL_TEAMS_WAIT (R175, R195). -/
def execAllTeamsWait (crew : Nat) (s : State) : Host.Outcome State Fault Refusal :=
  let c := s.crewAt crew
  let waits := c.teams.all fun i => let t := s.teamAt i; !t.alive || t.wait.isSome || t.halted
  if !(c.state = .resident && waits && s.epochStart c.ctx) then .next s else
  match s.readyHead fun x => s.eligible c.place (some crew) x && !(s.coreAt c.place).next.contains x with
  | some x => .next (s.saveFor crew x)
  | none => .next s

/-- AGEING_RISE (R193). -/
def execAgeingRise (crew core : Nat) (s : State) : Host.Outcome State Fault Refusal :=
  let c := s.crewAt crew
  if s.isReady crew && 8 ≤ aget 0 c.ended8 core && c.eff < 21 then
    .next (s.modCrew crew fun c => { c with raised := c.raised + 1, ended8 := [] })
  else .next s

/-- The first n of a list in the order of a key. -/
def takeLeast (key : Nat → Nat) : Nat → List Nat → List Nat
  | 0, _ => []
  | n + 1, l =>
    match minBy key l with
    | none => []
    | some x => x :: takeLeast key n (l.filter fun y => y ≠ x)

/-- VACATE (R197): a launch that cannot place a crew reserves cores whose crews are all below its level. Its level is that of its unplaced crews,
of which the firmware may have moved some (02 R50): it asks for those of the highest. The level of a core is the highest of its crews
(DESIGN CHOICE, log 38). -/
def execVacate (l : Nat) (s : State) : Host.Outcome State Fault Refusal :=
  let r := s.launchAt l
  let ready := (indices s.crews).filter fun i => (s.crewAt i).launch = l && s.isReady i
  let top := ready.foldl (fun n i => max n (s.crewAt i).level) 0
  let unplaced := ready.filter fun i => (s.crewAt i).level = top
  let set := s.allowed l
  let pending := (List.range 256).any fun p => (s.coreAt p).reservedTo = some l && !(s.crewsOn p).all fun x => (s.crewAt x).launch = l
  if !(l < s.launches.length && r.state = .taken) || unplaced.isEmpty || pending || set.any (fun p => s.fits l p none) then .next s else
  let level (p : Nat) : Nat := (s.crewsOn p).foldl (fun n x => max n (s.crewAt x).eff) 0
  let cands := set.filter fun p => !(s.crewsOn p).isEmpty && (s.coreAt p).reservedTo.isNone && level p < top
  let n := min ((unplaced.length + r.slots - 1) / max r.slots 1) cands.length
  let chosen := takeLeast (fun p => (level p * 1024 + s.teamsOn p) * 256 + p) n cands
  .next (chosen.foldl (fun s p =>
    let s := s.modCore p fun c => { c with reservedTo := some l }
    (s.crewsOn p).foldl (fun s x => if (s.crewAt x).state = .resident && s.epochStart (s.crewAt x).ctx then s.startSave x else s) s) s)

/-- Whether a saving crew's image can be written (14 R316): no window access is out, started copy commands with entries are over, of the
matrix commands only those that pause are running. -/
def State.saveReady (s : State) (ci : Nat) : Bool :=
  (s.crewAt ci).teams.all (fun i => !(s.teamAt i).outs.any Access.isWindow) &&
  s.cmds.all fun c => c.crew ≠ ci || !c.entry || c.state ≠ .running || (c.q ≥ 4 && (c.kind = 0x4D || c.kind = 0x4E || c.kind = 0x49))

/-- The image is written, a release and an acquire at all seven classes (10 Table 10-2): fills are complete, commands with entries leave with it, the
tile store and the slot are free (14 R316, 11 R269, 12 R296). What its level had risen is over with its quantum (R193), and the level of its next
one is `lvl`.PRIO (02 R50). -/
def State.saveCrew (s : State) (ci : Nat) : State :=
  let c := s.crewAt ci
  let s := c.teams.foldl (fun s i => ((s.settleFor i).drain i).modTeam i fun t => { t with half := none, code := [], codeReq := none }) s
  let s := s.acquireL1 c.place 0x7F
  let s := { s with cmds := s.cmds.map fun (x : Cmd) =>
    if x.crew ≠ ci || (!x.entry && x.q ≠ 4 && x.q ≠ 5) then x
    else match x.state with
      | .queued => { x with state := CmdState.away }
      | .running => { x with state := CmdState.paused }
      | _ => x }
  let s := s.modCore c.place fun x => if x.owner = some ci then { x with owner := none } else x
  let s := s.modCrew ci fun c => { c with state := .ready, joined := s.now, ended8 := [], raised := 0, level := c.prio }
  s.freeSlot c.place

/-- SAVE_COMPLETE (R195). -/
def execSaveComplete (crew : Nat) (s : State) : Host.Outcome State Fault Refusal :=
  if (s.crewAt crew).state = .saving && (s.crewAt crew).area.isNone && s.saveReady crew then .next (s.saveCrew crew) else .next s

/-- LAUNCH_COMPLETE (R180). -/
def execLaunchComplete (l : Nat) (s : State) : Host.Outcome State Fault Refusal :=
  if l < s.launches.length && (s.launchAt l).state = .taken && s.launchOver l then
    let s' := s.finishLaunch l
    .next (match (s.launchAt l).ctx with | some c => s'.destroyStep c | none => s')
  else .next s

end Sys2Proof.Machine
end

