-- ==== Sys2Proof/Machine/Push.lean ====
section
/-! DEFINITION. `push` (MOP 0xB0, 11 R258-R260) and what each queue accepts: copy and sweep commands (11 R270-R277), matrix commands
(12 R280-R292), launch records (07 R184, R185), starts (18 R364). -/
namespace Sys2Proof.Machine

/-! Words. -/
def bitsAt (w : Word) (lo n : Nat) : Nat := w.toNat / 2 ^ lo % 2 ^ n
def sBits (w : Word) (lo n : Nat) : Int := sextN (bitsAt w lo n) n
def wordAt (w : List Word) (i : Nat) : Word := w.getD i 0

/-- A capability field to be bound (R260): its register, what it accepts, and its hull as offsets from the cursor; no hull is the empty
one at the capability's own lo. -/
structure Bind where
  reg : Nat
  kinds : List RootKind
  perm : BitVec 12
  hull : Option (Int × Int) := none
  deriving DecidableEq, Repr

/-- What a command's words say: whether it is well formed, whether it may write a record, what it binds (`none`: a field that binds
nothing), and which of the bindings are read and written. -/
structure Spec where
  ok : Bool
  record : Bool := false
  binds : List (Option Bind) := []
  rd : List Nat := []
  wr : List Nat := []
  whole : Bool := false              -- a scratchpad source is read anywhere (GATHER, R263)
  tiles : BitVec 8 := 0
  deriving DecidableEq, Repr

/-- Offsets of rows: `n0` bytes at `off`, with `n1` and `n2` rows at strides (R270). -/
def rowsHull (off n0 : Int) (n1 s1 n2 s2 : Int) : Option (Int × Int) :=
  if n0 = 0 then none else
  let a := (max n1 1 - 1) * s1; let b := (max n2 1 - 1) * s2
  some (off + min 0 a + min 0 b, off + max 0 a + max 0 b + n0)

/-! Copy and sweep commands. -/

structure CopyW where
  kind : Nat
  dstc : Nat
  srcc : Nat
  auxc : Nat
  ste : Bool
  dims : Nat
  mode : Nat
  n0 : Nat
  doff : Int
  soff : Int
  n1 : Nat
  n2 : Nat
  stoff : Nat
  ds1 : Int
  ss1 : Int
  ds2 : Int
  ss2 : Int
  deriving DecidableEq, Repr

/-- Table 11-4. -/
def copyW (w : List Word) : CopyW :=
  let w0 := wordAt w 0; let w3 := wordAt w 3
  { kind := bitsAt w0 56 8, dstc := bitsAt w0 51 5, srcc := bitsAt w0 46 5, auxc := bitsAt w0 41 5, ste := bitsAt w0 40 1 = 1
    dims := bitsAt w0 38 2, mode := bitsAt w0 35 3, n0 := bitsAt w0 0 32, doff := sBits (wordAt w 1) 0 64, soff := sBits (wordAt w 2) 0 64
    n1 := bitsAt w3 40 24, n2 := bitsAt w3 16 24, stoff := bitsAt w3 0 16, ds1 := sBits (wordAt w 4) 0 64, ss1 := sBits (wordAt w 5) 0 64
    ds2 := sBits (wordAt w 6) 0 64, ss2 := sBits (wordAt w 7) 0 64 }

def localScr : List RootKind := [.loc, .scratch]

/-- Whether a copy command keeps Table 11-4 and its kind's statement (R270-R276). -/
def copyOk (c : CopyW) (w : List Word) (scrk : Nat) : Bool :=
  let two := c.kind = 0x43
  bitsAt (wordAt w 0) 32 3 = 0 &&
  (if c.kind = 0x43 || c.kind = 0x46 || c.kind = 0x5A then c.dims ≤ 2 else if c.kind = 0x47 then c.dims = 1 else c.dims = 0) &&
  (if c.kind = 0x46 then c.mode ≤ 3 else if c.kind = 0x50 then c.mode ≤ 5 else c.mode = 0) &&
  (if c.kind = 0x46 || c.kind = 0x5A then c.srcc = 0 else true) && (c.kind = 0x47 || c.auxc = 0) &&
  (if 1 ≤ c.dims then 1 ≤ c.n1 else c.n1 = 0 && c.ds1 = 0 && c.ss1 = 0) &&
  (if c.dims = 2 then 1 ≤ c.n2 else c.n2 = 0 && (c.kind = 0x47 || c.ds2 = 0)) &&
  ((two && c.dims = 2) || c.ss2 = 0) && (two || c.kind = 0x47 || c.ss1 = 0) &&
  (c.kind ≠ 0x5A || c.soff = 0) &&
  (c.kind ≠ 0x46 || (c.n0 % 2 ^ c.mode = 0 && (wordAt w 2).toNat < 2 ^ (8 * 2 ^ c.mode))) &&
  (c.kind ≠ 0x55 || (c.soff % 64 = 0 && c.doff % 2 = 0)) && (c.kind ≠ 0x50 || (c.soff % 64 = 0 && c.doff % 64 = 0)) &&
  (if c.ste then 64 * c.stoff + 16 ≤ scrk * 1024 else c.stoff = 0)

def copySpec (w : List Word) (scrk : Nat) : Spec :=
  let c := copyW w
  let rec_ := c.ste && 64 * c.stoff + 16 ≤ scrk * 1024
  if !copyOk c w scrk then { ok := false, record := rec_ } else
  let n0 : Int := c.n0
  let dstRow := rowsHull c.doff n0 c.n1 c.ds1 c.n2 c.ds2
  let all : List RootKind := anyKind
  let binds : List (Option Bind) :=
    if c.kind = 0x43 then
      [some ⟨c.dstc, all, pST ||| pENG, dstRow⟩, some ⟨c.srcc, all, pLD ||| pENG, rowsHull c.soff n0 c.n1 c.ss1 c.n2 c.ss2⟩, none]
    else if c.kind = 0x47 then
      [some ⟨c.dstc, localScr, pST ||| pENG, rowsHull c.doff n0 c.n1 c.ds1 0 0⟩, some ⟨c.srcc, all, pLD ||| pENG, none⟩,
       some ⟨c.auxc, localScr, pLD ||| pENG, some (c.ds2, c.ds2 + 4 * c.n1)⟩]
    else if c.kind = 0x55 then
      [some ⟨c.dstc, [.scratch], pST ||| pENG, rowsHull c.doff (256 * n0) 0 0 0 0⟩,
       some ⟨c.srcc, localScr, pLD ||| pENG, rowsHull c.soff (64 * n0) 0 0 0 0⟩, none]
    else if c.kind = 0x50 then
      [some ⟨c.dstc, localScr, pST ||| pENG, rowsHull c.doff (64 * n0) 0 0 0 0⟩,
       some ⟨c.srcc, [.scratch], pLD ||| pENG, rowsHull c.soff (256 * n0) 0 0 0 0⟩, none]
    else [some ⟨c.dstc, localScr, pST ||| pENG, dstRow⟩, none, none]
  { ok := true, record := c.ste, binds := binds, rd := [1, 2], wr := [0], whole := c.kind = 0x47 }

def copyKinds : List Nat := [0x43, 0x46, 0x47, 0x50, 0x55, 0x5A]

/-- R277. -/
def sweepSpec (w : List Word) (scrk : Nat) : Spec :=
  let w0 := wordAt w 0; let w3 := wordAt w 3
  let ste := bitsAt w0 40 1 = 1; let stoff := bitsAt w3 0 16
  let rec_ := ste && 64 * stoff + 16 ≤ scrk * 1024
  let ok := bitsAt w0 41 10 = 0 && bitsAt w0 0 40 = 0 && (wordAt w 1).toNat < 2 ^ 20 && wordAt w 2 = 0 && w3.toNat < 2 ^ 16 &&
    ([4, 5, 6, 7].all fun i => wordAt w i = 0) && (if ste then rec_ else stoff = 0)
  { ok := ok, record := rec_, binds := [some ⟨bitsAt w0 51 5, anyKind, pSYS ||| pENG, none⟩] }

/-! Matrix commands. -/

structure MatW where
  kind : Nat
  acap : Nat
  bcap : Nat
  auxc : Nat
  ste : Bool
  tile : Nat
  ty : Nat
  flag : Bool
  count : Nat
  aoff : Int
  boff : Int
  ainc : Int
  binc : Int
  astr : Nat
  bstr : Nat
  stoff : Nat
  peer : Nat
  arem : Bool
  brem : Bool
  mcg : Nat
  gen : Nat
  gside : Bool
  ioff : Int
  deriving DecidableEq, Repr

/-- Table 12-2. -/
def matW (w : List Word) : MatW :=
  let w0 := wordAt w 0; let w3 := wordAt w 3; let w4 := wordAt w 4; let w5 := wordAt w 5; let w6 := wordAt w 6
  { kind := bitsAt w0 56 8, acap := bitsAt w0 51 5, bcap := bitsAt w0 46 5, auxc := bitsAt w0 41 5, ste := bitsAt w0 40 1 = 1
    tile := bitsAt w0 37 3, ty := bitsAt w0 33 4, flag := bitsAt w0 32 1 = 1, count := bitsAt w0 0 32
    aoff := sBits (wordAt w 1) 0 64, boff := sBits (wordAt w 2) 0 64, ainc := sBits w3 32 32, binc := sBits w3 0 32
    astr := bitsAt w4 48 16, bstr := bitsAt w4 32 16, stoff := bitsAt w4 16 16
    peer := bitsAt w5 32 32, arem := bitsAt w5 31 1 = 1, brem := bitsAt w5 30 1 = 1, mcg := bitsAt w5 26 4
    gen := bitsAt w6 62 2, gside := bitsAt w6 61 1 = 1, ioff := sBits w6 0 48 }

/-- Bytes of an element of a type code. -/
def codeBytes (ty : Nat) : Nat := match Rows.tyOf ty with | some t => Rows.width t / 8 | none => 1
/-- K per step (Table 12-4). -/
def kStep (ty : Nat) : Nat := if ty = 8 || ty = 9 then 4 else 8
def loopTys : List Nat := [0, 8, 9, 12, 13]
def mulOf (x : Int) (e : Nat) : Bool := x % (e : Int) = 0
/-- K and s of MSLICE (R292). -/
def MatW.k (m : MatW) : Nat := m.count / 256 % 65536
def MatW.s (m : MatW) : Nat := m.count % 16

/-- Whether a matrix command keeps Tables 12-2 and 12-3 and its kind's statement. `cur` gives the cursor of a c register, `crews` the
crew count of the launch (R281, R284-R292). -/
def matOk (m : MatW) (w : List Word) (scrk crews : Nat) (cur : Nat → Int) : Bool :=
  let e := codeBytes m.ty
  let z (i : Nat) : Bool := wordAt w i = 0
  let aSide : Bool := mulOf (cur m.acap + m.aoff) e && mulOf m.astr e && mulOf m.ainc e
  let bSide : Bool := mulOf (cur m.bcap + m.boff) e && mulOf m.bstr e && mulOf m.binc e
  let aZero : Bool := m.acap = 0 && m.aoff = 0 && m.ainc = 0 && m.astr = 0 && !m.arem
  let bZero : Bool := m.bcap = 0 && m.boff = 0 && m.binc = 0 && m.bstr = 0 && !m.brem
  let peerOk : Bool := !(m.arem || m.brem) || m.peer < crews
  bitsAt (wordAt w 4) 0 16 = 0 && bitsAt (wordAt w 5) 0 26 = 0 && bitsAt (wordAt w 6) 48 13 = 0 && z 7 &&
  (if m.ste then 64 * m.stoff + 16 ≤ scrk * 1024 else m.stoff = 0) &&
  (if m.kind = 0x4D then loopTys.contains m.ty && m.auxc = 0 && z 6 && aSide && bSide && peerOk
   else if m.kind = 0x4E then
     loopTys.contains m.ty && m.gen ≤ 2 && peerOk && (if m.gside then aZero && bSide else bZero && aSide) &&
     (m.gen ≠ 0 || kStep m.ty * m.count = 64) && (if m.gen = 1 then mulOf (cur m.auxc + m.ioff) 2 else m.auxc = 0 && m.ioff = 0)
   else if m.kind = 0x49 then
     (m.ty = 10 || m.ty = 11) && (m.ty = 10 || m.tile % 2 = 0) && m.auxc = 0 && z 3 && z 5 && z 6 && aSide && bSide &&
     1 ≤ m.k && m.k ≤ 1024 && 1 ≤ m.s && m.s ≤ (if m.ty = 10 then 4 else 8) && m.count / 2 ^ 24 = 0 && m.count / 16 % 16 = 0
   else if m.kind = 0x44 then
     [0, 2, 4, 8, 9, 10, 11, 12, 13].contains m.ty && m.bcap = 0 && m.auxc = 0 && z 2 && z 3 && m.bstr = 0 && z 5 && z 6 && aSide &&
     m.count / 2 ^ 29 ≤ 5 && m.count % 2 ^ 28 = 0
   else if m.kind = 0x41 then
     [4, 10, 11].contains m.ty && (m.ty ≠ 11 || m.tile % 2 = 0) && m.bcap = 0 && m.auxc = 0 && !m.flag && m.count = 0 && z 2 && z 3 &&
     m.bstr = 0 && z 5 && z 6 && aSide
   else
     m.acap = 0 && m.bcap = 0 && m.auxc = 0 && m.tile = 0 && m.ty = 0 && !m.flag && m.count < 256 && z 1 && z 2 && z 3 && m.astr = 0 &&
     m.bstr = 0 && z 5 && z 6)

/-- Hull of an operand of MLOOP and MGEN: 64 rows of 8 bytes per step. -/
def stepHull (off inc : Int) (str nk : Nat) : Option (Int × Int) :=
  if nk = 0 then none else
  let d := ((nk : Int) - 1) * inc
  some (off + min 0 d, off + max 0 d + 63 * str + 8)
/-- Hull of 64 rows of n bytes. -/
def blockHull (off : Int) (str n : Nat) : Option (Int × Int) := some (off, off + 63 * str + n)

def oneTile (t : Nat) : BitVec 8 := BitVec.twoPow 8 t

def matSpec (w : List Word) (scrk crews self_ : Nat) (cur : Nat → Int) : Spec :=
  let m := matW w
  if !matOk m w scrk crews cur then { ok := false, record := m.ste && 64 * m.stoff + 16 ≤ scrk * 1024 } else
  let e := codeBytes m.ty
  let ld := pLD ||| pENG
  let b (reg : Nat) (h : Option (Int × Int)) : Option Bind := some ⟨reg, [.scratch], ld, h⟩
  let far (r : Bool) : Bool := r && m.peer ≠ self_
  let pair := oneTile m.tile ||| oneTile (m.tile + 1)
  if m.kind = 0x4D then
    { ok := true, record := m.ste, binds := [b m.acap (stepHull m.aoff m.ainc m.astr m.count), b m.bcap (stepHull m.boff m.binc m.bstr m.count), none]
      rd := (if far m.arem then [] else [0]) ++ (if far m.brem then [] else [1]), tiles := oneTile m.tile }
  else if m.kind = 0x4E then
    { ok := true, record := m.ste
      binds := [if m.gside then none else b m.acap (stepHull m.aoff m.ainc m.astr m.count),
                if m.gside then b m.bcap (stepHull m.boff m.binc m.bstr m.count) else none,
                if m.gen = 1 then b m.auxc (some (m.ioff, m.ioff + 128)) else none]
      rd := (if far m.arem then [] else [0]) ++ (if far m.brem then [] else [1]) ++ [2], tiles := oneTile m.tile }
  else if m.kind = 0x49 then
    { ok := true, record := m.ste, binds := [b m.acap (blockHull m.aoff m.astr (e * m.k)), b m.bcap (blockHull m.boff m.bstr (e * m.k)), none]
      rd := [0, 1], tiles := if m.ty = 11 then pair else oneTile m.tile }
  else if m.kind = 0x44 then
    { ok := true, record := m.ste, binds := [some ⟨m.acap, [.scratch], pST ||| pENG, blockHull m.aoff m.astr (64 * e)⟩, none, none]
      wr := [0], tiles := if (m.ty = 10 || m.ty = 11) && m.tile % 2 = 0 then pair else oneTile m.tile }
  else if m.kind = 0x41 then
    { ok := true, record := m.ste, binds := [b m.acap (blockHull m.aoff m.astr (64 * e)), none, none]
      rd := [0], tiles := if m.ty = 11 then pair else oneTile m.tile }
  else { ok := true, record := m.ste, tiles := BitVec.ofNat 8 m.count }

def matKinds : List Nat := [0x4D, 0x4E, 0x49, 0x44, 0x41, 0x5C]

/-! Binding. -/

/-- Check one field (R260): the bound capability, or the trap (DEDUCED, log 26). -/
def State.bindOne (s : State) (t : Team) (b : Bind) : Except Stop CReg :=
  match readC t b.reg with
  | .error e => .error e
  | .ok c =>
    if c.tag = tagPoison then .error (poisonTrap t) else
    let lo := s.capLoOf (s.ctxOf t) c.bits
    let cur : Int := capCursor c.bits
    match b.hull with
    | none =>
      match s.check t b.kinds c lo 0 b.perm with
      | some cause => .error (trapNow t cause 0 (everyLane t lo))
      | none => .ok c
    | some (x, y) =>
      let a := cur + x; let z := cur + y
      let outside := a < 0 || 2 ^ 57 < z
      match (if outside then (s.check t b.kinds c lo 0 b.perm).getD cCAP_BOUNDS |> some else s.check t b.kinds c a.toNat (z - a).toNat b.perm) with
      | some cause => .error (trapNow t cause 0 (List.replicate t.nlanes (BitVec.ofInt 64 a)))
      | none => .ok c

/-- Bind the fields in order. -/
def State.bindAll (s : State) (t : Team) : List (Option Bind) → Except Stop (List (Option CReg))
  | [] => .ok []
  | none :: bs =>
    match s.bindAll t bs with
    | .error e => .error e
    | .ok cs => .ok (none :: cs)
  | some b :: bs =>
    match s.bindOne t b with
    | .error e => .error e
    | .ok c =>
      match s.bindAll t bs with
      | .error e => .error e
      | .ok cs => .ok (some c :: cs)

/-- The scratchpad interval of binding i (R263); `whole`: a source that is read anywhere. -/
def State.rangeOf (s : State) (t : Team) (sp : Spec) (whole : Bool) (i : Nat) : List (Nat × Nat) :=
  match (sp.binds.getD i none : Option Bind) with
  | none => []
  | some b =>
    let c := t.creg b.reg
    if (rootOf (s.roots (s.ctxOf t)) c.bits).kind ≠ .scratch then [] else
    match b.hull with
    | some (x, y) => [(((capCursor c.bits : Int) + x).toNat, ((capCursor c.bits : Int) + y).toNat)]
    | none => if whole then [(0, (s.crewAt t.crew).scrk * 1024)] else []
/-- The hull of intervals. -/
def hullOf : List (Nat × Nat) → List (Nat × Nat)
  | [] => []
  | (a, b) :: rest => [rest.foldl (fun h x => (min h.1 x.1, max h.2 x.2)) (a, b)]

/-! Acceptance. -/

/-- The outcome of the queue: full, or accepted under a number. -/
inductive PushRes where
  | full
  | accepted (s : State) (n : Nat)

/-- Open commands of a queue of a core, of a die (Table 11-1). -/
def State.queueLen (s : State) (q die : Nat) (core : Option Nat) : Nat :=
  (s.cmds.filter fun c => c.q = q && c.open && c.state ≠ .away && c.state ≠ .paused && c.die = die &&
    (match core with | some k => c.core = k | none => true)).length
/-- Held scoreboard entries of a core (R265). -/
def State.entriesOf (s : State) (die core : Nat) : Nat :=
  (s.cmds.filter fun c => c.open && c.entry && c.state ≠ .away && c.state ≠ .paused && c.die = die && c.core = core).length

/-- The command of a push, before its bindings. -/
def State.cmdOf (s : State) (t : Team) (q : Nat) (w : List Word) : Cmd :=
  let c := s.crewAt t.crew
  { q := q, n := (s.timeline t.crew q).issued + 1, crew := t.crew, team := t.num, kind := bitsAt (wordAt w 0) 56 8, w := w, die := c.die
    core := c.core, own := s.ownTag t, rule := t.rule, rnd := BitVec.ofNat 3 (t.fpctl.toNat / 256 % 8), compt := s.comptOf t }
/-- Take the next number. -/
def State.accept (s : State) (c : Cmd) : State :=
  { (s.modTimeline c.crew c.q fun tl => { tl with issued := tl.issued + 1 }) with cmds := s.cmds ++ [c] }
/-- Accept a command that completes at once with cause ILLEGAL (R259, R266). -/
def State.acceptBad (s : State) (c : Cmd) : State :=
  (s.accept { c with cause := cILLEGAL }).finishCmd s.cmds.length

/-- Intervals that meet. -/
def meets (xs ys : List (Nat × Nat)) : Bool := xs.any fun x => ys.any fun y => x.1 < y.2 && y.1 < x.2
/-- Commands of the same crew that conflict with one (R264, 12 R281): the ranges of other crews are disjoint from its own. -/
def State.conflicts (s : State) (c : Cmd) : List Nat :=
  (indices s.cmds).filter fun i =>
    let y := s.cmdAt i
    y.open && y.q ≤ 5 && y.crew = c.crew &&
      (meets y.writes c.reads || meets y.reads c.writes || meets y.writes c.writes || (y.tiles &&& c.tiles) ≠ 0)

/-- Accept what a spec says on an engine queue: `entry` forces a scoreboard entry, `cap` is the queue's capacity. -/
def engineAccept (q : Nat) (kinds : List Nat) (force : Bool) (full : Bool) (spec : Spec) (s : State) (t : Team) (w : List Word) :
    Except Stop PushRes :=
  let c := s.cmdOf t q w
  let bad := !kinds.contains c.kind || !spec.ok
  let rec16 := spec.record && kinds.contains c.kind
  let reads := hullOf (spec.rd.flatMap (s.rangeOf t spec spec.whole))
  let writes := hullOf (spec.wr.flatMap (s.rangeOf t spec false)) ++ (if spec.record then [(c.statusOff, c.statusOff + 16)] else [])
  let entry := !bad && q ≤ 5 && (force || !reads.isEmpty || !writes.isEmpty)
  if full || (entry && 64 ≤ s.entriesOf c.die c.core) then .ok .full
  else if bad then .ok (.accepted (s.acceptBad { c with record := rec16 }) c.n)
  else
    match s.bindAll t spec.binds with
    | .error e => .error e
    | .ok cs =>
      let c := { c with dst := cs.getD 0 none, src := cs.getD 1 none, aux := cs.getD 2 none, entry := entry, reads := reads
                        writes := writes, tiles := spec.tiles, record := spec.record }
      .ok (.accepted (s.accept { c with behind := if entry then s.conflicts c else [] }) c.n)

/-- Queues 0-5 and 8. -/
def pushEngine (q : Nat) (s : State) (t : Team) (w : List Word) : Except Stop PushRes :=
  let crew := s.crewAt t.crew
  if q ≤ 3 then engineAccept q copyKinds false (16 ≤ s.queueLen q crew.die (some crew.core)) (copySpec w crew.scrk) s t w
  else if q = 8 then
    if t.held 0x7F false then .error .wait else
    engineAccept q [0x53] false (4 ≤ s.queueLen q crew.die none) (sweepSpec w crew.scrk) s t w
  else
    let l := s.launchAt crew.launch
    let m := matW w
    -- whether the command is well formed hangs on cursors, which must have arrived
    if [m.acap, m.bcap, m.auxc].any fun r => (t.creg r).busy then .error .wait else
    let spec := matSpec w crew.scrk (l.gx * l.gy * l.gz) crew.crewid.toNat fun r => (capCursor (t.creg r).bits : Int)
    let owner := (s.coreAt crew.place).owner
    let full := 8 ≤ s.queueLen q crew.die (some crew.core) || (owner.isSome && owner ≠ some t.crew)
    match engineAccept q matKinds true full spec s t w with
    | .ok (.accepted s' n) =>
      if !spec.ok || !matKinds.contains (bitsAt (wordAt w 0) 56 8) || owner.isSome then .ok (.accepted s' n) else
      -- the crew takes the store, its tiles zeroed (12 R279)
      .ok (.accepted ((s'.modCore crew.place fun c => { c with owner := some t.crew }).modCrew t.crew fun c =>
        { c with tiles := some (c.tiles.getD (List.replicate 8 {})) }) n)
    | x => x

/-- A `push` (R259): `go` accepts the words on the queue. -/
def pushInstr (i : Instr) (f : EForm) (s : State) (go : State → Team → List Word → Except Stop PushRes) : Host.Outcome State Fault Refusal :=
  issue i s fun t =>
    let regs := (List.range 8).map (f.sf.toNat + ·)
    if regs.any (fun r => !(t.sreg r).full) then .error .wait else
    match regs.findSome? (fun r => match readS t r false with | .error e => some e | .ok _ => none) with
    | some e => .error e
    | none =>
    if regs.any (fun r => (t.sreg r).tag = tagPoison) then .error (poisonTrap t) else
    -- a named c register still waits for its `ldc` (02 R41)
    match go (s.release s.cur (queueObs f.q.toNat)) t (regs.map fun r => (t.sreg r).v) with
    | .error e => .error e
    | .ok .full => .ok ((s.modTeam s.cur fun t => t.setB f.bq.toNat false).retire 8)
    | .ok (.accepted s' n) =>
      let s' := s'.modTeam s.cur fun t => (t.setB f.bq.toNat true).setS (f.sf.toNat + 7) (BitVec.ofNat 64 n) (s.ownTag t)
      if f.y then .ok (s'.modTeam s.cur fun u => { u with wait := some (.push f.q.toNat n (t.pc + (f.cont.signExtend 57 <<< 3))) })
      else .ok (s'.retire 8)

def execPush (f : EForm) (s : State) : Host.Outcome State Fault Refusal := pushInstr (.push f) f s (pushEngine f.q.toNat)

/-! Launch records (07 R184, R185). -/

/-- Table 7-2 as a launch, not yet bound. -/
def launchOf (s : State) (t : Team) (w : List Word) : Launch :=
  let w0 := wordAt w 0; let w1 := wordAt w 1; let w2 := wordAt w 2; let w3 := wordAt w 3; let w4 := wordAt w 4
  { ctx := s.ctxOf t, pusher := t.crew, number := (s.timeline t.crew 6).issued + 1, die := (s.crewAt t.crew).die
    plast := bitsAt w0 40 1 = 1, glast := bitsAt w0 39 1 = 1, policy := bitsAt w0 37 2, prio := bitsAt w0 32 5, entry := bitsAt w0 0 32
    gx := bitsAt w1 0 32, gy := bitsAt w1 32 16, gz := bitsAt w1 48 16, stx := bitsAt w2 0 32, sty := bitsAt w2 32 32, stz := bitsAt w3 32 32
    scrk := bitsAt w3 0 16, obs := BitVec.ofNat 8 (bitsAt w4 52 8), dies := BitVec.ofNat 4 (bitsAt w4 48 4), cores := wordAt w 5
    pslot := bitsAt w4 32 16, gslot := bitsAt w4 16 16, lslot := bitsAt w4 0 16, dep0 := wordAt w 6, dep1 := wordAt w 7
    firm := t.mode = .firm && 22 ≤ bitsAt w0 32 5 }

/-- The kernel of a launch record; of two entries with one offset the first (DESIGN CHOICE, log 35). -/
def State.kernelOf (s : State) (ctx : Option Nat) (entry : Nat) : Option Kernel :=
  match ctx with
  | none => none
  | some c => (s.ctxAt c).kernels.find? fun k => k.entry = entry
def Launch.withKernel (l : Launch) (k : Kernel) : Launch :=
  { l with lanes := k.lanes, regs := k.regs, teamsPer := k.teams, g := k.g, h := k.h, k := k.k }

/-- A DEP word of the table (R185). -/
def depWordOk (d : Word) : Bool := d = 0 || (d.toNat / 2 ^ 62 ≠ 3 && d.toNat / 2 ^ 46 % 65536 ≠ 0)

/-- Whether a record of the right kind is well formed (R185). -/
def launchOk (s : State) (t : Team) (w : List Word) (l : Launch) : Bool :=
  bitsAt (wordAt w 3) 16 16 = 0 && bitsAt (wordAt w 4) 60 4 = 0 && l.policy ≤ 1 && (l.prio ≤ 21 || (l.prio ≤ 23 && t.mode = .firm)) &&
  !l.obs.getLsbD 7 && (!l.glast || l.gslot ≠ 0) && (!l.plast || l.glast) && depWordOk l.dep0 && depWordOk l.dep1 &&
  l.gx * l.gy * l.gz ≤ 2 ^ 32 &&
  (match s.kernelOf l.ctx l.entry with | none => false | some k => l.scrk ≤ k.h * 64) && !(s.allowedSet l).isEmpty

/-- The open instance of a slot, or a new one (R179). -/
def State.joinRun (s : State) (c level slot : Nat) (parent : Option Nat) : State × Nat :=
  match (indices s.levelRuns).find? (fun i => let r := s.runAt i; r.ctx = c && r.level = level && r.slot = slot && !r.closed && !r.done) with
  | some g => (s, g)
  | none => ({ s with levelRuns := s.levelRuns ++ [{ ctx := c, level := level, slot := slot, parent := parent }] }, s.levelRuns.length)

/-- An accepted launch joins its instances, closes them as its record says, and is queued; a malformed one completes at once (DEDUCED, log 16). -/
def State.addLaunch (s : State) (l : Launch) : State :=
  match l.ctx with
  | none => { s with launches := s.launches ++ [{ l with state := .done, malformed := true, status := 2 }] }
  | some c =>
    let p := if l.pslot = 0 then (s, none) else let r := s.joinRun c 2 l.pslot none; (r.1, some r.2)
    let g := if l.gslot = 0 then (p.1, none) else let r := p.1.joinRun c 1 l.gslot p.2; (r.1, some r.2)
    let s := g.1
    let s := match g.2 with
      | some g => if l.glast then s.modRun g fun r => { r with closed := true, obs := l.obs } else s
      | none => s
    let s := match p.2 with
      | some p => if l.plast then s.modRun p fun r => { r with closed := true, obs := l.obs } else s
      | none => s
    let n := s.launches.length
    let s := { s with launches := s.launches ++ [{ l with graph := g.2, phase := p.2, state := if l.malformed then .taken else .queued }] }
    if l.malformed then s.finishLaunch n else s

/-- Queue 6 (R184, R185). -/
def pushLaunch (s : State) (t : Team) (w : List Word) : Except Stop PushRes :=
  let w0 := wordAt w 0
  let l := launchOf s t w
  let issued (s : State) : State := s.modTimeline t.crew 6 fun tl => { tl with issued := tl.issued + 1 }
  if 256 ≤ (s.launches.filter fun x => !x.root && x.die = l.die && x.state ≠ .done).length then .ok .full
  else if bitsAt w0 56 8 ≠ 0x4C || !launchOk s t w l then
    let s := issued s
    let s := match l.ctx with
      | some _ => s
      | none => s.modTimeline t.crew 6 fun tl => tl.complete l.number (some { n := l.number, cause := cILLEGAL, addr := 0 })
    .ok (.accepted (s.addLaunch { l with malformed := true }) l.number)
  else
    let opt (r : Nat) : Option Bind := if r = 0 then none else some ⟨r, anyKind, pENG, none⟩
    match s.bindAll t [some ⟨bitsAt w0 51 5, anyKind, pX, none⟩, opt (bitsAt w0 46 5), opt (bitsAt w0 41 5)] with
    | .error e => .error e
    | .ok cs =>
      match s.kernelOf l.ctx l.entry with
      | none => .ok .full
      | some k =>
        let l := { l.withKernel k with code := (cs.getD 0 none).getD {}, tile := (cs.getD 1 none).getD {}, arg := (cs.getD 2 none).getD {} }
        .ok (.accepted ((issued s).addLaunch l) l.number)

def execLaunchRecord (f : EForm) (s : State) : Host.Outcome State Fault Refusal := pushInstr (.launchRecord f) f s pushLaunch

/-! Starts (18 R364). -/

/-- The register of buffer slot b. -/
def slotReg (w : List Word) (b : Nat) : Nat := if b < 12 then bitsAt (wordAt w 1) (5 * b) 5 else bitsAt (wordAt w 2) (5 * (b - 12)) 5

def startOk (w : List Word) (scrk : Nat) : Bool :=
  let w0 := wordAt w 0; let w2 := wordAt w 2; let w3 := wordAt w 3
  let nch := bitsAt w0 32 9; let chunk := bitsAt w3 32 32; let stoff := bitsAt w2 32 16
  bitsAt w0 41 5 = 0 && 1 ≤ nch && nch ≤ 256 && bitsAt w0 0 32 % 8 = 0 && bitsAt (wordAt w 1) 60 4 = 0 && bitsAt w2 20 12 = 0 &&
  8 ≤ chunk && chunk ≤ 4194304 && chunk % 8 = 0 && bitsAt w3 16 16 = 0 && 1 ≤ bitsAt w3 0 16 && ([4, 5, 6, 7].all fun i => wordAt w i = 0) &&
  slotReg w (bitsAt w0 46 4) ≠ 0 && (if bitsAt w0 50 1 = 1 then 64 * stoff + 64 ≤ scrk * 1024 else stoff = 0)

/-- Queue 7. -/
def pushStart (s : State) (t : Team) (w : List Word) : Except Stop PushRes :=
  let c := s.cmdOf t 7 w
  let crew := s.crewAt t.crew
  let w0 := wordAt w 0; let w3 := wordAt w 3
  if 16 ≤ s.queueLen 7 crew.die none then .ok .full
  else if c.kind ≠ 0x51 || !startOk w crew.scrk then .ok (.accepted (s.acceptBad c) c.n)
  else
    let len : Int := bitsAt w0 32 9 * bitsAt w3 32 32
    let soff : Int := bitsAt w0 0 32
    let sched : Bind := ⟨bitsAt w0 51 5, [.loc], pLD ||| pENG, some (soff, soff + 8 * bitsAt w3 0 16)⟩
    let slots := (List.range 16).map fun b =>
      if slotReg w b = 0 then none else some (⟨slotReg w b, [.loc], pLD ||| pST ||| pENG, some (0, len)⟩ : Bind)
    match s.bindAll t (some sched :: slots) with
    | .error e => .error e
    | .ok cs => .ok (.accepted (s.accept { c with dst := cs.getD 0 none, slots := cs.drop 1 }) c.n)

def execStart (f : EForm) (s : State) : Host.Outcome State Fault Refusal := pushInstr (.start f) f s pushStart

end Sys2Proof.Machine
end

