-- ==== Sys2Proof/Machine/Copy.lean ====
section
/-! DEFINITION. The copy engine (11 R264-R276). A running command moves one line at a time: a row is read whole, then it is written
(R271); an access through a window is a request whose answer the next unit finds. -/
namespace Sys2Proof.Machine

/-! Lines. -/

/-- Where a line access of an engine goes: to a memory of the device, or through a window. -/
inductive Way where
  | mem (sp : Space) (a : Nat)
  | far (dst : BitVec 12) (exp : BitVec 16) (a : Nat) (host : Bool)
  deriving DecidableEq, Repr

/-- Check and translate a line access by a bound capability (R255, R266): what its check refuses is CAP_REVOKED. -/
def State.way (s : State) (c : Cmd) (k : CReg) (a n : Nat) (perm : BitVec 12) (w : Bool) : Except (BitVec 8) Way :=
  let ctx := (s.crewAt c.crew).ctx
  match capCheck (s.roots ctx) { crew := c.crew, compt := c.compt } k a n (perm ||| pENG) with
  | some _ => .error cCAP_REVOKED
  | none =>
    let r := rootOf (s.roots ctx) k.bits
    match r.kind, ctx with
    | .scratch, _ => .ok (.mem .scratch a)
    | .peer, _ => .ok (.far r.dev r.exp a false)
    | .host, _ => .ok (.far r.dev r.exp a true)
    | .loc, none => .ok (.mem .dev a)
    | .loc, some x =>
      match findMap (s.ctxAt x).maps a with
      | none => .error cPAGE_NOTMAPPED
      | some m =>
        match pageCause m { r := !w, w := w, compt := r.compt } with
        | some cause => .error cause
        | none =>
          if m.resid = .remote then
            let far := Config.remotePage x m.va
            .ok (.far (s.ctxAt x).creator far.1 (far.2.toNat + (a - m.va)) true)
          else .ok (.mem .dev (stage2At (s.ctxAt x).stage2 (m.frame + (a - m.va))))

/-- Read within a line. -/
def Memory.piece (m : Memory) (a n off : Nat) : SrcPiece :=
  { off := off, bytes := m.bytes a n, side := { m.line (a / 64) with otag := m.lineTag (a / 64), err := false } }

/-- A byte on its way, with its tag. -/
abbrev TByte := Byte × Tag

/-- The sideband of a line after a write of n bytes at `a`, of which the write of the whole line is to leave `whole`: a partial line becomes
PLAIN (R272). A scratchpad line is written chunk by chunk (R265): each brings its valid bit, the last one the rest. -/
def sideAfter (old : Side) (a n : Nat) (whole : Option Side) : Side :=
  let plain : Side := { old with kind := 0, scales := 0 }
  match whole with
  | none => plain
  | some x =>
    if n = 64 then x else
    let g := a % 64 / 16
    let ctag := if x.ctag.getLsbD g then old.ctag ||| BitVec.twoPow 4 g else old.ctag
    if a % 64 + n = 64 then { x with ctag := ctag } else { plain with ctag := ctag }
/-- Write within a line. -/
def State.engineWrite (s : State) (crew : Nat) (sp : Space) (a : Nat) (bs : List TByte) (whole : Option Side) : State :=
  let m := storeBytes (s.spaceMem crew sp) ((bs.zip (List.range bs.length)).map fun p => (a + p.2, p.1.1, p.1.2)) {}
  let s := s.setSpaceMem crew sp (m.setLine (a / 64) (sideAfter (m.line (a / 64)) a bs.length whole))
  if sp = .dev then s.noteHome [(a, bs.length)] .write (some ((s.crewAt crew).place / 8)) else s

/-- A fabric request of a command (17 R339, R341). -/
def State.engineRequest (s : State) (i : Nat) (c : Cmd) (dst : BitVec 12) (exp : BitVec 16) (a va n : Nat) (host : Bool) (op : BitVec 6)
    (bs : List TByte) (whole : Option Side) : State :=
  let ctx := (s.crewAt c.crew).ctx
  let timeout := match ctx with | none => 2000000 | some x => (s.ctxAt x).fabricTimeout
  let r : Req :=
    { owner := .command i, xid := 0, dst := dst, exp := exp, addr := a, va := va, len := n, kind := 3, own := c.own, ctx := ctx, die := c.die
      host := host, deadline := s.now + timeout }
  let s := s.modCmd i fun c => { c with req := some s.reqs.length }
  let line := if bs.isEmpty then [] else lineWith (a % 64) (bs.map (·.1))
  match whole with
  | some x => s.request r op x.otag 0 line (x.kind.setWidth 2) x.scales
  | none => s.request r op ((bs.getLast?.map (·.2)).getD 0) 0 line

/-- How the request of a command stands: none, still out, or its end. -/
def State.reqEnd (s : State) (c : Cmd) : Option (Option Req) :=
  match c.req with
  | none => none
  | some q =>
    match s.reqAt q with
    | none => none
    | some r => some (if r.st = .out then none else some r)

/-- The cause of a window line that has not come: past its deadline, or refused, whatever the far side says (Table 11-3). -/
def lineCause (cause : BitVec 8) : BitVec 8 := if cause = cREMOTE_TIMEOUT then cREMOTE_TIMEOUT else cREMOTE_FAULT
/-- A command stops at an access that fails (R266). -/
def State.stopCmd (s : State) (i : Nat) (cause : BitVec 8) (a : Nat) : State :=
  (s.modCmd i fun c => { c with req := none }).faultCmd i cause a

/-- What a read of the next line of a command comes to: its answer is out, the line has come, it fails with a cause at an address. -/
inductive LineRead where
  | waits
  | came
  | fails (cause : BitVec 8) (a : Nat)
  deriving DecidableEq, Repr
/-- Read the next line of the bytes [base, base + len) of a capability into the command's buffer. -/
def State.nextLine (s : State) (i : Nat) (k : CReg) (base len : Nat) : State × LineRead :=
  let c := s.cmdAt i
  let a := base + c.rd
  let take (p : SrcPiece) : State := s.modCmd i fun c => { c with buf := c.buf ++ [p], rd := c.rd + p.bytes.length, req := none }
  let fails (x : Nat) : Bool := c.linkFail.isSome && crosses c.die (x / 64)
  match s.reqEnd c with
  | some none => (s, .waits)
  | some (some r) =>
    match r.st with
    | .data line tag kind scales =>
      (take { off := c.rd, bytes := (line.drop (r.addr % 64)).take r.len, side := { otag := tag, kind := kind.setWidth 4, scales := scales } }, .came)
    | .refused cause => (s.modCmd i fun c => { c with req := none }, .fails (lineCause cause) a)
    | _ => (s, .waits)
  | none =>
    let n := min (len - c.rd) (64 - a % 64)
    match s.way c k a n pLD false with
    | .error cause => (s, .fails cause a)
    | .ok (.mem .dev x) =>
      let p := s.mem.piece x n c.rd
      let s' := (take (if fails x then { p with side := { p.side with otag := tagPoison } } else p)).noteHome [(x, n)] .read (some ((s.crewAt c.crew).place / 8))
      (if fails x then s'.modCmd i fun c => { c with linkFail := none } else s', .came)
    | .ok (.mem sp x) => (take ((s.spaceMem c.crew sp).piece x n c.rd), .came)
    | .ok (.far dst exp x host) => (s.engineRequest i c dst exp x a (min n (64 - x % 64)) host opREAD [] none, .waits)
/-- Read the next line of the row [base, base + len) of a capability; the command stops where it fails. -/
def State.readLine (s : State) (i : Nat) (k : CReg) (base len : Nat) : State :=
  match s.nextLine i k base len with
  | (s', .fails cause a) => s'.stopCmd i cause a
  | (s', _) => s'

/-- The transfer of a line that command i has written over a die link has failed for good (17 R329): with its request the line is in error. -/
def State.linkFailed (s : State) (i : Nat) (response : Bool) (line : Nat) : State :=
  { s with mem := if response then s.mem else s.mem.spoil [line] }.modCmd i fun c => { c with linkFail := none }
/-- The next row. -/
def Cmd.nextRow (c : Cmd) : Cmd := { c with idx := c.idx + 1, rd := 0, wr := 0, buf := [], mid := false, row := none }

/-- Write the next line of the row [base, base + len), in the scratchpad its next 16-byte chunk (R265): `get off n` gives its bytes, `whole off`
the sideband of a line that is written whole from one whole line. -/
def State.writeLine (s : State) (i : Nat) (k : CReg) (base len : Nat) (get : Nat → Nat → List TByte) (whole : Nat → Option Side) : State :=
  let c := s.cmdAt i
  let a := base + c.wr
  let advance (s : State) (n : Nat) : State :=
    s.modCmd i fun c =>
      if len ≤ c.wr + n then { c.nextRow with req := none } else { c with wr := c.wr + n, req := none, mid := (a + n) % 64 ≠ 0 }
  match s.reqEnd c with
  | some none => s
  | some (some r) =>
    match r.st with
    | .acked => advance s r.len
    | .refused cause => s.stopCmd i (lineCause cause) a
    | _ => s
  | none =>
    let n := min (len - c.wr) (64 - a % 64)
    let lo := a / 64 * 64
    let side := if base ≤ lo && lo + 64 ≤ base + len then whole (lo - base) else none
    match s.way c k a n pST true with
    | .error cause => s.stopCmd i cause a
    | .ok (.mem sp x) =>
      let n := if sp = .scratch then min n (16 - a % 16) else n
      let s' := advance (s.engineWrite c.crew sp x (get c.wr n) side) n
      if sp = .dev && c.linkFail.isSome && crosses c.die (x / 64) then s'.linkFailed i (c.linkFail = some true) (x / 64) else s'
    | .ok (.far dst exp x host) =>
      let m := min n (64 - x % 64)
      s.engineRequest i c dst exp x a m host opWRITE (get c.wr m) (if m = 64 then side else none)

/-! Rows. -/

/-- Bytes of the row that a command has read. -/
def Cmd.rowBytes (c : Cmd) : List TByte := c.buf.flatMap fun p => p.bytes.map fun b => (b, p.side.otag)
def Cmd.getRow (c : Cmd) (off n : Nat) : List TByte := (c.rowBytes.drop off).take n

/-- Whether the capabilities of a line may keep their valid bits (R272). -/
def State.capsPass (s : State) (c : Cmd) (src dst : CReg) (p : SrcPiece) : Bool :=
  let roots := s.roots (s.crewAt c.crew).ctx
  let toScratch := (rootOf roots dst.bits).kind = .scratch
  let granule (g : Nat) : BitVec 128 := BitVec.ofNat 128 (leNat ((p.bytes.drop (16 * g)).take 16))
  (capPerms src.bits &&& pLDC) ≠ 0 && (capPerms dst.bits &&& pSTC) ≠ 0 && !isWindow (rootOf roots src.bits).kind &&
    !isWindow (rootOf roots dst.bits).kind &&
    (List.range 4).all fun g => !p.side.ctag.getLsbD g ||
      ((rootOf roots (granule g)).state = .live && (toScratch || (capPerms (granule g) &&& pGLB) ≠ 0))

/-- The sideband of the destination line at offset `off` of a row at `base`, where it is a whole copy of a whole line (R272). -/
def State.copyWhole (s : State) (c : Cmd) (src dst : CReg) (base off : Nat) : Option Side :=
  if (base + off) % 64 ≠ 0 then none else
  match c.buf.find? (fun p => p.off = off && p.bytes.length = 64) with
  | none => none
  | some p => some (if s.capsPass c src dst p then p.side else { p.side with ctag := 0 })

def rowAddr (k : CReg) (off : Int) : Nat := ((capCursor k.bits : Int) + off).toNat
/-- Offset of row r by the strides of R271. -/
def CopyW.at_ (m : CopyW) (off s1 s2 : Int) (r : Nat) : Int := off + (r % max m.n1 1 : Nat) * s1 + (r / max m.n1 1 : Nat) * s2
def CopyW.rows (m : CopyW) : Nat :=
  if m.kind = 0x47 then m.n1 else if m.n0 = 0 then 0 else if m.kind = 0x55 || m.kind = 0x50 then m.n0 else max m.n1 1 * max m.n2 1

def Cmd.dstC (c : Cmd) : CReg := c.dst.getD {}
def Cmd.srcC (c : Cmd) : CReg := c.src.getD {}
def Cmd.auxC (c : Cmd) : CReg := c.aux.getD {}

/-- COPY (R271). -/
def copyUnit (s : State) (i : Nat) : State :=
  let c := s.cmdAt i
  let m := copyW c.w
  if c.rd < m.n0 then s.readLine i c.srcC (rowAddr c.srcC (m.at_ m.soff m.ss1 m.ss2 c.idx)) m.n0
  else
    let d := rowAddr c.dstC (m.at_ m.doff m.ds1 m.ds2 c.idx)
    s.writeLine i c.dstC d m.n0 c.getRow (s.copyWhole c c.srcC c.dstC d)

/-- GATHER (R273): the index of a row is read first. -/
def gatherUnit (s : State) (i : Nat) : State :=
  let c := s.cmdAt i
  let m := copyW c.w
  match c.row with
  | none =>
    let x := rowAddr c.auxC (m.ds2 + 4 * c.idx)
    if c.rd < 4 then s.readLine i c.auxC x 4
    else if c.rowBytes.any (fun b => b.2 = tagPoison) then s.stopCmd i cTAG_POISON x
    else
      let a : Int := (capCursor c.srcC.bits : Int) + m.soff + leNat (c.rowBytes.map (·.1)) * m.ss1
      let ctx := (s.crewAt c.crew).ctx
      let bad := if a < 0 || 2 ^ 57 < a then some cCAP_BOUNDS
        else capCheck (s.roots ctx) { crew := c.crew, compt := c.compt } c.srcC a.toNat m.n0 (pLD ||| pENG)
      match bad with
      | some cause => s.stopCmd i (if cause = cCAP_BOUNDS then cCAP_BOUNDS else cCAP_REVOKED) (a % 2 ^ 64).toNat
      | none => s.modCmd i fun c => { c with row := some a.toNat, rd := 0, buf := [] }
  | some a =>
    if m.n0 = 0 then s.modCmd i Cmd.nextRow
    else if c.rd < m.n0 then s.readLine i c.srcC a m.n0
    else
      let d := rowAddr c.dstC (m.at_ m.doff m.ds1 0 c.idx)
      s.writeLine i c.dstC d m.n0 c.getRow (s.copyWhole c c.srcC c.dstC d)

/-- FILL and ZERO (R274): `get` gives the byte at an offset of a row. -/
def fillUnit (byte : CopyW → Nat → Byte) (s : State) (i : Nat) : State :=
  let c := s.cmdAt i
  let m := copyW c.w
  s.writeLine i c.dstC (rowAddr c.dstC (m.at_ m.doff m.ds1 m.ds2 c.idx)) m.n0
    (fun off n => (List.range n).map fun j => (byte m (off + j), c.ownTag)) fun _ => some { otag := c.ownTag }
def patternByte (m : CopyW) (off : Nat) : Byte := BitVec.ofNat 8 ((m.soff % 2 ^ 64).toNat / 256 ^ (off % 2 ^ m.mode))

/-- The values of a KY4 line in bf16 (R275), with what their rounding signals. -/
def unpackLine (bytes : List Byte) (scales : BitVec 32) : List FRes :=
  (List.range 4).flatMap fun b =>
    let codes := ky4Codes (((bytes.drop (16 * b)).take 16).map (·.toNat))
    (List.range 32).map fun j => fToF fmtBf16 .rne false (ky4Slot codes (scales.toNat / 256 ^ b % 256) j)

/-- UNPACK.KY4 (R275) (DEDUCED, log 28). -/
def unpackUnit (s : State) (i : Nat) : State :=
  let c := s.cmdAt i
  let m := copyW c.w
  let a := rowAddr c.srcC (m.soff + 64 * c.idx)
  if c.rd < 64 then s.readLine i c.srcC a 64
  else
    match c.buf with
    | [p] =>
      if p.side.kind ≠ 1 then s.stopCmd i cILLEGAL a else
      let rs := unpackLine p.bytes p.side.scales
      let s := s.modCmd i fun c => { c with exc := rs.foldl (fun (x : Exc) r => x ||| r.exc) c.exc }
      let bytes : List TByte := rs.flatMap fun r => (leBytes 2 r.bits).map fun b => (b, p.side.otag)
      s.writeLine i c.dstC (rowAddr c.dstC (m.doff + 256 * c.idx)) 256 (fun off n => (bytes.drop off).take n) fun _ => none
    | _ => s.stopCmd i cILLEGAL a        -- no line of 64 bytes starts there (DEDUCED, log 18)

/-- PACK.KY4 rounds by MODE, or by the `fpctl`.RND of the push (R276). -/
def Cmd.packRm (c : Cmd) (mode : Nat) : Rm :=
  match Rows.rmOf mode with
  | some .dyn => (Rows.rmOf c.rnd.toNat).getD .rne
  | some r => r
  | none => .rne
/-- 128 bf16 values as a line, its scales and what they signal. -/
def packLine (rm : Rm) (bytes : List Byte) : List Byte × Nat × Exc :=
  let bs := (List.range 4).map fun b =>
    ky4Encode rm ((List.range 32).map fun j => readF fmtBf16 (leNat ((bytes.drop (64 * b + 2 * j)).take 2)))
  (bs.flatMap fun r => (pairUp r.1).map fun p => BitVec.ofNat 8 (p.1 + 16 * p.2),
   (bs.zip (List.range 4)).foldl (fun n r => n + r.1.2.1 * 256 ^ r.2) 0, bs.foldl (fun (x : Exc) r => x ||| r.2.2) 0)

/-- PACK.KY4 (R276). -/
def packUnit (s : State) (i : Nat) : State :=
  let c := s.cmdAt i
  let m := copyW c.w
  let d := rowAddr c.dstC (m.doff + 64 * c.idx)
  if d % 64 ≠ 0 then s.stopCmd i cILLEGAL d        -- no line starts there (DEDUCED, log 18)
  else if c.rd < 256 then s.readLine i c.srcC (rowAddr c.srcC (m.soff + 256 * c.idx)) 256
  else
    let r := packLine (c.packRm m.mode) (c.rowBytes.map (·.1))
    let tag := if c.rowBytes.any (fun b => b.2 = tagPoison) then tagPoison else (c.rowBytes.getLast?.map (·.2)).getD tagZeroed
    let s := s.modCmd i fun c => { c with exc := c.exc ||| r.2.2 }
    s.writeLine i c.dstC d 64 (fun off n => ((r.1.drop off).take n).map fun b => (b, tag))
      fun _ => some { kind := 1, scales := BitVec.ofNat 32 r.2.1, otag := tag }

/-! Units. -/

def iter {α : Type} (f : α → α) : Nat → α → α
  | 0, x => x
  | n + 1, x => iter f n (f x)

/-- One unit of a running copy command: it ends with its rows, and stops for a cancel after a line (R266). -/
def State.copyStep (unit : State → Nat → State) (i : Nat) (s : State) : State :=
  let c := s.cmdAt i
  if c.state ≠ .running || (c.cancelled && c.req.isNone && !c.mid) || (copyW c.w).rows ≤ c.idx then s else unit s i
/-- Units of a command of one kind. -/
def copyUnits (kind : Nat) (unit : State → Nat → State) (cmd n : Nat) (s : State) : Host.Outcome State Fault Refusal :=
  let c := s.cmdAt cmd
  if cmd < s.cmds.length && c.q ≤ 3 && c.kind = kind then .next (iter (State.copyStep unit cmd) n s) else .next s

def execCopy (cmd n : Nat) (s : State) : Host.Outcome State Fault Refusal := copyUnits 0x43 copyUnit cmd n s
def execFill (cmd n : Nat) (s : State) : Host.Outcome State Fault Refusal := copyUnits 0x46 (fillUnit patternByte) cmd n s
def execGather (cmd n : Nat) (s : State) : Host.Outcome State Fault Refusal := copyUnits 0x47 gatherUnit cmd n s
def execZero (cmd n : Nat) (s : State) : Host.Outcome State Fault Refusal := copyUnits 0x5A (fillUnit fun _ _ => 0) cmd n s
def execUnpackKy4 (cmd n : Nat) (s : State) : Host.Outcome State Fault Refusal := copyUnits 0x55 unpackUnit cmd n s
def execPackKy4 (cmd n : Nat) (s : State) : Host.Outcome State Fault Refusal := copyUnits 0x50 packUnit cmd n s

end Sys2Proof.Machine
end

