-- ==== Sys2Proof/Machine/Matrix.lean ====
section
/-! DEFINITION. The matrix engine (12 R278-R296) and its numbers (03 R82-R91): a running command works step by step, or pair by pair. -/
namespace Sys2Proof.Machine

/-- An element as an engine reads it: bits and tag. -/
abbrev Elem := Nat × Tag

/-! Tiles. -/

def Crew.tile (c : Crew) (t : Nat) : Tile := (c.tiles.getD []).getD t {}
def State.setTile (s : State) (ci t : Nat) (x : Tile) : State := s.modCrew ci fun c => { c with tiles := some ((c.tiles.getD []).set t x) }
/-- A tile made ZERO, its elements under a tag (R284, R289, R291). -/
def zeroTile (tag : Tag) : Tile := { rows := List.replicate 64 (List.replicate 64 (0, tag)) }
/-- Elements of a tile, or of a pair: the odd tile holds the high halves (R278). -/
def Crew.elems (c : Crew) (t : Nat) (pair : Bool) : List (List Elem) :=
  if pair then
    ((c.tile t).rows.zip (c.tile (t + 1)).rows).map fun r => (r.1.zip r.2).map fun e => (e.1.1.toNat + 2 ^ 32 * e.2.1.toNat, e.1.2)
  else (c.tile t).rows.map fun r => r.map fun e => (e.1.toNat, e.2)
def State.setElems (s : State) (ci t : Nat) (pair : Bool) (mode : TileMode) (kcount : Option Nat) (rows : List (List Elem)) : State :=
  let half (k : Nat) : Tile :=
    { mode := mode, kcount := kcount.getD ((s.crewAt ci).tile (t + k)).kcount, rows := rows.map fun r => r.map fun e => (BitVec.ofNat 32 (e.1 / 2 ^ (32 * k)), e.2) }
  let s := s.setTile ci t (half 0)
  if pair then s.setTile ci (t + 1) (half 1) else s

/-! Operands. -/

/-- `cnt` elements of e bytes from offset a of a scratchpad, each with its line's tag (R284). -/
def readElems (m : Memory) (a e cnt : Nat) : List Elem :=
  (List.range cnt).map fun k => (leNat (m.bytes (a + e * k) e), m.lineTag ((a + e * k) / 64))
/-- 64 rows at a stride. -/
def readBlock (m : Memory) (a str e cnt : Nat) : List (List Elem) := (List.range 64).map fun i => readElems m (a + i * str) e cnt

/-- Whether a bound capability still passes over bytes that are accessed now (R255). -/
def State.boundOk (s : State) (c : Cmd) (k : CReg) (a n : Nat) (perm : BitVec 12) : Bool :=
  (capCheck (s.roots (s.crewAt c.crew).ctx) { crew := c.crew, compt := c.compt } k a n (perm ||| pENG)).isNone

/-- The crew that supplies a remote operand: of the same launch, resident in the pusher's cluster (R285). -/
def State.peerOf (s : State) (c : Cmd) (peer : Nat) : Option Nat :=
  let me := s.crewAt c.crew
  if peer = me.crewid.toNat then some c.crew else
  (s.launchAt me.launch).crews.find? fun i =>
    let x := s.crewAt i
    x.crewid.toNat = peer && x.state = .resident && x.die = c.die && x.core / 8 = c.core / 8

/-- One side of a step: its rows, or why and where it fails. -/
def State.stepSide (s : State) (c : Cmd) (k : CReg) (off inc : Int) (str : Nat) (far : Bool) (peer st e ks : Nat) :
    Except (BitVec 8 × Nat) (List (List Elem)) :=
  let a := rowAddr k (off + st * inc)
  if !s.boundOk c k a (63 * str + e * ks) pLD then .error (cCAP_REVOKED, a)
  else if far then
    match s.peerOf c peer with
    | none => .error (cREMOTE_FAULT, a)
    | some i => .ok (readBlock (s.crewAt i).scratch a str e ks)
  else .ok (readBlock (s.crewAt c.crew).scratch a str e ks)

/-- The value 1 of a type. -/
def oneOf (ty : Ty) : Nat := if Rows.isInt ty then 1 else (iToF (fmtOf ty) .rne false 1).bits
/-- A generated side of a step (Table 12-5). -/
def genSide (m : MatW) (ty : Ty) (list : List Elem) (st ks : Nat) : List (List Elem) :=
  (List.range 64).map fun i => (List.range ks).map fun kk =>
    let k := st * ks + kk
    let one := if m.gen = 2 then true else if m.gen = 1 then (list.getD i (0, 0)).1 = k else i = k
    (if one then oneOf ty else 0, tagImm)

/-! Numbers (R82, R83, R287). -/

def fvMul (a b : Fv) : Fv :=
  if a.isNan || b.isNan || zeroTimesInf a b then .nan (a.isSnan || b.isSnan || zeroTimesInf a b)
  else if a.isInf || b.isInf then .inf (a.neg != b.neg)
  else match a, b with
    | .fin na ma ea, .fin nb mb eb => .fin (na != nb) (ma * mb) (ea + eb)
    | _, _ => .nan true
/-- An exact sum of finite values over the smaller exponent. -/
def sumFin (xs : List Fv) : Int × Int :=
  xs.foldl (fun acc x =>
    match x with
    | .fin n m e => let t := exactSum (acc.1 < 0) acc.1.natAbs acc.2 n m e; t
    | _ => acc) (0, 0)
/-- C + P1 + … + Pn, rounded once (R82). A `nan true` among them stands for one that signals; beside a quiet NaN infinities of opposite
signs signal nothing (DESIGN CHOICE, log 34). -/
def sumRound (xs : List Fv) : FRes :=
  let pos := xs.any fun x => x.isInf && !x.neg
  let neg := xs.any fun x => x.isInf && x.neg
  if xs.any Fv.isNan then nanRes fmtF32 (snanExc xs)
  else if pos && neg then nanRes fmtF32 excNV
  else if pos || neg then infRes fmtF32 neg
  else
    let r := sumFin xs
    rndSigned fmtF32 .rne (xs.all Fv.neg) r.1 r.2

def fvTag (f : Fmt) (x : Elem) : TagIn :=
  let v := readF f x.1
  { tag := x.2, exceptional := v.exceptional, m := (fvMag v).1, e := (fvMag v).2 }
def intTag (w : Nat) (x : Elem) : TagIn := { tag := x.2, m := (sextN x.1 w).natAbs }
/-- The tag of a tile element (R287, R91): C comes first by magnitude, last among the exceptional. -/
def matTag (cmd : Cmd) (c : Option TagIn) (as bs : List TagIn) (exceptional : Bool) : Tag :=
  tagResult cmd.rule cmd.own (if exceptional then as ++ bs ++ c.toList else c.toList ++ as ++ bs) exceptional

/-- One element after a step (R284), and what the step signals. -/
def stepElem (cmd : Cmd) (ty : Ty) (c : Elem) (as bs : List Elem) : Elem × Exc :=
  if Rows.isInt ty then
    let x := (as.zip bs).foldl (fun (n : Int) p => n + sextN p.1.1 8 * sextN p.2.1 8) (sextN c.1 32)
    let y := clampTo .i32 x
    ((bitsOf 32 y, matTag cmd (some (intTag 32 c)) (as.map (intTag 8)) (bs.map (intTag 8)) false), if y = x then 0 else excOF)
  else
    let f := fmtOf ty
    let r := sumRound (readF fmtF32 c.1 :: (as.zip bs).map fun p => fvMul (readF f p.1.1) (readF f p.2.1))
    ((r.bits, matTag cmd (some (fvTag fmtF32 c)) (as.map (fvTag f)) (bs.map (fvTag f)) r.exceptional), r.exc)
/-- All elements after a step. -/
def stepTile (cmd : Cmd) (ty : Ty) (rows as bs : List (List Elem)) : List (List (Elem × Exc)) :=
  (rows.zip as).map fun p => (p.1.zip bs).map fun q => stepElem cmd ty q.1 p.2 q.2
def excOf (rows : List (List (Elem × Exc))) : Exc := rows.foldl (fun (x : Exc) r => r.foldl (fun (x : Exc) e => x ||| e.2) x) 0
def elemsOf (rows : List (List (Elem × Exc))) : List (List Elem) := rows.map fun r => r.map (·.1)

/-! MLOOP and MGEN (R284-R288). -/

def MatW.tyOf (m : MatW) : Ty := (Rows.tyOf m.ty).getD .i8
def MatW.cls (m : MatW) : TileMode := if m.ty = 0 then .i32 else .f32

/-- What comes before the first step; MGEN reads its index list once. -/
def loopBegin (s : State) (i : Nat) : State :=
  let c := s.cmdAt i
  let m := matW c.w
  let t0 := if m.flag then zeroTile c.ownTag else (s.crewAt c.crew).tile m.tile
  let s := if m.flag then s.setTile c.crew m.tile t0 else s
  if t0.mode ≠ .zero && t0.mode ≠ m.cls then s.stopCmd i cILLEGAL 0
  else if m.cls = .i32 && 131072 < t0.kcount + 8 * m.count then s.stopCmd i cILLEGAL 0
  else
    let s := if m.count = 0 then s else s.setTile c.crew m.tile { t0 with mode := m.cls }
    let s := s.modCmd i fun c => { c with begun := true }
    if m.kind ≠ 0x4E || m.gen ≠ 1 then s else
    let a := rowAddr c.auxC m.ioff
    if !s.boundOk c c.auxC a 128 pLD then s.stopCmd i cCAP_REVOKED a else
    let list := readElems (s.crewAt c.crew).scratch a 2 64
    match (list.zip (List.range 64)).find? (fun p => p.1.2 = tagPoison) with
    | some p => s.stopCmd i cTAG_POISON (a + 2 * p.2)
    | none => s.modCmd i fun c => { c with list := list }

/-- One step. -/
def loopStep (s : State) (i : Nat) : State :=
  let c := s.cmdAt i
  let m := matW c.w
  let ty := m.tyOf
  let e := codeBytes m.ty; let ks := kStep m.ty
  let gen (side : Bool) : Bool := m.kind = 0x4E && m.gside = side
  let a := if gen true then .ok (genSide m ty c.list c.idx ks)
    else s.stepSide c c.dstC m.aoff m.ainc m.astr m.arem m.peer c.idx e ks
  let b := if gen false then .ok (genSide m ty c.list c.idx ks)
    else s.stepSide c c.srcC m.boff m.binc m.bstr m.brem m.peer c.idx e ks
  match a with
  | .error x => s.stopCmd i x.1 x.2
  | .ok as =>
  match b with
  | .error x => s.stopCmd i x.1 x.2
  | .ok bs =>
    let t := (s.crewAt c.crew).tile m.tile
    let r := stepTile c ty ((s.crewAt c.crew).elems m.tile false) as bs
    let s := s.setElems c.crew m.tile false t.mode (if m.cls = .i32 then some (t.kcount + 8) else none) (elemsOf r)
    s.modCmd i fun c => { c with idx := c.idx + 1, exc := c.exc ||| excOf r }

/-! MSLICE (R84-R88, R292). -/

/-- The scale exponent of a row or column (R84). -/
def sliceExp (f : Fmt) (row : List Elem) : Int :=
  let es := row.filterMap fun x => match readF f x.1 with | .fin _ m e => if m = 0 then none else some (e + Nat.log2 m + 1) | _ => none
  match es with
  | [] => f.qmin
  | e :: rest => rest.foldl max e
/-- Digits d(1)…d(s) of an integer (R85), by the lower ones first. -/
def digitsFrom : Nat → Int → List Int → List Int
  | 0, q, ds => q :: ds
  | p + 1, q, ds =>
    let d := (q + 64) % 128 - 64
    digitsFrom p ((q - d) / 128) (d :: ds)
/-- The digits of an element; those of one that is not finite are 0, and what the sums of its row and column signal joins the command's
exceptions (DESIGN CHOICE, log 34). -/
def digits (f : Fmt) (s : Nat) (e : Int) (x : Elem) : List Int :=
  match readF f x.1 with
  | .fin neg m q => digitsFrom (s - 1) (toInt neg (roundAt .rne neg m (q + 7 * s - e) 0).1) []
  | _ => List.replicate s 0
/-- A row after its split: its exponent and the digits of its elements. -/
def splitRow (f : Fmt) (s : Nat) (row : List Elem) : Int × List (List Int) :=
  let e := sliceExp f row
  (e, row.map (digits f s e))

/-- Pairs in ascending p + q, ties in ascending p (R87). -/
def slicePairs (s : Nat) : List (Nat × Nat) := (List.range s).flatMap fun t => (List.range (t + 1)).map fun p => (p + 1, t + 1 - p)

/-- The value of a pair for one element in the output format (R86, R87). -/
def pairValue (f64 : Bool) (p q : Nat) (a b : Int × List (List Int)) : FRes :=
  let n := (a.2.zip b.2).foldl (fun (n : Int) x => n + x.1.getD (p - 1) 0 * x.2.getD (q - 1) 0) 0
  let r := rndSigned fmtF64 .rne false n (a.1 + b.1 - 7 * (p + q : Nat))
  if f64 then r else
    let r' := fToF fmtF32 .rne false (readF fmtF64 r.bits)
    { r' with exc := r.exc ||| r'.exc }

/-- What comes before the pairs: the modes are tested, and become those of the output; the previous elements are kept. -/
def sliceBegin (s : State) (i : Nat) : State :=
  let c := s.cmdAt i
  let m := matW c.w
  let f64 := m.ty = 11
  let out : TileMode := if f64 then .f64 else .f32
  let cr := s.crewAt c.crew
  let mode := (cr.tile m.tile).mode
  if m.flag && ((mode ≠ .zero && mode ≠ out) || (f64 && (cr.tile (m.tile + 1)).mode ≠ mode)) then s.stopCmd i cILLEGAL 0 else
  let rows := cr.elems m.tile f64
  let s := s.setElems c.crew m.tile f64 out none rows
  s.modCmd i fun c => { c with begun := true, matC := if m.flag then rows else [] }

/-- The split reads A and B. -/
def sliceSplit (s : State) (i : Nat) : State :=
  let c := s.cmdAt i
  let m := matW c.w
  let e := codeBytes m.ty
  let a := rowAddr c.dstC m.aoff; let b := rowAddr c.srcC m.boff
  if !s.boundOk c c.dstC a (63 * m.astr + e * m.k) pLD then s.stopCmd i cCAP_REVOKED a
  else if !s.boundOk c c.srcC b (63 * m.bstr + e * m.k) pLD then s.stopCmd i cCAP_REVOKED b
  else
    let mem := (s.crewAt c.crew).scratch
    s.modCmd i fun c => { c with matA := readBlock mem a m.astr e m.k, matB := readBlock mem b m.bstr e m.k }

/-- One pair; after the last one, rows and columns with a non-finite input become NaN (R88). -/
def slicePair (s : State) (i : Nat) : State :=
  let c := s.cmdAt i
  let m := matW c.w
  let f64 := m.ty = 11
  let f := if f64 then fmtF64 else fmtF32
  let pq := (slicePairs m.s).getD c.idx (1, 1)
  let last := c.idx + 1 = (slicePairs m.s).length
  let cr := s.crewAt c.crew
  let side (rows : List (List Elem)) := rows.map fun r => (r, splitRow f m.s r, r.any fun x => (readF f x.1).exceptional)
  let as := side c.matA; let bs := side c.matB
  let cin := if m.flag then c.matC.map fun r => r.map some else List.replicate 64 (List.replicate 64 none)
  let rows := ((cr.elems m.tile f64).zip (cin.zip as)).map fun r => (r.1.zip (r.2.1.zip bs)).map fun (x : Elem × Option Elem × _) =>
    let a := r.2.2; let b := x.2.2
    let v := pairValue f64 pq.1 pq.2 a.2.1 b.2.1
    let y := if c.idx = 0 && !m.flag then v else
      let z := fAdd f .rne (readF f x.1.1) (readF f v.bits)
      { z with exc := v.exc ||| z.exc }
    let y := if last && (a.2.2 || b.2.2) then { nanRes f excNV with exc := y.exc ||| excNV } else y
    ((y.bits, matTag c (x.2.1.map (fvTag f)) (a.1.map (fvTag f)) (b.1.map (fvTag f)) (readF f y.bits).exceptional), y.exc)
  let s := s.setElems c.crew m.tile f64 (cr.tile m.tile).mode none (elemsOf rows)
  s.modCmd i fun c => { c with idx := c.idx + 1, exc := c.exc ||| excOf rows }

/-- One unit of MSLICE: a command that has been paused splits again. -/
def sliceStep (s : State) (i : Nat) : State :=
  let c := s.cmdAt i
  if c.matA.isEmpty then sliceSplit s i else slicePair s i

/-! MDRAIN, MLOADC, MZERO (R289-R291). -/

/-- What an MDRAIN converts from (Table 12-6): the type that the tile's mode names, `none` where the combination is illegal. A tile in
mode ZERO holds zeros of the output's own type. -/
def drainFrom (m : MatW) (mode partner : TileMode) : Option Ty :=
  let even := m.tile % 2 = 0
  match mode with
  | .i32 => if [0, 2, 4, 10].contains m.ty then some .i32 else none
  | .f32 => if [8, 9, 10, 12, 13].contains m.ty then some .f32 else none
  | .f64 => if even && partner = .f64 && (m.ty = 10 || m.ty = 11) then some .f64 else none
  | .zero => if m.ty ≠ 11 || (even && partner = .zero) then some m.tyOf else none

def Cmd.drainRm (c : Cmd) (m : MatW) : Rm :=
  match Rows.rmOf (m.count / 2 ^ 29) with
  | some .dyn => (Rows.rmOf c.rnd.toNat).getD .rne
  | some r => r
  | none => .rne

/-- The type that a running MDRAIN converts from, of its tile as it stands. -/
def State.drainSrc (s : State) (c : Cmd) : Option Ty :=
  let m := matW c.w
  let cr := s.crewAt c.crew
  drainFrom m (cr.tile m.tile).mode (cr.tile (m.tile + 1)).mode
/-- An illegal combination is found when the command starts (R289). -/
def drainBegin (s : State) (i : Nat) : State :=
  match s.drainSrc (s.cmdAt i) with
  | none => s.stopCmd i cILLEGAL 0
  | some _ => s.modCmd i fun c => { c with begun := true }
/-- How many elements of `w` bytes, from the one numbered k at address `a` on, stand in its row and begin in its 16-byte chunk (11 R265). -/
def chunkElems (a w k : Nat) : Nat := min (64 - k % 64) ((16 - a % 16 + w - 1) / w)
/-- One chunk of MDRAIN (R289, R294): `idx` counts elements; the tile becomes ZERO after the last where CLR says so. -/
def drainUnit (s : State) (i : Nat) : State :=
  let c := s.cmdAt i
  let m := matW c.w
  match s.drainSrc c with
  | none => s.stopCmd i cILLEGAL 0
  | some src =>
    let w := codeBytes m.ty
    let pair := src = .f64
    let a := rowAddr c.dstC (m.aoff + (c.idx / 64 * m.astr : Nat) + (w * (c.idx % 64) : Nat))
    let n := chunkElems a w c.idx
    if !s.boundOk c c.dstC a (w * n) pST then s.stopCmd i cCAP_REVOKED a else
    let conv (x : Elem) : FRes := if src = m.tyOf then { bits := x.1 } else convert m.tyOf (c.drainRm m) m.flag (readVal src x.1)
    let row := ((s.crewAt c.crew).elems m.tile pair).getD (c.idx / 64) []
    let xs := ((row.drop (c.idx % 64)).take n).map fun x => (conv x, x.2)
    let ws := (xs.zip (List.range n)).flatMap fun x => laneWrites [(a + w * x.2, w)] (leBytes w x.1.1.bits) x.1.2
    let s := s.modCrew c.crew fun cr => { cr with scratch := storeBytes cr.scratch ws {} }
    let s := if 4096 ≤ c.idx + n && m.count / 2 ^ 28 % 2 = 1 then
        let s := s.setTile c.crew m.tile (zeroTile c.ownTag)
        if pair then s.setTile c.crew (m.tile + 1) (zeroTile c.ownTag) else s
      else s
    s.modCmd i fun c => { c with idx := c.idx + n, exc := xs.foldl (fun (x : Exc) e => x ||| e.1.exc) c.exc }

def loadcUnit (s : State) (i : Nat) : State :=
  let c := s.cmdAt i
  let m := matW c.w
  let w := codeBytes m.ty
  let a := rowAddr c.dstC m.aoff
  if !s.boundOk c c.dstC a (63 * m.astr + 64 * w) pLD then s.stopCmd i cCAP_REVOKED a else
  let mode : TileMode := if m.ty = 4 then .i32 else if m.ty = 10 then .f32 else .f64
  let s := s.setElems c.crew m.tile (m.ty = 11) mode (some 0) (readBlock (s.crewAt c.crew).scratch a m.astr w 64)
  s.modCmd i fun c => { c with idx := 1 }

def mzeroUnit (s : State) (i : Nat) : State :=
  let c := s.cmdAt i
  let s := (List.range 8).foldl (fun s t => if (matW c.w).count.testBit t then s.setTile c.crew t (zeroTile c.ownTag) else s) s
  s.modCmd i fun c => { c with idx := 1 }

/-! Units. -/

/-- Units that a matrix command has. -/
def MatW.total (m : MatW) : Nat :=
  if m.kind = 0x4D || m.kind = 0x4E then m.count else if m.kind = 0x49 then m.s * (m.s + 1) / 2 else if m.kind = 0x44 then 4096 else 1
/-- The unit of a matrix command (12 R282): the array, or the tile port. -/
def onArray (kind : Nat) : Bool := kind = 0x4D || kind = 0x4E || kind = 0x49

/-- One unit of a running matrix command, its beginning first. It stops for a cancel between units (R295); one of the array stops when its
crew is being saved (R296). -/
def State.matStep (begin_ unit : State → Nat → State) (i : Nat) (s : State) : State :=
  let c := s.cmdAt i
  if c.state ≠ .running || c.cancelled || (onArray c.kind && (s.crewAt c.crew).state = .saving) then s
  else if !c.begun then begin_ s i
  else if (matW c.w).total ≤ c.idx then s else unit s i
def matUnits (kind : Nat) (begin_ unit : State → Nat → State) (cmd n : Nat) (s : State) : Host.Outcome State Fault Refusal :=
  let c := s.cmdAt cmd
  if cmd < s.cmds.length && (c.q = 4 || c.q = 5) && c.kind = kind then .next (iter (State.matStep begin_ unit cmd) n s) else .next s
/-- A command without a test of its own before its units. -/
def plainBegin (s : State) (i : Nat) : State := s.modCmd i fun c => { c with begun := true }

def execMloop (cmd n : Nat) (s : State) : Host.Outcome State Fault Refusal := matUnits 0x4D loopBegin loopStep cmd n s
def execMgen (cmd n : Nat) (s : State) : Host.Outcome State Fault Refusal := matUnits 0x4E loopBegin loopStep cmd n s
def execMslice (cmd n : Nat) (s : State) : Host.Outcome State Fault Refusal := matUnits 0x49 sliceBegin sliceStep cmd n s
def execMdrain (cmd : Nat) (s : State) : Host.Outcome State Fault Refusal := matUnits 0x44 drainBegin drainUnit cmd 1 s
def execMloadc (cmd : Nat) (s : State) : Host.Outcome State Fault Refusal := matUnits 0x41 plainBegin loadcUnit cmd 2 s
def execMzero (cmd : Nat) (s : State) : Host.Outcome State Fault Refusal := matUnits 0x5C plainBegin mzeroUnit cmd 2 s

end Sys2Proof.Machine
end

