-- ==== Sys2Proof/Machine/Engine.lean ====
section
/-! DEFINITION. The start and the completion of engine commands (11 R257, R261, R264, R269, R277, 12 R282, R296), and the events of
memory that no access causes (09 R239, R240, 10 R244). -/
namespace Sys2Proof.Machine

/-! Starting. -/

def sameQueue (a b : Cmd) : Bool := a.q = b.q && a.die = b.die && (6 ≤ a.q || a.core = b.core)
/-- The commands accepted before one on its queue have started (R257). -/
def State.queueHead (s : State) (i : Nat) : Bool :=
  let c := s.cmdAt i
  (List.range i).all fun j => !(sameQueue (s.cmdAt j) c && (s.cmdAt j).state = .queued)

def sameUnit (a b : Cmd) : Bool := (a.q = 4 || a.q = 5) && (b.q = 4 || b.q = 5) && a.die = b.die && a.core = b.core &&
  onArray a.kind = onArray b.kind

/-- The two conditions of R264: the earlier commands that conflict with a command of queues 0-5 have completed, and the earlier ones of its own
queue have started. -/
def State.mayGo (s : State) (i : Nat) : Bool :=
  let c := s.cmdAt i
  c.q ≤ 5 && c.state = .queued && s.queueHead i && c.behind.all fun j => (s.cmdAt j).state = .done
/-- A command is held behind one that has faulted (R264). -/
def State.behindFault (s : State) (i : Nat) : Bool := (s.cmdAt i).behind.any fun j => (s.cmdAt j).cause ≠ 0
/-- Whether a command of queues 0-5 can start, but for the choice between two heads. -/
def State.canStart (s : State) (i : Nat) : Bool :=
  let c := s.cmdAt i
  let cr := s.crewAt c.crew
  s.mayGo i && !s.behindFault i && (!c.entry || cr.state = .resident || cr.state = .ended) && !s.cmds.any fun x => x.state = .running && sameUnit x c

/-- COMMAND_START (R264, R282): of two matrix heads that need one unit the one accepted first starts. A command behind a faulted one
completes with ENGINE_FAULT and no data access as soon as its two conditions hold. -/
def execCommandStart (cmd : Nat) (s : State) : Host.Outcome State Fault Refusal :=
  let c := s.cmdAt cmd
  if s.mayGo cmd && s.behindFault cmd then .next (s.faultCmd cmd cENGINE_FAULT 0)
  else if !s.canStart cmd || (List.range cmd).any (fun j => sameUnit (s.cmdAt j) c && s.canStart j) then .next s
  else .next (s.modCmd cmd fun c => { c with state := .running, matA := [], matB := [] })

/-- Whether a running command has nothing left to do. -/
def Cmd.over (c : Cmd) : Bool :=
  if c.q = 8 then false else if c.q ≤ 3 then (copyW c.w).rows ≤ c.idx else c.begun && (matW c.w).total ≤ c.idx

/-- COMMAND_COMPLETE (R261): a command that has done its work completes; one that a cancel has stopped faults. -/
def execCommandComplete (cmd : Nat) (s : State) : Host.Outcome State Fault Refusal :=
  let c := s.cmdAt cmd
  if !(cmd < s.cmds.length && (c.q ≤ 5 || c.q = 8) && c.state = .running && c.req.isNone) then .next s
  else if c.over then .next (s.finishCmd cmd)
  else if c.cancelled && !c.mid then .next (s.stopCmd cmd cCANCELLED 0)
  else .next s

/-! The sweep. -/

/-- SWEEPWAIT (R277): it starts and reads the state of its root; on a REVOKED one it waits for the sweep. -/
def execSweepwait (cmd : Nat) (s : State) : Host.Outcome State Fault Refusal :=
  let c := s.cmdAt cmd
  if !(cmd < s.cmds.length && c.q = 8 && c.state = .queued && s.queueHead cmd) then .next s else
  let r := (wordAt c.w 1).toNat
  match (s.rootAt (s.crewAt c.crew).ctx r).state with
  | .free => .next (if r = 0 then s.faultCmd cmd cILLEGAL 0 else s.finishCmd cmd)
  | .live => .next (s.faultCmd cmd cILLEGAL 0)
  | .revoked => .next (s.modCmd cmd fun c => { c with state := .running, begun := true })

/-- Clear the valid bits of capabilities on root r in lines of a memory for which `here` holds. -/
def sweepMem (here : Nat → Bool) (r : Nat) (m : Memory) : Memory :=
  (m.lines.filter fun e => here e.1 && e.2.ctag ≠ 0).foldl (fun (m : Memory) e =>
    let ct := (List.range 4).foldl (fun (c : BitVec 4) g =>
      if capRoot (BitVec.ofNat 128 (leNat (m.bytes (64 * e.1 + 16 * g) 16))) = r then c &&& ~~~(BitVec.twoPow 4 g) else c) e.2.ctag
    m.setLine e.1 { e.2 with ctag := ct }) m
def sweepC (r : Nat) (c : CReg) : CReg := if capRoot c.bits = r then { c with valid := false } else c
def sweepCmdCaps (r : Nat) (c : Cmd) : Cmd :=
  { c with dst := c.dst.map (sweepC r), src := c.src.map (sweepC r), aux := c.aux.map (sweepC r)
           slots := c.slots.map fun x => x.map (sweepC r) }
def sweepLaunch (r : Nat) (l : Launch) : Launch := { l with code := sweepC r l.code, tile := sweepC r l.tile, arg := sweepC r l.arg }
def Cmd.binds (c : Cmd) : List CReg := c.dst.toList ++ c.src.toList ++ c.aux.toList ++ c.slots.filterMap id
/-- c registers and quads of a team, and what its handler entry saved. -/
def sweepTeam (r : Nat) (t : Team) : Team :=
  let quadRoot (q l : Nat) : Nat :=
    capRoot (BitVec.ofNat 128 ((List.range 4).foldr (fun k x => (t.velem (4 * q + k) l).v.toNat + 2 ^ 32 * x) 0))
  { t with c := t.c.map (sweepC r)
           vcap := (t.vcap.zip (List.range t.vcap.length)).map fun p =>
             (p.1.zip (List.range p.1.length)).map fun x => x.1 && quadRoot p.2 x.2 ≠ r
           frame := t.frame.map fun f => { f with c29 := sweepC r f.c29, c31 := sweepC r f.c31 } }

/-- The packets that a request arrival brings. -/
def requestOf (i : Instr) : Option Packet :=
  match i with | .read p | .readAcq p | .write p | .writeRel p | .atomic p => some p | _ => none
/-- A packet is authorised by an export on a root. -/
def State.exportOn (s : State) (ctx r : Nat) (p : Packet) : Bool :=
  let e := aget ({} : Exported) s.exports p.exp.toNat
  e.state ≠ .free && e.ctx = ctx && e.root = r
/-- Step 4 of the sweep (09 R239): requests that the ports hold, and answers that wait on them, for a new epoch too, are dropped, and their
initiators get a NACK. -/
def State.sweepPorts (s : State) (ctx r : Nat) : State :=
  let drop (i : Instr) : Bool := match requestOf i with | some p => s.exportOn ctx r p | none => false
  let inRuns := s.ports.flatMap fun (pt : Port) => pt.inRuns.flatMap (·.2.held)
  let gone := (((s.ctxAt ctx).held ++ inRuns).filter drop).filterMap requestOf
  let s' := s.modCtx ctx fun x => { x with held := x.held.filter fun i => !drop i }
  let nack (p : Packet) : Packet :=
    if p.cls = 1 && p.op ≠ opNACK && s.exportOn ctx r p then
      { p with op := opNACK, otag := 0, kind := 0, scales := 0, line := cCAP_REVOKED :: List.replicate 63 0 } else p
  let s' := { s' with ports := s'.ports.map fun (pt : Port) =>
    { pt with queue := pt.queue.map nack, stalled := pt.stalled.map fun x => (x.1, nack x.2)
              inRuns := pt.inRuns.map fun x => (x.1, { x.2 with held := x.2.held.filter fun i => !drop i }) } }
  gone.foldl (fun (s : State) p => s.refuseAt (some ctx) p cCAP_REVOKED) s'

/-- The sweep of a context's memory, crews, queued commands and port queues (09 R239). A team's own accesses in flight are performed first. -/
def State.sweep (s : State) (ctx r : Nat) : State :=
  let s := s.drainAll
  let frames := (s.ctxAt ctx).maps.filter fun m => m.resid = .device
  let here (l : Nat) : Bool := frames.any fun m => m.frame ≤ l * 64 && l * 64 < m.frame + m.size
  let mine (i : Nat) : Bool := (s.crewAt i).ctx = some ctx
  let changed := (s.mem.lines.filter fun e => here e.1 && e.2.ctag ≠ 0).map fun e => (e.1 * 64, 64)
  let s := { s with
    mem := sweepMem here r s.mem
    crews := s.crews.map fun (c : Crew) => if c.ctx = some ctx then { c with scratch := sweepMem (fun _ => true) r c.scratch } else c
    teams := s.teams.map fun (t : Team) => if mine t.crew then sweepTeam r t else t
    launches := s.launches.map fun (l : Launch) => if l.ctx = some ctx then sweepLaunch r l else l }
  let s := s.dropL1 changed
  let s := (indices s.cmds).foldl (fun s i =>
    let c := s.cmdAt i
    if c.open && (c.state = .queued || c.state = .away) && mine c.crew && c.binds.any (fun k => capRoot k.bits = r)
    then s.faultCmd i cCAP_REVOKED 0 else s) s
  State.sweepPorts { s with cmds := s.cmds.map fun (c : Cmd) => if mine c.crew then sweepCmdCaps r c else c } ctx r

/-- The Maces have finished: the root is FREE, and SWEEPWAITs that have waited for it complete (09 R240, 11 R277). -/
def State.freeRoot (s : State) (ctx r : Nat) : State :=
  let s := s.setRoot (some ctx) r {}
  (indices s.cmds).foldl (fun s i =>
    let c := s.cmdAt i
    if c.q = 8 && c.state = .running && (s.crewAt c.crew).ctx = some ctx && (wordAt c.w 1).toNat = r then s.finishCmd i else s) s

/-- MACE_SWEEP_COMPLETE (09 R240). -/
def execMaceSweepComplete (ctx root : Nat) (s : State) : Host.Outcome State Fault Refusal :=
  if ctx < s.contexts.length && (s.rootAt (some ctx) root).state = .revoked then
    .next (((s.sweep ctx root).freeRoot ctx root).destroyStep ctx)
  else .next s

/-- L1_COPY_EXPIRY (10 R244). -/
def execL1CopyExpiry (core line : Nat) (s : State) : Host.Outcome State Fault Refusal :=
  .next (s.modCore core fun c => { c with l1 := c.l1.filter fun e => e.1 ≠ line })

end Sys2Proof.Machine
end

