-- ==== Sys2Proof/Machine/System.lean ====
section
/-! DEFINITION. Trap and system instructions: MOP 0xC0-0xC8 (14 R309-R320), special registers (02 R45-R50), and a word that is no
instruction (02 R65). -/
namespace Sys2Proof.Machine

/-! Special registers. -/

def modeCode : Mode → Nat
  | .user => 0 | .super => 1 | .firm => 2

/-- A read in scalar form: `idx` is the word of `trapmask` (DEDUCED, log 31). -/
def State.readSr (s : State) (t : Team) (n idx : Nat) : Word :=
  let c := s.crewAt t.crew
  match n with
  | 0 => t.teamid
  | 1 => c.crewid.setWidth 64
  | 2 => c.x.setWidth 64
  | 3 => c.y.setWidth 64
  | 4 => c.z.setWidth 64
  | 5 => BitVec.ofNat 64 t.nlanes
  | 6 => (maskSummary t.m).setWidth 64
  | 7 => c.tcyc
  | 8 => (s.dieAt c.die).dcyc
  | 9 => t.ttimer
  | 10 => t.fpctl
  | 11 => t.fpst
  | 12 => t.tagrule
  | 13 => BitVec.ofNat 64 (c.killed.toNat * 65536 + if t.abandoned then 1 else 0)
  | 14 => t.trapcause.setWidth 64
  | 15 => t.trappc.setWidth 64
  | 16 => (maskWord t.trapmask idx).setWidth 64
  | 17 => t.traptagA.setWidth 64
  | 18 => t.traptagB.setWidth 64
  | 19 => t.traptagC.setWidth 64
  | 20 => t.trapaddr.getD ((lanesOf t.trapmask t.nlanes).headD 0) 0
  | 21 => t.skid.setWidth 64
  | 22 => BitVec.ofNat 64 (c.prio * 256 + modeCode t.mode)
  | _ => 0

/-- `rdsr` (02 R45, R46): the lane form gives each lane its own `trapaddr`. The destination has `own_tag()` under every rule: R46 states it
without FROZEN's exception (DEDUCED, log 34). -/
def execRdsr (f : IForm) (s : State) : Host.Outcome State Fault Refusal :=
  issue (.rdsr f) s fun t =>
    let n := srNum f
    if f.ln then
      let lanes := lanesOf (t.laneGuard true f.g f.gn) t.nlanes
      if lanes.any (fun l => t.vempty f.d.toNat 2 l) then .error .wait else
      .ok ((s.setTeam (lanes.foldl (fun t l => t.writeVs f.d.toNat 2 l (t.trapaddr.getD l 0).toNat (s.ownTag t)) t)).retire 8)
    else if !(t.sreg f.d.toNat).full then .error .wait
    else .ok ((s.setTeam (t.setS f.d.toNat (s.readSr t n (srIdx f)) (s.ownTag t))).retire 8)

/-- The source of a write of a special register; it is consumed (14 R314). -/
def writeSr (i : Instr) (f : IForm) (s : State) (go : Team → Word → Except Stop State) : Host.Outcome State Fault Refusal :=
  issue i s fun t =>
    tagI sourceRow f t <|
    match readS t f.a.toNat f.ea with
    | .error e => .error e
    | .ok x => if x.tag = tagPoison then .error (poisonTrap t) else go t (BitVec.ofNat 64 x.v)

/-- A value that `fpctl` or `tagrule` refuses (02 R47, R48). -/
def srRefused (n : Nat) (v : Word) : Bool := (n = 10 && 5 ≤ v.toNat / 256 % 8) || (n = 12 && v.toNat % 4 = 3)
/-- Write a register that has no row of its own; reserved bits read 0. -/
def State.writeSpecial (s : State) (i n : Nat) (v : Word) : State :=
  match n with
  | 7 => s.modCrew (s.teamAt i).crew fun c => { c with tcyc := v }
  | 9 => s.modTeam i fun t => { t with ttimer := v }
  | 10 => s.modTeam i fun t => { t with fpctl := v &&& 0x71F }
  | 11 => s.modTeam i fun t => { t with fpst := v &&& 0x1F }
  | 12 => s.modTeam i fun t => { t with tagrule := v &&& 3 }
  | 14 => s.modTeam i fun t => { t with trapcause := v.setWidth 8 }
  | 17 => s.modTeam i fun t => { t with traptagA := v.setWidth 24 }
  | 18 => s.modTeam i fun t => { t with traptagB := v.setWidth 24 }
  | 19 => s.modTeam i fun t => { t with traptagC := v.setWidth 24 }
  | 21 => s.modTeam i fun t => { t with skid := v.setWidth 5 }
  | _ => s

/-- `wrsr` of the registers that have no row of their own (02 R45-R48). -/
def execWrsr (f : IForm) (s : State) : Host.Outcome State Fault Refusal :=
  issue (.wrsr f) s fun t =>
    let n := srNum f
    tagI sourceRow f t <|
    match readS t f.a.toNat f.ea with
    | .error e => .error e
    | .ok x =>
    if x.tag = tagPoison then .error (poisonTrap t) else
    let v : Word := BitVec.ofNat 64 x.v
    if srRefused n v then .error (trapNow t cILLEGAL) else .ok ((s.writeSpecial s.cur n v).retire 8)

/-- `wrsr lvl` (02 R44, R50): PRIO for every team of the crew, MODE for this team. -/
def execLvlWrite (f : IForm) (s : State) : Host.Outcome State Fault Refusal :=
  issue (.lvlWrite f) s fun t =>
    tagI sourceRow f t <|
    match readS t f.a.toNat f.ea with
    | .error e => .error e
    | .ok x =>
    if x.tag = tagPoison then .error (poisonTrap t) else
    let prio := x.v / 256 % 32
    match x.v % 4 with
    | 3 => .error (trapNow t cILLEGAL)
    | m =>
      if 24 ≤ prio then .error (trapNow t cILLEGAL) else
      let s := s.modCrew t.crew fun c => { c with prio := prio }
      .ok ((s.setTeam { t with mode := if m = 0 then .user else if m = 1 then .super else .firm }).retire 8)

/-- `wrsr crewst` (02 R49): a 1 in bit 0 clears ABANDONED. -/
def execCrewstWrite (f : IForm) (s : State) : Host.Outcome State Fault Refusal :=
  writeSr (.crewstWrite f) f s fun t v => .ok ((s.setTeam { t with abandoned := t.abandoned && !v.getLsbD 0 }).retire 8)

/-- `wrsr trappc` (14 R310). -/
def execTrappcWrite (f : IForm) (s : State) : Host.Outcome State Fault Refusal :=
  issue (.trappcWrite f) s fun t =>
    tagI sourceRow f t <|
    match readS t f.a.toNat f.ea with
    | .error e => .error e
    | .ok x =>
    if x.tag = tagPoison then .error (poisonTrap t)
    else if x.v % 8 ≠ 0 then .error (trapNow t cILLEGAL)
    else .ok ((s.setTeam { t with trappc := BitVec.ofNat 57 x.v }).retire 8)

/-! Traps. -/

/-- The record of a coded trap: it resumes past the word (Table 14-3). -/
def codedTrap (t : Team) (cause : BitVec 8) (f : IForm) : Stop :=
  .trap { cause := cause, pc := pcAdd t.pc 8, tagA := BitVec.ofNat 24 (f.imm.toNat % 65536) }

/-- R310. -/
def execTrap (f : IForm) (s : State) : Host.Outcome State Fault Refusal := issue (.trap f) s fun t => .error (codedTrap t cSOFTWARE f)
def execBkpt (f : IForm) (s : State) : Host.Outcome State Fault Refusal := issue (.bkpt f) s fun t => .error (codedTrap t cBREAKPOINT f)

/-- R309 (DEDUCED, log 31). What the frame restores is written, so it waits for a fill of it (02 R42 rule 3). -/
def execEret (f : RForm) (s : State) : Host.Outcome State Fault Refusal :=
  issue (.eret f) s fun t =>
    if t.frame.isNone then .error (trapNow t cILLEGAL)
    -- the end after CANCELLED is a release as that of `exit` is
    else if (t.trapcause = cCANCELLED || t.cancelTaken) && t.held (s.exitObs t) false then .error .wait
    else
      let d := (s.drain s.cur).team
      if (d.s.drop 56).any (fun r => !r.full) || (d.c.getD 29 {}).busy then .error .wait
      else .ok ((s.retireTo t.pc).returnTrap s.cur)

/-- 02 R65, R66. -/
def execIllegalEncoding (w : Word) (s : State) : Host.Outcome State Fault Refusal :=
  issue (.illegalEncoding w) s fun t => .error (trapNow t cILLEGAL)

/-- R312 (DEDUCED, log 31). -/
def execHalt (f : RForm) (s : State) : Host.Outcome State Fault Refusal :=
  issue (.halt f) s fun t =>
    match s.attached t with
    | none => .ok (s.killTeam s.cur cBREAKPOINT 0 0)
    | some _ => .ok ((s.retire 8).modTeam s.cur fun u => { u with halted := true, trappc := pcAdd t.pc 8 })

/-- R311, R323: which units fail is a free value (DESIGN CHOICE, log 10); a core that passes is allowed again. -/
def execKat (f : RForm) (s : State) : Host.Outcome State Fault Refusal :=
  issue (.kat f) s fun t =>
    let bad := Config.katFailure s.tick
    let s := { s with tick := s.tick + 1 }
    if bad = 0 then .ok ((s.retire 8).modCore (s.crewAt t.crew).place fun c => { c with out := false })
    else .ok (s.takeTrap s.cur { cause := cSHADOW, pc := t.pc, addr := [bad.setWidth 64] })

/-! Save and restore (R316-R320). -/

/-- SAVESZ (R318). -/
def saveSize (teams lanes regs scrk tiles : Nat) : Nat :=
  (65536 + teams * (8192 + lanes * (7 * regs + 3)) + scrk * 1152 + 229376 * tiles + 65535) / 65536 * 65536
def State.saveSizeOf (s : State) (ci : Nat) : Nat :=
  let c := s.crewAt ci
  let t := s.teamAt (c.teams.headD 0)
  saveSize c.teams.length t.nlanes t.vregs c.scrk (if c.tiles.isSome then 1 else 0)

/-- Where the part of a save area lies that is on a REMOTE page: at its virtual address, above every memory. -/
def hostBase : Nat := 2 ^ 60
/-- The runs of [lo, lo + n) of a save area: machine addresses, and those of REMOTE pages above `hostBase` (09 R237). -/
def State.runsAt (s : State) (t : Team) (lo n : Nat) : Except Stop (List (Nat × Nat)) :=
  let ctx := s.ctxOf t
  match s.translate ctx { r := true, w := true, compt := s.comptOf t } lo n, ctx with
  | .error (a, e), _ => .error (trapNow t e 0 (everyLane t a))
  | .ok (runs, true), some c =>
    .ok ((mapParts (s.ctxAt c).maps (runs.length + 1) lo n).map fun p =>
      (if p.2.2.2.isSome then hostBase + p.1 else stage2At (s.ctxAt c).stage2 p.2.1, p.2.2.1))
  | .ok (runs, _), _ => .ok runs
/-- Where a host keeps the bytes of a run of a REMOTE page: device, export, address. -/
def State.farRun (s : State) (ctx : Option Nat) (a : Nat) : Option (Nat × BitVec 12 × BitVec 16 × Nat) :=
  match ctx with
  | none => none
  | some c => (findMap (s.ctxAt c).maps (a - hostBase)).map fun m =>
      let far := Config.remotePage c m.va
      (m.va, (s.ctxAt c).creator, far.1, far.2.toNat + (a - hostBase - m.va))
/-- The bytes of a save area: those of a REMOTE page are as its host holds them (DESIGN CHOICE, log 6). -/
def State.areaBytes (s : State) (runs : List (Nat × Nat)) : List Byte :=
  runs.flatMap fun r => if r.1 < hostBase then s.mem.bytes r.1 r.2
    else (List.range r.2).map fun i => Config.hostByte s.tick ((r.1 - hostBase) / 65536 * 65536) ((r.1 - hostBase) % 65536 + i)
/-- The parts of a save area that lie on REMOTE pages are read from their host; the first that is refused, if any. -/
def State.areaReads (s : State) (ctx : Option Nat) (runs : List (Nat × Nat)) : State × Option Nat :=
  runs.foldl (fun (x : State × Option Nat) r =>
    if r.1 < hostBase || x.2.isSome then x else
    match x.1.farRun ctx r.1 with
    | none => x
    | some (_, dst, exp, a) => let y := x.1.readOut ctx dst exp a r.2; (y.1, if y.2 then none else some (r.1 - hostBase))) (s, none)
/-- Bytes are written to a save area: to memory, or to the host of a REMOTE page. -/
def State.areaWrite (s : State) (ctx : Option Nat) : List (Nat × Nat) → List Byte → Tag → State
  | [], _, _ => s
  | (a, n) :: rest, bs, tag =>
    let s' := if a < hostBase then s.writeRuns [(a, n)] (bs.take n) tag {} else
      match s.farRun ctx a with
      | none => s
      | some (_, dst, exp, x) => s.writeOut ctx dst exp (linePieces ((min n bs.length) / 64 + 2) x (min n bs.length)) (bs.take n)
    s'.areaWrite ctx rest (bs.drop n) tag

/-- The save area that a capability names: the runs of its header, and what it needs of the pages. -/
def State.saveArea (s : State) (t : Team) (c : CReg) : Except Stop (List (Nat × Nat)) :=
  let ctx := s.ctxOf t
  let lo := s.capLoOf ctx c.bits
  match s.check t [.loc] c lo 4096 (pLD ||| pST ||| pSYS) with
  | some e => .error (trapNow t e 0 (everyLane t lo))
  | none => s.runsAt t lo 4096

def field (h : List Byte) (off n : Nat) : Nat := leNat ((h.drop off).take n)
/-- Replace bytes of a list. -/
def patch (h : List Byte) (off : Nat) (bs : List Byte) : List Byte := h.take off ++ bs ++ h.drop (off + bs.length)

/-- The crew that occupies a slot. -/
def State.crewIn (s : State) (die core slot : Nat) : Option Nat :=
  if die < 4 && core < 64 then (s.crewsOn (die * 64 + core)).find? fun i => (s.crewAt i).slot = slot else none

/-- The header that `csave` fills (Table 14-5). -/
def State.saveHeader (s : State) (ci : Nat) (h : List Byte) : List Byte :=
  let c := s.crewAt ci
  let t := s.teamAt (c.teams.headD 0)
  h.take 8 ++ leBytes 4 1 ++ [BitVec.ofNat 8 c.die, BitVec.ofNat 8 c.core, BitVec.ofNat 8 c.slot, 0] ++ leBytes 8 c.crewid.toNat ++
    leBytes 8 (s.launchAt c.launch).lslot ++ leBytes 4 c.teams.length ++ leBytes 2 t.nlanes ++ [BitVec.ofNat 8 t.vregs, if c.tiles.isSome then 1 else 0] ++
    leBytes 4 c.scrk ++ leBytes 4 0 ++ leBytes 8 c.tcyc.toNat ++ leBytes 8 (s.dieAt c.die).dcyc.toNat ++ List.replicate 4032 0

/-- Where an image names itself, and where its capabilities begin (DESIGN CHOICE, log 17). -/
def nameOff : Nat := 4096
def capsOff : Nat := 65536
/-- The capability registers of a team, those of its frame, and its quads, as an image holds them (R317). -/
def Team.savedCaps (t : Team) : List CReg :=
  t.c ++ (match t.frame with | some f => [f.c29, f.c31] | none => []) ++
    (List.range t.vcap.length).flatMap fun q => (List.range t.nlanes).map fun l =>
      { bits := BitVec.ofNat 128 (t.velems (4 * q) 4 l).v, valid := t.vvalid (4 * q) l, tag := (t.velem (4 * q) l).tag }
/-- A team comes back with the valid bits that its image holds: those that a sweep or a store has cleared are gone (R317, 09 R239). -/
def Team.withValid (t : Team) (v : Nat → Bool) : Team :=
  let n := t.c.length
  let k := n + if t.frame.isSome then 2 else 0
  { t with c := (t.c.zip (List.range n)).map fun p => { p.1 with valid := p.1.valid && v p.2 }
           frame := t.frame.map fun f => { f with c29 := { f.c29 with valid := f.c29.valid && v n }, c31 := { f.c31 with valid := f.c31.valid && v (n + 1) } }
           vcap := (t.vcap.zip (List.range t.vcap.length)).map fun p =>
             (p.1.zip (List.range p.1.length)).map fun x => x.1 && v (k + p.2 * t.nlanes + x.2) }
/-- Capability k of those that `savedCaps` lists takes TAG_POISON. -/
def Team.poisonSaved (t : Team) (k : Nat) : Team :=
  let n := t.c.length
  let m := n + if t.frame.isSome then 2 else 0
  if k < n then t.poisonDest (.c k) 0
  else if k < m then
    { t with frame := t.frame.map fun f =>
        if k = n then { f with c29 := { f.c29 with tag := tagPoison } } else { f with c31 := { f.c31 with tag := tagPoison } } }
  else t.poisonDest (.quad (4 * ((k - m) / t.nlanes))) ((k - m) % t.nlanes)
/-- The machine address of a byte of runs. -/
def runAddr : List (Nat × Nat) → Nat → Nat
  | [], _ => 0
  | (a, n) :: rest, i => if i < n then a + i else runAddr rest (i - n)
/-- The capabilities of a crew in an image whose runs are given, each with the machine address of its granule, in the order of its teams. -/
def State.imageCaps (s : State) (ci : Nat) (runs : List (Nat × Nat)) : List (Nat × CReg) :=
  let cs := (s.crewTeams ci).flatMap fun i => (s.teamAt i).savedCaps
  (cs.zip (List.range cs.length)).map fun p => (runAddr runs (capsOff + 16 * p.2) / 16 * 16, p.1)
/-- The image in its area: its name, bytes of the firmware's own layout, the capabilities with their CTAG bits (R317). -/
def State.writeImage (s : State) (ctx : Option Nat) (ci name : Nat) (head : List Byte) (runs : List (Nat × Nat)) (n : Nat) (tag : Tag) : State :=
  let caps := (s.imageCaps ci runs).filter fun p => p.1 < hostBase      -- a window carries no valid bit
  let s := s.areaWrite ctx runs (head ++ leBytes 8 name ++ (List.range (n - 4104)).map (Config.imageByte s.tick)) tag
  { s with mem := caps.foldl (fun (m : Memory) p => storeGranule m p.1 p.2.bits p.2.valid p.2.tag {}) s.mem }
/-- Part of an image that carries no tag is read with an uncorrectable error: a line of it that is not one of its capabilities' is in error, or
comes so over a die link (R315, 17 R329). -/
def State.imageBad (s : State) (ci : Nat) (runs : List (Nat × Nat)) : Bool :=
  let caps := (s.imageCaps ci runs).map fun p => p.1 / 64
  let inside (lo hi : Nat) : Bool := runs.any fun r => r.1 < hi && lo < r.1 + r.2
  (s.crewAt ci).linkFail || s.mem.lost.any (fun r => inside r.1 (r.1 + r.2)) ||
    s.mem.lines.any fun e => e.2.err && inside (e.1 * 64) (e.1 * 64 + 64) && !caps.contains e.1
/-- The teams of a crew take the valid bits of their image, and TAG_POISON for a capability whose line is in error (R315); every team is killed
where another part of the image is. -/
def State.readImage (s : State) (ci : Nat) (runs : List (Nat × Nat)) : State :=
  let caps := s.imageCaps ci runs
  let bits := caps.map fun p => p.1 < hostBase && s.mem.granuleValid p.1
  let errs := (List.range caps.length).filter fun k => match caps[k]? with | some p => s.mem.bad (p.1 / 64) | none => false
  let s' := ((s.crewTeams ci).foldl (fun (x : State × Nat) i =>
    let n := (s.teamAt i).savedCaps.length
    (x.1.modTeam i fun t =>
      (errs.filter fun k => x.2 ≤ k && k < x.2 + n).foldl (fun (t : Team) k => t.poisonSaved (k - x.2)) (t.withValid fun k => bits.getD (x.2 + k) false),
     x.2 + n)) (s, 0)).1
  if s.imageBad ci runs then ((s.crewTeams ci).foldl State.killSoon s').modCrew ci fun c => { c with linkFail := false } else s'

/-- Runs of an area for an image of n bytes: a page that fails traps before anything has changed (R320). -/
def State.areaRuns (s : State) (t : Team) (c : CReg) (n : Nat) : Except Stop (List (Nat × Nat)) :=
  s.runsAt t (s.capLoOf (s.ctxOf t) c.bits) n
/-- The name of the image in an area. -/
def State.nameIn (s : State) (runs : List (Nat × Nat)) : Nat := leNat ((s.areaBytes runs).drop nameOff |>.take 8)

/-- `csave` (R320): the crew begins to be saved, the team waits until it can be, then the image stands in the area (DESIGN CHOICE, log 17). -/
def execCsave (f : RForm) (s : State) : Host.Outcome State Fault Refusal :=
  issue (.csave f) s fun t =>
    tagR { a := .c, ln := .s } f t <|
    match readC t f.a.toNat with
    | .error e => .error e
    | .ok c =>
    if c.tag = tagPoison then .error (poisonTrap t) else
    match s.saveArea t c with
    | .error e => .error e
    | .ok runs =>
      let ctx := s.ctxOf t
      match s.areaReads ctx runs with
      | (_, some a) => .error (trapNow t cREMOTE_FAULT 0 (everyLane t a))
      | (s, none) =>
      let h := s.areaBytes runs
      match s.crewIn (field h 12 1) (field h 13 1) (field h 14 1) with
      | none => .error (trapNow t cILLEGAL)
      | some ci =>
        let n := s.saveSizeOf ci
        let going := field h 8 4 = 2 && (s.crewAt ci).state = .saving && (match s.areaRuns t c n with
          | .ok all => (s.crewAt ci).area = some (s.nameIn all)
          | .error _ => false)
        if field h 8 4 ≠ 0 && !going then .error (trapNow t cILLEGAL)
        else if field h 0 8 < s.saveSizeOf ci || s.capHiOf ctx c.bits - s.capLoOf ctx c.bits < field h 0 8 then
          .error (trapNow t cCAP_BOUNDS 0 (everyLane t (s.capLoOf ctx c.bits)))
        else
          match s.areaRuns t c n with
          | .error e => .error e
          | .ok all =>
            let name := if going then s.nameIn all else s.tick
            if !s.saveReady ci then
              let s1 := s.areaWrite ctx all (patch h 8 (leBytes 4 2) ++ leBytes 8 name) (s.ownTag t)
              .ok ({ s1.startSave ci with tick := s1.tick + 1 }.modCrew ci fun c => { c with area := some name })
            else
              let s1 := ((s.drain s.cur).retire 8).saveCrew ci
              let s1 := s1.writeImage ctx ci name (s.saveHeader ci h) all n (s.ownTag t)
              .ok ({ s1 with tick := s1.tick + 1 }.modCrew ci fun c => { c with area := some name })

/-- `crest` (R320). An image that names no saved crew traps ILLEGAL (DESIGN CHOICE, log 17). -/
def execCrest (f : RForm) (s : State) : Host.Outcome State Fault Refusal :=
  issue (.crest f) s fun t =>
    tagR { a := .c, ln := .s } f t <|
    match readC t f.a.toNat with
    | .error e => .error e
    | .ok c =>
    if c.tag = tagPoison then .error (poisonTrap t) else
    match s.saveArea t c with
    | .error e => .error e
    | .ok runs =>
      let ctx := s.ctxOf t
      match s.areaReads ctx runs with
      | (_, some a) => .error (trapNow t cREMOTE_FAULT 0 (everyLane t a))
      | (s, none) =>
      let h := s.areaBytes runs
      let die := field h 12 1; let core := field h 13 1; let slot := field h 14 1
      let place := die * 64 + core
      if field h 8 4 ≠ 1 then .error (trapNow t cILLEGAL) else
      match s.areaRuns t c (nameOff + 8) with
      | .error e => .error e
      | .ok named =>
      match (indices s.crews).find? (fun i => (s.crewAt i).area = some (s.nameIn named) && (s.crewAt i).state = .ready) with
      | none => .error (trapNow t cILLEGAL)
      | some ci =>
        if field h 0 8 < s.saveSizeOf ci || s.capHiOf ctx c.bits - s.capLoOf ctx c.bits < field h 0 8 then
          .error (trapNow t cCAP_BOUNDS 0 (everyLane t (s.capLoOf ctx c.bits)))
        else
        match s.areaRuns t c (s.saveSizeOf ci) with
        | .error e => .error e
        | .ok all =>
        if 4 ≤ die || 64 ≤ core || 32 ≤ slot || (s.crewIn die core slot).isSome || !s.fits (s.crewAt ci).launch place none ||
            !s.tilesFit ci place then .error (trapNow t cILLEGAL)
        else
          let s1 := (((s.drain s.cur).retire 8).readImage ci all).areaWrite ctx runs (patch h 8 (leBytes 4 0)) (s.ownTag t)
          .ok (s1.switchIn ci place (some slot))

end Sys2Proof.Machine
end

