-- ==== Sys2Proof/Machine/Fabric.lean ====
section
/-! DEFINITION. The fabric at the device: inbound requests (17 R338, R340, R358), responses and deadlines (R341, 09 R221), ports (R329,
R332, R344). An event names a packet that has come whole and in order, with a good CRC (DESIGN CHOICE, log 11). -/
namespace Sys2Proof.Machine

/-! Where a packet comes from. -/

/-- The die of the port that it comes over. -/
def State.dieFrom (s : State) (src : BitVec 12) : Nat := (s.portFrom src).getD 0 / 9
/-- It comes over a port in S7 compatibility mode (R347). -/
def State.fromS7 (s : State) (src : BitVec 12) : Bool := s.toS7 src

/-- Table 17-3. -/
def listed (p : Packet) : Bool :=
  let op := p.op.toNat
  if p.cls = 0 then op = 1 || op = 2 || op = 4 || op = 5 || (8 ≤ op && op ≤ 11)
  else if p.cls = 1 || p.cls = 2 then 1 ≤ op && op ≤ 3
  else if p.cls = 3 then (collOf p.op).isSome
  else p.cls = 4 && (op = 1 || op = 2)

/-- A port drops a packet and counts it. -/
def State.dropIn (s : State) (port : Nat) : State := s.modPort port fun pt => { pt with errors := pt.errors + 1 }
/-- The port of a packet drops it and counts it. -/
def State.dropPacket (s : State) (p : Packet) : State :=
  match s.portFrom p.src with
  | some i => s.dropIn i
  | none => s
/-- The key under which a port keeps the last COUNT of a sender's port (20 R397). -/
def hearKey (world : Nat) (p : Packet) : Nat := (world * 4096 + p.src.toNat) * 256 + p.fport.toNat
/-- What a port makes of a packet for a context (20 R397, R398): under a fabric key it drops and counts one that fails its tag, its replay
test or its switch test, and keeps the COUNT of another. -/
def State.authentic (s : State) (ctx : Option Nat) (port : Nat) (p : Packet) : Except State State :=
  match s.worldOf ctx with
  | none => .ok s
  | some w =>
    if !w.fabricKey || !underKey p then .ok s else
    let native := (s.portAt port).major ≠ 1
    let known := match p.relay with | none => true | some x => Config.switchKnown x w.id
    let last := aget 0 (s.portAt port).heard (hearKey w.id p)      -- one more than the last COUNT
    if !p.tagOk || !known || (native && p.count.toNat < last) then .error (s.dropIn port)
    else .ok (if native then s.modPort port fun pt => { pt with heard := aset 0 pt.heard (hearKey w.id p) (p.count.toNat + 1) } else s)

/-! Runs of an S7 (20 R398). -/

/-- The packet of an arrival from a run that has been tested. -/
def judgedAs (ok : Bool) : Instr → Instr
  | .read p => .read { p with judged := true, tagOk := ok }
  | .readAcq p => .readAcq { p with judged := true, tagOk := ok }
  | .write p => .write { p with judged := true, tagOk := ok }
  | .writeRel p => .writeRel { p with judged := true, tagOk := ok }
  | .atomic p => .atomic { p with judged := true, tagOk := ok }
  | .data p => .data { p with judged := true, tagOk := ok }
  | .ack p => .ack { p with judged := true, tagOk := ok }
  | .nack p => .nack { p with judged := true, tagOk := ok }
  | .collectivePacket p => .collectivePacket { p with judged := true, tagOk := ok }
  | .vote p v r => .vote { p with judged := true, tagOk := ok } v r
  | i => i
/-- The tag that its own flits let a packet's run have. -/
def goodFlits : Instr → Bool
  | .read p | .readAcq p | .write p | .writeRel p | .atomic p | .data p | .ack p | .nack p | .collectivePacket p | .vote p _ _ => p.tagOk
  | _ => true
/-- The packets of a run go on together, or fail together: they are the next events (DESIGN CHOICE, log 11). -/
def State.closeRun (s : State) (run : List Instr) (ok : Bool) : State :=
  { s with agenda := run.map (fun i => { cycles := 0, act := .event (judgedAs (ok && run.all goodFlits) i) }) ++ s.agenda }
/-- Flits of a packet join the run that is coming in on a port, and complete it, or several. -/
def State.intoRun (s : State) (w : World) (port : Nat) (i : Instr) (p : Packet) : State :=
  let n := max w.runLen 1
  let r := aget ({} : InRun) (s.portAt port).inRuns w.id
  let total := r.flits + flits p
  let keep (x : InRun) : State := s.modPort port fun pt => { pt with inRuns := aset ({} : InRun) pt.inRuns w.id x }
  if total < n then keep { flits := total, last := s.now, held := r.held ++ [i] }
  else if total = n then (keep {}).closeRun (r.held ++ [i]) true
  else if total % n = 0 then ((keep {}).closeRun [i] true).closeRun r.held p.tagOk
  else (keep { flits := total % n, last := s.now, held := [i] }).closeRun r.held p.tagOk
/-- The world whose S7 run a packet joins, if it does. -/
def State.runWorld (s : State) (ctx : Option Nat) (port : Nat) (p : Packet) : Option World :=
  match s.worldOf ctx with
  | none => none
  | some w => if w.fabricKey && underKey p && (s.portAt port).major = 1 && !p.judged then some w else none

/-- A packet, as arrival `i`, that is to be of class `cls`, with an operation for which `ops` holds, arrives over an UP port (R345): `go` takes it;
one that the table does not list is dropped and counted (R334); one of an S7 run waits for the run's tag. -/
def State.inbound (s : State) (ctx : Option Nat) (i : Instr) (p : Packet) (cls : BitVec 4) (ops : BitVec 6 → Bool) (go : State → State) : State :=
  match s.portFrom p.src with
  | none => s
  | some q =>
    if !listed p then s.dropIn q
    else if p.cls ≠ cls || !ops p.op then s
    else match s.runWorld ctx q p with
    | some w => s.intoRun w q i p
    | none => match s.authentic ctx q p with | .error s => s | .ok s => go s

/-! Inbound requests. -/

/-- Put an entry into a die's inbound fault log (R358). -/
def State.logFault (s : State) (p : Packet) (cause : BitVec 8) : State :=
  s.modDie (s.dieFrom p.src) fun d =>
    let e : FaultRec := { src := p.src, exp := p.exp, addr := p.addr.toNat, cause := cause, dcyc := d.dcyc }
    if d.faults.length < Config.faultLogEntries then { d with faults := d.faults ++ [e] }
    else { d with faults := d.faults.drop 1 ++ [e], faultLoss := d.faultLoss + 1 }

/-- Send an answer; with no UP port it is lost, and the initiator ends at its deadline. -/
def State.answer (s : State) (ctx : Option Nat) (p : Packet) : State := (s.send ctx p).getD s

inductive Inbound where
  | read (acq : Bool)
  | write (rel : Bool)
  | atomic
  deriving DecidableEq, Repr

/-- What a request asks for: the export's entry and its root, the bytes of the line, the size of an atomic and its operation. -/
def Inbound.acquires (k : Inbound) (p : Packet) : Bool :=
  match k with | .read a => a | .write _ => false | .atomic => p.op.getLsbD 0
def Inbound.releases (k : Inbound) (p : Packet) : Bool :=
  match k with | .read _ => false | .write r => r | .atomic => p.op.getLsbD 1
def Inbound.perms : Inbound → BitVec 12
  | .read _ => pLD | .write _ => pST | .atomic => pLD ||| pST ||| pAT

def payload (p : Packet) (i : Nat) : Nat := (p.line.getD i 0).toNat
/-- log2 of an atomic's size, its operation. -/
def atomLog (p : Packet) : Nat := payload p 17
def inboundOp (p : Packet) : Option AtomOp :=
  [AtomOp.add, .min, .max, .and, .or, .xor, .xch, .minu, .maxu, .cas, .fadd, .fadd, .fadd][payload p 16]?
/-- Step 5 for an atomic: ILLEGAL for its bytes, CAP_BOUNDS for its alignment. -/
def atomCause (p : Packet) : Option (BitVec 8) :=
  let o := payload p 16; let b := atomLog p
  if 12 < o || !(if o ≤ 9 then b = 2 || b = 3 else b = o - 9) || p.last.toNat ≠ p.first.toNat + 2 ^ b - 1 then some cILLEGAL
  else if p.first.toNat % 2 ^ b ≠ 0 then some cCAP_BOUNDS
  else none

/-- The number of bytes that a packet covers. -/
def pktLen (p : Packet) : Nat := p.last.toNat + 1 - p.first.toNat

/-- The observer mask of an acquire or a release from a device: all seven classes for an S7 (R347). -/
def State.obsOf (s : State) (p : Packet) : BitVec 8 := if s.fromS7 p.src then 0x7F else normObs (p.obs.setWidth 8)
/-- The class bit of a device. -/
def classOf (src : BitVec 12) : Nat := if Config.isHost src then 6 else 5

/-- A device's acquire passes a record (R340 step 7, 10 R247). -/
def farPass (r : ScopeRec) (bit : Nat) (o : BitVec 8) : Bool :=
  if r.kind = 0 then true else
  r.obs.getLsbD bit &&
    (if r.kind = 3 then o.getLsbD 5 else if r.kind = 4 then o.getLsbD 6 else o.getLsbD bit)

/-- Steps 1-7 of R340: the first failure, or the machine runs of the bytes; none of them where they lie on a REMOTE page (09 R237). -/
def State.inboundCheck (s : State) (k : Inbound) (p : Packet) : Except (BitVec 8) (List (Nat × Nat)) :=
  let e := aget ({} : Exported) s.exports p.exp.toNat
  let root := s.rootAt (some e.ctx) e.root
  if e.state = .free then .error cCAP_TAG
  else if e.state = .closed then .error cCAP_REVOKED
  else if p.src ≠ e.allow then .error cCAP_PERM
  else if root.state ≠ .live then .error cCAP_REVOKED
  else if (e.perms &&& k.perms) ≠ k.perms then .error cCAP_PERM
  else if e.length ≤ p.addr.toNat + p.last.toNat then .error cCAP_BOUNDS
  else
    match (if k = .atomic then atomCause p else none) with
    | some c => .error c
    | none =>
      let need : Need := match k with
        | .read _ => { r := true, compt := root.compt }
        | .write _ => { w := true, compt := root.compt }
        | .atomic => { r := true, w := true, compt := root.compt }
      match s.translate (some e.ctx) need (e.start + p.addr.toNat + p.first.toNat) (pktLen p) with
      | .error (_, c) => .error c
      | .ok (_, true) => .ok []
      | .ok (runs, false) =>
        if k.acquires p && !(linesOf runs).all (fun l => farPass (s.mem.record l) (classOf p.src) (s.obsOf p)) then .error cSCOPE
        else .ok runs

/-- The record that a device's release leaves where there is room for it (10 R246). -/
def State.farRecord (s : State) (k : Inbound) (p : Packet) : ScopeRec :=
  if k.releases p then { kind := if Config.isHost p.src then 4 else 3, obs := s.obsOf p } else {}

/-- The tag that an inbound line brings (R347). -/
def State.tagFrom (s : State) (p : Packet) : Tag := if s.fromS7 p.src then tagExternal else p.otag
/-- KIND and SCALES that it brings (Table 17-2). -/
def State.kindFrom (s : State) (p : Packet) : BitVec 4 := if p.kind = 1 && !s.fromS7 p.src then 1 else 0

/-- A write of the bytes that a packet covers: as a store; a whole line brings its KIND and SCALES (R340, 11 R272) (DESIGN CHOICE, log 11). -/
def State.serveWrite (s : State) (k : Inbound) (p : Packet) (runs : List (Nat × Nat)) : State :=
  let bs := (p.line.drop p.first.toNat).take (pktLen p)
  let s' := s.writeRuns runs bs (s.tagFrom p) (s.farRecord k p)
  match runs with
  | [(a, 64)] =>
    if a % 64 = 0 then
      { s' with mem := s'.mem.setLine (a / 64) { s'.mem.line (a / 64) with kind := s.kindFrom p, scales := if s.kindFrom p = 1 then p.scales else 0 } }
    else s'
  | _ => s'

/-- The sideband of a read line that lies in one line of memory. -/
def State.sideOf (s : State) (runs : List (Nat × Nat)) : BitVec 2 × BitVec 32 :=
  match distinct (linesOf runs) with
  | [l] => ((s.mem.line l).kind.setWidth 2, (s.mem.line l).scales)
  | _ => (0, 0)

/-- A DATA answer: the covered bytes in their places of the line, the others 0. -/
def State.dataAnswer (s : State) (p : Packet) (runs : List (Nat × Nat)) : Packet :=
  let side := s.sideOf runs
  { answerTo p opDATA (lineWith p.first.toNat (readRuns s.mem runs)) with otag := runsTag s.mem runs, kind := side.1, scales := side.2 }

/-- An atomic at its home (R340, 09 R226-R229). -/
def State.serveAtomic (s : State) (p : Packet) (runs : List (Nat × Nat)) : State :=
  match inboundOp p with
  | none => s
  | some op =>
    let size := 2 ^ atomLog p
    let old := leNat (readRuns s.mem runs)
    let x := leNat (p.line.take 8) % 2 ^ (8 * size)
    let new := atomNew op size old x (leNat ((p.line.drop 8).take 8) % 2 ^ (8 * size))
    if op = .cas && old ≠ x then (s.noteHome runs .atomic).dropL1 runs else
    let tag := if runsTag s.mem runs = tagPoison then tagPoison else s.tagFrom p
    (s.writeRuns runs (leBytes size new) tag (s.farRecord .atomic p) none .atomic).dropL1 runs

/-- The context of an export; none for a number that names none. -/
def State.exportCtx (s : State) (p : Packet) : Option Nat :=
  let e := aget ({} : Exported) s.exports p.exp.toNat
  if e.state = .free then none else some e.ctx

/-- A request for bytes of a REMOTE page goes on to the host that holds them, whose answer is the initiator's (09 R237) (DESIGN CHOICE, log 11). -/
def State.relay (s : State) (p : Packet) : State :=
  let e := aget ({} : Exported) s.exports p.exp.toNat
  let x := s.ctxAt e.ctx
  let a := e.start + p.addr.toNat + p.first.toNat
  match findMap x.maps a with
  | none => s
  | some m =>
    let far := Config.remotePage e.ctx m.va
    let at_ := far.2.toNat + (a - m.va)
    let line := if p.op = opREAD || p.op = opREAD_ACQ then [] else if 8 ≤ p.op.toNat then p.line
      else lineWith (at_ % 64) ((p.line.drop p.first.toNat).take (pktLen p))
    s.request { s.ownReq (some e.ctx) x.creator far.1 at_ (pktLen p) 0 with owner := .relay p, va := a } p.op (s.tagFrom p) (s.obsOf p) line p.kind p.scales

/-- Check a request, perform it, answer it once (R340). -/
def State.serve (s : State) (k : Inbound) (p : Packet) : State :=
  let ctx := s.exportCtx p
  match s.inboundCheck k p with
  | .error c => (s.logFault p c).answer ctx (answerTo p opNACK (c :: List.replicate 63 0))
  | .ok [] => s.relay p
  | .ok runs =>
    match k with
    | .read _ => (s.noteHome runs .read).answer ctx (s.dataAnswer p runs)
    | .write _ => (s.serveWrite k p runs).answer ctx (answerTo p opACK [])
    | .atomic => (s.serveAtomic p runs).answer ctx (s.dataAnswer p runs)

/-- READ, READ_ACQ, WRITE, WRITE_REL, ATOMIC (R340); held in a replayable context (21 R417). -/
def execRead (p : Packet) (s : State) : Host.Outcome State Fault Refusal :=
  .next (s.inbound (s.exportCtx p) (.read p) p 0 (· = opREAD) fun s => s.arrive (s.exportCtx p) (.read p) fun s => s.serve (.read false) p)
def execReadAcq (p : Packet) (s : State) : Host.Outcome State Fault Refusal :=
  .next (s.inbound (s.exportCtx p) (.readAcq p) p 0 (· = opREAD_ACQ) fun s => s.arrive (s.exportCtx p) (.readAcq p) fun s => s.serve (.read true) p)
def execWrite (p : Packet) (s : State) : Host.Outcome State Fault Refusal :=
  .next (s.inbound (s.exportCtx p) (.write p) p 0 (· = opWRITE) fun s => s.arrive (s.exportCtx p) (.write p) fun s => s.serve (.write false) p)
def execWriteRel (p : Packet) (s : State) : Host.Outcome State Fault Refusal :=
  .next (s.inbound (s.exportCtx p) (.writeRel p) p 0 (· = opWRITE_REL) fun s => s.arrive (s.exportCtx p) (.writeRel p) fun s => s.serve (.write true) p)
def execAtomic (p : Packet) (s : State) : Host.Outcome State Fault Refusal :=
  .next (s.inbound (s.exportCtx p) (.atomic p) p 0 (fun o => 8 ≤ o.toNat) fun s => s.arrive (s.exportCtx p) (.atomic p) fun s => s.serve .atomic p)

/-! Responses and deadlines. -/

/-- The request that a response answers: it is out, and the response comes from where it went. -/
def State.reqOf (s : State) (p : Packet) : Option Nat :=
  (indices s.reqs).find? fun i =>
    match s.reqAt i with
    | none => false
    | some r => r.st = .out && r.xid = p.xid && (r.dst = p.src || p.src = Config.deviceId)

/-- What a response brings. -/
def State.resultOf (s : State) (i : Instr) : Option (Packet × ReqState) :=
  match i with
  | .data p => some (p, .data p.line (s.tagFrom p) (s.kindFrom p |>.setWidth 2) (if s.kindFrom p = 1 then p.scales else 0))
  | .ack p => some (p, .acked)
  | .nack p => some (p, .refused (p.line.getD 0 0))
  | _ => none
/-- Deliver a response (09 R221). -/
def State.respond (s : State) (i : Instr) : State :=
  match s.resultOf i with
  | none => s
  | some (p, r) =>
    match s.reqOf p with
    | none => s
    | some k => s.closeReq k r
/-- The context of the request that a response answers. -/
def State.responseCtx (s : State) (p : Packet) : Option Nat := ((s.reqOf p).bind s.reqAt).bind (·.ctx)
/-- A response arrives; after the deadline it is discarded (R341). -/
def State.response (s : State) (i : Instr) (op : BitVec 6) (p : Packet) : State :=
  s.inbound (s.responseCtx p) i p 1 (· = op) fun s =>
    match s.reqOf p with
    | none => s
    | some k =>
      match s.reqAt k with
      | none => s
      | some r => if r.deadline ≤ s.now then s else s.arrive r.ctx i fun s => s.respond i

/-- DATA, ACK, NACK (09 R221). -/
def execData (p : Packet) (s : State) : Host.Outcome State Fault Refusal := .next (s.response (.data p) opDATA p)
def execAck (p : Packet) (s : State) : Host.Outcome State Fault Refusal := .next (s.response (.ack p) opACK p)
def execNack (p : Packet) (s : State) : Host.Outcome State Fault Refusal := .next (s.response (.nack p) opNACK p)

/-- FABRIC_TIMEOUT (R341). -/
def execFabricTimeout (req : Nat) (s : State) : Host.Outcome State Fault Refusal := .next (s.timeoutReq req)

/-! Ports. -/

/-- A packet that waits on a port when it goes DOWN: a request is refused, a collective packet aborts its instance, another is lost
(R344). -/
def State.dropQueued (s : State) (p : Packet) : State :=
  if p.cls = 0 then
    match (indices s.reqs).find? (fun i => match s.reqAt i with | some r => r.st = .out && r.xid = p.xid | none => false) with
    | some i => s.localNack i
    | none => s
  else if p.cls = 3 then
    match p.owner.bind fun c => s.groupOf c p.exp with
    | none => s
    | some g =>
      match s.instanceOf g with
      | some sc => if (s.schedAt sc).inst % 65536 = p.xid.toNat then s.collRefused sc p else s
      | none => s
  else s

/-- A port goes DOWN (R332, R344). -/
def State.portDown (s : State) (i : Nat) : State :=
  let pt := s.portAt i
  if pt.st = .down || s.ports.length ≤ i then s else
  (pt.queue ++ pt.stalled.map (·.2)).foldl State.dropQueued (s.modPort i fun pt => { pt with st := .down, queue := [], stalled := [], credits := [], runs := [], inRuns := [] })

/-- The version that HELLO settles on (00 R4): major 2, or the S7's 1. -/
def settle (vers : List (Nat × Nat)) : Option (Nat × Nat) := versionOf Config.fabricVersion true vers

/-- HELLO (R332): a port in training comes UP, with the route to its neighbour (R335), or goes DOWN. Id 0xFFF is no device's. -/
def execHello (port : Nat) (dev : BitVec 12) (vers : List (Nat × Nat)) (s : State) : Host.Outcome State Fault Refusal :=
  if !(port < s.ports.length && s.poweredOn && (s.portAt port).st = .training && dev ≠ 0xFFF) then .next s else
  match settle vers with
  | none => .next (s.portDown port)
  | some v =>
    let m := aget (0 : BitVec 36) s.routes dev.toNat ||| BitVec.twoPow 36 port
    .next ({ s with routes := aset (0 : BitVec 36) s.routes dev.toNat m }.modPort port fun pt =>
      pump { pt with st := .up, peer := dev, major := v.1, minor := v.2 })

/-- CREDIT (R332). -/
def execCredit (port cls n : Nat) (s : State) : Host.Outcome State Fault Refusal :=
  if port < s.ports.length then
    .next (s.modPort port fun pt => pump { pt with credits := aset 0 pt.credits cls (aget 0 pt.credits cls + n) })
  else .next s

/-- LANE_LOCK_LOSS (R332). -/
def execLaneLockLoss (port : Nat) (s : State) : Host.Outcome State Fault Refusal := .next (s.portDown port)
/-- PACKET_REPLAY (R332): the packets that are not acknowledged go again, in their order and with their numbers. -/
def execPacketReplay (port : Nat) (seq : BitVec 8) (s : State) : Host.Outcome State Fault Refusal :=
  if port < s.ports.length && (s.portAt port).st = .up && (s.portAt port).unacked.any (fun p => p.seq = seq) then
    .next (s.modPort port fun pt => { pt with replays := pt.replays + 1 })
  else .next s
/-- REPLAY_FAILURE (R332): sixteen replays since the last acknowledgement have failed. -/
def execReplayFailure (port : Nat) (s : State) : Host.Outcome State Fault Refusal :=
  if 16 ≤ (s.portAt port).replays then .next (s.portDown port) else .next s
/-- LINK_ACKNOWLEDGEMENT (R332). -/
def execLinkAcknowledgement (port : Nat) (seq : BitVec 8) (s : State) : Host.Outcome State Fault Refusal :=
  let pt := s.portAt port
  if port < s.ports.length && pt.unacked.any (fun p => p.seq = seq) then
    .next (s.modPort port fun pt =>
      pump { pt with unacked := (pt.unacked.dropWhile fun p => p.seq ≠ seq).drop 1, replays := 0 })
  else .next s
/-- PORT_RETRAIN (R332): the link begins again (DEDUCED, log 32). -/
def execPortRetrain (port : Nat) (s : State) : Host.Outcome State Fault Refusal :=
  if port < s.ports.length && (s.portAt port).st = .down then
    .next (s.modPort port fun pt => { pt with st := .training, seq := 0, unacked := [], replays := 0 })
  else .next s

/-- S7_RUN_IDLE_TAG (20 R398): a short run, of those that the port sends and of those that come in, is closed by its tag flit after 256 idle
cycles. -/
def execS7RunIdleTag (port : Nat) (s : State) : Host.Outcome State Fault Refusal :=
  let pt := s.portAt port
  let due (r : Nat × Nat × Nat) : Bool := r.2.2 + 256 ≤ s.now
  let dueIn (r : Nat × InRun) : Bool := r.2.last + 256 ≤ s.now
  if port < s.ports.length then
    let s1 := (pt.runs.filter due).foldl (fun (s : State) r => s.countSent r.1 port 1) s
    let s2 := s1.modPort port fun pt =>
      { pt with runs := pt.runs.filter fun r => !due r, tagFlits := pt.tagFlits + (pt.runs.filter due).length
                inRuns := pt.inRuns.filter fun r => !dueIn r }
    .next ((pt.inRuns.filter dueIn).foldl (fun (s : State) r => s.closeRun r.2.held true) s2)
  else .next s

/-! Die links (R329). -/

/-- The access of a team whose transfers of lines on another die have failed for good: what it reads of them is delivered with TAG_POISON; a
store or an atomic whose request has failed is performed on a line that holds an uncorrectable error (DESIGN CHOICE, log 22). -/
def State.accessLinkFails (s : State) (team acc : Nat) (response : Bool) : State :=
  match (s.teamAt team).outs.find? (fun a => a.id = acc) with
  | none => s
  | some a =>
    let far := a.lines.filter (crosses (s.crewAt (s.teamAt team).crew).die)
    if a.space ≠ .dev || far.isEmpty || !canPerform (earlierThan (s.teamAt team).outs acc) a then s else
    let s := if response || a.isLoad then s else { s with mem := s.mem.spoil far }
    (s.tryPerform team acc).modTeam team fun t =>
      (a.lanes.filter fun l => (linesOf l.runs).any far.contains).foldl (fun t l => t.poisonDest a.dst l.lane) t

/-- The transfer of a line that is asked of another die, or sent to it, has failed for good: of a request the line is in error. -/
def State.lineLinkFails (s : State) (die line : Nat) (response : Bool) : State :=
  if response || !crosses die line then s else { s with mem := s.mem.spoil [line] }
/-- A fetched word carries no tag: its team is killed at its next boundary (14 R315). -/
def State.fetchLinkFails (s : State) (i : Nat) (response : Bool) : State :=
  let t := s.teamAt i
  let c := s.crewAt t.crew
  match (if s.inRom t || c.state ≠ .resident || !t.alive then none else s.ctxOf t) with
  | none => s
  | some x =>
    match s.translate (some x) { x := true, compt := s.comptOf t } t.pc.toNat 8 with
    | .ok (runs, false) =>
      match (linesOf runs).filter (crosses c.die) with
      | [] => s
      | far => ({ s with mem := if response then s.mem else s.mem.spoil far } : State).killSoon i
    | _ => s
/-- A line of a saved crew's area: one that did not get there is in error, one that comes back so is read with an error (14 R315). -/
def State.areaLinkFails (s : State) (ci line : Nat) (response : Bool) : State :=
  let c := s.crewAt ci
  if c.state ≠ .ready || c.area.isNone then s
  else if response then (if crosses c.die line then s.modCrew ci fun c => { c with linkFail := true } else s)
  else s.lineLinkFails c.die line false
/-- DIE_LINK_FAILURE (R329): of a team's access or fetch, of an engine command's next line on another die, of a Mace's or the firmware's transfer of
a line, of a line of a save area. A die's firmware gets the answer to a load of its own, as a team does (DESIGN CHOICE, log 22). -/
def execDieLinkFailure (x : DieXfer) (n : Nat) (response : Bool) (s : State) : Host.Outcome State Fault Refusal :=
  match x with
  | .access team => .next (s.accessLinkFails team n response)
  | .command =>
    let c := s.cmdAt n
    .next (if c.state = .running || (c.q = 7 && c.state = .queued) then s.modCmd n fun c => { c with linkFail := some response } else s)
  | .sweep die => .next (s.lineLinkFails die n response)
  | .firmware die =>
    match (s.teamAt die).outs.find? (fun a => a.space = .dev && a.lines.contains n) with
    | some a => .next (s.accessLinkFails die a.id response)
    | none => .next (s.lineLinkFails die n response)
  | .fetch => .next (s.fetchLinkFails n response)
  | .area ci => .next (s.areaLinkFails ci n response)

end Sys2Proof.Machine
end

