-- ==== Sys2Proof/Machine/Check.lean ====
section
/-! DEFINITION. Errors and checks of the hardware (14 R315, R321, R323, 09 R213), bring-up, power and temperature (17 R356, R357). -/
namespace Sys2Proof.Machine

/-! Uncorrectable errors. -/

/-- UNCORRECTABLE (R315): a value that carries a tag is poisoned; a team, every team of a crew, or an instance that holds the state is
killed or aborts; an error in key state is the error of its world (20 R401). -/
def execUncorrectable (at_ : ErrAt) (s : State) : Host.Outcome State Fault Refusal :=
  .next (match at_ with
    | .line a => { s with mem := s.mem.spoil [a / 64] }
    | .scratch ci a => s.modCrew ci fun c => { c with scratch := c.scratch.spoil [a / 64] }
    | .elem i r l => s.modTeam i fun t => t.setV r l { t.velem r l with tag := tagPoison }
    | .scalar i r => s.modTeam i fun t => { t with s := t.s.set r { t.sreg r with tag := tagPoison } }
    | .cap i r => s.modTeam i fun t => { t with c := t.c.set r { t.c.getD r {} with tag := tagPoison } }
    | .tile ci k x => s.modCrew ci fun c =>
        { c with tiles := c.tiles.map fun ts =>
            let tile := ts.getD k {}
            let row := tile.rows.getD (x / 64) []
            ts.set k { tile with rows := tile.rows.set (x / 64) (row.set (x % 64) ((row.getD (x % 64) (0, 0)).1, tagPoison)) } }
    | .untagged i => s.killSoon i
    | .crewState ci => (s.crewTeams ci).foldl (fun s i => s.killSoon i) s
    | .engineState sc =>
      s.enterAbort sc (some (report 0x83 (s.groupAt (s.schedAt sc).group).rank (s.schedAt sc).lowest)) cUNCORRECTABLE 0
    | .keyState w => s.worldError w)

/-! Shadow lanes and known answers. -/

def State.retireUnit (s : State) (place unit : Nat) : State :=
  s.modCore place fun c => { c with retired := c.retired ||| BitVec.twoPow 8 unit }

/-- The next instruction of a team is a lane pass with a word of active and inactive lanes, of which the ones shadow the others (R321). -/
def State.shadowedPass (s : State) (i : Nat) : Bool :=
  let t := s.teamAt i
  let mixed := (List.range 32).any fun w => 0 < t.activeIn w && t.activeIn w < 32
  match s.fetch t with
  | .ok (some x) =>
    (match Rows.view x with
      | .r mop _ _ _ f => shadowMop mop && f.ln && mixed
      | .i mop _ _ f => shadowMop mop && f.ln && mixed
      | _ => false)
  | _ => false
/-- SHADOW_MISMATCH (R321): the pipe is retired. Found within a shadowed pass the instruction runs on another pipe, or its team is killed; found
in replay of an entry the team is killed at its next boundary and the record names the checked instruction. -/
def execShadowMismatch (team pipe : Nat) (replay reissueFails : Bool) (s : State) : Host.Outcome State Fault Refusal :=
  let t := s.teamAt team
  let place := (s.crewAt t.crew).place
  let found := if replay then (s.coreAt place).replayQ.any (fun e => e.1 = team) else s.canMove team && s.shadowedPass team
  if !(team < s.teams.length && t.alive && found) then .next s else
  let s := s.retireUnit place (pipe % 4)
  if replay then
    match (s.coreAt place).replayQ.find? (fun e => e.1 = team) with
    | none => .next s
    | some e =>
      .next ((s.modCore place fun c => { c with replayQ := c.replayQ.erase e }).modTeam team fun t =>
        { t with killPending := some (cSHADOW, some e.2.1) })
  else if reissueFails then .next (s.killTeam team cSHADOW 0 0) else .next s

/-- REPLAY_QUEUE_DROP (R321): the oldest entry has found no slot within 4,096 cycles. -/
def execReplayQueueDrop (core : Nat) (s : State) : Host.Outcome State Fault Refusal :=
  match (s.coreAt core).replayQ with
  | [] => .next s
  | e :: rest =>
    if s.now < e.2.2 + 4096 then .next s else
    .next (s.modCore core fun c => { c with replayQ := rest, replayDrops := c.replayDrops + 1 })

/-- KNOWN_ANSWER_FAILURE (R323): the unit is retired, the core leaves every allowed set, its crews are saved. -/
def execKnownAnswerFailure (core unit : Nat) (s : State) : Host.Outcome State Fault Refusal :=
  if 256 ≤ core then .next s else
  let s := (s.retireUnit core (unit % 8)).modCore core fun c => { c with out := true }
  .next ((s.crewsOn core).foldl (fun s x => if (s.crewAt x).state = .resident then s.startSave x else s) s)

/-! Bring-up and power. -/

/-- Device memory of the package: 48 GiB at each of its twelve stacks (00 R2); a die that fails takes its three with it. -/
def packageBytes (failed : BitVec 4) : Nat :=
  (12 - 3 * ((List.range 4).filter fun d => failed.getLsbD d).length) * 48 * 2 ^ 30

/-- POWER_ON (R356): units that fail their self test are retired, which ones is a free value (DESIGN CHOICE, log 10), and their cores leave the allowed
sets (14 R323); memory and dies are those that passed; ports train, worlds and contexts are none. -/
def execPowerOn (failedDies : BitVec 4) (s : State) : Host.Outcome State Fault Refusal :=
  if s.poweredOn then .next s else
  .next { s with
    poweredOn := true
    tick := s.tick + 260
    cores := (s.cores.zip (indices s.cores)).map fun (p : CoreSt × Nat) =>
      let bad := Config.katFailure (s.tick + p.2)
      { p.1 with retired := bad, out := bad ≠ 0 }
    freeMem := [(0, packageBytes failedDies)]
    dies := (s.dies.zip (List.range 4)).map fun (p : DieSt × Nat) => { p.1 with usable := !failedDies.getLsbD p.2 } }

/-- POWER_SAMPLE (R357). -/
def execPowerSample (watts : Nat) (s : State) : Host.Outcome State Fault Refusal :=
  if 3200 < watts then .next { s with clock := max 500 (s.clock - 50) }
  else if watts * 100 < 3200 * 95 then .next { s with clock := min 1000 (s.clock + 50) }
  else .next s

/-- TEMPERATURE_LIMIT (R357): it throttles from 100 °C; at 115 °C the ports stop and the package is off. -/
def execTemperatureLimit (deg : Nat) (s : State) : Host.Outcome State Fault Refusal :=
  if 115 ≤ deg then
    .next { (List.range 36).foldl (fun s i => s.portDown i) s with poweredDown := true }
  else if 100 ≤ deg then .next { s with clock := max 500 (s.clock - 50) }
  else .next s

end Sys2Proof.Machine
end

