-- ==== Sys2Proof/Machine/Object.lean ====
section
/-! DEFINITION. Code objects (01 R33-R37) and the regions that the firmware makes (17 R337, R350, R352). -/
namespace Sys2Proof.Machine

/-! Reading an object. -/

structure Section where
  kind : Nat
  bytes : List Byte
  align : Nat
  deriving DecidableEq, Repr

/-- A code object: its sections, sites, kernels and line kinds. -/
structure Obj where
  sections : List Section := []
  sites : List (Nat × Nat) := []              -- (code offset, site)
  kernels : List Kernel := []
  kinds : List (Nat × Nat × BitVec 32) := []  -- (section, line, scales)
  deriving DecidableEq, Repr

def bytesAt (bs : List Byte) (off n : Nat) : Nat := leNat ((bs.drop off).take n)
def zeroAt (bs : List Byte) (off n : Nat) : Bool := bytesAt bs off n = 0

/-- R33: the number of sections and the place of their table. -/
def objHeader (o : List Byte) : Option (Nat × Nat) :=
  let n := bytesAt o 8 4; let at_ := bytesAt o 16 8
  if 64 ≤ o.length && bytesAt o 0 4 = 0x004F5954 && bytesAt o 4 2 = 1 && 1 ≤ n && n ≤ 16 && zeroAt o 12 4 && at_ % 8 = 0 && zeroAt o 24 40 &&
      at_ + 32 * n ≤ o.length then some (n, at_) else none
/-- R34. An alignment of 2^57 or more asks for what no address but 0 has (DESIGN CHOICE, log 35). -/
def objSection (o : List Byte) (at_ : Nat) : Option Section :=
  let kind := bytesAt o at_ 4; let off := bytesAt o (at_ + 8) 8; let size := bytesAt o (at_ + 16) 8
  if 1 ≤ kind && kind ≤ 9 && zeroAt o (at_ + 4) 4 && off + size ≤ o.length && zeroAt o (at_ + 28) 4 &&
      (kind ≠ 8 || (o.getD off 0 = 0 && 1 ≤ size)) then
    some { kind := kind, bytes := (o.drop off).take size, align := 2 ^ min 57 (bytesAt o (at_ + 24) 4) }
  else none
def objSections (o : List Byte) (at_ : Nat) : Nat → Option (List Section)
  | 0 => some []
  | n + 1 =>
    match objSection o at_, objSections o (at_ + 32) n with
    | some x, some xs => if xs.any (fun y => y.kind = x.kind) then none else some (x :: xs)
    | _, _ => none
def Obj.get (o : Obj) (kind : Nat) : List Byte := ((o.sections.find? fun x => x.kind = kind).map (·.bytes)).getD []
def Obj.align (o : Obj) (kind : Nat) : Nat := ((o.sections.find? fun x => x.kind = kind).map (·.align)).getD 1

/-- R35: code offsets of entries 1 and on. A table with entry 4094 or above is accepted, and a site is taken modulo 4096 (DESIGN CHOICE,
log 35). -/
def objSites (t : List Byte) (code : Nat) : Option (List (Nat × Nat)) :=
  let es := (List.range (t.length / 16)).drop 1 |>.map fun i => (bytesAt t (16 * i) 8, i)
  if t.length % 16 ≠ 0 || !(t.take 16).all (fun b => b = 0) || es.any (fun e => code ≤ e.1 || e.1 % 8 ≠ 0) || !decide (es.map (·.1)).Nodup then none
  else some es
/-- The shapes that R27 and R29 give a kernel; the firmware refuses an object with another (DESIGN CHOICE, log 35). -/
def kernelOk (k : Kernel) : Bool :=
  k.lanes % 32 = 0 && 32 ≤ k.lanes && k.lanes ≤ 1024 && k.regs % 8 = 0 && 16 ≤ k.regs && k.regs ≤ 64 && 1 ≤ k.teams && k.teams ≤ 16 &&
  1 ≤ k.g && k.g + k.h + k.k = 64 && k.teams * k.lanes * k.regs * 7 ≤ k.g * 65536
/-- R36. An entry offset outside the code section, or not a multiple of 8, is accepted (DESIGN CHOICE, log 35). -/
def objKernels (t : List Byte) : Option (List Kernel) :=
  let es := (List.range (t.length / 32)).map (32 * ·)
  let ks : List Kernel := es.map fun a =>
    { entry := bytesAt t a 8, lanes := bytesAt t (a + 12) 2, regs := bytesAt t (a + 14) 1, teams := bytesAt t (a + 15) 1
      g := bytesAt t (a + 16) 1, h := bytesAt t (a + 17) 1, k := bytesAt t (a + 18) 1 }
  if t.length % 32 ≠ 0 || es.any (fun a => !zeroAt t (a + 19) 13) || !ks.all kernelOk then none else some ks
/-- R37. -/
def objKinds (t : List Byte) (size : Nat → Nat) : Option (List (Nat × Nat × BitVec 32)) :=
  let es := (List.range (t.length / 16)).map (16 * ·)
  let bad (a : Nat) : Bool :=
    let k := bytesAt t a 4; let off := bytesAt t (a + 8) 8
    (k ≠ 2 && k ≠ 3) || off % 64 ≠ 0 || size k ≤ off
  if t.length % 16 ≠ 0 || es.any bad then none
  else some (es.map fun a => (bytesAt t a 4, bytesAt t (a + 8) 8 / 64, BitVec.ofNat 32 (bytesAt t (a + 4) 4)))

/-- The object, or nothing where it breaks R33-R37. -/
def objOf (o : List Byte) : Option Obj :=
  match objHeader o with
  | none => none
  | some (n, at_) =>
    match objSections o at_ n with
    | none => none
    | some xs =>
      let x : Obj := { sections := xs }
      match objSites (x.get 4) (x.get 1).length, objKernels (x.get 5), objKinds (x.get 9) (fun k => (x.get k).length) with
      | some a, some b, some c => some { x with sites := a, kernels := b, kinds := c }
      | _, _, _ => none

/-! Regions. -/

/-- Bytes in whole pages; at least one. -/
def pagesOf (n : Nat) : Nat := max 1 ((n + 65535) / 65536) * 65536
/-- A free virtual address: behind every mapping and every region of before (DESIGN CHOICE, log 20). -/
def State.freshVa (s : State) (c al : Nat) : Nat :=
  let x := s.ctxAt c
  let top := x.maps.foldl (fun n m => max n (m.va + m.size)) x.nextVa
  (top + al - 1) / al * al

/-- A region: a LOCAL root over fresh pages. -/
structure Region where
  root : Nat
  va : Nat
  frame : Nat
  size : Nat
  deriving DecidableEq, Repr

/-- Bytes of the smallest capability that covers a region of n bytes from its root's base (04 R116). -/
def coveredBytes (n : Nat) : Nat := match roundedEnc 0 0 n with | some (e, _, l) => l * 2 ^ e | none => n
/-- Make a zeroed region of whole pages, from the context's grant or, where `own`, from memory of no grant (17 R350, R352, R355). -/
def State.region (s : State) (c n : Nat) (ceil : BitVec 12) (perm : Nat) (own : Bool := false) (compt : Nat := 0) (al : Nat := 65536) :
    Option (Region × State) :=
  let x := s.ctxAt c
  let z := pagesOf n
  match takeChunk z 65536 (if own then s.freeMem else x.poolFree) with
  | none => none
  | some (frame, rest) =>
    let va := s.freshVa c (max al 65536)
    if 2 ^ 57 < va + coveredBytes z then none else
    let s := if own then { s with freeMem := rest }.modCtx c fun x => { x with own := x.own ++ [(frame, z)], stage2 := x.stage2 ++ [(frame, frame, z)] }
             else s.modCtx c fun x => { x with poolFree := rest }
    let s := s.zeroOwner frame z
    let s := s.modCtx c fun x => { x with
      nextVa := va + coveredBytes z
      maps := x.maps ++ (List.range (z / 65536)).map fun i =>
        { va := va + 65536 * i, size := 65536, frame := frame + 65536 * i, r := permR perm, w := permW perm, x := permX perm, compt := compt } }
    match s.claimRoot (some c) { kind := .loc, state := .live, base := va, limit := va + z, ceil := ceil, compt := compt } with
    | none => none
    | some (r, s) => some ({ root := r, va := va, frame := frame, size := z }, s)

/-- The capability for all of a region, cursor at an offset: in the rounded encoding, behind whose end nothing is mapped up to its next
multiple (R116; DESIGN CHOICE, log 20). -/
def Region.cap (g : Region) (perms : BitVec 12) (off : Nat := 0) : CReg :=
  { bits := match roundedEnc g.va g.va (g.va + g.size) with
      | some (e, b, l) => capMk l b e 0 perms g.root (g.va + off)
      | none => 0
    valid := true, tag := tagExternal }

/-- Put bytes at the start of a zeroed region, with their lines' tag; `kinds` names the KY4 lines (01 R37); of two entries for one line the
first counts (DESIGN CHOICE, log 35). -/
def State.loadBytes (s : State) (frame : Nat) (bs : List Byte) (tag : Tag) (kinds : List (Nat × BitVec 32) := []) : State :=
  let m := s.mem.setBytes frame bs
  { s with mem := (List.range ((bs.length + 63) / 64)).foldl (fun (m : Memory) l =>
      match kinds.find? (fun k => k.1 = l) with
      | some k => m.setLine (frame / 64 + l) { otag := tag, kind := 1, scales := k.2 }
      | none => m.setLine (frame / 64 + l) { otag := tag }) m }
/-- The firmware stores a valid capability. -/
def State.fwStoreCap (s : State) (a : Nat) (c : CReg) : State :=
  { s with mem := storeGranule s.mem a c.bits c.valid tagExternal {} }.noteHome [(a, 16)] .write

end Sys2Proof.Machine
end

