-- ==== Sys2Proof/Machine/Firmware.lean ====
section
/-! DEFINITION. The firmware commands of devices, contexts, jobs and windows (17 R346-R354). -/
namespace Sys2Proof.Machine

/-! The device. -/

/-- A reply whose layout the spec does not give (DESIGN CHOICE, log 20). -/
def freeBody (which : Nat) (vals : List Nat) : List Byte := Config.layout which vals

/-- DEVICE_QUERY 0. -/
def doQueryId (m : FwMsg) : FwDo := fwDevice m [(8, 1), (12, 4)] fun s =>
  let v (x : Nat × Nat) : List Nat := [x.1, x.2]
  if m.code ≠ 1 || fwArg m.args 8 1 ≠ 0 then (s, some (stMALFORMED, [])) else
  (s, some (stOK, freeBody 0 ([Config.deviceId.toNat] ++ v Config.isaVersion ++ v Config.fwVersion ++ v Config.fabricVersion ++
    v Config.scheduleVersion ++ v Config.objectVersion)))
/-- DEVICE_QUERY 1. -/
def doQueryHealth (m : FwMsg) : FwDo := fwDevice m [(8, 1), (12, 4)] fun s =>
  (s, some (stOK, freeBody 1 ((s.dies.map fun d => if d.usable then 1 else 0) ++ (s.cores.map fun c => c.retired.toNat))))
/-- DEVICE_QUERY 2: entry n of the kill logs, the dies' one after the other (DESIGN CHOICE, log 20). -/
def doQueryKillLog (m : FwMsg) : FwDo := fwDevice m [(8, 1), (12, 4)] fun s =>
  match (s.dies.flatMap (·.kills))[fwArg m.args 12 4]? with
  | none => (s, some (stNOTFOUND, []))
  | some k => (s, some (stOK, freeBody 2 [k.die, k.core, k.crewid.toNat, k.team, k.cause.toNat, k.point.toNat, k.pc.toNat, k.tag.toNat]))
/-- DEVICE_QUERY 3, likewise of the inbound fault logs (R358). -/
def doQueryFaultLog (m : FwMsg) : FwDo := fwDevice m [(8, 1), (12, 4)] fun s =>
  match (s.dies.flatMap (·.faults))[fwArg m.args 12 4]? with
  | none => (s, some (stNOTFOUND, []))
  | some f => (s, some (stOK, freeBody 3 ([f.src.toNat, f.exp.toNat, f.addr, f.cause.toNat, f.dcyc.toNat] ++ s.dies.map (·.faultLoss))))

/-- Pairs of a NEGOTIATE (R346). -/
def versionPairs (m : FwMsg) : List (Nat × Nat) :=
  (List.range (fwArg m.args 9 1)).map fun i => (fwArg m.args (12 + 4 * i) 2, fwArg m.args (14 + 4 * i) 2)
/-- NEGOTIATE (R346). After NOVERSION the firmware, Isabuko and code object interfaces keep nothing: the sender's later commands are served, each
against its own checks (00 R4; DESIGN CHOICE, log 32). -/
def doNegotiate (m : FwMsg) : FwDo := fwDevice m [(8, 2), (12, 48)] fun s =>
  let n := fwArg m.args 9 1
  let own := match fwArg m.args 8 1 with
    | 1 => some Config.fwVersion | 2 => some Config.fabricVersion | 3 => some Config.scheduleVersion | 4 => some Config.objectVersion
    | _ => none
  match own with
  | none => (s, some (stMALFORMED, []))
  | some own =>
    if n = 0 || 12 < n then (s, some (stMALFORMED, [])) else
    match versionOf own (fwArg m.args 8 1 = 2) (versionPairs m) with
    | none => (s, some (stNOVERSION, []))
    | some v => (s, some (stOK, leBytes 2 v.1 ++ leBytes 2 v.2))

/-- ROUTE_SET (Table 17-8, 20 R401). -/
def doRouteSet (m : FwMsg) : FwDo := fwDevice m [(8, 2), (16, 8)] fun s =>
  let d := fwArg m.args 8 2; let mask := fwArg m.args 16 8
  if 0xFFF ≤ d || 2 ^ 36 ≤ mask then (s, some (stMALFORMED, []))
  else if s.worlds.any (fun w => w.lock = .locked || w.lock = .run) then (s, some (stDENIED, []))
  else ({ s with routes := aset (0 : BitVec 36) s.routes d (BitVec.ofNat 36 mask) }, some (stOK, []))

def execDeviceQueryId (m : FwMsg) (s : State) : Host.Outcome State Fault Refusal := fwArrive none m (.deviceQueryId m) (doQueryId m) s
def execDeviceQueryHealth (m : FwMsg) (s : State) : Host.Outcome State Fault Refusal := fwArrive none m (.deviceQueryHealth m) (doQueryHealth m) s
def execDeviceQueryKillLog (m : FwMsg) (s : State) : Host.Outcome State Fault Refusal := fwArrive none m (.deviceQueryKillLog m) (doQueryKillLog m) s
def execDeviceQueryFaultLog (m : FwMsg) (s : State) : Host.Outcome State Fault Refusal := fwArrive none m (.deviceQueryFaultLog m) (doQueryFaultLog m) s
def execNegotiate (m : FwMsg) (s : State) : Host.Outcome State Fault Refusal := fwArrive none m (.negotiate m) (doNegotiate m) s
def execRouteSet (m : FwMsg) (s : State) : Host.Outcome State Fault Refusal := fwArrive none m (.routeSet m) (doRouteSet m) s

/-! Contexts. -/

/-- Make an export of a context under the lowest free number (R338). -/
def State.addExport (s : State) (e : Exported) : Option (Nat × State) :=
  let k := firstFree (fun (e : Exported) => e.state ≠ .free) 1 s.exports
  if 2 ^ 16 ≤ k then none else some (k, { s with exports := aset ({} : Exported) s.exports k e })
/-- Export table entries that a context uses. -/
def State.exportsOf (s : State) (c : Nat) : Nat := (s.exports.filter fun e => e.2.ctx = c).length

def intakePerms : BitVec 12 := pLD ||| pST ||| pLDC
/-- Tables and mailbox of a new context: root table, export table, level table (07 R178), mailbox (21 R411). -/
def State.contextTables (s : State) (c : Nat) (creator : BitVec 12) : Option (Nat × State) :=
  match takeChunk (2 ^ 25 + 2 ^ 17) 65536 s.freeMem with
  | none => none
  | some (a, rest) =>
    let s := { s with freeMem := rest }.zeroOwner a (2 ^ 25 + 2 ^ 17)
    let s := s.modCtx c fun x => { x with own := [(a, 2 ^ 25 + 2 ^ 17)] }
    match s.region c (2 ^ 23) pLD 3 true with
    | none => none
    | some (lv, s) =>
      match s.region c 65536 (pLD ||| pST) 3 true with
      | none => none
      | some (mb, s) =>
        let s := s.modCtx c fun x => { x with levelTable := lv.frame, mailbox := mb.frame }
        s.addExport { ctx := c, entry := 0, root := mb.root, start := mb.va, length := 65536, perms := pLD ||| pST, allow := creator, state := .live }

def orDefault (v d : Nat) : Nat := if v = 0 then d else v
/-- CONTEXT_CREATE (R350, 20 R387). -/
def doContextCreate (m : FwMsg) : FwDo := fwDevice m [(8, 32)] fun s =>
  let world := fwArg m.args 8 2; let flags := fwArg m.args 12 4
  let quantum := orDefault (fwArg m.args 16 8) 4000000; let timeout := orDefault (fwArg m.args 24 8) 2000000
  let hentry := fwArg m.args 32 4; let hdsize := fwArg m.args 36 4
  if world = 0 || fwArg m.args 10 2 ≠ 0 || 8 ≤ flags || (4 ≤ flags && flags % 2 = 0) || quantum < 100000 || 2 ^ 31 < quantum ||
      timeout < 10000 || 2 ^ 31 < timeout || hdsize = 0 || hdsize % 64 ≠ 0 then (s, some (stMALFORMED, []))
  else
    let prot : Bool := flags / 2 % 2 = 1
    fwConfig world (fun s =>
      let known := s.worlds.find? fun w => w.id = world
      if known.any (fun w => w.prot ≠ prot) then (s, some (stSTATE, []))
      else if 64 ≤ (s.contexts.filter (·.alive)).length || (known.isNone && 16 ≤ s.worlds.length) then (s, some (stNOSPACE, []))
      else
        let c := s.contexts.length
        let x : Context :=
          { creator := m.src, world := world, replayable := flags % 2 = 1, quantum := quantum, fabricTimeout := timeout, hentry := hentry
            hdsize := hdsize, holdJob := 4 ≤ flags }
        let s' : State := { s with
          contexts := s.contexts ++ [x]
          worlds := if known.isSome then s.worlds else s.worlds ++ [{ id := world, prot := prot }] }
        match s'.contextTables c m.src with
        | none => (s, some (stNOSPACE, []))
        | some (k, s'') => (s'', some (stOK, leBytes 4 (c + 1) ++ leBytes 2 k))) s

/-- CONTEXT_DESTROY (R353): it answers when the last step is done. -/
def doContextDestroy (m : FwMsg) : FwDo := fwContext m [] fun c s =>
  let s := s.modCtx c fun x => { x with destroying := some (m.src, m.seq) }
  ((s.cancelJob c).destroyStep c, none)

/-- Take n GiB of device memory. -/
def takeGiB : Nat → List (Nat × Nat) → Option (List Nat × List (Nat × Nat))
  | 0, free => some ([], free)
  | n + 1, free =>
    match takeChunk (2 ^ 30) (2 ^ 30) free with
    | none => none
    | some (a, rest) =>
      match takeGiB n rest with
      | none => none
      | some (as, rest) => some (a :: as, rest)
def popc4 (m : BitVec 4) : Nat := ((List.range 4).filter fun d => m.getLsbD d).length
/-- POOL_GRANT (R351, 21 R417). -/
def doPoolGrant (m : FwMsg) : FwDo := fwContext m [(8, 1), (16, 16)] fun c s =>
  fwConfig (s.ctxAt c).world (fun s =>
    let mask := fwArg m.args 8 1; let size := fwArg m.args 24 8
    let dies : BitVec 4 := if mask = 0 then 0xF else BitVec.ofNat 4 mask
    let cores : Word := if fwArg m.args 16 8 = 0 then BitVec.allOnes 64 else BitVec.ofNat 64 (fwArg m.args 16 8)
    if 16 ≤ mask || size % 2 ^ 30 ≠ 0 then (s, some (stMALFORMED, []))
    else if (s.ctxAt c).replayable && popc4 dies ≠ 1 then (s, some (stSTATE, []))
    else if s.freeMem.foldl (fun n r => n + r.2) 0 < size then (s, some (stNOSPACE, []))
    else
      match takeGiB (size / 2 ^ 30) s.freeMem with
      | none => (s, some (stNOSPACE, []))
      | some (as, rest) =>
        let s := { s with freeMem := rest }
        let s := as.foldl (fun (s : State) a => s.zeroOwner a (2 ^ 30)) s
        (s.modCtx c fun x => { x with
            grants := x.grants ++ [(dies, cores)]
            poolFree := as.foldl (fun l a => addChunk a (2 ^ 30) l) x.poolFree
            poolAll := x.poolAll ++ as.map fun a => (a, 2 ^ 30)
            stage2 := x.stage2 ++ as.map fun a => (a, a, 2 ^ 30)
            sizes := x.sizes ++ [size] }, some (stOK, []))) s

/-! Jobs. -/

/-- What JOB_START builds besides the code object's own sections (R350, R352). -/
structure Loaded where
  code : Region
  data : Region
  ro : Region
  hd : Region
  intake : Region
  args : Region
  deriving DecidableEq, Repr

/-- Take the regions of a job from the grant; nothing when it is too small. -/
def State.loadRegions (s : State) (c : Nat) (o : Obj) (ro argLen : Nat) : Option (Loaded × State) :=
  match s.region c (o.get 1).length (pX ||| pLD) 5 false 0 (o.align 1) with
  | none => none
  | some (code, s) =>
  match s.region c (o.get 2).length (pLD ||| pST ||| pENG) 3 false 0 (o.align 2) with
  | none => none
  | some (data, s) =>
  match s.region c ro (pLD ||| pENG) 1 false 0 (o.align 3) with
  | none => none
  | some (ro, s) =>
  match s.region c ((s.ctxAt c).hdsize * 1024) (pLD ||| pST ||| pLDC ||| pSTC) 3 with
  | none => none
  | some (hd, s) =>
  match s.region c 65536 intakePerms 3 with
  | none => none
  | some (intake, s) =>
  match s.region c (64 + argLen) (pLD ||| pST ||| pENG) 3 with
  | none => none
  | some (args, s) => some ({ code := code, data := data, ro := ro, hd := hd, intake := intake, args := args }, s)

/-- The virtual address of the region at a machine address. -/
def State.vaOf (s : State) (c frame : Nat) : Nat := (((s.ctxAt c).maps.find? fun m => m.frame = frame).map (·.va)).getD 0
/-- The root that starts at a virtual address. -/
def State.rootOn (s : State) (c va : Nat) : Nat := (((s.ctxAt c).roots.find? fun r => r.2.base = va && r.2.kind = .loc).map (·.1)).getD 0

/-- The contents of the regions: sections (01 R37, 18 R373), the mailbox capability in HD (21 R411), the argument block (R352). -/
def State.fillRegions (s : State) (c : Nat) (o : Obj) (g : Loaded) (hostArgs : List Byte) : State :=
  let kindsOf (k : Nat) : List (Nat × BitVec 32) := (o.kinds.filter fun x => x.1 = k).map (·.2)
  let ro := o.get 3
  let ro := ro ++ List.replicate ((64 - ro.length % 64) % 64) 0 ++ o.get 6
  let s := s.loadBytes g.code.frame (o.get 1) tagImm
  let s := s.loadBytes g.data.frame (o.get 2) tagExternal (kindsOf 2)
  let s := s.loadBytes g.ro.frame ro tagImm (kindsOf 3)
  let x := s.ctxAt c
  let mbVa := s.vaOf c x.mailbox
  let lvVa := s.vaOf c x.levelTable
  let mb : CReg := { bits := (capFor (s.rootOn c mbVa) mbVa mbVa (mbVa + 32768) mbVa pST).getD 0, valid := true, tag := tagExternal }
  let lv : CReg := { bits := (capFor (s.rootOn c lvVa) lvVa lvVa (lvVa + 2 ^ 23) lvVa pLD).getD 0, valid := true, tag := tagExternal }
  let s := s.fwStoreCap g.hd.frame mb
  let s := s.loadBytes g.args.frame (List.replicate 64 0 ++ hostArgs) tagExternal
  let s := s.fwStoreCap g.args.frame lv
  let s := s.fwStoreCap (g.args.frame + 16) (g.intake.cap intakePerms)
  let s := s.fwStoreCap (g.args.frame + 32) (g.data.cap (pLD ||| pST ||| pENG))
  s.fwStoreCap (g.args.frame + 48) (g.ro.cap (pLD ||| pENG))

/-- The root launch: one crew under SPREAD, with all of its kernel's scratchpad (R352, DESIGN CHOICE, log 20). -/
def rootLaunch (c die prio : Nat) (k : Kernel) (g : Loaded) : Launch :=
  { ctx := some c, root := true, die := die, code := g.code.cap (pX ||| pLD), arg := g.args.cap (pLD ||| pST ||| pENG), policy := 1, prio := prio
    entry := k.entry, gx := 1, gy := 1, gz := 1, scrk := k.h * 64, lanes := k.lanes, regs := k.regs, teamsPer := k.teams, g := k.g, h := k.h, k := k.k }

/-- JOB_START (R352, R350, 20 R402); of two kernels with the entry the first runs (DESIGN CHOICE, log 35). An object or arguments whose read is
refused are BADOBJECT (DESIGN CHOICE, log 20). -/
def doJobStart (m : FwMsg) (object hostArgs : List Byte) : FwDo := fwContext m [(8, 19), (28, 16)] fun c s =>
  let x := s.ctxAt c
  let prio := fwArg m.args 26 1; let entry := fwArg m.args 28 4; let argLen := fwArg m.args 32 4
  let lock := match s.worldOf (some c) with | some w => (w.prot, w.lock) | none => (false, .unlocked)
  if 21 < prio || 65472 < argLen then (s, some (stMALFORMED, []))
  else if (if lock.1 then lock.2 ≠ .run else lock.2 = .error) || x.hasJob then (s, some (stSTATE, []))
  else
    let r := s.readFor c m
    let s := r.1
    let object := if r.2 then object else []
    match objOf (object.take (fwArg m.args 16 8)) with
    | none => (s, some (stBADOBJECT, []))
    | some o =>
      let code := (o.get 1).length
      match o.kernels.find? (fun k => k.entry = entry) with
      | none => (s, some (stBADOBJECT, []))
      | some k =>
        if x.hentry ≠ 0xFFFFFFFF && (code ≤ x.hentry || x.hentry % 8 ≠ 0) then (s, some (stBADOBJECT, [])) else
        match s.loadRegions c o (((o.get 3).length + 63) / 64 * 64 + (o.get 6).length) argLen with
        | none => (s, some (stNOSPACE, []))
        | some (g, s) =>
          let s := s.fillRegions c o g (hostArgs.take argLen)
          let s := s.modCtx c fun x => { x with
            intake := g.intake.frame, kernels := o.kernels, sites := o.sites, codeBase := g.code.va, codeSize := code
            h := if x.hentry = 0xFFFFFFFF then {} else g.code.cap (pX ||| pLD) x.hentry
            hd := g.hd.cap (pLD ||| pST ||| pLDC ||| pSTC)
            object := object.take (fwArg m.args 16 8), hostArgs := hostArgs.take argLen
            hasJob := true, jobCancelled := false, jobDone := false, firstLaunch := s.launches.length }
          let l := rootLaunch c x.lowestDie prio k g
          (s.addLaunch { l with malformed := (s.allowedSet l).isEmpty }, some (stOK, []))

/-- JOB_CANCEL (Table 17-8). -/
def doJobCancel (m : FwMsg) : FwDo := fwContext m [] fun c s => (s.cancelJob c, some (stOK, []))

/-! Windows (R354). -/

def doWindowExport (m : FwMsg) : FwDo := fwContext m [(8, 4), (16, 20)] fun c s =>
  fwConfig (s.ctxAt c).world (fun s =>
    let root := fwArg m.args 8 4; let start := fwArg m.args 16 8; let len := fwArg m.args 24 8
    let perm := fwArg m.args 32 2; let allow := fwArg m.args 34 2
    let r := if root < 2 ^ 20 then s.rootAt (some c) root else {}
    if 2 ^ 12 ≤ allow || 2 ^ 56 < len then (s, some (stMALFORMED, []))
    else if r.state ≠ .live || r.kind ≠ .loc || r.compt ≠ 0 || start < r.base || r.limit < start + len || 2 ^ 12 ≤ perm ||
        (BitVec.ofNat 12 perm &&& ~~~r.ceil) ≠ 0 then (s, some (stDENIED, []))
    else if 4096 ≤ s.exportsOf c then (s, some (stNOSPACE, []))
    else
      match s.addExport { ctx := c, entry := s.exportsOf c, root := root, start := start, length := len, perms := BitVec.ofNat 12 perm
                          allow := BitVec.ofNat 12 allow, state := .live } with
      | none => (s, some (stNOSPACE, []))
      | some (k, s) => (s, some (stOK, leBytes 2 k))) s

/-- What WINDOW_IMPORT may grant. -/
def windowPerms : BitVec 12 := pLD ||| pST ||| pAT ||| pENG ||| pFAB ||| pGLB
def doWindowImport (m : FwMsg) : FwDo := fwContext m [(8, 4), (16, 12)] fun c s =>
  fwConfig (s.ctxAt c).world (fun s =>
    let peer := fwArg m.args 8 2; let len := fwArg m.args 16 8; let gran := fwArg m.args 26 2
    let perms := BitVec.ofNat 12 (fwArg m.args 24 2) &&& windowPerms
    let x := s.ctxAt c
    if 0xFFF ≤ peer || 1024 ≤ gran || 2 ^ 56 < len then (s, some (stMALFORMED, []))
    else if x.intake = 0 then (s, some (stSTATE, []))
    else
      match exactEnc 0 0 len with
      | none => (s, some (stMALFORMED, []))
      | some (e, b, l) =>
        match s.claimRoot (some c)
            { kind := if Config.isHost (BitVec.ofNat 12 peer) then .host else .peer, state := .live, base := 0, limit := len, ceil := perms
              dev := BitVec.ofNat 12 peer, exp := BitVec.ofNat 16 (fwArg m.args 10 2) } with
        | none => (s, some (stNOSPACE, []))
        | some (r, s) =>
          (s.fwStoreCap (x.intake + 16 * gran) { bits := capMk l b e 0 perms r 0, valid := true, tag := tagExternal }, some (stOK, []))) s

def doWindowCloseExport (m : FwMsg) : FwDo := fwContext m [(8, 1), (12, 4)] fun c s =>
  fwConfig (s.ctxAt c).world (fun s =>
    let k := fwArg m.args 12 4
    let e := aget ({} : Exported) s.exports k
    if fwArg m.args 8 1 ≠ 0 then (s, some (stMALFORMED, []))
    else if e.state = .free || e.ctx ≠ c then (s, some (stNOTFOUND, []))
    else ({ s with exports := aset ({} : Exported) s.exports k { e with state := .closed } }, some (stOK, []))) s
def doWindowCloseRoot (m : FwMsg) : FwDo := fwContext m [(8, 1), (12, 4)] fun c s =>
  fwConfig (s.ctxAt c).world (fun s =>
    let k := fwArg m.args 12 4
    let r := if k < 2 ^ 20 then s.rootAt (some c) k else {}
    if fwArg m.args 8 1 ≠ 1 then (s, some (stMALFORMED, []))
    else if r.state ≠ .live || !isWindow r.kind then (s, some (stNOTFOUND, []))
    else (s.setRoot (some c) k { r with state := .revoked, sweeps := 0xF }, some (stOK, []))) s

/-! The arrivals. -/

def execContextCreate (m : FwMsg) (s : State) : Host.Outcome State Fault Refusal := fwArrive none m (.contextCreate m) (doContextCreate m) s
def execContextDestroy (m : FwMsg) (s : State) : Host.Outcome State Fault Refusal :=
  fwArrive (fwCtx m) m (.contextDestroy m) (doContextDestroy m) s
def execPoolGrant (m : FwMsg) (s : State) : Host.Outcome State Fault Refusal := fwArrive (fwCtx m) m (.poolGrant m) (doPoolGrant m) s
def execJobStart (m : FwMsg) (object hostArgs : List Byte) (s : State) : Host.Outcome State Fault Refusal :=
  fwArrive (fwCtx m) m (.jobStart m object hostArgs) (doJobStart m object hostArgs) s
def execJobCancel (m : FwMsg) (s : State) : Host.Outcome State Fault Refusal := fwArrive (fwCtx m) m (.jobCancel m) (doJobCancel m) s
def execWindowExport (m : FwMsg) (s : State) : Host.Outcome State Fault Refusal := fwArrive (fwCtx m) m (.windowExport m) (doWindowExport m) s
def execWindowImport (m : FwMsg) (s : State) : Host.Outcome State Fault Refusal := fwArrive (fwCtx m) m (.windowImport m) (doWindowImport m) s
def execWindowCloseExport (m : FwMsg) (s : State) : Host.Outcome State Fault Refusal :=
  fwArrive (fwCtx m) m (.windowCloseExport m) (doWindowCloseExport m) s
def execWindowCloseRoot (m : FwMsg) (s : State) : Host.Outcome State Fault Refusal :=
  fwArrive (fwCtx m) m (.windowCloseRoot m) (doWindowCloseRoot m) s

end Sys2Proof.Machine
end

