-- ==== Sys2Proof/Machine/Trust.lean ====
section
/-! DEFINITION. Worlds: attestation, keys and lock states (20 R387-R402). Values of keys, digests and signatures are open (DESIGN CHOICE, log 9). -/
namespace Sys2Proof.Machine

def lockCode : LockState → Nat
  | .unlocked => 0 | .locked => 1 | .run => 2 | .error => 3

/-! ATTEST (R399). -/

/-- Bytes 0-383 of the evidence (Table 20-4): the digests are those that CONFIG_LOCKED fixed, or of now. Bytes 6-7, which no field
takes, are open (DESIGN CHOICE, log 9). -/
def evidenceHead (w : World) (nonce : List Byte) (key : Nat) : List Byte :=
  leBytes 4 1 ++ leBytes 2 Config.deviceId.toNat ++ [Config.digestByte key 320, Config.digestByte key 321] ++ leBytes 2 w.id ++ [BitVec.ofNat 8 (lockCode w.lock)] ++ List.replicate 21 0 ++
    (nonce ++ List.replicate 32 0).take 32 ++ (List.range 320).map (Config.digestByte key)
/-- The evidence and the certificate at offset 1,664. -/
def evidence (w : World) (nonce : List Byte) (key : Nat) : List Byte :=
  let head := evidenceHead w nonce key
  head ++ (List.range 1280).map (Config.signatureByte head) ++ Config.certificate

def doAttest (m : FwMsg) : FwDo := fwContext m [(8, 34), (48, 8)] fun c s =>
  match s.worldOf (some c) with
  | none => (s, some (stNOTFOUND, []))
  | some w =>
    let key := if w.lock = .unlocked then s.tick else w.digest
    let s := { s with tick := s.tick + 1 }
    let bs := evidence w (m.args.take 32) key
    let off := fwArg m.args 48 8
    (s.writeOut (some c) m.src (BitVec.ofNat 16 (fwArg m.args 40 2)) (linePieces (bs.length / 64 + 2) off bs.length) bs, some (stOK, []))

/-! Keys (R394-R396). -/

def World.key (w : World) (compt : Nat) : Option KeySt := w.keys.find? fun k => k.compt = compt
/-- Start a rotation: the next epoch is installed (R395). -/
def State.rotate (s : State) (world compt : Nat) : State :=
  let s := s.modWorld world fun w =>
    { w with keys := w.keys.map fun (k : KeySt) => if k.compt = compt then { k with epoch := k.epoch + 1, rotating := true } else k }
  if compt = 256 then s.newFabricEpoch world else s

def doRotate (m : FwMsg) : FwDo := fwContext m [(8, 1), (12, 1)] fun c s =>
  if fwArg m.args 8 1 ≠ 0 then (s, some (stMALFORMED, [])) else
  match s.worldOf (some c) with
  | none => (s, some (stNOTFOUND, []))
  | some w =>
    match w.key (fwArg m.args 12 1) with
    | none => (s, some (stNOTFOUND, []))
    | some k => if k.rotating then (s, some (stSTATE, [])) else (s.rotate w.id k.compt, some (stOK, []))

/-- Permissions of a compartment's root. -/
def comptPerms : BitVec 12 := pLD ||| pST ||| pLDC ||| pSTC ||| pX ||| pSEAL
/-- COMPARTMENT (R396); DENIED where the code is not read (DESIGN CHOICE, log 20). -/
def doCompartment (m : FwMsg) (code : List Byte) : FwDo :=
  fwContext m [(8, 1), (12, 1), (16, 10), (32, 22)] fun c s =>
  fwConfig (s.ctxAt c).world (fun s =>
    let k := fwArg m.args 12 1; let size := fwArg m.args 16 8; let len := fwArg m.args 40 8
    let entry := fwArg m.args 48 4; let gran := fwArg m.args 52 2
    if fwArg m.args 8 1 ≠ 1 || k = 0 || size = 0 || size % 65536 ≠ 0 || size < len || 1024 ≤ gran then (s, some (stMALFORMED, [])) else
    match s.worldOf (some c) with
    | none => (s, some (stNOTFOUND, []))
    | some w =>
      if (w.key k).isSome || (s.ctxAt c).intake = 0 then (s, some (stSTATE, [])) else
      let r := s.readFor c m
      let s := r.1
      if !r.2 || code.length < len then (s, some (stDENIED, [])) else
      match s.region c size comptPerms 7 false k with
      | none => (s, some (stNOSPACE, []))
      | some (g, s) =>
        let s := s.modWorld w.id fun w => { w with keys := w.keys ++ [{ compt := k }] }
        let s := s.loadBytes g.frame (code.take len) tagExternal
        let gate := { g.cap comptPerms entry with bits := capSetOtype (g.cap comptPerms entry).bits 1 }
        (s.fwStoreCap ((s.ctxAt c).intake + 16 * gran) gate, some (stOK, []))) s

/-- FABRIC (R396); DENIED where the ciphertext is not read (DESIGN CHOICE, log 20). -/
def doFabricKey (m : FwMsg) (cipher : List Byte) : FwDo :=
  fwContext m [(8, 1), (12, 1), (24, 2), (32, 8)] fun c s =>
  fwConfig (s.ctxAt c).world (fun s =>
    let n := fwArg m.args 12 1
    if fwArg m.args 8 1 ≠ 2 || n = 0 || 64 < n then (s, some (stMALFORMED, [])) else
    match s.worldOf (some c) with
    | none => (s, some (stNOTFOUND, []))
    | some w =>
      let r := s.readFor c m
      let s := r.1
      if !r.2 || cipher.length ≠ 1568 || !Config.decapsulates cipher then (s, some (stDENIED, []))
      else
        let keys := (w.keys.filter fun k => k.compt ≠ 256) ++ [{ compt := 256 }]
        ((s.modWorld w.id fun w => { w with fabricKey := true, runLen := n, keys := keys }).newFabricEpoch w.id, some (stOK, []))) s

/-! Lock states (Table 20-5). -/

def doLockState (m : FwMsg) : FwDo := fwContext m [(8, 1)] fun c s =>
  match s.worldOf (some c) with
  | none => (s, some (stNOTFOUND, []))
  | some w =>
    let go (l : LockState) : State × Option (Nat × List Byte) := (s.modWorld w.id fun w => { w with lock := l }, some (stOK, []))
    let jobs := (s.contextsOf w.id).any fun c => (s.ctxAt c).hasJob
    match w.lock, fwArg m.args 8 1 with
    | .unlocked, 1 => ({ s with tick := s.tick + 1 }.modWorld w.id fun w => { w with lock := .locked, digest := s.tick }, some (stOK, []))
    | .locked, 2 => go .run
    | .locked, 0 => go .unlocked
    | .run, 0 => if jobs then (s, some (stSTATE, [])) else go .unlocked
    | _, _ => (s, some (stSTATE, []))

def execAttest (m : FwMsg) (s : State) : Host.Outcome State Fault Refusal := fwArrive (fwCtx m) m (.attest m) (doAttest m) s
def execKeyRotateRotate (m : FwMsg) (s : State) : Host.Outcome State Fault Refusal := fwArrive (fwCtx m) m (.keyRotateRotate m) (doRotate m) s
def execKeyRotateCompartment (m : FwMsg) (code : List Byte) (s : State) : Host.Outcome State Fault Refusal :=
  fwArrive (fwCtx m) m (.keyRotateCompartment m code) (doCompartment m code) s
def execKeyRotateFabric (m : FwMsg) (cipher : List Byte) (s : State) : Host.Outcome State Fault Refusal :=
  fwArrive (fwCtx m) m (.keyRotateFabric m cipher) (doFabricKey m cipher) s
def execLockState (m : FwMsg) (s : State) : Host.Outcome State Fault Refusal := fwArrive (fwCtx m) m (.lockState m) (doLockState m) s

/-! Rotation events. -/

/-- Counts under a key (20 R393): of every epoch up to one below `hi` and not below `lo`. -/
def underEpochs (world compt lo hi : Nat) (x : Nat × Nat) : Bool := countKey world compt lo 0 ≤ x.1 && x.1 < countKey world compt hi 0
/-- ROTATION_THRESHOLD (R394): a port's COUNT under the key, the fabric key where `compt` is 256, has reached 2^31, and a rotation of the key
starts, unless one runs. -/
def execRotationThreshold (world compt : Nat) (s : State) : Host.Outcome State Fault Refusal :=
  match (s.worlds.find? fun w => w.id = world) with
  | none => .next s
  | some w =>
    match w.key compt with
    | none => .next s
    | some k =>
      let reached := if compt = 256 then w.sent.any fun x => 2 ^ 31 ≤ x.2
        else s.transfers.any fun x => underEpochs world compt k.epoch (k.epoch + 1) x && 2 ^ 31 ≤ x.2
      .next (if k.rotating || !reached then s else s.rotate world compt)
/-- ROTATION_SWEEP_COMPLETE (R395): the old epoch is retired, and its counts with it; a fabric key has no pages to sweep. -/
def execRotationSweepComplete (world compt : Nat) (s : State) : Host.Outcome State Fault Refusal :=
  match (s.worlds.find? fun w => w.id = world).bind fun w => w.key compt with
  | none => .next s
  | some k =>
    if !k.rotating then .next s else
    let s := s.modWorld world fun w => { w with keys := w.keys.map fun (k : KeySt) => if k.compt = compt then { k with rotating := false } else k }
    .next { s with transfers := s.transfers.filter fun x => !underEpochs world compt 0 k.epoch x }

end Sys2Proof.Machine
end

