-- ==== Sys2Proof/Machine/Schedule.lean ====
section
/-! DEFINITION. Isabuko schedules: operations, chunk references, validation (18 R366, R367, R372), loops (R369), and the end of an
instance (R376-R380). -/
namespace Sys2Proof.Machine

/-! Operations (Table 18-2). -/

def opOf (w : Word) : Nat := bitsAt w 60 4
/-- Which fields an operation uses: peer, CRD, CRA, CRB, COUNT, TY and RED. -/
structure OpUse where
  peer : Bool := false
  d : Bool := false
  a : Bool := false
  b : Bool := false
  n : Bool := false
  typed : Bool := false
  deriving DecidableEq, Repr
def opUse : Nat → Option OpUse
  | 1 => some { peer := true, a := true }
  | 2 => some { peer := true, d := true }
  | 3 => some { peer := true, d := true, a := true, typed := true }
  | 4 => some { d := true, a := true }
  | 5 => some { d := true, a := true, b := true, typed := true }
  | 6 => some { peer := true, n := true }
  | 7 => some { peer := true }
  | 8 => some { n := true }
  | 9 | 10 | 15 => some {}
  | _ => none

/-- The peer of an operation of rank r among n (R367). -/
def schedPeer (w : Word) (r n : Nat) : Nat :=
  if bitsAt w 52 1 = 1 then (((r : Int) + sBits w 46 6) % (n : Int)).toNat else bitsAt w 46 6
/-- A coefficient of Table 18-3. -/
def coeff (x : Nat) : Int := if x = 1 then 1 else if x = 3 then -1 else 0
/-- The slot and the chunk that a reference names (R367). -/
def chunkRef (x r i nch : Nat) : Nat × Nat :=
  (x / 4096 % 16, ((sextN x 8 + coeff (x / 1024 % 4) * r + coeff (x / 256 % 4) * i) % (nch : Int)).toNat)

/-- Whether the fields of an operation are valid for rank r among n with these slots bound (R372). -/
def opValid (w : Word) (r n : Nat) (bound : List Nat) : Bool :=
  match opUse (opOf w) with
  | none => false
  | some u =>
    let field (on : Bool) (lo len : Nat) : Nat := if on then 0 else bitsAt w lo len
    let ref (on : Bool) (lo : Nat) : Bool :=
      !on || (bitsAt w (lo + 10) 2 ≠ 2 && bitsAt w (lo + 8) 2 ≠ 2 && bound.contains (bitsAt w (lo + 12) 4))
    let ty := bitsAt w 56 4; let red := bitsAt w 53 3
    field u.typed 53 7 = 0 && field u.peer 48 5 = 0 && (if u.peer then bitsAt w 32 14 = 0 else if u.b then true else bitsAt w 32 16 = 0) &&
    field u.d 16 16 = 0 && field (u.a || u.n) 0 16 = 0 &&
    (!u.typed || (4 ≤ ty && ty ≤ 11 && red ≤ 5 && (red < 3 || ty < 8))) && ref u.d 16 && ref u.a 0 && ref u.b 32 &&
    (!u.peer || (schedPeer w r n ≠ r && schedPeer w r n < n)) && (!u.n || bitsAt w 0 16 ≠ 0)

/-- The first failing operation, if any (R372); `elem` refuses a CHUNK that is no multiple of the element (R371). -/
def firstInvalid (r n chunk : Nat) (bound : List Nat) : Nat → Nat → List Word → Option Nat
  | j, _, [] => some j
  | j, depth, w :: ws =>
    if !opValid w r n bound || ((opOf w = 3 || opOf w = 5) && chunk % codeBytes (bitsAt w 56 4) ≠ 0) then some j
    else if opOf w = 8 then (if depth = 4 then some j else firstInvalid r n chunk bound (j + 1) (depth + 1) ws)
    else if opOf w = 9 then (if depth = 0 then some j else firstInvalid r n chunk bound (j + 1) (depth - 1) ws)
    else if opOf w = 15 then (if depth = 0 then none else some j)
    else firstInvalid r n chunk bound (j + 1) depth ws

/-! Control. -/

/-- Where the schedule goes after operation `w` at `pc` (R368). -/
def afterOp (w : Word) (pc : Nat) (loops : List SLoop) : Nat × List SLoop :=
  if opOf w = 8 then (pc + 1, { body := pc + 1, i := 0, count := bitsAt w 0 16 } :: loops)
  else if opOf w = 9 then
    match loops with
    | [] => (pc + 1, [])
    | l :: ls => if l.i + 1 < l.count then (l.body, { l with i := l.i + 1 } :: ls) else (pc + 1, ls)
  else (pc + 1, loops)
/-- The iteration of the innermost loop. -/
def innerI (loops : List SLoop) : Nat := (loops.head?.map (·.i)).getD 0

/-- Chunks of a slot that the operations from `pc` on write, as bits. `fuel` bounds the operations. -/
def writesFrom (ops : List Word) (slot r nch : Nat) : Nat → Nat → List SLoop → Nat → Nat
  | 0, _, _, acc => acc
  | fuel + 1, pc, loops, acc =>
    let w := ops.getD pc 0xF000000000000000
    if opOf w = 15 then acc else
    let x := chunkRef (bitsAt w 16 16) r (innerI loops) nch
    let acc := if [2, 3, 4, 5].contains (opOf w) && x.1 = slot then Nat.lor acc (2 ^ x.2) else acc
    let y := afterOp w pc loops
    writesFrom ops slot r nch fuel y.1 y.2 acc

/-- The completion bitmap (R377). -/
def State.bitmap (s : State) (sc : Nat) : Nat :=
  let x := s.schedAt sc
  let slot := bitsAt (wordAt (s.cmdAt x.cmd).w 0) 46 4
  let nch := s.nchOf sc
  let later := writesFrom x.ops slot (s.groupAt x.group).rank nch (2 ^ 80) x.pc x.loops 0
  (List.range nch).foldl (fun n c =>
    if Nat.testBit later c then n else
    match (x.issued.filter fun o => match o.dst with | some (b, k, _) => b = slot && k = c | none => false).getLast? with
    | some o => if o.st = .done then n + 2 ^ c else n
    | none => n) 0

/-! The end of an instance. -/

/-- Status word (R376). -/
def statusWord (r : Report) : Nat := r.step.toNat * 65536 + r.member.toNat * 256 + r.code.toNat

/-- Status record (R378). -/
def State.collRecord (s : State) (sc status : Nat) : List Byte :=
  let x := s.schedAt sc
  leBytes 8 (s.cmdAt x.cmd).n ++ leBytes 4 status ++ leBytes 2 x.gen ++ leBytes 2 x.inst ++ leBytes 32 (s.bitmap sc) ++
    [x.exc.setWidth 8, if x.mine.isSome then x.cause else 0] ++ List.replicate 6 0 ++ leBytes 8 (if x.mine.isSome then x.addr.toNat else 0)

/-! Groups that form (R360, R361). -/

/-- CRC32 of a member list: its two-byte device ids (R360). -/
def listCrc (members : List (BitVec 12)) : BitVec 32 := Config.crc32 (members.flatMap fun d => leBytes 2 d.toNat)
/-- The line of a group message, whose layout the spec does not give (DESIGN CHOICE, log 20). -/
def groupLine (group : BitVec 16) (crc : BitVec 32) (gen : Nat) (confirm : Bool) : List Byte :=
  Config.layout 4 [group.toNat, crc.toNat, gen, if confirm then 1 else 0]
def groupPacket (src dst : BitVec 12) (line : List Byte) : Packet := { firmwareHead with src := src, dst := dst, line := line }
/-- A port that leads to another member of a group (of the list that it forms with), which passes messages on. -/
def State.wayBy (s : State) (ctx : Nat) (group : BitVec 16) : Option Nat :=
  match (s.groupOf ctx group).map s.groupAt with
  | none => none
  | some g => ((((g.forming.map (·.members)).getD []) ++ g.members).filter fun d => d ≠ Config.deviceId).findSome? fun d => (s.portsTo d).head?
/-- The messages of a forming group go to the other members; one to which no port leads, by way of another member (DESIGN CHOICE, log 19). -/
def State.sendGroup (s : State) (gi : Nat) (f : Forming) (gen : Nat) (confirm : Bool) : State :=
  let g := s.groupAt gi
  (f.members.filter fun d => d ≠ Config.deviceId).foldl (fun (s : State) d =>
    let p := groupPacket Config.deviceId d (groupLine g.id (listCrc f.members) gen confirm)
    match s.send (some g.ctx) p with
    | some s => s
    | none =>
      match s.wayBy g.ctx g.id with
      | some i => (s.noteSent (some g.ctx) p).enqueue (some g.ctx) i p
      | none => s) s

/-- The message, or the confirmation, that a device has sent for a group. -/
def State.msgOf (s : State) (ctx : Nat) (id : BitVec 16) (confirm : Bool) (d : BitVec 12) : Option GroupMsg :=
  s.groupMsgs.find? fun m => m.ctx = ctx && m.group = id && m.src = d && m.confirm = confirm
/-- Messages of a group are no longer needed, but for those of generation `keep`. -/
def State.dropMsgs (s : State) (g : Group) (keep : Option Nat) : State :=
  { s with groupMsgs := s.groupMsgs.filter fun m => !(m.ctx = g.ctx && m.group = g.id) || (!m.confirm && some m.gen = keep) }
/-- A held packet is dropped and counted (R362). -/
def State.dropHeld (s : State) (i : Instr) : State :=
  match i with
  | .collectivePacket p | .vote p _ _ => s.dropPacket p
  | _ => s
/-- A forming group has formed: it takes its list, its die and its generation, and the request is answered. What it holds of generation 1 waits on
for instance 0; what a re-formed one holds of the generation before is dropped (R362). -/
def State.formed (s : State) (gi : Nat) (f : Forming) (gen : Nat) : State :=
  let g := s.groupAt gi
  let s := if f.reform then g.held.foldl State.dropHeld s else s
  let s := (s.modGroup gi fun g =>
    { g with members := f.members, die := f.die, gen := gen, count := 0, ready := true, forming := none
             held := if f.reform then [] else g.held }).dropMsgs g (if f.reform then some gen else none)
  s.fwAnswer (some g.ctx) f.src (if f.reform then 0x31 else 0x30) f.seq stOK (leBytes 2 (s.groupAt gi).rank ++ leBytes 2 gen)
/-- Its request fails: a group that was to be formed does not exist. -/
def State.formFailed (s : State) (gi : Nat) (f : Forming) : State :=
  let g := s.groupAt gi
  let s := (s.modGroup gi fun g => if f.reform then { g with forming := none } else { g with forming := none, gone := true }).dropMsgs g none
  s.fwAnswer (some g.ctx) f.src (if f.reform then 0x31 else 0x30) f.seq stSTATE []

/-- A group that is being formed holds a message of every other member, with its own list: it is formed, with generation 1; another list fails
it (R360). One that is re-formed then confirms the generation above all that it has seen, and is formed when every other member has
confirmed the same (R361). -/
def State.formStep (s : State) (gi : Nat) : State :=
  let g := s.groupAt gi
  match g.forming with
  | none => s
  | some f =>
    if (s.instanceOf gi).isSome then s else
    let s := if f.sent then s else (s.modGroup gi fun g => { g with forming := some { f with sent := true } }).sendGroup gi f g.gen false
    let others := f.members.filter fun d => d ≠ Config.deviceId
    let crc := listCrc f.members
    let msgs := others.filterMap (s.msgOf g.ctx g.id false)
    if !f.reform then
      if msgs.any fun m => m.crc ≠ crc then s.formFailed gi f
      else if msgs.length < others.length then s
      else s.formed gi f 1
    else
      let confirmed (s : State) (gen : Nat) : State :=
        if others.all fun d => match s.msgOf g.ctx g.id true d with | some m => m.crc = crc && m.gen = gen | none => false
        then s.formed gi f gen else s
      match f.gen with
      | some gen => confirmed s gen
      | none =>
        if msgs.length < others.length || msgs.any (fun m => m.crc ≠ crc) then s else
        let top := msgs.foldl (fun n m => max n m.gen) g.gen
        let gen := if top = 65535 then 1 else top + 1
        confirmed ((s.modGroup gi fun g => { g with forming := some { f with sent := true, gen := some gen } }).sendGroup gi f gen true) gen

/-- An instance ends with a status word (R378-R380): record, timeline, the schedule context is FREE; a group that waits re-forms. -/
def State.endInstance (s : State) (sc status : Nat) : State :=
  let x := s.schedAt sc
  let c := s.cmdAt x.cmd
  let s := if bitsAt (wordAt c.w 0) 50 1 = 1 then
      s.scratchStore c.crew (64 * bitsAt (wordAt c.w 2) 32 16) (s.collRecord sc status) c.ownTag
    else s
  let s := s.modSched sc fun x => { x with st := .free }
  let s := if status = 0 then s.finishCmd x.cmd else s.faultCmd x.cmd (BitVec.ofNat 8 status) status
  s.formStep x.group

end Sys2Proof.Machine
end

