-- ==== Sys2Proof/Machine/Collective.lean ====
section
/-! DEFINITION. Groups and collectives: GROUP_FORM, GROUP_REFORM (18 R359-R361), the start of an instance (R363, R365), its operations
(R367-R371), packets (R362), votes and decisions (R374, R375). -/
namespace Sys2Proof.Machine

/-! Groups. -/

/-- GROUP_FORM; `members` is the list that the firmware reads, and a read that is refused leaves the request incomplete (DESIGN CHOICE, log 20). -/
def doGroupForm (m : FwMsg) (members : List (BitVec 12)) : FwDo := fwContext m [(8, 6), (16, 8)] fun c s =>
  fwConfig (s.ctxAt c).world (fun s =>
    let id := fwArg m.args 8 2; let die := fwArg m.args 10 1; let n := fwArg m.args 11 1
    if id = 0 || 4 ≤ die || n < 2 || 64 < n then (s, some (stMALFORMED, [])) else
    let r := s.readFor c m
    let s := r.1
    if !r.2 || members.length ≠ n then (s, some (stSTATE, []))
    else if !decide members.Nodup then (s, some (stMALFORMED, []))
    else if !members.contains Config.deviceId then (s, some (stNOTFOUND, []))
    else if (s.groupOf c (BitVec.ofNat 16 id)).isSome then (s, some (stSTATE, []))
    else if 256 ≤ (s.groups.filter fun g => !g.gone).length then (s, some (stNOSPACE, []))
    else
      let f : Forming := { src := m.src, seq := m.seq, reform := false, members := members, die := die, deadline := s.now + (s.ctxAt c).fabricTimeout }
      let gi := s.groups.length
      let s : State := { s with groups := s.groups ++ [{ ctx := c, id := BitVec.ofNat 16 id, die := die, members := members, forming := some f }] }
      (s.formStep gi, none)) s

/-- The same set of devices. -/
def sameSet (a b : List (BitVec 12)) : Bool := a.all (fun d => b.contains d) && b.all fun d => a.contains d
/-- GROUP_REFORM: a list of other devices is configuration (20 R401); a running instance aborts first (R361). -/
def doGroupReform (m : FwMsg) (members : List (BitVec 12)) : FwDo := fwContext m [(8, 6), (16, 8)] fun c s =>
  let id := fwArg m.args 8 2; let n := fwArg m.args 11 1
  match s.groupOf c (BitVec.ofNat 16 id) with
  | none => (s, some (stNOTFOUND, []))
  | some gi =>
    let g := s.groupAt gi
    let list := if n = 0 then g.members else members
    let die := if n = 0 then g.die else fwArg m.args 10 1
    if 4 ≤ die || (n ≠ 0 && (n < 2 || 64 < n)) then (s, some (stMALFORMED, [])) else
    let r := s.readFor c m
    let s := r.1
    if !r.2 || (n ≠ 0 && members.length ≠ n) then (s, some (stSTATE, [])) else
    let go : FwDo := fun s =>
      if n ≠ 0 && !decide members.Nodup then (s, some (stMALFORMED, []))
      else if !list.contains Config.deviceId then (s, some (stNOTFOUND, []))
      else if !g.ready || g.forming.isSome then (s, some (stSTATE, []))
      else
        let f : Forming := { src := m.src, seq := m.seq, reform := true, members := list, die := die, deadline := s.now + (s.ctxAt c).fabricTimeout }
        let s := s.modGroup gi fun g => { g with forming := some f }
        let s := match s.instanceOf gi with | some sc => s.cancelSched sc | none => s
        (s.formStep gi, none)
    if sameSet list g.members then go s else fwConfig (s.ctxAt c).world go s

def execGroupForm (m : FwMsg) (members : List (BitVec 12)) (s : State) : Host.Outcome State Fault Refusal :=
  fwArrive (fwCtx m) m (.groupForm m members) (doGroupForm m members) s
def execGroupReform (m : FwMsg) (members : List (BitVec 12)) (s : State) : Host.Outcome State Fault Refusal :=
  fwArrive (fwCtx m) m (.groupReform m members) (doGroupReform m members) s

/-- GROUP_MESSAGE (R360, R361). -/
def State.groupMsg (s : State) (ctx : Nat) (group : BitVec 16) (src : BitVec 12) (crc : BitVec 32) (said : GroupGen) : State :=
  let keep := s.groupMsgs.filter fun m => !(m.ctx = ctx && m.group = group && m.src = src && m.confirm = said.confirm)
  let s := { s with groupMsgs := keep ++ [{ ctx := ctx, group := group, src := src, crc := crc, gen := said.gen, confirm := said.confirm }] }
  match s.groupOf ctx group with
  | none => s
  | some gi => s.formStep gi
/-- One comes over an UP port, of its sender or of a member that passes it on; one for another member goes on to it (DESIGN CHOICE, log 19). -/
def execGroupMessage (ctx : Nat) (group : BitVec 16) (src : BitVec 12) (crc : BitVec 32) (said : GroupGen) (s : State) :
    Host.Outcome State Fault Refusal :=
  match said.onto with
  | some d =>
    .next (((s.portFor src d 0).map fun i =>
      s.enqueue (some ctx) i (groupPacket src d (groupLine group crc said.gen said.confirm))).getD s)
  | none =>
    if (s.portFrom src).isNone && (s.wayBy ctx group).isNone then .next s else
    .next (s.arrive (some ctx) (.groupMessage ctx group src crc said) fun s => s.groupMsg ctx group src crc said)

/-- GROUP_FORM_TIMEOUT (R360, R361). -/
def execGroupFormTimeout (ctx : Nat) (group : BitVec 16) (s : State) : Host.Outcome State Fault Refusal :=
  match s.groupOf ctx group with
  | none => .next s
  | some gi =>
    match (s.groupAt gi).forming with
    | none => .next s
    | some f =>
      if s.now < f.deadline then .next s else .next (s.formFailed gi f)

/-! The running instance. -/

/-- Do something for a running instance; one whose start has been cancelled aborts (R374). -/
def onRunning (sc : Nat) (s : State) (go : State → State) : State :=
  let x := s.schedAt sc
  if x.st ≠ .running then s else if (s.cmdAt x.cmd).cancelled then s.cancelSched sc else go s

def Sched.opAt (x : Sched) (k : Nat) : SOp := x.issued.getD k { j := 0, w := 0, st := .done }
def State.modOp (s : State) (sc k : Nat) (f : SOp → SOp) : State :=
  s.modSched sc fun x => { x with issued := x.issued.set k (f (x.opAt k)) }
def SOp.receives (o : SOp) : Bool := o.op = 2 || o.op = 3
def SOp.fences (o : SOp) : Bool := o.op = 6 || o.op = 7 || o.op = 10

/-- A fault of the member itself (R374). -/
def State.peerAbort (s : State) (sc : Nat) (o : SOp) (cause : BitVec 8) (addr : Nat) : State :=
  s.enterAbort sc (some (report 0x83 (s.groupAt (s.schedAt sc).group).rank o.j)) cause addr

/-- The capability of a buffer slot. -/
def State.slotCap (s : State) (sc slot : Nat) : CReg := (((s.cmdAt (s.schedAt sc).cmd).slots.getD slot none)).getD {}

/-- Issue the next operation, which is `kind` (R369, R370): its chunks, its peer, its number. -/
def State.issueOp (s : State) (sc kind : Nat) : State :=
  let x := s.schedAt sc
  let w := x.ops.getD x.pc 0
  if opOf w ≠ kind || 64 ≤ (x.issued.filter fun o => o.st ≠ .done).length then s else
  match opUse kind with
  | none => s
  | some u =>
    let g := s.groupAt x.group
    let nch := s.nchOf sc; let chunk := s.chunkOf sc
    let place (on : Bool) (lo : Nat) : Option (Nat × Nat × Nat) :=
      if !on then none else
      let r := chunkRef (bitsAt w lo 16) g.rank (innerI x.loops) nch
      some (r.1, r.2, capCursor (s.slotCap sc r.1).bits + r.2 * chunk)
    let peer := if u.peer then schedPeer w g.rank g.n else 0
    let k := if kind = 10 then (x.issued.filter fun o => o.op = 10).length
      else if kind = 2 || kind = 3 then (x.issued.filter fun o => o.receives && o.peer = peer).length
      else (x.issued.filter fun o => o.op = kind && o.peer = peer).length
    let o : SOp :=
      { j := x.pc, w := w, peer := peer, dst := place u.d 16, srcA := (place u.a 0).map fun p => (p.1, p.2.2)
        srcB := (place u.b 32).map fun p => (p.1, p.2.2), k := k }
    let y := afterOp w x.pc x.loops
    s.modSched sc fun x => { x with issued := x.issued ++ [o], pc := y.1, loops := y.2 }

/-- Memory that an operation reads and writes, as intervals of addresses. -/
def SOp.readsAt (o : SOp) (chunk : Nat) : List (Nat × Nat) := (o.srcA.toList ++ o.srcB.toList).map fun p => (p.2, p.2 + chunk)
def SOp.writesAt (o : SOp) (chunk : Nat) : List (Nat × Nat) := o.dst.toList.map fun p => (p.2.2, p.2.2 + chunk)
/-- Whether operation k can start (R369). -/
def State.opReady (s : State) (sc k : Nat) : Bool :=
  let x := s.schedAt sc
  let o := x.opAt k
  let chunk := s.chunkOf sc
  let before := (x.issued.take k).filter fun e => e.st ≠ .done
  if o.fences then before.isEmpty else
  before.all fun e => !e.fences && !meets (o.writesAt chunk) (e.readsAt chunk ++ e.writesAt chunk) && !meets (o.readsAt chunk) (e.writesAt chunk)

/-- Start it: a receiver gives credit, a SIGNAL and a GBAR send their packets. -/
def State.startOp (s : State) (sc k : Nat) : State :=
  if !s.opReady sc k then s else
  let s := s.modOp sc k fun o => { o with st := .started, last := s.now }
  let x := s.schedAt sc
  let o := x.opAt k
  let g := s.groupAt x.group
  if o.receives then s.sendColl sc (collPacket g x .credit o.peer (o.k * s.chunkOf sc))
  else if o.op = 7 then s.sendColl sc (collPacket g x .signal o.peer o.k)
  else if o.op = 10 then
    g.others.foldl (fun (s : State) m => s.sendColl sc (collPacket g x .barrier m o.k)) (s.modSched sc fun x => { x with barrier := o.k + 1 })
  else s
def State.doneOp (s : State) (sc k : Nat) : State := s.modOp sc k fun o => { o with st := .done, a := [], b := [] }

/-! Bytes on their way. -/

/-- The byte at an offset of a chunk among pieces, with its tag. -/
def byteIn (ps : List SrcPiece) (off : Nat) : Option (Byte × Tag) :=
  ps.findSome? fun p => if p.off ≤ off && off < p.off + p.bytes.length then (p.bytes[off - p.off]?).map fun b => (b, p.side.otag) else none
/-- n bytes, once all are there. -/
def bytesIn (ps : List SrcPiece) (off : Nat) : Nat → Option (List (Byte × Tag))
  | 0 => some []
  | n + 1 =>
    match byteIn ps off, bytesIn ps (off + 1) n with
    | some b, some bs => some (b :: bs)
    | _, _ => none
/-- How far pieces read in order reach. -/
def reach (ps : List SrcPiece) (off : Nat) : Nat :=
  ps.foldl (fun n p => if p.off ≤ n && n < p.off + p.bytes.length then p.off + p.bytes.length else n) off
/-- The whole, aligned source line that stands at an offset (11 R272). -/
def lineIn (ps : List SrcPiece) (off : Nat) : Option Side :=
  (ps.find? fun p => p.off = off && p.bytes.length = 64).map fun p => { p.side with ctag := 0 }

/-- A fabric request of an operation whose buffer lies on a REMOTE page (09 R237); a whole line keeps its tag, KIND and SCALES (R371). -/
def State.opRequest (s : State) (sc k : Nat) (dst : BitVec 12) (exp : BitVec 16) (a va n : Nat) (host : Bool) (op : BitVec 6)
    (bs : List (Byte × Tag)) (whole : Option Side) : State :=
  let x := s.schedAt sc
  let c := s.cmdAt x.cmd
  let ctx := (s.groupAt x.group).ctx
  let r : Req :=
    { owner := .command x.cmd, xid := 0, dst := dst, exp := exp, addr := a, va := va, len := n, kind := 3, own := c.own, ctx := some ctx, die := c.die
      host := host, deadline := s.now + (s.ctxAt ctx).fabricTimeout }
  let s := s.modOp sc k fun o => { o with req := some s.reqs.length }
  let line := if bs.isEmpty then [] else lineWith (a % 64) (bs.map (·.1))
  match whole with
  | some y => s.request r op y.otag 0 line (y.kind.setWidth 2) y.scales
  | none => s.request r op ((bs.getLast?.map (·.2)).getD 0) 0 line

/-- The end of an operation's request: none is out, it is still out, or its answer. -/
def State.opAnswer (s : State) (o : SOp) : Option (Option Req) :=
  match o.req with
  | none => none
  | some q => match s.reqAt q with
    | none => none
    | some r => some (if r.st = .out then none else some r)

/-- Read the next piece of a local operand, whose chunk is at `base` in slot `slot`, up to offset `hi`. -/
def State.readOp (s : State) (sc k slot base hi : Nat) (second : Bool) : State :=
  let x := s.schedAt sc
  let o := x.opAt k
  let c := s.cmdAt x.cmd
  let off := reach (if second then o.b else o.a) o.bytes
  let a := base + off
  let n := min (hi - off) (64 - a % 64)
  let putIn (s : State) (p : SrcPiece) : State :=
    s.modOp sc k fun o => if second then { o with b := o.b ++ [p], req := none } else { o with a := o.a ++ [p], req := none }
  match s.opAnswer o with
  | some none => s
  | some (some r) =>
    match r.st with
    | .data line tag kind scales =>
      putIn s { off := off, bytes := (line.drop (r.addr % 64)).take r.len, side := { otag := tag, kind := kind.setWidth 4, scales := scales } }
    | .refused cause => s.peerAbort sc o (lineCause cause) a
    | _ => s
  | none =>
    match s.way c (s.slotCap sc slot) a n pLD false with
    | .error cause => s.peerAbort sc o cause a
    | .ok (.mem sp y) =>
      let p := (s.spaceMem c.crew sp).piece y n off
      let s := if sp = .dev then s.noteHome [(y, n)] .read (some ((s.crewAt c.crew).place / 8)) else s
      let put (p : SrcPiece) : State := putIn s p
      if sp = .dev && c.linkFail.isSome && crosses c.die (y / 64) then
        (put { p with side := { p.side with otag := tagPoison } }).modCmd x.cmd fun c => { c with linkFail := none }
      else put p
    | .ok (.far dst exp y host) => s.opRequest sc k dst exp y a (min n (64 - y % 64)) host opREAD [] none

/-- Bytes of the unit have been written: the operation moves on, and may be done. -/
def State.advanceOp (s : State) (sc k n m : Nat) (exc : Exc) : State :=
  let o := (s.schedAt sc).opAt k
  if o.wr + m < n then s.modOp sc k fun o => { o with wr := o.wr + m, req := none } else
  let next := o.bytes + n
  let left (ps : List SrcPiece) : List SrcPiece := ps.filter fun p => next < p.off + p.bytes.length
  let s := s.modOp sc k fun o => { o with bytes := next, wr := 0, req := none, a := left o.a, b := left o.b }
  let s := s.modSched sc fun x => { x with exc := x.exc ||| exc }
  if next = s.chunkOf sc then s.doneOp sc k else s

/-- Write the next line of the unit `bs` at the operation's progress, in the scratchpad its next 16-byte chunk (11 R265); `whole` is the sideband of a whole line, `store` keeps KIND and
SCALES (R371). -/
def State.writeOp (s : State) (sc k : Nat) (bs : List (Byte × Tag)) (whole : Option Side) (store : Bool) (exc : Exc) : State :=
  let x := s.schedAt sc
  let o := x.opAt k
  let c := s.cmdAt x.cmd
  match o.dst with
  | none => s
  | some (slot, _, base) =>
    let a := base + o.bytes + o.wr
    let n := min (bs.length - o.wr) (64 - a % 64)
    let part := (bs.drop o.wr).take n
    match s.opAnswer o with
    | some none => s
    | some (some r) =>
      match r.st with
      | .acked => s.advanceOp sc k bs.length r.len exc
      | .refused cause => s.peerAbort sc o (lineCause cause) a
      | _ => s
    | none =>
      match s.way c (s.slotCap sc slot) a n pST true with
      | .error cause => s.peerAbort sc o cause a
      | .ok (.mem sp y) =>
        let n := if sp = .scratch then min n (16 - a % 16) else n
        let part := part.take n
        let s :=
          if store then
            let s := s.setSpaceMem c.crew sp (storeBytes (s.spaceMem c.crew sp) ((part.zip (List.range n)).map fun p => (y + p.2, p.1.1, p.1.2)) {})
            if sp = .dev then s.noteHome [(y, n)] .write (some ((s.crewAt c.crew).place / 8)) else s
          else s.engineWrite c.crew sp y part (if bs.length = 64 then whole else none)
        let s := if sp = .dev && c.linkFail.isSome && crosses c.die (y / 64) then s.linkFailed x.cmd (c.linkFail = some true) (y / 64) else s
        s.advanceOp sc k bs.length n exc
      | .ok (.far dst exp y host) =>
        let m := min n (64 - y % 64)
        s.opRequest sc k dst exp y a m host opWRITE (part.take m) (if m = 64 then whole else none)

/-! Combining (R371). -/

def redOf (n : Nat) : RedOp := match n with | 0 => .add | 1 => .min | 2 => .max | 3 => .and | 4 => .or | _ => .xor
/-- One element: its bits, its exceptions, whether it and its inputs are not finite. -/
def combineElem (ty : Ty) (op : RedOp) (a b : Nat) : Nat × Exc × Bool × Bool × Bool :=
  if Rows.isInt ty then (lowBits ty (redInt op ty (readInt ty a) (readInt ty b)), 0, false, false, false) else
  let f := fmtOf ty
  let x := readF f a; let y := readF f b
  match op with
  | .add => let r := fAdd f .rne x y; (r.bits, r.exc, r.exceptional, x.exceptional, y.exceptional)
  | _ =>
    let pick := fMinMaxPick (op = .max) x y
    let v := if pick = 0 then a % 2 ^ f.width else if pick = 1 then b % 2 ^ f.width else nanBits f
    (v, snanExc [x, y], (readF f v).exceptional, x.exceptional, y.exceptional)
/-- The tag of an operand element: that of its last byte, or poison. -/
def elemTag (bs : List (Byte × Tag)) : Tag :=
  if bs.any (fun b => b.2 = tagPoison) then tagPoison else (bs.getLast?.map (·.2)).getD 0
/-- Elements of e bytes, combined one by one; the result has tag `own` where no input gives it. -/
def combineAll (ty : Ty) (op : RedOp) (own : Tag) (e : Nat) : Nat → List (Byte × Tag) → List (Byte × Tag) → List (Byte × Tag) × Exc
  | 0, _, _ => ([], 0)
  | n + 1, as, bs =>
    let a := as.take e; let b := bs.take e
    let r := combineElem ty op (leNat (a.map (·.1))) (leNat (b.map (·.1)))
    let ta := elemTag a; let tb := elemTag b
    let tag := if ta = tagPoison || tb = tagPoison then tagPoison
      else if r.2.2.1 && r.2.2.2.1 then ta else if r.2.2.1 && r.2.2.2.2 then tb else own
    let rest := combineAll ty op own e n (as.drop e) (bs.drop e)
    ((leBytes e r.1).map (fun x => (x, tag)) ++ rest.1, r.2.1 ||| rest.2)

/-! Progress. -/

/-- The unit of an operation that writes: up to the end of the destination's line, in whole elements where it combines. -/
def SOp.unit (o : SOp) (chunk e : Nat) : Nat :=
  match o.dst with
  | none => 0
  | some (_, _, base) => min (chunk - o.bytes) ((64 - (base + o.bytes) % 64 + e - 1) / e * e)

/-- A started RECV, RECVRED, COPY or REDUCE moves on: it reads a piece, or writes a line, or waits for what has not arrived. -/
def State.moveOp (s : State) (sc k : Nat) : State :=
  let x := s.schedAt sc
  let o := x.opAt k
  let combines := o.op = 3 || o.op = 5
  let e := if combines then codeBytes (bitsAt o.w 56 4) else 1
  let n := o.unit (s.chunkOf sc) e
  let hi := o.bytes + n
  let local_ (src : Option (Nat × Nat)) (ps : List SrcPiece) : Bool := src.isSome && (bytesIn ps o.bytes n).isNone
  if o.op ≠ 2 && local_ o.srcA o.a then
    match o.srcA with
    | some (slot, base) => s.readOp sc k slot base hi false
    | none => s
  else if o.op = 5 && local_ o.srcB o.b then
    match o.srcB with
    | some (slot, base) => s.readOp sc k slot base hi true
    | none => s
  else if combines then
    match bytesIn o.a o.bytes n, bytesIn o.b o.bytes n, Rows.tyOf (bitsAt o.w 56 4) with
    | some as, some bs, some ty =>
      let r := combineAll ty (redOf (bitsAt o.w 53 3)) (tagSched (16 + 16 * x.die + x.slot)) e (n / e) as bs
      s.writeOp sc k r.1 none true r.2
    | _, _, _ => s
  else
    match bytesIn o.a o.bytes n with
    | some as => s.writeOp sc k as (lineIn o.a o.bytes) false 0
    | none => s

/-- A started SEND that holds its credit sends the next line (R368). -/
def State.moveSend (s : State) (sc k : Nat) : State :=
  let x := s.schedAt sc
  let o := x.opAt k
  let chunk := s.chunkOf sc
  match o.srcA with
  | none => s
  | some (slot, base) =>
    if !x.credits.contains (o.peer, o.k) || o.bytes = chunk then s else
    let a := base + o.bytes
    let n := min (chunk - o.bytes) (64 - a % 64)
    match bytesIn o.a o.bytes n with
    | none => s.readOp sc k slot base (o.bytes + n) false
    | some bs =>
      let side := if n = 64 then lineIn o.a o.bytes else none
      let p := collPacket (s.groupAt x.group) x .data o.peer (o.k * chunk + o.bytes) (a % 64) (a % 64 + n - 1) (lineWith (a % 64) (bs.map (·.1)))
      let p := match side with
        | some y => { p with otag := y.otag, kind := y.kind.setWidth 2, scales := y.scales }
        | none => { p with otag := elemTag bs }
      (s.modOp sc k fun o => { o with bytes := o.bytes + n, a := [] }).sendColl sc p

/-- An event of operation k of an instance: it is issued when it is the next one, it starts when it can, it moves on. -/
def opEvent (kind sc k : Nat) (s : State) (move : State → State) : Host.Outcome State Fault Refusal :=
  .next (onRunning sc s fun s =>
    let x := s.schedAt sc
    if k = x.issued.length then s.issueOp sc kind
    else
      let o := x.opAt k
      if o.op ≠ kind then s else
      match o.st with
      | .issued => s.startOp sc k
      | .started => move s
      | .done => s)

/-- R368. -/
def execSend (sc k : Nat) (s : State) : Host.Outcome State Fault Refusal := opEvent 1 sc k s fun s => s.moveSend sc k
def execRecv (sc k : Nat) (s : State) : Host.Outcome State Fault Refusal := opEvent 2 sc k s fun s => s.moveOp sc k
def execRecvred (sc k : Nat) (s : State) : Host.Outcome State Fault Refusal := opEvent 3 sc k s fun s => s.moveOp sc k
def execSchedCopy (sc k : Nat) (s : State) : Host.Outcome State Fault Refusal := opEvent 4 sc k s fun s => s.moveOp sc k
def execReduce (sc k : Nat) (s : State) : Host.Outcome State Fault Refusal := opEvent 5 sc k s fun s => s.moveOp sc k
/-- A SIGNAL completes at its acknowledgement. -/
def execSignal (sc k : Nat) (s : State) : Host.Outcome State Fault Refusal := opEvent 7 sc k s id
def execWait (sc k : Nat) (s : State) : Host.Outcome State Fault Refusal :=
  opEvent 6 sc k s fun s =>
    let x := s.schedAt sc
    if bitsAt (x.opAt k).w 0 16 ≤ aget 0 x.signals (x.opAt k).peer then s.doneOp sc k else s
def execGbar (sc k : Nat) (s : State) : Host.Outcome State Fault Refusal :=
  opEvent 10 sc k s fun s =>
    let x := s.schedAt sc
    if (s.groupAt x.group).others.all fun m => (x.opAt k).k < aget 0 x.arrived m then s.doneOp sc k else s

/-- LOOP and ENDLOOP complete at once (R368). -/
def loopEvent (kind sc : Nat) (s : State) : Host.Outcome State Fault Refusal :=
  .next (onRunning sc s fun s =>
    let x := s.schedAt sc
    let w := x.ops.getD x.pc 0
    if opOf w ≠ kind then s else
    let y := afterOp w x.pc x.loops
    s.modSched sc fun x => { x with pc := y.1, loops := y.2 })
def execSchedLoop (sc : Nat) (s : State) : Host.Outcome State Fault Refusal := loopEvent 8 sc s
def execEndloop (sc : Nat) (s : State) : Host.Outcome State Fault Refusal := loopEvent 9 sc s
/-- END (R368). -/
def execEndSched (sc : Nat) (s : State) : Host.Outcome State Fault Refusal :=
  .next (onRunning sc s fun s =>
    let x := s.schedAt sc
    if opOf (x.ops.getD x.pc 0) = 15 && x.issued.all (fun o => o.st = .done) then s.endInstance sc 0 else s)

/-! Packets (R362, R368). -/

/-- A packet reaches the running instance that it names. -/
def State.collDeliver (s : State) (sc : Nat) (p : Packet) : State :=
  let x := s.schedAt sc
  if x.st ≠ .running then s else
  let g := s.groupAt x.group
  let chunk := s.chunkOf sc
  let peer := g.rankOf p.src
  let addr := p.addr.toNat
  let find (ok : SOp → Bool) : Option Nat := (indices x.issued).find? fun i => (x.opAt i).st = .started && (x.opAt i).peer = peer && ok (x.opAt i)
  let touch (s : State) (ok : SOp → Bool) : State := match find ok with | some i => s.modOp sc i fun o => { o with last := s.now } | none => s
  match collOf p.op with
  | some .credit =>
    touch (s.modSched sc fun x => { x with credits := x.credits ++ [(peer, addr / chunk)] }) fun o => o.op = 1 && o.k = addr / chunk
  | some .data =>
    match find fun o => o.receives && o.k = addr / chunk with
    | none => s
    | some i =>
      let n := pktLen p
      if chunk < addr % chunk + n then s else
      let side : Side := { otag := s.tagFrom p, kind := s.kindFrom p, scales := if s.kindFrom p = 1 then p.scales else 0 }
      let piece : SrcPiece := { off := addr % chunk, bytes := (p.line.drop p.first.toNat).take n, side := side }
      let s := s.modOp sc i fun o => if o.op = 2 then { o with a := o.a ++ [piece], last := s.now } else { o with b := o.b ++ [piece], last := s.now }
      s.sendColl sc (collPacket g x .dataAck peer addr p.first.toNat p.last.toNat)
  | some .dataAck =>
    match find fun o => o.op = 1 && o.k = addr / chunk with
    | none => s
    | some i =>
      let s := s.modOp sc i fun o => { o with acked := o.acked + pktLen p, last := s.now }
      if chunk ≤ ((s.schedAt sc).opAt i).acked then s.doneOp sc i else s
  | some .signal =>
    let s := s.modSched sc fun x => { x with signals := aset 0 x.signals peer (aget 0 x.signals peer + 1) }
    (touch s fun o => o.op = 6).sendColl sc (collPacket g x .sigAck peer addr)
  | some .sigAck =>
    match find fun o => o.op = 7 && o.k = addr with
    | none => s
    | some i => s.doneOp sc i
  | some .barrier =>
    let s := s.modSched sc fun x => { x with arrived := aset 0 x.arrived peer (max (addr + 1) (aget 0 x.arrived peer)) }
    match (indices x.issued).find? fun i => (x.opAt i).st = .started && (x.opAt i).op = 10 with
    | some i => s.modOp sc i fun o => { o with last := s.now }
    | none => s
  | some .vote | none => s

/-- A vote reaches its instance (R375): the member enters ABORTING, and relays a vote that it has not had. -/
def State.voteDeliver (s : State) (sc voter : Nat) (r : Option Report) : State :=
  let x := s.schedAt sc
  if x.st = .free then s else
  let s := s.enterAbort sc none 0 0
  let x := s.schedAt sc
  if x.votes.any (fun v => v.1 = voter) || (s.groupAt x.group).n ≤ voter then s else
  (s.modSched sc fun x => { x with votes := x.votes ++ [(voter, r)] }).sendVote sc voter r

/-- Deliver, hold or drop a collective packet (R362); `i` is the arrival and `go` what it does to its running instance. -/
def State.collArrive (s : State) (p : Packet) (i : Instr) (go : State → Nat → State) : State :=
  match s.packetGroup p with
  | none => s.dropPacket p
  | some gi =>
    let g := s.groupAt gi
    if p.gen ≠ BitVec.ofNat 16 g.gen && !s.fromS7 p.src then s.dropPacket p else
    let running := s.instanceOf gi
    let k := match running with | some sc => (s.schedAt sc).inst | none => g.count
    let d := (p.xid.toNat + 65536 - k % 65536) % 65536
    let hold (s : State) : State := if g.held.length < 64 then s.modGroup gi fun g => { g with held := g.held ++ [i] } else s
    if 32768 ≤ d then s.dropPacket p
    else if d = 0 then (match running with | some sc => go s sc | none => hold s)
    else hold s

/-- The operation that an arriving packet concerns, and the byte of its buffer. -/
def Sched.concerns (x : Sched) (c : Coll) (peer addr chunk : Nat) : Option (SOp × Nat) :=
  (x.issued.find? fun o => o.st ≠ .done && match c with
    | .data => o.receives && o.peer = peer && o.k = addr / chunk
    | .credit | .dataAck => o.op = 1 && o.peer = peer && o.k = addr / chunk
    | .signal => o.op = 6 && o.peer = peer
    | .sigAck => o.op = 7 && o.peer = peer && o.k = addr
    | .barrier => o.op = 10
    | .vote => false).map fun o => (o, match c with | .data | .credit | .dataAck => o.lineAddr (addr % chunk) | _ => 0)
/-- ABORTED_INTEGRITY (R374, 20 R397): a packet of the running instance has failed its authentication. -/
def State.integrityAbort (s : State) (p : Packet) : State :=
  match (s.packetGroup p).bind fun gi => (s.instanceOf gi).map fun sc => (gi, sc) with
  | none => s
  | some (gi, sc) =>
    let x := s.schedAt sc
    if p.xid ≠ BitVec.ofNat 16 x.inst || (p.gen ≠ BitVec.ofNat 16 x.gen && !s.fromS7 p.src) then s else
    let peer := (s.groupAt gi).rankOf p.src
    match (collOf p.op).bind fun c => x.concerns c peer p.addr.toNat (s.chunkOf sc) with
    | some (o, a) => s.enterAbort sc (some (report 0x85 peer o.j)) cREMOTE_FAULT a
    | none => s.enterAbort sc (some (report 0x85 peer x.lowest)) cREMOTE_FAULT 0

def State.takePacket (s : State) (p : Packet) : State :=
  if p.tagOk then s.collArrive p (.collectivePacket p) fun s sc => s.collDeliver sc p else s.integrityAbort p
def State.takeVote (s : State) (p : Packet) (voter : Nat) (r : Option Report) : State :=
  if p.tagOk then s.collArrive p (.vote p voter r) fun s sc => s.voteDeliver sc voter r else s.integrityAbort p
def State.groupCtx (s : State) (p : Packet) : Option Nat := (s.packetGroup p).map fun gi => (s.groupAt gi).ctx

/-- A collective packet arrives over an UP port; one that the port drops for its authentication is still reported (20 R397). -/
def State.collIn (s : State) (p : Packet) (event : Packet → Instr) (go : Packet → State → State) : State :=
  match s.portFrom p.src with
  | none => s
  | some i =>
    if !listed p then s.dropIn i
    else if p.cls ≠ 3 then s
    else match s.runWorld (s.groupCtx p) i p with
    | some w => s.intoRun w i (event p) p
    | none => match s.authentic (s.groupCtx p) i p with
      | .ok s => s.arrive (s.groupCtx p) (event { p with tagOk := true }) (go { p with tagOk := true })
      | .error s => s.arrive (s.groupCtx p) (event { p with tagOk := false }) (go { p with tagOk := false })

def execCollectivePacket (p : Packet) (s : State) : Host.Outcome State Fault Refusal :=
  .next (s.collIn p .collectivePacket fun p s => s.takePacket p)
def execVote (p : Packet) (voter : Nat) (r : Option Report) (s : State) : Host.Outcome State Fault Refusal :=
  .next (s.collIn p (fun p => .vote p voter r) fun p s => s.takeVote p voter r)

/-! Starting (R363, R365). -/

/-- The operations that bytes hold, to the first END. `fuel` bounds them. -/
def scheduleOps : Nat → List Byte → List Word
  | 0, _ => []
  | fuel + 1, bs =>
    if bs.length < 8 then [] else
    let w : Word := BitVec.ofNat 64 (leNat (bs.take 8))
    if opOf w = 15 then [w] else w :: scheduleOps fuel (bs.drop 8)
/-- What a start has read of its schedule. -/
def Cmd.scheduleRead (c : Cmd) : List Word :=
  let bs := c.buf.flatMap (·.bytes)
  scheduleOps (bs.length / 8 + 1) bs
/-- Read a schedule of len bytes, line by line, to its first END or its end; none while a line of a REMOTE page is out, else the fault of a line
that cannot be read (09 R237, 17 R329). Values that come with TAG_POISON are used as they are (DESIGN CHOICE, log 22). `fuel` bounds the lines. -/
def State.readSchedule (i : Nat) (k : CReg) (base len : Nat) : Nat → State → State × Option (Option (BitVec 8 × Nat))
  | 0, s => (s, some none)
  | fuel + 1, s =>
    if len ≤ (s.cmdAt i).rd || (s.cmdAt i).scheduleRead.any (fun w => opOf w = 15) then (s, some none) else
    match s.nextLine i k base len with
    | (s', .waits) => (s', none)
    | (s', .fails cause a) => (s', some (some (cause, a)))
    | (s', .came) => State.readSchedule i k base len fuel s'

/-- Whether a start can begin. -/
def State.canBegin (s : State) (cmd : Nat) : Bool :=
  let c := s.cmdAt cmd
  let id (x : Cmd) : Nat := bitsAt (wordAt x.w 2) 48 16
  cmd < s.cmds.length && c.q = 7 && c.state = .queued && (s.scheds.filter fun x => x.st ≠ .free && x.die = c.die).length < 16 &&
  (List.range cmd).all fun j =>
    let e := s.cmdAt j
    e.q ≠ 7 || ((e.state = .done || !((s.crewAt e.crew).ctx = (s.crewAt c.crew).ctx && id e = id c)) && (e.crew ≠ c.crew || e.state ≠ .queued))

/-- Held packets of the instance that has begun are delivered. -/
def State.releaseHeld (s : State) (gi sc : Nat) : State :=
  let x := s.schedAt sc
  let now_ (i : Instr) : Bool :=
    match i with
    | .collectivePacket p | .vote p _ _ => p.xid = BitVec.ofNat 16 x.inst
    | _ => false
  let mine := (s.groupAt gi).held.filter now_
  let s := s.modGroup gi fun g => { g with held := g.held.filter fun i => !now_ i }
  mine.foldl (fun (s : State) i =>
    match i with
    | .collectivePacket p => s.collDeliver sc p
    | .vote _ v r => s.voteDeliver sc v r
    | _ => s) s

/-- A start whose schedule has been read becomes the next instance of its group (R365); one whose schedule fails its validation aborts at once (R372,
R374); held packets of the instance are delivered. -/
def State.beginSched (s : State) (cmd gi : Nat) (bad : Option (BitVec 8 × Nat)) : State :=
  let c := s.cmdAt cmd
  let g := s.groupAt gi
  let ops := c.scheduleRead
  let slot := ((List.range 16).find? fun n => !s.scheds.any fun x => x.st ≠ .free && x.die = c.die && x.slot = n).getD 0
  let sc := s.scheds.length
  let s : State := { s with scheds := s.scheds ++ [{ die := c.die, slot := slot, cmd := cmd, group := gi, inst := g.count, gen := g.gen, ops := ops }] }
  let s := (s.modGroup gi fun g => { g with count := g.count + 1 }).modCmd cmd fun c => { c with state := .running, sched := some sc, buf := [], rd := 0 }
  let bound := (List.range 16).filter fun b => (c.slots.getD b none).isSome
  let abort (j : Nat) (cause : BitVec 8) (a : Nat) : State := s.enterAbort sc (some (report 0x83 g.rank j)) cause a
  (match firstInvalid g.rank g.n (s.chunkOf sc) bound 0 0 ops with
  | none => s
  | some j => match (if j = ops.length then bad else none) with | some (e, a) => abort j e a | none => abort j cILLEGAL 0).releaseHeld gi sc
/-- START_BEGIN (R363, R365): it waits while a line of its schedule is out. -/
def execStartBegin (cmd : Nat) (s : State) : Host.Outcome State Fault Refusal :=
  let c := s.cmdAt cmd
  if !s.canBegin cmd then .next s else
  let gi := match (s.crewAt c.crew).ctx with
    | some ctx => s.groupOf ctx (BitVec.ofNat 16 (bitsAt (wordAt c.w 2) 48 16))
    | none => none
  match gi with
  | none => .next (s.faultCmd cmd cILLEGAL 0)
  | some gi =>
    let g := s.groupAt gi
    if g.ready && g.forming.isSome then .next s            -- a re-form is under way (R361)
    else if !g.ready || g.die ≠ c.die then .next (s.faultCmd cmd cILLEGAL 0)
    else
      let k := c.dst.getD {}
      let len := 8 * bitsAt (wordAt c.w 3) 0 16
      match State.readSchedule cmd k (capCursor k.bits + bitsAt (wordAt c.w 0) 0 32) len (len / 16 + 2) s with
      | (s, none) => .next s
      | (s, some bad) => .next (s.beginSched cmd gi bad)

/-! Timeouts and decisions (R374, R375). -/

/-- The peer that a started operation awaits, and the first line awaited; none where it awaits nothing. -/
def State.awaits (s : State) (sc : Nat) (o : SOp) : Option (Nat × Nat) :=
  let x := s.schedAt sc
  if o.st ≠ .started then none
  else if o.op = 1 then some (o.peer, o.lineAddr o.acked)
  else if o.op = 2 then (if (reach o.a o.bytes) < s.chunkOf sc then some (o.peer, o.lineAddr (reach o.a o.bytes)) else none)
  else if o.op = 3 then (if (reach o.b o.bytes) < s.chunkOf sc then some (o.peer, o.lineAddr (reach o.b o.bytes)) else none)
  else if o.op = 6 || o.op = 7 then some (o.peer, 0)
  else if o.op = 10 then ((s.groupAt x.group).others.find? fun m => aget 0 x.arrived m ≤ o.k).map fun m => (m, 0)
  else none

/-- ABORTED_TIMEOUT (R374). -/
def execAbortedTimeout (sc k : Nat) (s : State) : Host.Outcome State Fault Refusal :=
  .next (onRunning sc s fun s =>
    let x := s.schedAt sc
    let o := x.opAt k
    match s.awaits sc o with
    | none => s
    | some (peer, addr) =>
      if s.now < o.last + (s.ctxAt (s.groupAt x.group).ctx).fabricTimeout then s
      else s.enterAbort sc (some (report 0x82 peer o.j)) cREMOTE_TIMEOUT addr)

/-- Precedence of codes. -/
def precedence (code : BitVec 8) : Nat :=
  if code = 0x85 then 0 else if code = 0x81 then 1 else if code = 0x83 then 2 else if code = 0x84 then 3 else 4
/-- The lesser of two reports. -/
def lesser (a b : Report) : Report :=
  let key (r : Report) : Nat := (precedence r.code * 256 + r.member.toNat) * 65536 + r.step.toNat
  if key b < key a then b else a
/-- The least report of a list. -/
def leastReport : List Report → Option Report
  | [] => none
  | r :: rs => match leastReport rs with
    | none => some r
    | some x => some (lesser r x)

/-- ABORT_DECIDE (R375). -/
def execAbortDecide (sc : Nat) (s : State) : Host.Outcome State Fault Refusal :=
  let x := s.schedAt sc
  let g := s.groupAt x.group
  let missing := (List.range g.n).filter fun r => !x.votes.any fun v => v.1 = r
  if x.st ≠ .aborting || (!missing.isEmpty && s.now < x.abortAt + (s.ctxAt g.ctx).fabricTimeout) then .next s else
  match leastReport ((x.votes.filterMap (·.2)) ++ (missing.head?.map fun m => report 0x82 m 0xFFFF).toList) with
  | none => .next s
  | some r => .next (s.endInstance sc (statusWord r))

end Sys2Proof.Machine
end

