-- ==== Sys2Proof/Machine/Observe.lean ====
section
/-! DEFINITION. Recording and replay (21 R403-R408, R410, R417-R420). -/
namespace Sys2Proof.Machine

/-! The region (R403, R404). -/

/-- A range of a context's root: its lowest virtual address (DENIED where it is none of R403's). -/
def State.regionAt (s : State) (c root off len : Nat) : Option Nat :=
  let r := if root < 2 ^ 20 then s.rootAt (some c) root else {}
  if r.state ≠ .live || r.kind ≠ .loc || r.compt ≠ 0 || r.limit < r.base + off + len then none else some (r.base + off)

/-- Areas of the enabled streams, as (offset, size), by stream; a stream that is off has an empty one. -/
def streamAreas (what : BitVec 4) (len : Nat) : List (Nat × Nat) :=
  let on := (List.range 4).filter fun i => what.getLsbD i
  let size := (len - 65536) / 64 / max on.length 1 * 64
  (List.range 4).map fun i => if what.getLsbD i then (65536 + (on.filter fun j => j < i).length * size, size) else (0, 0)

/-- The header of a stream (Table 21-2). -/
def streamHeader (area : Nat × Nat) : List Byte := List.replicate 24 0 ++ leBytes 8 area.1 ++ leBytes 8 area.2 ++ List.replicate 24 0

/-- Cores on which a crew of the context is. -/
def State.placesOf (s : State) (c : Nat) : List Nat :=
  (List.range 256).filter fun p => (s.crewsOn p).any fun i => (s.crewAt i).ctx = some c

/-- Numbers of the epoch, of requests and of what is sent begin with a recording of arrivals, or a replay (DESIGN CHOICE, log 21). -/
def State.newLog (s : State) (c : Nat) : State :=
  s.modCtx c fun x => { x with epoch := 0, sentHeads := [], reqBase := (s.reqs.filter fun r => r.ctx = some c).length }
/-- RECORD_START (R403). -/
def doRecordStart (m : FwMsg) : FwDo := fwContext m [(8, 2), (12, 21), (36, 4)] fun c s =>
  let x := s.ctxAt c
  let what := fwArg m.args 8 1; let dies := fwArg m.args 9 1; let off := fwArg m.args 16 8; let len := fwArg m.args 24 8
  let sper := fwArg m.args 32 1
  if what = 0 || 16 ≤ what || 16 ≤ dies || off % 65536 ≠ 0 || len % 65536 ≠ 0 || len < 262144 || sper < 10 || 24 < sper then
    (s, some (stMALFORMED, []))
  else if x.recorder.on || (8 ≤ what && (!x.replayable || x.hasJob)) then (s, some (stSTATE, []))
  else
    match s.regionAt c (fwArg m.args 12 4) off len with
    | none => (s, some (stDENIED, []))
    | some a =>
      let areas := streamAreas (BitVec.ofNat 4 what) len
      let s := (List.range 4).foldl (fun (s : State) i => s.vStore c (a + 64 * i) (streamHeader (areas.getD i (0, 0)))) s
      let drops := (List.range 256).filterMap fun p => if (s.coreAt p).replayDrops = 0 then none else some (p, (s.coreAt p).replayDrops)
      let r : Recorder :=
        { on := true, what := BitVec.ofNat 4 what, dies := if dies = 0 then x.dies else BitVec.ofNat 4 dies, region := a, areas := areas, sper := sper
          snap := fwArg m.args 36 4, start := s.now, since := s.now, drops := drops, seen := s.placesOf c }
      let s : State := { s with
        slotCounts := s.slotCounts.filter fun e => e.1 / 256 ≠ c
        llcCounts := s.llcCounts.filter fun e => e.1 / 4 ≠ c }
      let on (s : State) : State := s.modCtx c fun x => { x with recorder := r }
      if 8 ≤ what then (on ((s.fwAnswer (some c) m.src m.code m.seq stOK []).newLog c), none) else (on s, some (stOK, []))

/-! Snapshots (R406-R408). -/

/-- The record of a core (R407): with the slots of the present cycle, its leaves sum to six times the cycles since RECORD_START. -/
def State.coreSnapshot (s : State) (c p : Nat) : State :=
  let k := s.closeSlots c p (Config.counted s.now (countSlot c p)) (s.slotsOf c p)
  let drops := (s.coreAt p).replayDrops - aget 0 (s.ctxAt c).recorder.drops p
  State.recordTo { s with slotCounts := aset {} s.slotCounts (countSlot c p) k } c 0 (p / 64) (p % 64) 1
    ((k.leaves ++ [k.kat, drops]).flatMap (leBytes 8))

/-- The record of a die (R408): what its slices have written back and evicted since the last one is open (DESIGN CHOICE, log 30), and so is
how many lines the firmware has read for the context (DESIGN CHOICE, log 21). -/
def State.llcSnapshot (s : State) (c d : Nat) : State :=
  let free := Config.counted s.now (65536 + c * 4 + d)
  let n := addLists (aget (List.replicate 11 0) s.llcCounts (c * 4 + d)) [free 2, 0, 0, free 3 % (free 2 + 1), free 2 - free 3 % (free 2 + 1), 0, 0, free 0, free 1]
  State.recordTo { s with llcCounts := aset [] s.llcCounts (c * 4 + d) n } c 0 d 0 2 (n.flatMap (leBytes 8))

/-- One record for each core that held a team since the last snapshot, one for each die. -/
def State.snapshot (s : State) (c : Nat) : State :=
  let r := (s.ctxAt c).recorder
  let s := ((List.range 256).filter fun p => r.seen.contains p && r.dies.getLsbD (p / 64)).foldl (fun (s : State) p => s.coreSnapshot c p) s
  let s := ((List.range 4).filter fun d => r.dies.getLsbD d).foldl (fun (s : State) d => s.llcSnapshot c d) s
  s.modCtx c fun x => { x with recorder := { x.recorder with since := s.now, seen := s.placesOf c } }

/-- COUNTER_SNAPSHOT: every SNAP · 2^20 cycles. -/
def execCounterSnapshot (ctx : Nat) (s : State) : Host.Outcome State Fault Refusal :=
  let r := (s.ctxAt ctx).recorder
  if ctx < s.contexts.length && r.on && r.what.getLsbD 0 && r.snap ≠ 0 && r.since + r.snap * 2 ^ 20 ≤ s.now then .next (s.snapshot ctx) else .next s

/-- RECORD_STOP (R403). -/
def doRecordStop (m : FwMsg) : FwDo := fwContext m [] fun c s =>
  let r := (s.ctxAt c).recorder
  if !r.on then (s, some (stNOTFOUND, [])) else
  let s := if r.what.getLsbD 0 then s.snapshot c else s
  (s.modCtx c fun x => { x with recorder := {} }, some (stOK, []))

/-! Samples (R410). -/

/-- The first word of a sample of team i: EXITED, ISSUED, FETCH_WAIT, or the leaf that it gives a slot which it does not take, at the instruction
whose passes or which itself has still to issue. -/
def sampleWord (s : State) (c p i : Nat) : Nat :=
  let t := s.teamAt i
  let k := s.slotsOf c p
  let set := s.idleLeaves c k i
  let leaf := set.getD (Config.counted s.now (countSlot c p) 5 % set.length) 4
  if !t.alive then (pcAdd t.pc 8).toNat + 2 ^ 59
  else if k.issued.contains i then t.lastPc.toNat + 2 ^ 57
  else if leaf = 5 then t.pc.toNat + 2 ^ 58
  else (if k.owed.any (fun o => o.team = i) then t.lastPc else t.pc).toNat + leaf * 2 ^ 60

/-- PC_SAMPLE: once in every period of 2^SPER cycles, the context's next team on the core. -/
def execPcSample (ctx die core : Nat) (s : State) : Host.Outcome State Fault Refusal :=
  let r := (s.ctxAt ctx).recorder
  let p := die * 64 + core
  let teams := ((s.crewsOn p).filter fun i => (s.crewAt i).ctx = some ctx).flatMap s.crewTeams
  let last := aget (0, 0) r.nextTeam p
  let period := (s.now - r.start) / 2 ^ r.sper
  if !(ctx < s.contexts.length && r.on && r.what.getLsbD 2 && die < 4 && core < 64 && r.dies.getLsbD die) || period ≤ last.1 then .next s else
  match teams[last.2 % teams.length]? with
  | none => .next s
  | some i =>
    let t := s.teamAt i
    let body := leBytes 8 (sampleWord s ctx p i) ++ leBytes 8 ((s.crewAt t.crew).crewid.toNat * 2 ^ 32 + t.num % 16)
    let s := s.modCtx ctx fun x => { x with recorder := { x.recorder with
      nextTeam := aset (0, 0) x.recorder.nextTeam p (period, last.2 % teams.length + 1) } }
    .next (s.recordTo ctx 2 die core 4 body)

/-! The log of arrivals (R418). -/

/-- The header flit of a packet as a number, its CRC field zero (Table 17-2). -/
def headerNat (p : Packet) : Nat :=
  p.cls.toNat * 2 ^ 252 + p.op.toNat * 2 ^ 246 + p.first.toNat * 2 ^ 240 + p.last.toNat * 2 ^ 234 + p.src.toNat * 2 ^ 222 +
  p.dst.toNat * 2 ^ 210 + p.exp.toNat * 2 ^ 194 + p.xid.toNat * 2 ^ 178 + p.gen.toNat * 2 ^ 162 + p.otag.toNat * 2 ^ 138 +
  p.kind.toNat * 2 ^ 136 + p.obs.toNat * 2 ^ 129 + p.addr.toNat * 2 ^ 72 + p.seq.toNat * 2 ^ 64 + p.scales.toNat * 2 ^ 32
/-- The header flit, its CRC over the header and the payload (Table 17-2). -/
def headerFlit (p : Packet) : List Byte :=
  leBytes 32 (headerNat p + (Config.crc32 (leBytes 32 (headerNat p) ++ p.line)).toNat)
/-- The packet that a header flit and a line make. -/
def packetOf (n : Nat) (line : List Byte) : Packet :=
  let f (lo w : Nat) : BitVec w := BitVec.ofNat w (n / 2 ^ lo)
  { cls := f 252 4, op := f 246 6, first := f 240 6, last := f 234 6, src := f 222 12, dst := f 210 12, exp := f 194 16, xid := f 178 16
    gen := f 162 16, otag := f 138 24, kind := f 136 2, obs := f 129 7, addr := f 72 56, seq := f 64 8, scales := f 32 32, line := line }

/-- A firmware request as a packet. -/
def msgPacket (m : FwMsg) : Packet :=
  { m.head with
    cls := 2, op := 1, src := m.src, dst := Config.deviceId
    line := leBytes 2 m.code.toNat ++ leBytes 2 m.seq.toNat ++ leBytes 4 m.cid.toNat ++ (m.args ++ List.replicate 56 0).take 56 }
/-- A response packet to a request of this device, with the number that names it. -/
def answerPacket (src : BitVec 12) (op : BitVec 6) (n : Nat) (line : List Byte) : Packet :=
  { cls := 1, op := op, first := 0, last := 63, src := src, dst := Config.deviceId, exp := 0, xid := BitVec.ofNat 16 n, gen := 0, otag := 0, kind := 0
    obs := 0, addr := 0, seq := 0, scales := 0, line := line }
/-- The header of a deadline that has passed: it names the request, and there is no packet (DESIGN CHOICE, log 21). -/
def deadlineHeader (n : Nat) : Packet :=
  { cls := 0, op := 0, first := 0, last := 0, src := 0, dst := 0, exp := 0, xid := BitVec.ofNat 16 n, gen := 0, otag := 0, kind := 0
    obs := 0, addr := 0, seq := 0, scales := 0, line := [] }
/-- The local NACK of a port to a request. -/
def localNackOf (n : Nat) : Nat × Packet := (5, answerPacket Config.deviceId opNACK n (cREMOTE_FAULT :: List.replicate 63 0))
/-- The records of the answers to what the firmware reads for a message: DATA for each line; a refusal is one NACK, or a port's own for each
request (DESIGN CHOICE, log 21). `bs` are the bytes. -/
def State.readRecords (s : State) (c : Nat) (m : FwMsg) (bs : List Byte) : List (BitVec 16 × Nat × Nat) → List (Nat × Packet)
  | [] => []
  | (exp, off, n) :: rest =>
    let r := s.readOut (some c) m.src exp off n
    let k := s.reqNumber c s.reqs.length
    let ps := linePieces (n / 64 + 2) off n
    if r.2 then
      (ps.zip (List.range ps.length)).map (fun (p : (Nat × Nat) × Nat) =>
        let x := lineWith (p.1.1 % 64) ((bs.drop (p.1.1 - off)).take p.1.2)
        (1, { answerPacket m.src opDATA (k + p.2) x with
              first := BitVec.ofNat 6 (p.1.1 % 64), last := BitVec.ofNat 6 (p.1.1 % 64 + p.1.2 - 1), otag := tagExternal })) ++
        r.1.readRecords c m (bs.drop n) rest
    else if (s.portFor Config.deviceId m.src exp).isNone then (List.range ps.length).map fun j => localNackOf (k + j)
    else [(1, answerPacket m.src opNACK k (List.replicate 64 0))]
/-- The answers to reads that follow a message in a log: those to the requests from number `k` on. -/
def readAnswers : Nat → List (Nat × Packet) → List Packet
  | k, (kind, p) :: rest => if (kind = 1 || kind = 5) && p.xid = BitVec.ofNat 16 k then p :: readAnswers (k + 1) rest else []
  | _, [] => []
/-- The bytes that answers bring; none where a read is refused. -/
def readBytes (ps : List Packet) : List Byte :=
  if ps.any (fun p => p.op = opNACK) then [] else
  ps.flatMap fun p => (p.line.drop p.first.toNat).take (p.last.toNat + 1 - p.first.toNat)

/-- The records of a log. `fuel` bounds them. -/
def parseLog : Nat → List Byte → List LogRec
  | 0, _ => []
  | fuel + 1, bs =>
    let b (off n : Nat) : Nat := leNat ((bs.drop off).take n)
    let n := b 0 2; let kind := b 2 1
    if n < 8 || n % 8 ≠ 0 || bs.length < n then [] else
    let rest := parseLog fuel (bs.drop n)
    if kind = 5 then .arrival (b 8 8) (b 16 4) (b 20 1) (packetOf (b 24 32) ((bs.drop 56).take (n - 56))) :: rest
    else if kind = 6 then .epochEnd (b 8 8) (b 16 4) (BitVec.ofNat 32 (b 20 4)) :: rest
    else rest

/-- The log in stream 3 of a region: what lies between TAIL and HEAD. -/
def State.readLog (s : State) (c a : Nat) : Option Replay :=
  match s.vLoad c (a + 192) 64 with
  | none => none
  | some h =>
    let b (off : Nat) : Nat := leNat ((h.drop off).take 8)
    let size := b 32
    if b 0 < b 8 || size < b 0 - b 8 then none else
    match s.vLoad c (a + b 24) size with
    | none => none
    | some area =>
      let from_ := b 8 % size
      some { log := parseLog (size / 8 + 1) ((area.drop from_ ++ area.take from_).take (b 0 - b 8)), truncated := b 40 % 2 = 1 }

/-- REPLAY_START (R419): the context has the code object, the arguments, the quantum and the grant sizes of the recorded one. -/
def doReplayStart (m : FwMsg) : FwDo := fwContext m [(12, 20)] fun c s =>
  let x := s.ctxAt c
  let off := fwArg m.args 16 8; let len := fwArg m.args 24 8
  if off % 65536 ≠ 0 || len % 65536 ≠ 0 || len < 262144 then (s, some (stMALFORMED, []))
  else if !x.replayable || !x.hasJob || !x.holdJob then (s, some (stSTATE, []))
  else
    match s.regionAt c (fwArg m.args 12 4) off len with
    | none => (s, some (stDENIED, []))
    | some a =>
      match (if Config.recordedProfile c a s.tick = (x.object, x.hostArgs, x.quantum, x.sizes) then s.readLog c a else none) with
      | none => ({ s with tick := s.tick + 1 }, some (stSTATE, []))
      | some r =>
        let s := { s with tick := s.tick + 1 }.fwAnswer (some c) m.src m.code m.seq stOK []
        ((s.newLog c).modCtx c fun x => { x with replay := some r }, none)

/-- The firmware commands, with what the firmware reads for them. -/
def firmwareCommand (i : Instr) : Option (FwMsg × List Byte × FwDo) :=
  match i with
  | .deviceQueryId m => some (m, [], doQueryId m)
  | .deviceQueryHealth m => some (m, [], doQueryHealth m)
  | .deviceQueryKillLog m => some (m, [], doQueryKillLog m)
  | .deviceQueryFaultLog m => some (m, [], doQueryFaultLog m)
  | .negotiate m => some (m, [], doNegotiate m)
  | .routeSet m => some (m, [], doRouteSet m)
  | .contextCreate m => some (m, [], doContextCreate m)
  | .contextDestroy m => some (m, [], doContextDestroy m)
  | .poolGrant m => some (m, [], doPoolGrant m)
  | .jobStart m o a =>
    let n := fwArg m.args 16 8
    some (m, (o ++ List.replicate (n - o.length) 0).take n ++ a, doJobStart m o a)
  | .jobCancel m => some (m, [], doJobCancel m)
  | .windowExport m => some (m, [], doWindowExport m)
  | .windowImport m => some (m, [], doWindowImport m)
  | .windowCloseExport m => some (m, [], doWindowCloseExport m)
  | .windowCloseRoot m => some (m, [], doWindowCloseRoot m)
  | .groupForm m ms => some (m, ms.flatMap fun d => leBytes 2 d.toNat, doGroupForm m ms)
  | .groupReform m ms => some (m, ms.flatMap fun d => leBytes 2 d.toNat, doGroupReform m ms)
  | .attest m => some (m, [], doAttest m)
  | .keyRotateRotate m => some (m, [], doRotate m)
  | .keyRotateCompartment m b => some (m, b, doCompartment m b)
  | .keyRotateFabric m b => some (m, b, doFabricKey m b)
  | .lockState m => some (m, [], doLockState m)
  | .recordStart m => some (m, [], doRecordStart m)
  | .recordStop m => some (m, [], doRecordStop m)
  | .replayStart m => some (m, [], doReplayStart m)
  | _ => none
/-- The context whose epoch holds a command (R417); none for a device's. -/
def commandCtx (i : Instr) : Option Nat :=
  match i with
  | .deviceQueryId _ | .deviceQueryHealth _ | .deviceQueryKillLog _ | .deviceQueryFaultLog _ | .negotiate _ | .routeSet _ | .contextCreate _ => none
  | i => (fwMsgOf i).bind fwCtx

/-- The command of a logged message, with the bytes that were read for it. -/
def commandOf (m : FwMsg) (bs : List Byte) : Option Instr :=
  let ids := (List.range (bs.length / 2)).map fun i => BitVec.ofNat 12 (leNat ((bs.drop (2 * i)).take 2))
  let sub := fwArg m.args 8 1
  if m.code = 0x11 then some (.contextDestroy m) else if m.code = 0x12 then some (.poolGrant m)
  else if m.code = 0x20 then some (.jobStart m (bs.take (fwArg m.args 16 8)) (bs.drop (fwArg m.args 16 8))) else if m.code = 0x21 then some (.jobCancel m)
  else if m.code = 0x28 then some (.windowExport m) else if m.code = 0x29 then some (.windowImport m)
  else if m.code = 0x2A then some (if sub = 0 then .windowCloseExport m else .windowCloseRoot m)
  else if m.code = 0x30 then some (.groupForm m ids) else if m.code = 0x31 then some (.groupReform m ids)
  else if m.code = 0x40 then some (.attest m)
  else if m.code = 0x41 then
    some (if sub = 0 then .keyRotateRotate m else if sub = 1 then .keyRotateCompartment m (bs.take (fwArg m.args 40 8)) else .keyRotateFabric m (bs.take 1568))
  else if m.code = 0x42 then some (.lockState m) else if m.code = 0x50 then some (.recordStart m)
  else if m.code = 0x51 then some (.recordStop m) else none

/-- A packet as it is delivered: from an S7 with the fields that it stands for (17 R347). -/
def State.asDelivered (s : State) (p : Packet) : Packet :=
  if s.fromS7 p.src then { p with otag := s.tagFrom p, kind := 0, scales := 0, obs := 0x7F } else p
/-- The records of a delivery: kind and packet (R418). -/
def State.loggedAs (s : State) (c : Nat) (i : Instr) : List (Nat × Packet) :=
  let named (p : Packet) : Packet :=
    let q := s.asDelivered p
    match s.reqOf p with | some k => { q with xid := BitVec.ofNat 16 (s.reqNumber c k) } | none => q
  match i with
  | .read p | .readAcq p | .write p | .writeRel p | .atomic p => [(0, s.asDelivered p)]
  | .data p | .ack p => [(1, named p)]
  | .nack p => [(if p.src = Config.deviceId then 5 else 1, named p)]
  | .collectivePacket p | .vote p _ _ => [(2, s.asDelivered p)]
  | .fabricTimeout q => [(4, deadlineHeader (s.reqNumber c q))]
  | .groupMessage _ g src crc said =>
    [(3, { said.head with cls := 2, op := 1, src := src, dst := Config.deviceId, line := groupLine g crc said.gen said.confirm })]
  | i =>
    match firmwareCommand i with
    | some (m, bs, go) => (3, msgPacket m) :: (if s.reqs.length < (go s).1.reqs.length then s.readRecords c m bs (fwSources m) else [])
    | none => []

/-- Write the arrival records of a delivery; `n` is the sequence of the first. -/
def State.logArrivals (s : State) (c n : Nat) : List (Nat × Packet) → State
  | [] => s
  | (k, p) :: rest =>
    let x := s.ctxAt c
    let body := leBytes 8 x.epoch ++ leBytes 4 n ++ [BitVec.ofNat 8 k, 0, 0, 0] ++ headerFlit p ++ (if p.line.isEmpty then [] else (p.line ++ List.replicate 64 0).take 64)
    (s.recordTo c 3 x.lowestDie 0 5 body).logArrivals c (n + 1) rest

/-! Deliveries (R417). -/

/-- Deliver what has been held. -/
def State.deliver (s : State) (i : Instr) : State :=
  match i with
  | .read p => s.serve (.read false) p
  | .readAcq p => s.serve (.read true) p
  | .write p => s.serve (.write false) p
  | .writeRel p => s.serve (.write true) p
  | .atomic p => s.serve .atomic p
  | .data p => s.respond (.data p)
  | .ack p => s.respond (.ack p)
  | .nack p => s.respond (.nack p)
  | .fabricTimeout q => s.closeReq q (.refused cREMOTE_TIMEOUT)
  | .collectivePacket p => s.takePacket p
  | .vote p v r => s.takeVote p v r
  | .groupMessage c g src crc said => s.groupMsg c g src crc said
  | i =>
    match firmwareCommand i with
    | some (m, _, go) => s.fwServe (commandCtx i) m go
    | none => s
/-- Deliver a list, each with its records. -/
def State.deliverAll (s : State) (c n : Nat) : List Instr → State
  | [] => s
  | i :: rest =>
    let rs := s.loggedAs c i
    ((s.logArrivals c n rs).deliver i).deliverAll c (n + rs.length) rest

/-! Replay (R419). -/

/-- The request that a log names. -/
def State.loggedReq (s : State) (c : Nat) (xid : BitVec 16) : Option Nat :=
  (indices s.reqs).find? fun i =>
    match s.reqAt i with
    | none => false
    | some r => r.ctx = some c && r.st = .out && BitVec.ofNat 16 (s.reqNumber c i) = xid

/-- A logged command, with the bytes that its reads brought. The JOB_START of the job that is held starts it (DESIGN CHOICE, log 21). -/
def State.replayCommand (s : State) (c : Nat) (m : FwMsg) (bs : List Byte) : State :=
  let x := s.ctxAt c
  match commandOf m bs with
  | some (.jobStart _ o a) =>
    if x.hasJob && x.holdJob && o = x.object && a = x.hostArgs then
      ((s.readFor c m).1.modCtx c fun x => { x with holdJob := false }).fwAnswer (some c) m.src m.code m.seq stOK []
    else s.deliver (.jobStart m o a)
  | some i => s.deliver i
  | none => s
/-- Deliver the records of an epoch. `fuel` bounds them. -/
def State.replayAll (s : State) (c : Nat) : Nat → List (Nat × Packet) → State
  | 0, _ => s
  | _, [] => s
  | fuel + 1, (k, p) :: rest =>
    let close (r : ReqState) : State := match s.loggedReq c p.xid with | some q => s.closeReq q r | none => s
    if k = 0 then
      (if p.op = opREAD then s.serve (.read false) p else if p.op = opREAD_ACQ then s.serve (.read true) p
       else if p.op = opWRITE then s.serve (.write false) p else if p.op = opWRITE_REL then s.serve (.write true) p
       else s.serve .atomic p).replayAll c fuel rest
    else if k = 1 then
      (if p.op = opDATA then close (.data p.line p.otag p.kind p.scales) else if p.op = opACK then close .acked
       else close (.refused (p.line.getD 0 0))).replayAll c fuel rest
    else if k = 2 then
      (if collOf p.op = some .vote then s.takeVote p (Config.voteOf p.line).1 (Config.voteOf p.line).2 else s.takePacket p).replayAll c fuel rest
    else if k = 3 then
      match Config.groupMessageOf p.line with
      | some (g, crc, gen, confirm) => (s.groupMsg c g p.src crc { gen := gen, confirm := confirm }).replayAll c fuel rest
      | none =>
        let b (off n : Nat) : Nat := leNat ((p.line.drop off).take n)
        let m : FwMsg := { src := p.src, code := BitVec.ofNat 16 (b 0 2), seq := BitVec.ofNat 16 (b 2 2), cid := BitVec.ofNat 32 (c + 1), args := p.line.drop 8 }
        let said := readAnswers (s.reqNumber c s.reqs.length) rest
        (s.replayCommand c m (readBytes said)).replayAll c fuel (rest.drop said.length)
    else if k = 4 then (close (.refused cREMOTE_TIMEOUT)).replayAll c fuel rest
    else (close (.refused cREMOTE_FAULT)).replayAll c fuel rest

def execRecordStart (m : FwMsg) (s : State) : Host.Outcome State Fault Refusal := fwArrive (fwCtx m) m (.recordStart m) (doRecordStart m) s
def execRecordStop (m : FwMsg) (s : State) : Host.Outcome State Fault Refusal := fwArrive (fwCtx m) m (.recordStop m) (doRecordStop m) s
def execReplayStart (m : FwMsg) (s : State) : Host.Outcome State Fault Refusal := fwArrive (fwCtx m) m (.replayStart m) (doReplayStart m) s

/-! The end of an epoch (R417-R419). -/

/-- Requests of each sender whose turn has come are taken up, in their order of arrival (17 R349). -/
def State.serveNext (s : State) (dev : BitVec 12) : State :=
  let x := s.sender dev
  x.queue.foldl (fun (s : State) i =>
    match fwMsgOf i with
    | none => s
    | some m =>
      let y := s.sender dev
      if (s.contexts.flatMap (·.held) ++ y.queue.takeWhile fun j => j ≠ i).any (fun j =>
          match fwMsgOf j with | some x => x.src = m.src && seqBefore x.seq m.seq | none => false) then s
      else (s.setSender { y with queue := y.queue.filter fun j => j ≠ i }).arrive (commandCtx i) i fun s => s.deliver i) s
def State.serveWaiting (s : State) : State := (s.senders.map (·.dev)).foldl State.serveNext s

/-- A crew need go no further in the epoch: it has retired its instructions, or every team waits, has ended, is stopped or awaits an arrival. -/
def State.epochDone (s : State) (ci : Nat) : Bool :=
  let c := s.crewAt ci
  c.state ≠ .resident || s.epochOver ci ||
    c.teams.all fun i =>
      let t := s.teamAt i
      !t.alive || t.wait.isSome || t.halted || t.st = .stopped || s.awaitsArrival i

/-- The ports of a replay end it: the job is cancelled, and its creator learns. -/
def State.endReplay (s : State) (c epoch status : Nat) : State :=
  ((s.modCtx c fun x => { x with replay := none }).cancelJob c).notify c 0xC052 (leBytes 8 epoch ++ leBytes 1 status)

/-- Compare what was sent with the log. -/
def State.compareEpoch (s : State) (c : Nat) (r : Replay) (rest : List LogRec) (sent : Nat) (crc : BitVec 32) : State :=
  let e := (s.ctxAt c).epoch
  let over_ := if r.truncated then 2 else 0
  match rest with
  | [] => s.endReplay c e over_
  | .epochEnd e' n k :: rest =>
    if e' ≠ e || n ≠ sent || k ≠ crc then s.endReplay c e 1
    else if rest.isEmpty then s.endReplay c e over_
    else s.modCtx c fun x => { x with replay := some { r with log := rest } }
  | .arrival _ _ _ _ :: _ => s.endReplay c e 1

def isArrivalOf (e : Nat) (r : LogRec) : Bool := match r with | .arrival e' _ _ _ => e' = e | .epochEnd _ _ _ => false
def arrivalOf (r : LogRec) : Option (Nat × Packet) := match r with | .arrival _ _ k p => some (k, p) | .epochEnd _ _ _ => none

/-- Deliveries, the record of the epoch, and the next epoch: quanta that are over end (07 R196), the crews of vacated cores are saved (07 R197),
requests that have waited for those delivered are taken up. -/
def State.endEpoch (s : State) (c : Nat) : State :=
  let x := s.ctxAt c
  let s := match x.replay with
    | none => (s.modCtx c fun x => { x with held := [] }).deliverAll c 0 x.held
    | some r =>
      let now_ := r.log.takeWhile (isArrivalOf x.epoch)
      s.replayAll c now_.length (now_.filterMap arrivalOf)
  let sent := (s.ctxAt c).sentHeads
  let crc := Config.crc32 (sent.flatMap fun p => leBytes 32 (headerNat p))
  let s := s.recordTo c 3 x.lowestDie 0 6 (leBytes 8 x.epoch ++ leBytes 4 sent.length ++ leBytes 4 crc.toNat)
  let s := match x.replay with
    | none => s
    | some r => s.compareEpoch c r (r.log.dropWhile (isArrivalOf x.epoch)) sent.length crc
  let s : State := { s with
    crews := s.crews.map fun (k : Crew) => if k.ctx = some c then { k with epochUsed := 0 } else k
    teams := s.teams.map fun (t : Team) => if s.ctxOf t = some c then { t with epochUsed := 0 } else t }
  let s := s.modCtx c fun x => { x with epoch := x.epoch + 1, sentHeads := [] }
  let s := (indices s.crews).foldl (fun (s : State) i =>
    let k := s.crewAt i
    if k.ctx ≠ some c || k.state ≠ .resident then s
    else if (match (s.coreAt k.place).reservedTo with | none => false | some l => l ≠ k.launch) then s.startSave i
    else if x.quantum ≤ k.used then s.endQuantum i else s) s
  s.serveWaiting

/-- EPOCH_END (R417): while the context runs in epochs or replays a log, and once more for what stands over. -/
def execEpochEnd (ctx : Nat) (s : State) : Host.Outcome State Fault Refusal :=
  let x := s.ctxAt ctx
  let over_ := x.replay.isSome || (!x.hasJob && (!x.held.isEmpty || !x.sentHeads.isEmpty))
  let done := (indices s.crews).all fun i => (s.crewAt i).ctx ≠ some ctx || s.epochDone i
  if ctx < s.contexts.length && x.replayable && (s.inEpoch (some ctx) || over_) && done then .next (s.endEpoch ctx) else .next s

end Sys2Proof.Machine
end

