-- ==== Sys2Proof/Machine/Debug.lean ====
section
/-! DEFINITION. The debugger of a context: the commands of its mailbox (21 R411-R416). -/
namespace Sys2Proof.Machine

/-! Commands. -/

/-- What a command does: the state after it, its status and results (from byte 8 on). -/
abbrev DbgDo := State → State × Nat × List Byte

/-- CODEs of Table 21-9. -/
def debugCodes : List (BitVec 16) := [0x01, 0x02, 0x03, 0x10, 0x11, 0x12, 0x13, 0x20, 0x21, 0x22, 0x23]
/-- The command that stands in a mailbox has a SEQ that is new, and is the message; ATTACH also stands for what the table does not list. -/
def State.inMailbox (s : State) (m : DbgMsg) (code : BitVec 16) : Bool :=
  let x := s.ctxAt m.ctx
  m.ctx < s.contexts.length && x.alive && x.mailbox ≠ 0 && (m.code = code || (code = 0x01 && !debugCodes.contains m.code)) && m.seq ≠ x.dbg.seq && m.args.length = 56 &&
    decide (s.mem.bytes (x.mailbox + 32768) 64 = leBytes 2 m.code.toNat ++ leBytes 2 m.seq.toNat ++ leBytes 4 m.rsv.toNat ++ m.args)

/-- Perform the command and write its reply with a release to HOST (R412). Every command but ATTACH needs an attached debugger; a
CODE of no command, or a non-zero reserved byte, is MALFORMED (17 R348, R349). -/
def debugDo (m : DbgMsg) (code : BitVec 16) (used : List (Nat × Nat)) (go : DbgDo) (s : State) : Host.Outcome State Fault Refusal :=
  if !s.inMailbox m code then .next s else
  let s := s.modDbg m.ctx fun d => { d with seq := m.seq }
  let r : State × Nat × List Byte :=
    if m.code ≠ code || m.rsv ≠ 0 || !reservedZero m.args used then (s, stMALFORMED, [])
    else if code ≠ 0x01 && !(s.ctxAt m.ctx).dbg.attached then (s, stSTATE, [])
    else go s
  .next (r.1.fwStore ((s.ctxAt m.ctx).mailbox + 32832)
    ((leBytes 2 (m.code ||| 0x8000).toNat ++ leBytes 2 m.seq.toNat ++ leBytes 4 r.2.1 ++ r.2.2 ++ List.replicate 64 0).take 64) obsHost)

/-! Attaching (R416). -/

/-- Milliseconds in cycles of the arithmetic clock (17 R357). -/
def State.msCycles (s : State) (ms : Nat) : Nat := ms * 1000 * s.clock
def doAttach (m : DbgMsg) : DbgDo := fun s =>
  let ms := fwArg m.args 8 4
  if ms = 0 || 60000 < ms then (s, stMALFORMED, [])
  else if (s.ctxAt m.ctx).dbg.attached then (s, stSTATE, [])
  else (s.modDbg m.ctx fun d => { d with attached := true, lease := s.msCycles ms, until_ := s.now + s.msCycles ms }, stOK, [])

def execAttach (m : DbgMsg) (s : State) : Host.Outcome State Fault Refusal := debugDo m 0x01 [(8, 4)] (doAttach m) s
def execDetach (m : DbgMsg) (s : State) : Host.Outcome State Fault Refusal :=
  debugDo m 0x02 [] (fun s => (s.detachDbg m.ctx, stOK, [])) s
def execRenew (m : DbgMsg) (s : State) : Host.Outcome State Fault Refusal :=
  debugDo m 0x03 [] (fun s => (s.modDbg m.ctx fun d => { d with until_ := s.now + d.lease }, stOK, [])) s
/-- LEASE_EXPIRY. -/
def execLeaseExpiry (ctx : Nat) (s : State) : Host.Outcome State Fault Refusal :=
  let d := (s.ctxAt ctx).dbg
  if ctx < s.contexts.length && d.attached && d.until_ ≤ s.now then .next (s.detachDbg ctx) else .next s

/-! Breakpoints and watchpoints. -/

def doBpSet (m : DbgMsg) : DbgDo := fun s =>
  let n := fwArg m.args 8 1; let a := fwArg m.args 16 8
  if 8 ≤ n || 2 ^ 57 ≤ a then (s, stMALFORMED, []) else
  let b : Breakpoint := { addr := BitVec.ofNat 57 a, teamid := BitVec.ofNat 32 (fwArg m.args 24 4) }
  (s.modDbg m.ctx fun d => { d with bps := d.bps.filter (fun x => x.1 ≠ n) ++ [(n, b)] }, stOK, [])
def doBpClr (m : DbgMsg) : DbgDo := fun s =>
  let n := fwArg m.args 8 1
  if 8 ≤ n then (s, stMALFORMED, []) else (s.modDbg m.ctx fun d => { d with bps := d.bps.filter fun x => x.1 ≠ n }, stOK, [])
def doWpSet (m : DbgMsg) : DbgDo := fun s =>
  let n := fwArg m.args 8 1; let kind := fwArg m.args 10 1; let a := fwArg m.args 16 8; let lg := fwArg m.args 24 4
  if 4 ≤ n || 2 ≤ fwArg m.args 9 1 || 4 ≤ kind || 20 < lg || a % 2 ^ lg ≠ 0 then (s, stMALFORMED, []) else
  let w : Watchpoint :=
    { scratch := fwArg m.args 9 1 = 1, reads := kind % 2 = 1, writes := 2 ≤ kind, addr := a, len := 2 ^ lg, crewid := BitVec.ofNat 32 (fwArg m.args 28 4) }
  (s.modDbg m.ctx fun d => { d with wps := d.wps.filter (fun x => x.1 ≠ n) ++ [(n, w)] }, stOK, [])
def doWpClr (m : DbgMsg) : DbgDo := fun s =>
  let n := fwArg m.args 8 1
  if 4 ≤ n then (s, stMALFORMED, []) else (s.modDbg m.ctx fun d => { d with wps := d.wps.filter fun x => x.1 ≠ n }, stOK, [])

def execBpSet (m : DbgMsg) (s : State) : Host.Outcome State Fault Refusal := debugDo m 0x10 [(8, 1), (16, 12)] (doBpSet m) s
def execBpClr (m : DbgMsg) (s : State) : Host.Outcome State Fault Refusal := debugDo m 0x11 [(8, 1)] (doBpClr m) s
def execWpSet (m : DbgMsg) (s : State) : Host.Outcome State Fault Refusal := debugDo m 0x12 [(8, 3), (16, 16)] (doWpSet m) s
def execWpClr (m : DbgMsg) (s : State) : Host.Outcome State Fault Refusal := debugDo m 0x13 [(8, 1)] (doWpClr m) s

/-! Teams. -/

/-- The team that bytes 8-12 name: of the first crew of that number, resident or saved (DESIGN CHOICE, log 23). -/
def State.namedTeam (s : State) (m : DbgMsg) : Option Nat :=
  let crews := (indices s.crews).filter fun i =>
    let k := s.crewAt i
    k.ctx = some m.ctx && k.started && k.state ≠ .ended && k.crewid.toNat = fwArg m.args 8 4
  match crews.head? with
  | none => none
  | some ci => (s.crewTeams ci).find? fun i => (s.teamAt i).num = fwArg m.args 12 1

/-- A command on a team: NOTFOUND, or DENIED in a compartment (R412). -/
def onTeam (m : DbgMsg) (go : Nat → DbgDo) : DbgDo := fun s =>
  match s.namedTeam m with
  | none => (s, stNOTFOUND, [])
  | some i => if s.comptOf (s.teamAt i) ≠ 0 then (s, stDENIED, []) else go i s

/-- A sibling of a trapping team stops for its handler too (14 R302); a team that has ended stays as it is. -/
def State.haltTeam (s : State) (i : Nat) : State :=
  if !(s.teamAt i).alive then s else
  let s := match (s.teamAt i).st with | .skid n => s.stopTeam i n | _ => s
  s.modTeam i fun t => { t with halted := true }
def doDebugHalt (m : DbgMsg) : DbgDo := onTeam m fun i s => (s.haltTeam i, stOK, [])
def doResume (m : DbgMsg) : DbgDo := onTeam m fun i s =>
  (if (s.teamAt i).alive then s.resumeTeam i (fwArg m.args 16 4) else s, stOK, [])
def execDebugHalt (m : DbgMsg) (s : State) : Host.Outcome State Fault Refusal := debugDo m 0x20 [(8, 5)] (doDebugHalt m) s
def execResume (m : DbgMsg) (s : State) : Host.Outcome State Fault Refusal := debugDo m 0x21 [(8, 5), (16, 4)] (doResume m) s

/-- The value and tag of a register: class, number, lane or word; nothing where there is none. Untagged registers read as
TAG_EXTERNAL (DESIGN CHOICE, log 23). -/
def State.debugValue (s : State) (i cls n l : Nat) : Option (Nat × Tag) :=
  let t := s.teamAt i
  match cls with
  | 0 => if n < 64 then some ((t.sreg n).v.toNat, (t.sreg n).tag) else none
  | 1 => if n < t.vregs && l < t.nlanes then some ((t.velem n l).v.toNat, (t.velem n l).tag) else none
  | 2 =>
    if n = 20 then (if l < t.nlanes then some ((t.trapaddr.getD l 0).toNat, tagExternal) else none)
    else if n < 23 && (n = 16 || l = 0) && l < 32 then some ((s.readSr t n l).toNat, tagExternal) else none
  | 3 => if n < 24 && l < t.nlanes then some (if (t.preg n).getLsbD l then 1 else 0, tagExternal) else none
  | _ => none
def doDebugRead (m : DbgMsg) : DbgDo := onTeam m fun i s =>
  if !(s.teamAt i).halted then (s, stSTATE, []) else
  match s.debugValue i (fwArg m.args 13 1) (fwArg m.args 14 1) (fwArg m.args 16 2) with
  | none => (s, stMALFORMED, [])
  | some (v, tag) => (s, stOK, List.replicate 16 0 ++ leBytes 8 v ++ leBytes 3 tag.toNat)
def execDebugRead (m : DbgMsg) (s : State) : Host.Outcome State Fault Refusal := debugDo m 0x22 [(8, 7), (16, 2)] (doDebugRead m) s

/-- A write of a special register: refused, or done as `wrsr` of the team would (R45). -/
def State.debugSpecial (s : State) (i n : Nat) (v : Word) : State × Nat × List Byte :=
  let t := s.teamAt i
  if 23 ≤ n then (s, stMALFORMED, [])
  else if (srDenied n t.mode).isSome then (s, stDENIED, [])
  else if srRefused n v || (n = 15 && v.toNat % 8 ≠ 0) || (n = 22 && (v.toNat % 4 = 3 || 24 ≤ v.toNat / 256 % 32)) then (s, stMALFORMED, [])
  else if n = 13 then (s.modTeam i fun t => { t with abandoned := t.abandoned && !v.getLsbD 0 }, stOK, [])
  else if n = 15 then (s.modTeam i fun t => { t with trappc := v.setWidth 57 }, stOK, [])
  else if n = 22 then
    ((s.modCrew t.crew fun c => { c with prio := v.toNat / 256 % 32 }).modTeam i fun t =>
      { t with mode := if v.toNat % 4 = 0 then .user else if v.toNat % 4 = 1 then .super else .firm }, stOK, [])
  else (s.writeSpecial i n v, stOK, [])
def doDebugWrite (m : DbgMsg) : DbgDo := onTeam m fun i s =>
  let t := s.teamAt i
  let cls := fwArg m.args 13 1; let n := fwArg m.args 14 1; let l := fwArg m.args 16 2; let v := fwArg m.args 24 8
  if !t.halted then (s, stSTATE, [])
  else if 4 ≤ cls then (s, stDENIED, [])
  else if cls = 2 then s.debugSpecial i n (BitVec.ofNat 64 v)
  else if (s.debugValue i cls n l).isNone then (s, stMALFORMED, [])
  else if cls = 0 then (s.modTeam i fun t => t.setS n (BitVec.ofNat 64 v) tagExternal, stOK, [])
  else if cls = 1 then (s.modTeam i fun t => t.writeV n l (BitVec.ofNat 32 v) tagExternal, stOK, [])
  else
    (s.modTeam i fun t =>
      t.setP n (if v % 2 = 1 then t.preg n ||| BitVec.twoPow 1024 l else t.preg n &&& ~~~(BitVec.twoPow 1024 l)), stOK, [])
def execDebugWrite (m : DbgMsg) (s : State) : Host.Outcome State Fault Refusal :=
  debugDo m 0x23 [(8, 7), (16, 2), (24, 8)] (doDebugWrite m) s

end Sys2Proof.Machine
end

