-- ==== Sys2Proof/Machine/Integer.lean ====
section
/-! DEFINITION. Integer, logical, shift, bit, move, compare and immediate instructions: MOP 0x10-0x1F (04 R94-R107). -/
namespace Sys2Proof.Machine

/-- An integer input of `tag_result`: its magnitude as read. -/
def intIn (x : Int) (tag : Tag) : TagIn := { tag := tag, m := x.natAbs }

/-- The end of the frame of R95: narrow, extend, tag. -/
def intRes (s : State) (t : Team) (f : RForm) (ins : List TagIn) (v : Int) : Res :=
  { v := extBits (narrow f.ty f.sat v), tag := tagResult t.rule (s.ownTag t) ins }

/-- The frame of R95 for one, two and three sources. -/
def int1 (s : State) (f : RForm) (op : Int → Int) (t : Team) (a _b _c : Opd) : Res :=
  let x := readInt f.ty a.v
  intRes s t f [intIn x a.tag] (op x)
def int2 (s : State) (f : RForm) (op : Int → Int → Int) (t : Team) (a b _c : Opd) : Res :=
  let x := readInt f.ty a.v; let y := readInt f.ty b.v
  intRes s t f [intIn x a.tag, intIn y b.tag] (op x y)
def int3 (s : State) (f : RForm) (op : Int → Int → Int → Int) (t : Team) (a b c : Opd) : Res :=
  let x := readInt f.ty a.v; let y := readInt f.ty b.v; let z := readInt f.ty c.v
  intRes s t f [intIn x a.tag, intIn y b.tag, intIn z c.tag] (op x y z)
/-- The same on the low w bits. -/
def bits1 (s : State) (f : RForm) (op : Nat → Nat → Nat) : Team → Opd → Opd → Opd → Res :=
  int1 s f fun x => op (Rows.width f.ty) (lowBits f.ty x)
def bits2 (s : State) (f : RForm) (op : Nat → Nat → Nat → Nat) : Team → Opd → Opd → Opd → Res :=
  int2 s f fun x y => op (Rows.width f.ty) (lowBits f.ty x) (lowBits f.ty y)

/-! R96-R99. -/
def execAdd (f : RForm) (s : State) : Host.Outcome State Fault Refusal := mapLanes (.add f) s (int2 s f fun a b => a + b)
def execSub (f : RForm) (s : State) : Host.Outcome State Fault Refusal := mapLanes (.sub f) s (int2 s f fun a b => a - b)
def execMulLo (f : RForm) (s : State) : Host.Outcome State Fault Refusal := mapLanes (.mulLo f) s (int2 s f fun a b => a * b)
def execMulHi (f : RForm) (s : State) : Host.Outcome State Fault Refusal :=
  mapLanes (.mulHi f) s (int2 s f fun a b => Int.fdiv (a * b) (2 ^ Rows.width f.ty))
def execMad (f : RForm) (s : State) : Host.Outcome State Fault Refusal := mapLanes (.mad f) s (int3 s f fun a b c => a * b + c)
def execMin (f : RForm) (s : State) : Host.Outcome State Fault Refusal := mapLanes (.min f) s (int2 s f fun a b => if a ≤ b then a else b)
def execMax (f : RForm) (s : State) : Host.Outcome State Fault Refusal := mapLanes (.max f) s (int2 s f fun a b => if b ≤ a then a else b)
def execAbs (f : RForm) (s : State) : Host.Outcome State Fault Refusal := mapLanes (.abs f) s (int1 s f fun a => (a.natAbs : Int))
def execNeg (f : RForm) (s : State) : Host.Outcome State Fault Refusal := mapLanes (.neg f) s (int1 s f fun a => -a)

/-- `addc` and `subc` read A and B unsigned, and bit 0 of C (R97); C's magnitude is that of the bit that is read (DEDUCED, log 13). -/
def carryRes (s : State) (f : RForm) (op : Nat → Nat → Nat → Bool) (t : Team) (a b c : Opd) : Res :=
  let w := Rows.width f.ty
  let x := a.v % 2 ^ w; let y := b.v % 2 ^ w
  { v := if op x y (c.v % 2) then 1 else 0
    tag := tagResult t.rule (s.ownTag t) [{ tag := a.tag, m := x }, { tag := b.tag, m := y }, { tag := c.tag, m := c.v % 2 }] }
def execAddc (f : RForm) (s : State) : Host.Outcome State Fault Refusal :=
  mapLanes (.addc f) s (carryRes s f fun a b c => 2 ^ Rows.width f.ty ≤ a + b + c)
def execSubc (f : RForm) (s : State) : Host.Outcome State Fault Refusal :=
  mapLanes (.subc f) s (carryRes s f fun a b c => a < b + c)

/-- The exact product, twice as wide (R98). -/
def execMulw (f : RForm) (s : State) : Host.Outcome State Fault Refusal :=
  mapLanes (.mulw f) s fun t a b _ =>
    let x := readInt f.ty a.v; let y := readInt f.ty b.v
    { v := extBits (x * y), tag := tagResult t.rule (s.ownTag t) [intIn x a.tag, intIn y b.tag] }

def execDiv (f : RForm) (s : State) : Host.Outcome State Fault Refusal := mapLanes (.div f) s (int2 s f divInt)
def execRem (f : RForm) (s : State) : Host.Outcome State Fault Refusal := mapLanes (.rem f) s (int2 s f remInt)

/-! R100, R101. -/
def execAnd (f : RForm) (s : State) : Host.Outcome State Fault Refusal := mapLanes (.and f) s (bits2 s f fun _ a b => Nat.land a b)
def execOr (f : RForm) (s : State) : Host.Outcome State Fault Refusal := mapLanes (.or f) s (bits2 s f fun _ a b => Nat.lor a b)
def execXor (f : RForm) (s : State) : Host.Outcome State Fault Refusal := mapLanes (.xor f) s (bits2 s f fun _ a b => Nat.xor a b)
def execAndn (f : RForm) (s : State) : Host.Outcome State Fault Refusal :=
  mapLanes (.andn f) s (bits2 s f fun w a b => Nat.land a (2 ^ w - 1 - b))
def execNot (f : RForm) (s : State) : Host.Outcome State Fault Refusal := mapLanes (.not f) s (bits1 s f fun w a => 2 ^ w - 1 - a)
def execShl (f : RForm) (s : State) : Host.Outcome State Fault Refusal := mapLanes (.shl f) s (bits2 s f shlN)
def execShr (f : RForm) (s : State) : Host.Outcome State Fault Refusal := mapLanes (.shr f) s (bits2 s f shrN)
def execSar (f : RForm) (s : State) : Host.Outcome State Fault Refusal := mapLanes (.sar f) s (bits2 s f sarN)
def execRot (f : RForm) (s : State) : Host.Outcome State Fault Refusal := mapLanes (.rot f) s (bits2 s f rotN)

/-! R102. -/
def execClz (f : RForm) (s : State) : Host.Outcome State Fault Refusal := mapLanes (.clz f) s (bits1 s f clzN)
def execPopc (f : RForm) (s : State) : Host.Outcome State Fault Refusal := mapLanes (.popc f) s (bits1 s f popcN)
def execBrev (f : RForm) (s : State) : Host.Outcome State Fault Refusal := mapLanes (.brev f) s (bits1 s f brevN)
/-- B is the raw descriptor; its magnitude is b[14:0]. -/
def execBfx (f : RForm) (s : State) : Host.Outcome State Fault Refusal :=
  mapLanes (.bfx f) s fun t a b _ =>
    let x := readInt f.ty a.v
    intRes s t f [intIn x a.tag, { tag := b.tag, m := b.v % 2 ^ 15 }] (bfxN (Rows.isSigned f.ty) (Rows.width f.ty) a.v b.v)
def execBfi (f : RForm) (s : State) : Host.Outcome State Fault Refusal :=
  mapLanes (.bfi f) s fun t a b c =>
    let x := readInt f.ty a.v; let z := readInt f.ty c.v
    intRes s t f [intIn x a.tag, { tag := b.tag, m := b.v % 2 ^ 15 }, intIn z c.tag] (bfiN (Rows.width f.ty) a.v b.v c.v)

/-! R103: moves. -/
def execMov (f : RForm) (s : State) : Host.Outcome State Fault Refusal :=
  mapLanes (.mov f) s fun _ a _ _ => { v := extBits (readInt f.ty a.v), tag := a.tag }

/-- `sel` reads in each lane only the source that its predicate chooses. -/
def execSel (f : RForm) (s : State) : Host.Outcome State Fault Refusal :=
  issue (.sel f) s fun t =>
    match Rows.view (.sel f) with
    | .r mop _ row _ _ =>
      tagR row f t <|
      let lanes := t.lanesFor row f
      if destBusy t f.ln row.d f.d.toNat f.ty lanes then .error .wait else
      let la := lanes.filter fun l => t.pred f.ln f.c.toNat l
      let lb := lanes.filter fun l => !t.pred f.ln f.c.toNat l
      match readFld t row.a f.ln (f.ob.getLsbD 2) f.ea f.ty f.ty f.a.toNat la with
      | .error e => .error e
      | .ok as =>
      match readFld t row.b f.ln (f.ob.getLsbD 1) f.eb f.ty f.ty f.b.toNat lb with
      | .error e => .error e
      | .ok bs =>
      let t' := (la.zip as ++ lb.zip bs).foldl (fun (t : Team) p =>
        t.writeGen f.ln .ty f.ty f.d.toNat p.1 (extBits (readInt f.ty p.2.v)) p.2.tag) t
      .ok (((s.setTeam t').shadow mop f.ln).retire 8)
    | _ => .ok s

/-! R104. -/
def execCmp (c : ICond) (f : RForm) (s : State) : Host.Outcome State Fault Refusal :=
  mapPred (.cmp c f) s true fun _ a b _ => (icond c (readInt f.ty a.v) (readInt f.ty b.v), 0)

/-! R105, R106: immediates, 64 bits wide in scalar form, 32 in lane form. -/

def immWidth (f : IForm) : Nat := if f.ln then 32 else 64
def immVal (f : IForm) : Int := f.imm.toInt

/-- A wrapped result of the operating width, with the immediate as an input of magnitude `m`. -/
def immRes (s : State) (t : Team) (f : IForm) (ins : List TagIn) (imm v : Int) : Res :=
  { v := bitsOf (immWidth f) v, tag := tagResult t.rule (s.ownTag t) (ins ++ [{ tag := tagImm, m := imm.natAbs }]) }
def immOp (s : State) (f : IForm) (imm : Int) (op : Int → Int) (t : Team) (a : Opd) : Res :=
  let x := sextN a.v (immWidth f)
  immRes s t f [intIn x a.tag] imm (op x)
def immBits (s : State) (f : IForm) (imm : Int) (op : Nat → Nat → Nat) (t : Team) (a : Opd) : Res :=
  immOp s f imm (fun x => (op (immWidth f) (bitsOf (immWidth f) x) : Nat)) t a

def execAddi (f : IForm) (s : State) : Host.Outcome State Fault Refusal := mapImm (.addi f) s (immOp s f (immVal f) fun x => x + (immVal f))
def execAndi (f : IForm) (s : State) : Host.Outcome State Fault Refusal :=
  mapImm (.andi f) s (immBits s f (immVal f) fun w x => Nat.land x (bitsOf w (immVal f)))
def execOri (f : IForm) (s : State) : Host.Outcome State Fault Refusal :=
  mapImm (.ori f) s (immBits s f (immVal f) fun w x => Nat.lor x (bitsOf w (immVal f)))
def execXori (f : IForm) (s : State) : Host.Outcome State Fault Refusal :=
  mapImm (.xori f) s (immBits s f (immVal f) fun w x => Nat.xor x (bitsOf w (immVal f)))
def immCount (f : IForm) : Nat := f.imm.toNat % 64
def execShli (f : IForm) (s : State) : Host.Outcome State Fault Refusal := mapImm (.shli f) s (immBits s f (immCount f) fun w x => shlN w x (immCount f))
def execShri (f : IForm) (s : State) : Host.Outcome State Fault Refusal := mapImm (.shri f) s (immBits s f (immCount f) fun w x => shrN w x (immCount f))
def execSari (f : IForm) (s : State) : Host.Outcome State Fault Refusal := mapImm (.sari f) s (immBits s f (immCount f) fun w x => sarN w x (immCount f))
def execRoti (f : IForm) (s : State) : Host.Outcome State Fault Refusal := mapImm (.roti f) s (immBits s f (immCount f) fun w x => rotN w x (immCount f))
def execMovi (f : IForm) (s : State) : Host.Outcome State Fault Refusal := mapImm (.movi f) s fun t _ => immRes s t f [] (immVal f) (immVal f)
def execMovhi (f : IForm) (s : State) : Host.Outcome State Fault Refusal :=
  mapImm (.movhi f) s fun t a =>
    immRes s t f [intIn (sextN a.v 64) a.tag] ((f.imm.toNat * 2 ^ 32 : Nat)) ((f.imm.toNat * 2 ^ 32 + a.v % 2 ^ 32 : Nat))
def execLit (f : IForm) (x : Word) (s : State) : Host.Outcome State Fault Refusal :=
  mapImm (.lit f x) s fun t _ =>
    { v := x.toNat, tag := tagResult t.rule (s.ownTag t) [{ tag := tagImm, m := x.toInt.natAbs }] }

/-- `cmpi` writes a predicate and consumes a poisoned source (R105, R107). -/
def execCmpi (c : CmpiCond) (f : IForm) (s : State) : Host.Outcome State Fault Refusal :=
  issue (.cmpi c f) s fun t =>
    match Rows.view (.cmpi c f) with
    | .i mop _ row _ =>
      tagI row f t <|
      let lanes := t.lanesForI row f
      match readFld t row.a f.ln false f.ea .i8 .i8 f.a.toNat lanes with
      | .error e => .error e
      | .ok as =>
      if as.any (fun o => o.tag = tagPoison) then .error (poisonTrap t) else
      let t' := (lanes.zip as).foldl (fun (t : Team) p => t.writePred f.ln f.d.toNat p.1 (cmpiCond c (immWidth f) p.2.v (immVal f))) t
      .ok (((s.setTeam t').shadow mop f.ln).retire 8)
    | _ => .ok s

end Sys2Proof.Machine
end

