-- ==== Sys2Proof/Machine/Lanes.lean ====
section
/-! DEFINITION. Predicates, the mask stack, votes, cross-lane moves, reductions and scans: MOP 0x70-0x7D (06 R158-R170, 03 R80, R81). -/
namespace Sys2Proof.Machine

/-! R158. -/
def b01 (o : Opd) : Bool := o.v = 1
def predOp (i : Instr) (s : State) (op : Bool → Bool → Bool) : Host.Outcome State Fault Refusal :=
  mapPred i s false fun _ a b _ => (op (b01 a) (b01 b), 0)
def execPset (f : RForm) (s : State) : Host.Outcome State Fault Refusal := predOp (.pset f) s fun _ _ => true
def execPand (f : RForm) (s : State) : Host.Outcome State Fault Refusal := predOp (.pand f) s fun a b => a && b
def execPor (f : RForm) (s : State) : Host.Outcome State Fault Refusal := predOp (.por f) s fun a b => a || b
def execPxor (f : RForm) (s : State) : Host.Outcome State Fault Refusal := predOp (.pxor f) s fun a b => a != b
def execPnot (f : RForm) (s : State) : Host.Outcome State Fault Refusal := predOp (.pnot f) s fun a _ => !a
def execPmov (f : RForm) (s : State) : Host.Outcome State Fault Refusal := predOp (.pmov f) s fun a _ => a

/-! R159-R161: the mask stack, the deepest entry first. -/
def execMpush (f : RForm) (s : State) : Host.Outcome State Fault Refusal :=
  issue (.mpush f) s fun t =>
    if Config.maskStackDepth ≤ t.stack.length then .error (trapNow t cILLEGAL) else
    let m := t.m &&& t.predMask f.a.toNat
    .ok ((s.setTeam { t with stack := (t.m, m) :: t.stack, m := m }).retire 8)
def execMelse (f : RForm) (s : State) : Host.Outcome State Fault Refusal :=
  issue (.melse f) s fun t =>
    match t.stack with
    | [] => .error (trapNow t cILLEGAL)
    | (o, k) :: rest =>
      let m := o &&& ~~~k
      .ok ((s.setTeam { t with stack := (o, m) :: rest, m := m }).retire 8)
def execMpop (f : RForm) (s : State) : Host.Outcome State Fault Refusal :=
  issue (.mpop f) s fun t =>
    match t.stack with
    | [] => .error (trapNow t cILLEGAL)
    | (o, _) :: rest => .ok ((s.setTeam { t with stack := rest, m := o }).retire 8)
def execMall (f : RForm) (s : State) : Host.Outcome State Fault Refusal :=
  issue (.mall f) s fun t =>
    if Config.maskStackDepth ≤ t.stack.length then .error (trapNow t cILLEGAL) else
    .ok ((s.setTeam { t with stack := (t.m, t.allLanes) :: t.stack, m := t.allLanes }).retire 8)

/-- Word w of a mask replaced. -/
def setMaskWord (m : Mask) (w : Nat) (x : BitVec 32) : Mask :=
  (m &&& ~~~((0xFFFFFFFF : Mask) <<< (32 * w))) ||| (x.setWidth 1024 <<< (32 * w))

def execMset (f : RForm) (s : State) : Host.Outcome State Fault Refusal :=
  issue (.mset f) s fun t =>
    tagR { a := .s, b := .s, ln := .s, g := false } f t <|
    match readS t f.a.toNat f.ea with
    | .error e => .error e
    | .ok a =>
    match readS t f.b.toNat f.eb with
    | .error e => .error e
    | .ok b =>
      if a.tag = tagPoison || b.tag = tagPoison then .error (poisonTrap t)
      else if t.nlanes / 32 ≤ a.v then .ok (s.retire 8)
      else
        let lim := maskWord (match t.stack with | [] => t.allLanes | (o, _) :: _ => o) a.v
        .ok ((s.setTeam { t with m := setMaskWord t.m a.v (BitVec.ofNat 32 b.v &&& lim) }).retire 8)

/-! R162, R163. -/
def execLid (f : RForm) (s : State) : Host.Outcome State Fault Refusal :=
  issue (.lid f) s fun t =>
    let lanes := lanesOf (t.laneGuard true f.g f.gn) t.nlanes
    .ok ((s.setTeam (lanes.foldl (fun (u : Team) l =>
      u.writeV f.d.toNat l (BitVec.ofNat 32 l) (tagFixed t.rule (s.ownTag t) [])) t)).retire 8)
def execVoteAny (f : RForm) (s : State) : Host.Outcome State Fault Refusal :=
  issue (.voteAny f) s fun t => .ok ((s.setTeam (t.setB f.d.toNat ((t.predMask f.a.toNat &&& t.m) ≠ 0))).retire 8)
def execVoteAll (f : RForm) (s : State) : Host.Outcome State Fault Refusal :=
  issue (.voteAll f) s fun t => .ok ((s.setTeam (t.setB f.d.toNat ((t.predMask f.a.toNat &&& t.m) = t.m))).retire 8)
def execVoteBallot (f : RForm) (s : State) : Host.Outcome State Fault Refusal :=
  issue (.voteBallot f) s fun t =>
    if destBusy t false .sD f.d.toNat .i8 [0] then .error .wait else
    tagR { b := .s, ln := .s } f t <|
    match readS t f.b.toNat f.eb with
    | .error e => .error e
    | .ok b =>
      if b.tag = tagPoison then .error (poisonTrap t) else
      let x := if t.nlanes / 32 ≤ b.v then 0 else maskWord (t.predMask f.a.toNat &&& t.m) b.v
      .ok ((s.setTeam (t.setS f.d.toNat (x.setWidth 64) (tagFixed t.rule (s.ownTag t) []))).retire 8)

/-! R164-R168: cross-lane moves. -/

/-- A source lane is in range and active (R164). -/
def Team.validSource (t : Team) (x : Int) : Bool := 0 ≤ x && x < t.nlanes && t.m.getLsbD x.toNat
/-- The lanes that the exchange of some lanes reads; `src` names each lane's source. -/
def Team.validSources (t : Team) (lanes : List Nat) (src : Nat → Int) : List Nat :=
  distinct ((lanes.filter fun l => t.validSource (src l)).map fun l => (src l).toNat)
/-- The frame of R164: `src` names each written lane's source; the source elements have `cnt` elements each; a valid source gives its
value as `shape` makes it. -/
def crossMove (s : State) (t : Team) (lanes : List Nat) (cnt d a : Nat) (pol : Bool) (src : Nat → Int) (shape : Nat → Nat) :
    Except Stop State :=
  let sources := t.validSources lanes src
  match readV t a cnt pol sources with
  | .error e => .error e
  | .ok os =>
    let of_ (l : Nat) : Opd :=
      if t.validSource (src l) then ((sources.zip os).find? fun p => p.1 = (src l).toNat).elim {} fun p => { p.2 with v := shape p.2.v }
      else { v := 0, tag := tagInactive }
    .ok ((s.setTeam (lanes.foldl (fun (u : Team) l => u.writeVs d cnt l (of_ l).v (of_ l).tag) t)).retire 8)

/-- R165: the source lanes that a register gives. -/
def regSource (bs : List (Nat × Opd)) (l : Nat) : Int := (bs.find? fun p => p.1 = l).elim 0 fun p => (p.2.v % 2 ^ 32 : Nat)
def execXch (f : RForm) (s : State) : Host.Outcome State Fault Refusal :=
  issue (.xch f) s fun t =>
    let lanes := lanesOf (t.laneGuard true f.g f.gn) t.nlanes
    let cnt := Rows.elems .ty f.ty f.ty
    if destBusy t true (.vD .ty) f.d.toNat f.ty lanes then .error .wait else
    tagR { a := .v .ty, b := .gen .one, ln := .l } f t <|
    match readGen t true (f.ob.getLsbD 1) f.eb 1 f.b.toNat lanes with
    | .error e => .error e
    | .ok bs =>
      crossMove s t lanes cnt f.d.toNat f.a.toNat f.ea (regSource (lanes.zip bs)) fun v => extBits (readInt f.ty v)

/-- The moves of F-I form: one element each. -/
def moveImm (i : Instr) (f : IForm) (s : State) (src : Nat → Int) : Host.Outcome State Fault Refusal :=
  issue i s fun t =>
    let lanes := lanesOf (t.laneGuard true f.g f.gn) t.nlanes
    if destBusy t true (.vD .one) f.d.toNat .i8 lanes then .error .wait else
    tagI { a := .v .one, ln := .l } f t <|
    crossMove s t lanes 1 f.d.toNat f.a.toNat f.ea src fun v => v

/-- R166: XOR in [9:0], AND in [19:10], OR in [29:20]. -/
def permSource (imm l : Nat) : Nat := Nat.xor (Nat.lor (Nat.land l (imm / 1024 % 1024)) (imm / 2 ^ 20 % 1024)) (imm % 1024)
/-- The source lane of an exchange of F-I form (R166-R168). -/
def immSource (i : Instr) (l : Nat) : Int :=
  match i with
  | .xchi f => permSource f.imm.toNat l
  | .xup f => (l : Int) - (f.imm.toNat % 1024 : Nat)
  | .xdn f => (l : Int) + (f.imm.toNat % 1024 : Nat)
  | .xbc f => (f.imm.toNat % 1024 : Nat)
  | _ => l
def execXchi (f : IForm) (s : State) : Host.Outcome State Fault Refusal := moveImm (.xchi f) f s (immSource (.xchi f))
def execXup (f : IForm) (s : State) : Host.Outcome State Fault Refusal := moveImm (.xup f) f s (immSource (.xup f))
def execXdn (f : IForm) (s : State) : Host.Outcome State Fault Refusal := moveImm (.xdn f) f s (immSource (.xdn f))
def execXbc (f : IForm) (s : State) : Host.Outcome State Fault Refusal := moveImm (.xbc f) f s (immSource (.xbc f))
/-- The source lane of each written lane of an exchange; none for another instruction. -/
def sourceOf (t : Team) (i : Instr) : Option (Nat → Int) :=
  match i with
  | .xch f =>
    let lanes := lanesOf (t.laneGuard true f.g f.gn) t.nlanes
    (readGen t true (f.ob.getLsbD 1) f.eb 1 f.b.toNat lanes).toOption.map fun bs => regSource (lanes.zip bs)
  | .xchi _ | .xup _ | .xdn _ | .xbc _ => some (immSource i)
  | _ => none

/-! R169, R170, R80, R81: reductions and scans. -/

/-- One combination: lower side A, higher side B; `tag_result` whatever the operation (R80). -/
def combine (o : RedOp) (f : RForm) (t : Team) (own : Tag) (a b : Opd) : Res :=
  if Rows.isInt f.ty then
    let x := readInt f.ty a.v; let y := readInt f.ty b.v
    { v := extBits (redInt o f.ty x y), tag := tagResult t.rule own [intIn x a.tag, intIn y b.tag] }
  else
    let fm := fmtOf f.ty; let x := readF fm a.v; let y := readF fm b.v
    let r : FRes :=
      match o with
      | .min => let p := pickRes false f a b; { bits := p.v, exc := p.exc, exceptional := (readF fm p.v).exceptional }
      | .max => let p := pickRes true f a b; { bits := p.v, exc := p.exc, exceptional := (readF fm p.v).exceptional }
      | _ => fAdd fm (t.mode' f.rm) x y
    { v := r.bits, tag := tagResult t.rule own [fpIn x a.tag, fpIn y b.tag] r.exceptional, exc := r.exc }

/-- The identity (R81). -/
def identity (o : RedOp) (t : Ty) : Nat :=
  if Rows.isInt t then extBits (redIdInt o t) else
  match o with
  | .min => infBits (fmtOf t) false
  | .max => infBits (fmtOf t) true
  | _ => zeroBits (fmtOf t) false

/-- One level of the tree: adjacent pairs, an inactive side passing the other on. -/
def treeLevel (comb : Opd → Opd → Res) : List (Option Opd) → List (Option Opd) × Exc
  | x :: y :: rest =>
    let r := treeLevel comb rest
    match x, y with
    | some a, some b => let c := comb a b; (some { v := c.v, tag := c.tag } :: r.1, c.exc ||| r.2)
    | some a, none => (some a :: r.1, r.2)
    | none, b => (b :: r.1, r.2)
  | xs => (xs, 0)

def tree (comb : Opd → Opd → Res) : Nat → List (Option Opd) → List (Option Opd) × Exc
  | 0, xs => (xs, 0)
  | n + 1, xs => let r := treeLevel comb xs; let q := tree comb n r.1; (q.1, r.2 ||| q.2)

/-- The scan of R170: for each active lane, the run before and after it. -/
def scanRun (comb : Opd → Opd → Res) : Option Opd → List (Nat × Opd) → List (Nat × Option Opd × Opd) × Exc
  | _, [] => ([], 0)
  | none, (l, x) :: rest => let r := scanRun comb (some x) rest; ((l, none, x) :: r.1, r.2)
  | some a, (l, x) :: rest =>
    let c := comb a x
    let y : Opd := { v := c.v, tag := c.tag }
    let r := scanRun comb (some y) rest
    ((l, some a, y) :: r.1, c.exc ||| r.2)

/-- An element at the width of the type, extended (R169). -/
def elemAt (t : Ty) (v : Nat) : Nat := if Rows.isInt t then extBits (readInt t v) else v % 2 ^ Rows.width t

/-- The shape of reductions and scans: the active lanes' elements in, what each written lane receives out. Exceptions complete or
trap also where no lane is written, for the lanes were read (R155, R169). -/
def mapReduce (i : Instr) (f : RForm) (s : State) (op : Team → List (Nat × Opd) → (Nat → Opd) × Exc) :
    Host.Outcome State Fault Refusal :=
  issue i s fun t =>
    let lanes := lanesOf (t.laneGuard true f.g f.gn) t.nlanes
    let active := lanesOf t.m t.nlanes
    let cnt := Rows.elems .ty f.ty f.ty
    if destBusy t true (.vD .ty) f.d.toNat f.ty lanes then .error .wait else
    tagR { a := .v .ty, ln := .l } f t <|
    match readV t f.a.toNat cnt f.ea active with
    | .error e => .error e
    | .ok os =>
      let r := op t ((active.zip os).map fun p => (p.1, { p.2 with v := elemAt f.ty p.2.v }))
      match fpDone t (!lanes.isEmpty) (if lanes.isEmpty then [(0, r.2)] else lanes.map fun l => (l, r.2)) with
      | .error e => .error e
      | .ok u =>
        .ok ((s.setTeam (lanes.foldl (fun (u : Team) l => u.writeVs f.d.toNat cnt l (r.1 l).v (r.1 l).tag) (t.orFpst u))).retire 8)

/-- R80: the tree over 1024 lanes; the words beyond the team's are inactive. -/
def execXred (o : RedOp) (f : RForm) (s : State) : Host.Outcome State Fault Refusal :=
  mapReduce (.xred o f) f s fun t xs =>
    let leaves := (List.range 1024).map fun l => (xs.find? fun p => p.1 = l).map (·.2)
    let r := tree (combine o f t (s.ownTag t)) 10 leaves
    (fun _ => match r.1.headD none with | some x => x | none => { v := identity o f.ty, tag := tagInactive }, r.2)

/-- R170. -/
def execXscan (o : RedOp) (excl : Bool) (f : RForm) (s : State) : Host.Outcome State Fault Refusal :=
  mapReduce (.xscan o excl f) f s fun t xs =>
    let r := scanRun (combine o f t (s.ownTag t)) none xs
    (fun l =>
      match r.1.find? (fun p => p.1 = l) with
      | none => {}
      | some (_, before, after) => if excl then before.getD { v := identity o f.ty, tag := tagInactive } else after, r.2)

end Sys2Proof.Machine
end

