-- ==== Sys2Proof/Machine/Tags.lean ====
section
/-! DEFINITION. Tag instructions: MOP 0xB8-0xBB (05 R147-R149). -/
namespace Sys2Proof.Machine

/-- Read A as a tag only, compute each lane, write D. -/
def mapTag (i : Instr) (s : State) (f : RForm) (w : Team → Nat → Opd → Team) : Host.Outcome State Fault Refusal :=
  issue i s fun t =>
    match Rows.view i with
    | .r _ _ row _ _ =>
      tagR row f t <|
      let lanes := t.lanesFor row f
      if destBusy t f.ln row.d f.d.toNat f.ty lanes then .error .wait else
      match readGenTag t f.ln (f.ob.getLsbD 2) f.ea f.a.toNat lanes with
      | .error e => .error e
      | .ok as => .ok ((s.setTeam ((lanes.zip as).foldl (fun (u : Team) p => w u p.1 p.2) t)).retire 8)
    | _ => .ok s

def execTget (f : RForm) (s : State) : Host.Outcome State Fault Refusal :=
  mapTag (.tget f) s f fun u l a => u.writeGen f.ln .one .i8 f.d.toNat l a.tag.toNat (tagFixed u.rule (s.ownTag u) [])
def execTtestPoison (f : RForm) (s : State) : Host.Outcome State Fault Refusal :=
  mapTag (.ttestPoison f) s f fun u l a => u.writePred f.ln f.d.toNat l (a.tag = tagPoison)
def execTtestSpecial (f : RForm) (s : State) : Host.Outcome State Fault Refusal :=
  mapTag (.ttestSpecial f) s f fun u l a => u.writePred f.ln f.d.toNat l (a.tag.toNat / 4096 = 0 || a.tag.toNat / 4096 = 0xFFF)

/-- R149: A is source and destination. -/
def execTset (f : RForm) (s : State) : Host.Outcome State Fault Refusal :=
  issue (.tset f) s fun t =>
    tagR { a := .s, ln := .s } f t <|
    match readS t f.a.toNat f.ea with
    | .error e => .error e
    | .ok a => .ok ((s.setTeam (t.setS f.a.toNat (BitVec.ofNat 64 a.v) (tagFixed t.rule (s.ownTag t) [a.tag]))).retire 8)

/-- `tmov` reads B as a tag only (R148). -/
def execTmov (f : RForm) (s : State) : Host.Outcome State Fault Refusal :=
  issue (.tmov f) s fun t =>
    match Rows.view (.tmov f) with
    | .r _ _ row _ _ =>
      tagR row f t <|
      let lanes := t.lanesFor row f
      if destBusy t f.ln row.d f.d.toNat f.ty lanes then .error .wait else
      match readFld t row.a f.ln (f.ob.getLsbD 2) f.ea f.ty f.ty f.a.toNat lanes with
      | .error e => .error e
      | .ok as =>
      match readGenTag t f.ln (f.ob.getLsbD 1) f.eb f.b.toNat lanes with
      | .error e => .error e
      | .ok bs =>
      let t' := (lanes.zip (as.zip bs)).foldl (fun (u : Team) p =>
        u.writeGen f.ln .one .i8 f.d.toNat p.1 p.2.1.v
          (if p.2.1.tag = tagPoison || p.2.2.tag = tagPoison then tagPoison else p.2.2.tag)) t
      .ok ((s.setTeam t').retire 8)
    | _ => .ok s

end Sys2Proof.Machine
end

