-- ==== Sys2Proof/Machine/Dispatch.lean ====
section
/-! DEFINITION. The meaning of every instruction: one call per constructor. -/
namespace Sys2Proof.Machine

def exec (i : Instr) (s : State) : Host.Outcome State Fault Refusal :=
  match i with
  | .nop => Sys2Proof.Machine.execNop s
  | .br f => Sys2Proof.Machine.execBr f s
  | .brc neg f => Sys2Proof.Machine.execBrc neg f s
  | .brany f => Sys2Proof.Machine.execBrany f s
  | .brall f => Sys2Proof.Machine.execBrall f s
  | .call f => Sys2Proof.Machine.execCall f s
  | .ret => Sys2Proof.Machine.execRet s
  | .loop f => Sys2Proof.Machine.execLoop f s
  | .jmpc f => Sys2Proof.Machine.execJmpc f s
  | .exit f => Sys2Proof.Machine.execExit f s
  | .yield f => Sys2Proof.Machine.execYield f s
  | .add f => Sys2Proof.Machine.execAdd f s
  | .sub f => Sys2Proof.Machine.execSub f s
  | .addc f => Sys2Proof.Machine.execAddc f s
  | .subc f => Sys2Proof.Machine.execSubc f s
  | .mulLo f => Sys2Proof.Machine.execMulLo f s
  | .mulHi f => Sys2Proof.Machine.execMulHi f s
  | .mulw f => Sys2Proof.Machine.execMulw f s
  | .mad f => Sys2Proof.Machine.execMad f s
  | .div f => Sys2Proof.Machine.execDiv f s
  | .rem f => Sys2Proof.Machine.execRem f s
  | .min f => Sys2Proof.Machine.execMin f s
  | .max f => Sys2Proof.Machine.execMax f s
  | .abs f => Sys2Proof.Machine.execAbs f s
  | .neg f => Sys2Proof.Machine.execNeg f s
  | .and f => Sys2Proof.Machine.execAnd f s
  | .or f => Sys2Proof.Machine.execOr f s
  | .xor f => Sys2Proof.Machine.execXor f s
  | .andn f => Sys2Proof.Machine.execAndn f s
  | .not f => Sys2Proof.Machine.execNot f s
  | .shl f => Sys2Proof.Machine.execShl f s
  | .shr f => Sys2Proof.Machine.execShr f s
  | .sar f => Sys2Proof.Machine.execSar f s
  | .rot f => Sys2Proof.Machine.execRot f s
  | .clz f => Sys2Proof.Machine.execClz f s
  | .popc f => Sys2Proof.Machine.execPopc f s
  | .brev f => Sys2Proof.Machine.execBrev f s
  | .bfx f => Sys2Proof.Machine.execBfx f s
  | .bfi f => Sys2Proof.Machine.execBfi f s
  | .sel f => Sys2Proof.Machine.execSel f s
  | .mov f => Sys2Proof.Machine.execMov f s
  | .cmp c f => Sys2Proof.Machine.execCmp c f s
  | .lit f x => Sys2Proof.Machine.execLit f x s
  | .addi f => Sys2Proof.Machine.execAddi f s
  | .andi f => Sys2Proof.Machine.execAndi f s
  | .ori f => Sys2Proof.Machine.execOri f s
  | .xori f => Sys2Proof.Machine.execXori f s
  | .shli f => Sys2Proof.Machine.execShli f s
  | .shri f => Sys2Proof.Machine.execShri f s
  | .sari f => Sys2Proof.Machine.execSari f s
  | .roti f => Sys2Proof.Machine.execRoti f s
  | .cmpi c f => Sys2Proof.Machine.execCmpi c f s
  | .movi f => Sys2Proof.Machine.execMovi f s
  | .movhi f => Sys2Proof.Machine.execMovhi f s
  | .cget k f => Sys2Proof.Machine.execCget k f s
  | .cseta f => Sys2Proof.Machine.execCseta f s
  | .cinc f => Sys2Proof.Machine.execCinc f s
  | .cbnd f => Sys2Proof.Machine.execCbnd f s
  | .cbndr f => Sys2Proof.Machine.execCbndr f s
  | .cperm f => Sys2Proof.Machine.execCperm f s
  | .cseal f => Sys2Proof.Machine.execCseal f s
  | .cunseal f => Sys2Proof.Machine.execCunseal f s
  | .cmov f => Sys2Proof.Machine.execCmov f s
  | .cnull f => Sys2Proof.Machine.execCnull f s
  | .ctest f => Sys2Proof.Machine.execCtest f s
  | .croot f => Sys2Proof.Machine.execCroot f s
  | .crev f => Sys2Proof.Machine.execCrev f s
  | .fadd f => Sys2Proof.Machine.execFadd f s
  | .fsub f => Sys2Proof.Machine.execFsub f s
  | .fmul f => Sys2Proof.Machine.execFmul f s
  | .fma f => Sys2Proof.Machine.execFma f s
  | .fms f => Sys2Proof.Machine.execFms f s
  | .fnma f => Sys2Proof.Machine.execFnma f s
  | .fdiv f => Sys2Proof.Machine.execFdiv f s
  | .fsqrt f => Sys2Proof.Machine.execFsqrt f s
  | .frcp f => Sys2Proof.Machine.execFrcp f s
  | .frsq f => Sys2Proof.Machine.execFrsq f s
  | .fmin f => Sys2Proof.Machine.execFmin f s
  | .fmax f => Sys2Proof.Machine.execFmax f s
  | .fabs f => Sys2Proof.Machine.execFabs f s
  | .fneg f => Sys2Proof.Machine.execFneg f s
  | .fcmp c f => Sys2Proof.Machine.execFcmp c f s
  | .fclass f => Sys2Proof.Machine.execFclass f s
  | .fscale f => Sys2Proof.Machine.execFscale f s
  | .frnd f => Sys2Proof.Machine.execFrnd f s
  | .cvt src f => Sys2Proof.Machine.execCvt src f s
  | .pack f => Sys2Proof.Machine.execPack f s
  | .unpack f => Sys2Proof.Machine.execUnpack f s
  | .kenc f => Sys2Proof.Machine.execKenc f s
  | .kdec f => Sys2Proof.Machine.execKdec f s
  | .pset f => Sys2Proof.Machine.execPset f s
  | .pand f => Sys2Proof.Machine.execPand f s
  | .por f => Sys2Proof.Machine.execPor f s
  | .pxor f => Sys2Proof.Machine.execPxor f s
  | .pnot f => Sys2Proof.Machine.execPnot f s
  | .pmov f => Sys2Proof.Machine.execPmov f s
  | .mpush f => Sys2Proof.Machine.execMpush f s
  | .melse f => Sys2Proof.Machine.execMelse f s
  | .mpop f => Sys2Proof.Machine.execMpop f s
  | .mall f => Sys2Proof.Machine.execMall f s
  | .mset f => Sys2Proof.Machine.execMset f s
  | .lid f => Sys2Proof.Machine.execLid f s
  | .voteAny f => Sys2Proof.Machine.execVoteAny f s
  | .voteAll f => Sys2Proof.Machine.execVoteAll f s
  | .voteBallot f => Sys2Proof.Machine.execVoteBallot f s
  | .xch f => Sys2Proof.Machine.execXch f s
  | .xchi f => Sys2Proof.Machine.execXchi f s
  | .xup f => Sys2Proof.Machine.execXup f s
  | .xdn f => Sys2Proof.Machine.execXdn f s
  | .xbc f => Sys2Proof.Machine.execXbc f s
  | .xred o f => Sys2Proof.Machine.execXred o f s
  | .xscan o excl f => Sys2Proof.Machine.execXscan o excl f s
  | .tget f => Sys2Proof.Machine.execTget f s
  | .tset f => Sys2Proof.Machine.execTset f s
  | .tmov f => Sys2Proof.Machine.execTmov f s
  | .ttestPoison f => Sys2Proof.Machine.execTtestPoison f s
  | .ttestSpecial f => Sys2Proof.Machine.execTtestSpecial f s
  | .ldG f => Sys2Proof.Machine.execLdG f s
  | .ldGCap f => Sys2Proof.Machine.execLdGCap f s
  | .stG f => Sys2Proof.Machine.execStG f s
  | .stGCap f => Sys2Proof.Machine.execStGCap f s
  | .ldS f => Sys2Proof.Machine.execLdS f s
  | .stS f => Sys2Proof.Machine.execStS f s
  | .ldsTr f => Sys2Proof.Machine.execLdsTr f s
  | .ldc f => Sys2Proof.Machine.execLdc f s
  | .stc f => Sys2Proof.Machine.execStc f s
  | .pref f => Sys2Proof.Machine.execPref f s
  | .atom f => Sys2Proof.Machine.execAtom f s
  | .aCas f => Sys2Proof.Machine.execACas f s
  | .aFadd f => Sys2Proof.Machine.execAFadd f s
  | .fence f => Sys2Proof.Machine.execFence f s
  | .pmapMap f => Sys2Proof.Machine.execPmapMap f s
  | .pmapUnmap f => Sys2Proof.Machine.execPmapUnmap f s
  | .pmapProtect f => Sys2Proof.Machine.execPmapProtect f s
  | .pmapMigrateIn f => Sys2Proof.Machine.execPmapMigrateIn f s
  | .bar f => Sys2Proof.Machine.execBar f s
  | .tsync f => Sys2Proof.Machine.execTsync f s
  | .twait f => Sys2Proof.Machine.execTwait f s
  | .cwait f => Sys2Proof.Machine.execCwait f s
  | .cancelLaunch f => Sys2Proof.Machine.execCancelLaunch f s
  | .cancelGraph f => Sys2Proof.Machine.execCancelGraph f s
  | .cancelPhase f => Sys2Proof.Machine.execCancelPhase f s
  | .cancelJob f => Sys2Proof.Machine.execCancelJob f s
  | .push f => Sys2Proof.Machine.execPush f s
  | .launchRecord f => Sys2Proof.Machine.execLaunchRecord f s
  | .start f => Sys2Proof.Machine.execStart f s
  | .trap f => Sys2Proof.Machine.execTrap f s
  | .eret f => Sys2Proof.Machine.execEret f s
  | .rdsr f => Sys2Proof.Machine.execRdsr f s
  | .wrsr f => Sys2Proof.Machine.execWrsr f s
  | .lvlWrite f => Sys2Proof.Machine.execLvlWrite f s
  | .crewstWrite f => Sys2Proof.Machine.execCrewstWrite f s
  | .trappcWrite f => Sys2Proof.Machine.execTrappcWrite f s
  | .bkpt f => Sys2Proof.Machine.execBkpt f s
  | .halt f => Sys2Proof.Machine.execHalt f s
  | .kat f => Sys2Proof.Machine.execKat f s
  | .csave f => Sys2Proof.Machine.execCsave f s
  | .crest f => Sys2Proof.Machine.execCrest f s
  | .illegalEncoding w => Sys2Proof.Machine.execIllegalEncoding w s
  | .fillArrival team acc => Sys2Proof.Machine.execFillArrival team acc s
  | .timer => Sys2Proof.Machine.execTimer s
  | .siblingStop team => Sys2Proof.Machine.execSiblingStop team s
  | .cancelled => Sys2Proof.Machine.execCancelled s
  | .launchTake l => Sys2Proof.Machine.execLaunchTake l s
  | .crewSwitchIn crew die core => Sys2Proof.Machine.execCrewSwitchIn crew die core s
  | .quantumEnd crew => Sys2Proof.Machine.execQuantumEnd crew s
  | .allTeamsWait crew => Sys2Proof.Machine.execAllTeamsWait crew s
  | .ageingRise crew core => Sys2Proof.Machine.execAgeingRise crew core s
  | .vacate l => Sys2Proof.Machine.execVacate l s
  | .saveComplete crew => Sys2Proof.Machine.execSaveComplete crew s
  | .launchComplete l => Sys2Proof.Machine.execLaunchComplete l s
  | .commandStart cmd => Sys2Proof.Machine.execCommandStart cmd s
  | .commandComplete cmd => Sys2Proof.Machine.execCommandComplete cmd s
  | .copy cmd n => Sys2Proof.Machine.execCopy cmd n s
  | .fill cmd n => Sys2Proof.Machine.execFill cmd n s
  | .gather cmd n => Sys2Proof.Machine.execGather cmd n s
  | .zero cmd n => Sys2Proof.Machine.execZero cmd n s
  | .unpackKy4 cmd n => Sys2Proof.Machine.execUnpackKy4 cmd n s
  | .packKy4 cmd n => Sys2Proof.Machine.execPackKy4 cmd n s
  | .sweepwait cmd => Sys2Proof.Machine.execSweepwait cmd s
  | .mloop cmd n => Sys2Proof.Machine.execMloop cmd n s
  | .mgen cmd n => Sys2Proof.Machine.execMgen cmd n s
  | .mslice cmd n => Sys2Proof.Machine.execMslice cmd n s
  | .mdrain cmd => Sys2Proof.Machine.execMdrain cmd s
  | .mloadc cmd => Sys2Proof.Machine.execMloadc cmd s
  | .mzero cmd => Sys2Proof.Machine.execMzero cmd s
  | .storePerformedAtHome team acc => Sys2Proof.Machine.execStorePerformedAtHome team acc s
  | .l1CopyExpiry core line => Sys2Proof.Machine.execL1CopyExpiry core line s
  | .maceSweepComplete ctx root => Sys2Proof.Machine.execMaceSweepComplete ctx root s
  | .migrationHoldExpiry ctx page => Sys2Proof.Machine.execMigrationHoldExpiry ctx page s
  | .fabricTimeout req => Sys2Proof.Machine.execFabricTimeout req s
  | .read p => Sys2Proof.Machine.execRead p s
  | .readAcq p => Sys2Proof.Machine.execReadAcq p s
  | .write p => Sys2Proof.Machine.execWrite p s
  | .writeRel p => Sys2Proof.Machine.execWriteRel p s
  | .atomic p => Sys2Proof.Machine.execAtomic p s
  | .data p => Sys2Proof.Machine.execData p s
  | .ack p => Sys2Proof.Machine.execAck p s
  | .nack p => Sys2Proof.Machine.execNack p s
  | .collectivePacket p => Sys2Proof.Machine.execCollectivePacket p s
  | .vote p voter r => Sys2Proof.Machine.execVote p voter r s
  | .hello port dev vers => Sys2Proof.Machine.execHello port dev vers s
  | .credit port cls n => Sys2Proof.Machine.execCredit port cls n s
  | .laneLockLoss port => Sys2Proof.Machine.execLaneLockLoss port s
  | .replayFailure port => Sys2Proof.Machine.execReplayFailure port s
  | .dieLinkFailure x n response => Sys2Proof.Machine.execDieLinkFailure x n response s
  | .uncorrectable at_ => Sys2Proof.Machine.execUncorrectable at_ s
  | .shadowMismatch team pipe replay reissueFails => Sys2Proof.Machine.execShadowMismatch team pipe replay reissueFails s
  | .replayQueueDrop core => Sys2Proof.Machine.execReplayQueueDrop core s
  | .knownAnswerFailure core unit => Sys2Proof.Machine.execKnownAnswerFailure core unit s
  | .powerOn failedDies => Sys2Proof.Machine.execPowerOn failedDies s
  | .powerSample watts => Sys2Proof.Machine.execPowerSample watts s
  | .temperatureLimit deg => Sys2Proof.Machine.execTemperatureLimit deg s
  | .deviceQueryId m => Sys2Proof.Machine.execDeviceQueryId m s
  | .deviceQueryHealth m => Sys2Proof.Machine.execDeviceQueryHealth m s
  | .deviceQueryKillLog m => Sys2Proof.Machine.execDeviceQueryKillLog m s
  | .deviceQueryFaultLog m => Sys2Proof.Machine.execDeviceQueryFaultLog m s
  | .negotiate m => Sys2Proof.Machine.execNegotiate m s
  | .contextCreate m => Sys2Proof.Machine.execContextCreate m s
  | .contextDestroy m => Sys2Proof.Machine.execContextDestroy m s
  | .poolGrant m => Sys2Proof.Machine.execPoolGrant m s
  | .jobStart m object hostArgs => Sys2Proof.Machine.execJobStart m object hostArgs s
  | .jobCancel m => Sys2Proof.Machine.execJobCancel m s
  | .windowExport m => Sys2Proof.Machine.execWindowExport m s
  | .windowImport m => Sys2Proof.Machine.execWindowImport m s
  | .windowCloseExport m => Sys2Proof.Machine.execWindowCloseExport m s
  | .windowCloseRoot m => Sys2Proof.Machine.execWindowCloseRoot m s
  | .routeSet m => Sys2Proof.Machine.execRouteSet m s
  | .groupForm m members => Sys2Proof.Machine.execGroupForm m members s
  | .groupReform m members => Sys2Proof.Machine.execGroupReform m members s
  | .groupMessage ctx group src crc said => Sys2Proof.Machine.execGroupMessage ctx group src crc said s
  | .attest m => Sys2Proof.Machine.execAttest m s
  | .keyRotateRotate m => Sys2Proof.Machine.execKeyRotateRotate m s
  | .keyRotateCompartment m code => Sys2Proof.Machine.execKeyRotateCompartment m code s
  | .keyRotateFabric m cipher => Sys2Proof.Machine.execKeyRotateFabric m cipher s
  | .lockState m => Sys2Proof.Machine.execLockState m s
  | .rotationThreshold world compt => Sys2Proof.Machine.execRotationThreshold world compt s
  | .rotationSweepComplete world compt => Sys2Proof.Machine.execRotationSweepComplete world compt s
  | .s7RunIdleTag port => Sys2Proof.Machine.execS7RunIdleTag port s
  | .recordStart m => Sys2Proof.Machine.execRecordStart m s
  | .recordStop m => Sys2Proof.Machine.execRecordStop m s
  | .replayStart m => Sys2Proof.Machine.execReplayStart m s
  | .counterSnapshot ctx => Sys2Proof.Machine.execCounterSnapshot ctx s
  | .pcSample ctx die core => Sys2Proof.Machine.execPcSample ctx die core s
  | .epochEnd ctx => Sys2Proof.Machine.execEpochEnd ctx s
  | .attach m => Sys2Proof.Machine.execAttach m s
  | .detach m => Sys2Proof.Machine.execDetach m s
  | .renew m => Sys2Proof.Machine.execRenew m s
  | .bpSet m => Sys2Proof.Machine.execBpSet m s
  | .bpClr m => Sys2Proof.Machine.execBpClr m s
  | .wpSet m => Sys2Proof.Machine.execWpSet m s
  | .wpClr m => Sys2Proof.Machine.execWpClr m s
  | .debugHalt m => Sys2Proof.Machine.execDebugHalt m s
  | .resume m => Sys2Proof.Machine.execResume m s
  | .debugRead m => Sys2Proof.Machine.execDebugRead m s
  | .debugWrite m => Sys2Proof.Machine.execDebugWrite m s
  | .leaseExpiry ctx => Sys2Proof.Machine.execLeaseExpiry ctx s
  | .startBegin cmd => Sys2Proof.Machine.execStartBegin cmd s
  | .send sc k => Sys2Proof.Machine.execSend sc k s
  | .recv sc k => Sys2Proof.Machine.execRecv sc k s
  | .recvred sc k => Sys2Proof.Machine.execRecvred sc k s
  | .schedCopy sc k => Sys2Proof.Machine.execSchedCopy sc k s
  | .reduce sc k => Sys2Proof.Machine.execReduce sc k s
  | .signal sc k => Sys2Proof.Machine.execSignal sc k s
  | .wait sc k => Sys2Proof.Machine.execWait sc k s
  | .gbar sc k => Sys2Proof.Machine.execGbar sc k s
  | .schedLoop sc => Sys2Proof.Machine.execSchedLoop sc s
  | .endloop sc => Sys2Proof.Machine.execEndloop sc s
  | .endSched sc => Sys2Proof.Machine.execEndSched sc s
  | .abortedTimeout sc k => Sys2Proof.Machine.execAbortedTimeout sc k s
  | .abortDecide sc => Sys2Proof.Machine.execAbortDecide sc s
  | .groupFormTimeout ctx group => Sys2Proof.Machine.execGroupFormTimeout ctx group s
  | .hostMigrationRequest ctx page => Sys2Proof.Machine.execHostMigrationRequest ctx page s
  | .portRetrain port => Sys2Proof.Machine.execPortRetrain port s
  | .linkAcknowledgement port seq => Sys2Proof.Machine.execLinkAcknowledgement port seq s
  | .packetReplay port seq => Sys2Proof.Machine.execPacketReplay port seq s

end Sys2Proof.Machine
end

