-- ==== Sys2Proof/Machine/Passes.lean ====
section
/-! DEFINITION. The passes of an instruction (06 R155, R156), the cycles for which they take the scratchpad lane port (09 R205), and their issue
slots (21 R406). -/
namespace Sys2Proof.Machine

/-! Passes (R155). -/

/-- The operation of a memory instruction whose lanes may go to the scratchpad. -/
def scratchOp (i : Instr) : Option (MForm × MemOp) :=
  match i with
  | .ldS f => some (f, loadOp f [.scratch])
  | .stS f => some (f, storeOp f [.scratch])
  | .ldsTr f => some (f, trOp f)
  | .atom f => some (f, atomOf f (atomKind f))
  | .aCas f => some (f, atomOf f .cas)
  | .aFadd f => some (f, atomOf f .fadd)
  | _ => none

/-- Lanes that a lane instruction writes, or accesses; none for one that takes a scalar slot (R156). -/
def Team.writtenFor (t : Team) (i : Instr) : Option Mask :=
  match Rows.view i with
  | .r mop _ row _ f => if f.ln && mop ≠ 0x71 && mop ≠ 0x73 then some (t.laneGuard row.g f.g f.gn) else none
  | .i _ _ row f => if f.ln then some (t.laneGuard row.g f.g f.gn) else none
  | .m _ f => if f.ln then some (t.laneGuard true f.g f.gn) else none
  | _ => none
/-- Lanes that it reads besides: every active one of a reduction, a scan and `lds.tr`, the sources of an exchange. -/
def Team.readFor (t : Team) (i : Instr) (written : Mask) : Mask :=
  match i with
  | .xred _ _ | .xscan _ _ _ | .ldsTr _ => t.m
  | i => match sourceOf t i with | none => 0 | some src => maskOf (t.validSources (lanesOf written t.nlanes) src)

/-- The cycles for which scratchpad accesses of `n` bytes at these offsets take the lane port: the rows of the bank that serves the most (R205). -/
def portCycles (n : Nat) (offs : List Nat) : Nat :=
  let rows := distinct (offs.flatMap fun a => (List.range ((a + n - 1) / 16 + 1 - a / 16)).map fun j => a / 16 + j)
  rows.foldl (fun m r => max m (rows.filter fun x => x % 64 = r % 64).length) 0
/-- The same of the pass of mask word w. -/
def State.passCycles (s : State) (i : Instr) (w : Nat) : Nat :=
  let t := s.team
  match scratchOp i with
  | none => 0
  | some (f, op) =>
    match readAddr t f op ((t.readLanes op (t.memLanes f)).filter fun l => l / 32 = w) with
    | .error _ => 0
    | .ok xs => portCycles op.size ((xs.filter fun x => (askRoot s t x).kind = .scratch).map (·.a))

/-- What an instruction issues: one slot of a scalar kind, one lane slot where it has no pass, else one for each pass, in ascending order; FULL where
every lane of the word is written. -/
def State.issueOf (s : State) (i : Instr) : Issue :=
  let t := s.team
  match t.writtenFor i with
  | none => { team := s.cur, lane := false, passes := [(0, 0)] }
  | some m =>
    let reads := t.readFor i m
    match (List.range 32).filter fun w => maskWord (m ||| reads) w ≠ 0 with
    | [] => { team := s.cur, lane := true, passes := [(2, 0)] }
    | ws => { team := s.cur, lane := true, passes := ws.map fun w => (if maskWord m w = BitVec.allOnes 32 then 0 else 1, s.passCycles i w) }

/-! Slots (21 R406). -/

/-- How many kill records the dies hold. -/
def State.killCount (s : State) : Nat := s.dies.foldl (fun n d => n + d.kills.length) 0
/-- What the moving team's instruction issues on its way from s to s': nothing while it waits; one or more of its passes, all DISCARDED, where
it traps. -/
def State.issued (s s' : State) (i : Instr) (pick : Nat) : Issue :=
  let t := s.team; let t' := s'.teamAt s.cur
  let x := s.issueOf i
  let trapped := s.killCount < s'.killCount || (t.frame.isNone && t'.frame.isSome) || (t.entry.isNone && t'.entry.isSome) || (!t.byEvent && t'.byEvent)
  if t.wait.isSome then { x with passes := [] }
  else if trapped then { x with passes := List.replicate (1 + pick % x.passes.length) (3, 0) }
  else if t.retired ≠ t'.retired || t'.wait.isSome || !t'.alive || (t.frame.isSome && t'.frame.isNone) then x
  else { x with passes := [] }
/-- What the moving team's instruction has issued is charged in every recording of its core; to OTHER in that of another context. -/
def State.account (s : State) (i : Instr) (s' : State) : State :=
  let cr := s.crew
  { s' with slotCounts := (s'.countedCores.filter fun x => x.2 = cr.place).foldl (fun m x =>
      let key := countSlot x.1 x.2
      let y := s.issued s' i (Config.counted s.now key 3)
      aset {} m key ((aget {} m key).take (if cr.ctx = some x.1 then y else { y with passes := y.passes.map fun p => (12, p.2) }))) s'.slotCounts }
/-- The outcome of what has run at s, with its slots counted. -/
def State.counting (s : State) (i : Instr) : Host.Outcome State Fault Refusal → Host.Outcome State Fault Refusal
  | .next s' => .next (if isEvent i then s' else s.account i s')
  | x => x

end Sys2Proof.Machine
end

