-- ==== Sys2Proof/Machine/Step.lean ====
section
/-! DEFINITION. One step of the machine, and the placing of an instruction for it. -/
namespace Sys2Proof.Machine

/-- One turn of the machine (02 R51; DESIGN CHOICE, log 1): what `State.plan` decides, then the instruction's meaning, and the count of the slots
that a team's instruction has taken (21 R406). -/
def step (s : State) : Host.Outcome State Fault Refusal :=
  match s.plan with
  | .off => .fault .poweredDown
  | .idle s' => .next s'
  | .run i s' => s'.counting i (exec i s')

/-- The state with an instruction's bits where the next step fetches them (DESIGN CHOICE, log 12). -/
def State.withFetchWord (s : State) (nbits w : Nat) : State := s.place (leBytes 16 (w % 2 ^ nbits))

end Sys2Proof.Machine
end

