-- ==== Sys2Proof/Safety.lean ====
section
/-! DEFINITION. The terms of the claims: a safe outcome, invariants of the state, when an instruction issues, what it leaves as it was,
and the exact values of the spec's tables written apart from the meanings. -/
namespace Sys2Proof
open Machine

/-- A step that answers a next state: neither the package off, nor an instruction without a meaning. -/
def Safe (s : State) : Prop := ∃ t, Machine.step s = .next t

/-! Invariants. -/

/-- Memory and every scratchpad are in canonical form. -/
abbrev MemoryCanonical (s : State) : Prop := s.mem.wf ∧ ∀ c ∈ s.crews, c.scratch.wf

/-- The register files of a team have the sizes of 02 R38-R42 and 06 R151, what a handler entry saved included. -/
abbrev Shaped (t : Team) : Prop :=
  t.s.length = 64 ∧ t.b.length = 8 ∧ t.c.length = 32 ∧ t.p.length = 24 ∧ t.v.length = t.vregs ∧ (∀ r ∈ t.v, r.length = t.nlanes) ∧
  t.nlanes ≤ 1024 ∧ (∀ f ∈ t.frame, f.sHigh.length = 8 ∧ f.b.length = 8)

/-- Every team of the machine has them. -/
abbrev TeamsShaped (s : State) : Prop := ∀ t ∈ s.teams, Shaped t

/-! When an instruction takes its own effect. -/

/-- Issue passes (02 R51, R45): the moving team exists, the word is legal for its registers and its mode, as is the special register that it
may name, and its guard does not skip it. -/
abbrev Issues (i : Instr) (s : State) : Prop :=
  s.cur < s.teams.length ∧ Rows.legal s.team.vregs i = true ∧ modeRank (Rows.mode i) ≤ modeRank s.team.mode ∧
  srCause s.team i = none ∧ skipped s.team i = false

/-- The operands of an F-R instruction that computes lane by lane are there: its destination is full, and A, B, C read as these. -/
abbrev Reads (s : State) (row : Rows.RRow) (src : Ty) (f : RForm) (as bs cs : List Opd) : Prop :=
  destBusy s.team f.ln row.d f.d.toNat f.ty (s.team.lanesFor row f) = false ∧
  readFld s.team row.a f.ln (f.ob.getLsbD 2) f.ea f.ty src f.a.toNat (s.team.lanesFor row f) = .ok as ∧
  readFld s.team row.b f.ln (f.ob.getLsbD 1) f.eb f.ty src f.b.toNat (s.team.lanesFor row f) = .ok bs ∧
  readFld s.team row.c f.ln (f.ob.getLsbD 0) f.ec f.ty src f.c.toNat (s.team.lanesFor row f) = .ok cs

/-- The same for an F-I instruction with one source. -/
abbrev ReadsI (s : State) (row : Rows.IRow) (f : IForm) (as : List Opd) : Prop :=
  destBusy s.team f.ln row.d f.d.toNat .i8 (s.team.lanesForI row f) = false ∧
  readFld s.team row.a f.ln false f.ea .i8 .i8 f.a.toNat (s.team.lanesForI row f) = .ok as

/-- No launch and no kernel of a context names more lanes than a team may have (01 R27). -/
abbrev LanesBounded (s : State) : Prop := (∀ l ∈ s.launches, l.lanes ≤ 1024) ∧ ∀ c ∈ s.contexts, ∀ k ∈ c.kernels, k.lanes ≤ 1024

/-! Frames. -/

/-- A team without its registers, mask, `fpst`, and what every retirement moves. -/
def Team.rest (t : Team) : Team :=
  { t with s := [], b := [], c := [], v := [], vcap := [], p := [], m := 0, stack := [], fpst := 0, pc := 0, lastPc := 0, retired := 0,
           wait := none, bpSkip := false, stalled := false, half := none, code := [], codeReq := none, st := .run, steps := 0, stepPending := false,
           epochUsed := 0 }

/-- A crew without the counts that a retirement moves. -/
def Crew.rest (c : Crew) : Crew := { c with tcyc := 0, used := 0, epochUsed := 0 }

/-- A core without its shadow replay queue and the count of what it drops. -/
def CoreSt.rest (c : CoreSt) : CoreSt := { c with replayQ := [], replayDrops := 0 }

/-- The machine outside the moving team is as it was, memory, scratchpads and special registers included. -/
def OnlyMover (s t : State) : Prop :=
  { t with teams := [], crews := [], cores := [] } = { s with teams := [], crews := [], cores := [] } ∧
  t.teams.length = s.teams.length ∧ (∀ j, j ≠ s.cur → t.teamAt j = s.teamAt j) ∧
  t.crews.map Crew.rest = s.crews.map Crew.rest ∧ t.cores.map CoreSt.rest = s.cores.map CoreSt.rest

/-- Registers that an instruction may write: scalar, boolean, capability, predicate, lane elements (with their valid bits). -/
structure Writes where
  s : Nat → Prop := fun _ => False
  b : Nat → Prop := fun _ => False
  c : Nat → Prop := fun _ => False
  p : Nat → Prop := fun _ => False
  v : Nat → Nat → Prop := fun _ _ => False

/-- Every register that is not among these is as it was. -/
def SameRegs (a b : Team) (w : Writes) : Prop :=
  (∀ n, ¬ w.s n → b.sreg n = a.sreg n) ∧ (∀ n, ¬ w.b n → b.breg n = a.breg n) ∧
  (∀ n, ¬ w.c n → b.c.getD n {} = a.c.getD n {}) ∧ (∀ n, ¬ w.p n → b.preg n = a.preg n) ∧
  (∀ r l, ¬ w.v r l → b.velem r l = a.velem r l) ∧ (∀ r l, (∀ q < 4, ¬ w.v (r / 4 * 4 + q) l) → b.vvalid r l = a.vvalid r l)

/-- The moving team retires at `pc` with the rest of the machine, and of the team, as it was but for these registers. Mask, mask stack
and `fpst` are said apart. -/
def Retires (s t : State) (pc : VAddr) (w : Writes) : Prop :=
  OnlyMover s t ∧ Team.rest t.team = Team.rest s.team ∧ t.team.pc = pc ∧ SameRegs s.team t.team w

/-- Mask, mask stack and `fpst` are as they were. -/
def SameMask (s t : State) : Prop := t.team.m = s.team.m ∧ t.team.stack = s.team.stack
def SameFlags (s t : State) : Prop := t.team.fpst = s.team.fpst

/-- What a destination field lets an instruction write, in these lanes. -/
def destOf (k : Rows.Fld) (ln : Bool) (ty : Ty) (d : Nat) (lanes : List Nat) : Writes :=
  match k with
  | .genD w =>
    if ln then { v := fun r l => d ≤ r ∧ r < d + Rows.elems w ty ty ∧ l ∈ lanes }
    else { s := fun n => n = d ∨ (w = .dbl ∧ Rows.width ty = 64 ∧ n = d + 1) }
  | .vD w => { v := fun r l => d ≤ r ∧ r < d + Rows.elems w ty ty ∧ l ∈ lanes }
  | .sD => { s := fun n => n = d }
  | .bD => { b := fun n => n = d }
  | .pD => if ln then { p := fun n => n = d } else { b := fun n => n = d }
  | .cD => if ln then { v := fun r l => d ≤ r ∧ r < d + 4 ∧ l ∈ lanes } else { c := fun n => n = d ∧ n ≠ 0 }
  | _ => {}

/-- A general destination holds content x with a tag, full, in a lane (02 R59, 03 R69): the low 64 bits in an s register, 32 bits in
each v element, the lane's valid bit clear. -/
def Holds (t : Team) (ln : Bool) (w : Rows.Wd) (ty : Ty) (d lane x : Nat) (tag : Tag) : Prop :=
  if ln then ∀ q < Rows.elems w ty ty,
    t.velem (d + q) lane = { v := BitVec.ofNat 32 (x / 2 ^ (32 * q)), tag := tag, full := true } ∧ t.vvalid (d + q) lane = false
  else t.sreg d = { v := BitVec.ofNat 64 x, tag := tag, full := true } ∧
    (w = .dbl → Rows.width ty = 64 → t.sreg (d + 1) = { v := BitVec.ofNat 64 (x / 2 ^ 64), tag := tag, full := true })

/-- A predicate destination in a lane, or a b register. -/
def HoldsPred (t : Team) (ln : Bool) (d lane : Nat) (v : Bool) : Prop :=
  if ln then (t.preg d).getLsbD lane = v else t.breg d = v

/-- A capability destination: a c register, or a quad of a lane. A write of c0 is discarded. -/
def HoldsCap (t : Team) (ln : Bool) (d lane : Nat) (c : CReg) : Prop :=
  if ln then (∀ q < 4, t.velem (d + q) lane = { v := c.bits.extractLsb' (32 * q) 32, tag := c.tag, full := true }) ∧ t.vvalid d lane = c.valid
  else d ≠ 0 → t.c.getD d {} = c

/-! Values of the spec's tables. -/

/-- Two's complement content of an exact integer, 128 bits of it. -/
def content (v : Int) : Nat := (v % 2 ^ 128).toNat

/-- v is x wrapped, or with SAT clamped, to a type's range (04 R95). -/
def Narrowed (ty : Ty) (sat : Bool) (x v : Int) : Prop :=
  let w := Rows.width ty
  let lo : Int := if Rows.isSigned ty then -2 ^ (w - 1) else 0
  let hi : Int := if Rows.isSigned ty then 2 ^ (w - 1) - 1 else 2 ^ w - 1
  lo ≤ v ∧ v ≤ hi ∧ if sat then v = max lo (min hi x) else (2 ^ w : Int) ∣ (v - x)

/-- The w-bit pattern of a number. -/
def pat (w : Nat) (x : Int) : BitVec w := BitVec.ofInt w x

/-- Exact values of 04 Tables 4-1, 4-3, 4-4, 4-5 and of R102, before R95 narrows them: A and C as the type reads them, B too, `b` the raw
content of B. -/
def exactInt (i : Instr) (ty : Ty) (a b c : Int) (rawB : Nat) : Option Int :=
  let w := Rows.width ty
  let n := (pat w b).toNat      -- the shifts by n ≥ w are those by w
  match i with
  | .add _ => some (a + b)
  | .sub _ => some (a - b)
  | .mulLo _ => some (a * b)
  | .mulHi _ => some ((a * b).fdiv (2 ^ w))
  | .mad _ => some (a * b + c)
  | .div _ => some (if b = 0 then -1 else a.tdiv b)
  | .rem _ => some (if b = 0 then a else a - b * a.tdiv b)
  | .min _ => some (min a b)
  | .max _ => some (max a b)
  | .abs _ => some |a|
  | .neg _ => some (-a)
  | .and _ => some (pat w a &&& pat w b).toNat
  | .or _ => some (pat w a ||| pat w b).toNat
  | .xor _ => some (pat w a ^^^ pat w b).toNat
  | .andn _ => some (pat w a &&& ~~~pat w b).toNat
  | .not _ => some (~~~pat w a).toNat
  | .shl _ => some (pat w a <<< min n w).toNat
  | .shr _ => some (pat w a >>> min n w).toNat
  | .sar _ => some ((pat w a).sshiftRight (min n w)).toNat
  | .rot _ => some ((pat w a).rotateLeft n).toNat
  | .clz _ => some (pat w a).clz.toNat
  | .popc _ => some (((List.range w).filter fun k => (pat w a).getLsbD k).length : Nat)
  | .brev _ => some (pat w a).reverse.toNat
  | .bfx _ =>
    let len := min (rawB / 256 % 128) 64
    let x := pat len ((pat w a).toNat >>> (rawB % 64) : Nat)
    some (if Rows.isSigned ty then x.toInt else x.toNat)
  | .bfi _ =>
    some (((List.range w).filter fun k =>
      if rawB % 64 ≤ k ∧ k < rawB % 64 + rawB / 256 % 128 then (pat w a).getLsbD (k - rawB % 64) else (pat w c).getLsbD k).map
        fun k => 2 ^ k).sum
  | _ => none

/-- Inputs of `tag_result` with their magnitudes for those instructions (04 R95, R102). -/
def intInputs (i : Instr) (ty : Ty) (a b c : Opd) : List TagIn :=
  let A : TagIn := { tag := a.tag, m := (readInt ty a.v).natAbs }
  let B : TagIn := { tag := b.tag, m := (readInt ty b.v).natAbs }
  let C : TagIn := { tag := c.tag, m := (readInt ty c.v).natAbs }
  let D : TagIn := { tag := b.tag, m := b.v % 2 ^ 15 }
  match i with
  | .abs _ | .neg _ | .not _ | .clz _ | .popc _ | .brev _ => [A]
  | .mad _ => [A, B, C]
  | .bfx _ => [A, D]
  | .bfi _ => [A, D, C]
  | _ => [A, B]

/-- An immediate instruction's exact value (04 R105, R106): A as a signed integer of the operating width, 64 bits or 32. -/
def exactImm (i : Instr) (a : Int) : Option Int :=
  let two (f : IForm) (g : (w : Nat) → BitVec w → BitVec w → BitVec w) : Option Int :=
    some (g (if f.ln then 32 else 64) (pat _ a) (pat _ f.imm.toInt)).toNat
  let shift (f : IForm) (g : (w : Nat) → BitVec w → Nat → BitVec w) : Option Int :=
    some (g (if f.ln then 32 else 64) (pat _ a) (f.imm.toNat % 64)).toNat
  match i with
  | .addi f => some (a + f.imm.toInt)
  | .andi f => two f fun _ x y => x &&& y
  | .ori f => two f fun _ x y => x ||| y
  | .xori f => two f fun _ x y => x ^^^ y
  | .shli f => shift f fun _ x n => x <<< n
  | .shri f => shift f fun _ x n => x >>> n
  | .sari f => shift f fun _ x n => x.sshiftRight n
  | .roti f => shift f fun _ x n => x.rotateLeft n
  | .movi f => some f.imm.toInt
  | .movhi f => some (f.imm.toNat * 2 ^ 32 + (pat 32 a).toNat : Nat)
  | .lit _ x => some x.toNat
  | _ => none

/-- Their inputs of `tag_result` (04 R105). -/
def immInputs (i : Instr) (a : Int) (tag : Tag) : List TagIn :=
  let A : TagIn := { tag := tag, m := a.natAbs }
  match i with
  | .addi f | .andi f | .ori f | .xori f => [A, { tag := tagImm, m := f.imm.toInt.natAbs }]
  | .shli f | .shri f | .sari f | .roti f => [A, { tag := tagImm, m := f.imm.toNat % 64 }]
  | .movi f => [{ tag := tagImm, m := f.imm.toInt.natAbs }]
  | .movhi f => [A, { tag := tagImm, m := f.imm.toNat * 2 ^ 32 }]
  | .lit _ x => [{ tag := tagImm, m := x.toInt.natAbs }]
  | _ => []

/-- Conditions of 04 Tables 4-6 and 4-7 and R158 over what A and B read as: a predicate, where one is written. -/
def exactPred (i : Instr) (a b : Nat) : Option Bool :=
  let int (f : RForm) : Int × Int := (readInt f.ty a, readInt f.ty b)
  match i with
  | .cmp .eq f => some ((int f).1 = (int f).2)
  | .cmp .ne f => some ((int f).1 ≠ (int f).2)
  | .cmp .lt f => some ((int f).1 < (int f).2)
  | .cmp .le f => some ((int f).1 ≤ (int f).2)
  | .cmp .gt f => some ((int f).2 < (int f).1)
  | .cmp .ge f => some ((int f).2 ≤ (int f).1)
  | .pset _ => some true
  | .pand _ => some (a = 1 && b = 1)
  | .por _ => some (a = 1 || b = 1)
  | .pxor _ => some ((a = 1) != (b = 1))
  | .pnot _ => some (a ≠ 1)
  | .pmov _ => some (a = 1)
  | _ => none

def exactCmpi (c : CmpiCond) (ln : Bool) (a : Nat) (imm : BitVec 32) : Bool :=
  let w := if ln then 32 else 64
  let x := (BitVec.ofNat w a).toInt
  let u := a % 2 ^ w
  let v := (imm.signExtend w).toNat
  match c with
  | .eq => x = imm.toInt
  | .ne => x ≠ imm.toInt
  | .lt => x < imm.toInt
  | .le => x ≤ imm.toInt
  | .gt => imm.toInt < x
  | .ge => imm.toInt ≤ x
  | .ltu => u < v
  | .leu => u ≤ v
  | .gtu => v < u
  | .geu => v ≤ u

/-- Rounded results of 05 Table 5-1 and R137, R138: the operation of the format, in the rounding mode, on the values that A, B and C hold;
`n` is B of `fscale`, a signed 32-bit integer. -/
def exactFp (i : Instr) (fm : Fmt) (rm : Rm) (x y z : Fv) (n : Int) : Option FRes :=
  match i with
  | .fadd _ => some (fAdd fm rm x y)
  | .fsub _ => some (fAdd fm rm x y.flip)
  | .fmul _ => some (fMul fm rm x y)
  | .fma _ => some (fFma fm rm x y z)
  | .fms _ => some (fFma fm rm x y z.flip)
  | .fnma _ => some (fFma fm rm x.flip y z)
  | .fdiv _ => some (fDiv fm rm x y)
  | .fsqrt _ => some (fSqrt fm rm x)
  | .frcp _ => some (fRcp fm rm x)
  | .frsq _ => some (fRsq fm rm x)
  | .fscale _ => some (fScale fm rm x n)
  | .frnd _ => some (fRnd fm rm x)
  | _ => none

/-! Rounding (03 R76, R77, Tables 3-4 and 3-5), said of exact real values. -/

/-- The number that a finite value stands for. -/
def IsNum (v : Fv) (y : ℝ) : Prop := ∃ n m e, v = .fin n m e ∧ y = (if n then -1 else 1) * (m : ℝ) * 2 ^ e

/-- r is the exact x passed once through `rnd`. A finite r is x or its neighbour on the side that the mode chooses: the nearer one, and of
two equally near the even one (`rne`) or the greater in magnitude (`rna`); the one of smaller magnitude, below, above, or the odd one.
Inexact says that r differs from x. Overflow says that x is greater than every finite value, and is signalled where r is not finite.
Underflow is signalled only below the smallest normal, and there for every inexact r whose rounding could not reach it. -/
def RoundedTo (f : Fmt) (rm : Rm) (x : ℝ) (r : FRes) : Prop :=
  let value (z : ℝ) : Prop := ∃ bits, IsNum (readF f bits) z
  let normal : ℝ := 2 ^ (1 - (f.bias : Int))
  (∀ y, IsNum (readF f r.bits) y →
    (∀ z, value z → ¬ (min x y < z ∧ z < max x y)) ∧
    ((rm = .rne ∨ rm = .rna) → ∀ z, value z → |x - y| ≤ |x - z|) ∧
    (rm = .rne → r.bits % 2 = 1 → ∀ z, value z → z ≠ y → |x - y| ≠ |x - z|) ∧
    (rm = .rna → ∀ z, value z → |x - y| = |x - z| → |z| ≤ |y|) ∧
    (rm = .rtz → |y| ≤ |x|) ∧ (rm = .rdn → y ≤ x) ∧ (rm = .rup → x ≤ y) ∧
    (rm = .rod → r.exc.getLsbD 2 = false → y = x ∨ r.bits % 2 = 1) ∧
    (r.exc.getLsbD 4 = true ↔ y ≠ x) ∧
    (y ≠ x → |x| ≤ normal - 2 ^ (-(f.bias : Int) - f.fb) → r.exc.getLsbD 3 = true)) ∧
  ((∀ y, ¬ IsNum (readF f r.bits) y) → r.exc.getLsbD 2 = true) ∧
  (r.exc.getLsbD 2 = true → r.exc.getLsbD 4 = true ∧ ∀ z, value z → |z| < |x|) ∧
  (r.exc.getLsbD 3 = true → r.exc.getLsbD 4 = true ∧ |x| < normal)

/-- k is the integer that Table 3-4 chooses for x. -/
def RoundedToInt (rm : Rm) (x : ℝ) (k : Int) : Prop :=
  |x - k| < 1 ∧
  (rm = .rne → |x - k| ≤ 1 / 2 ∧ (|x - k| = 1 / 2 → k % 2 = 0)) ∧
  (rm = .rna → |x - k| ≤ 1 / 2 ∧ (|x - k| = 1 / 2 → |x| ≤ |(k : ℝ)|)) ∧
  (rm = .rtz → |(k : ℝ)| ≤ |x|) ∧ (rm = .rdn → k ≤ x) ∧ (rm = .rup → x ≤ k) ∧ (rm = .rod → x = k ∨ k % 2 = 1)

/-- The formats of 03 Table 3-1. -/
def formats : List Fmt := [fmtF16, fmtBf16, fmtF32, fmtF64, fmtE5m2, fmtE4m3]

/-- Table 5-3: what the operations of 05 R131, R137 and R138 give of special operands; invalid is 1, divide-by-zero 2. -/
def SpecialOperands (f : Fmt) (rm : Rm) (x y z : Fv) (n : Int) : Prop :=
  let nan (r : FRes) (vs : List Fv) : Prop := r.bits = nanBits f ∧ r.exc = if vs.any Fv.isSnan then 1 else 0
  let invalid (r : FRes) : Prop := r.bits = nanBits f ∧ r.exc = 1
  let inf (r : FRes) (neg : Bool) (e : Exc := 0) : Prop := readF f r.bits = .inf neg ∧ r.exc = e
  let zero (r : FRes) (neg : Bool) : Prop := r.bits = (if neg then 2 ^ (f.width - 1) else 0) ∧ r.exc = 0
  let zi : Prop := (x.isZero = true ∧ y.isInf = true) ∨ (x.isInf = true ∧ y.isZero = true)
  let sign := xor x.neg y.neg
  -- NaN
  (x.isNan = true ∨ y.isNan = true → nan (fAdd f rm x y) [x, y] ∧ nan (fMul f rm x y) [x, y] ∧ nan (fDiv f rm x y) [x, y]) ∧
  (x.isNan = true ∨ y.isNan = true ∨ z.isNan = true → ¬ zi → nan (fFma f rm x y z) [x, y, z]) ∧
  (x.isNan = true → nan (fSqrt f rm x) [x] ∧ nan (fRcp f rm x) [x] ∧ nan (fRsq f rm x) [x] ∧ nan (fScale f rm x n) [x] ∧ nan (fRnd f rm x) [x]) ∧
  -- infinities, and zeros beside them
  (∀ p, x = .inf p →
    (∀ q, y = .inf q → if p = q then inf (fAdd f rm x y) p else invalid (fAdd f rm x y)) ∧
    (∀ q m e, y = .fin q m e → inf (fAdd f rm x y) p ∧ inf (fAdd f rm y x) p ∧ inf (fDiv f rm x y) (xor p q) ∧ zero (fDiv f rm y x) (xor p q)) ∧
    (y.isNan = false → y.isZero = false → inf (fMul f rm x y) sign ∧ inf (fMul f rm y x) sign) ∧
    (y.isZero = true → invalid (fMul f rm x y) ∧ invalid (fMul f rm y x)) ∧ (y.isInf = true → invalid (fDiv f rm x y)) ∧
    zero (fRcp f rm x) p ∧ (if p then invalid (fSqrt f rm x) ∧ invalid (fRsq f rm x) else inf (fSqrt f rm x) false ∧ zero (fRsq f rm x) false) ∧
    inf (fScale f rm x n) p ∧ inf (fRnd f rm x) p) ∧
  (zi → invalid (fFma f rm x y z)) ∧
  (x.isNan = false → y.isNan = false → z.isNan = false → ¬ zi →
    ((x.isInf = true ∨ y.isInf = true) → if z.isInf = true ∧ z.neg ≠ sign then invalid (fFma f rm x y z) else inf (fFma f rm x y z) sign) ∧
    (x.isInf = false → y.isInf = false → z.isInf = true → inf (fFma f rm x y z) z.neg)) ∧
  -- zeros
  (x.isZero = true →
    (y.isZero = true → invalid (fDiv f rm x y) ∧ zero (fAdd f rm x y) (if x.neg = y.neg then x.neg else decide (rm = .rdn))) ∧
    (y.isZero = false → y.isNan = false → zero (fDiv f rm x y) sign) ∧ ((∃ q m e, y = .fin q m e) → zero (fMul f rm x y) sign ∧ zero (fMul f rm y x) sign) ∧
    zero (fSqrt f rm x) x.neg ∧ inf (fRcp f rm x) x.neg 2 ∧ inf (fRsq f rm x) x.neg 2) ∧
  (∀ p m e, x = .fin p m e → m ≠ 0 →
    (y.isZero = true → inf (fDiv f rm x y) sign 2) ∧ (p = true → invalid (fSqrt f rm x) ∧ invalid (fRsq f rm x)) ∧
    zero (fAdd f rm x x.flip) (decide (rm = .rdn)))

/-- Table 5-6: the classes of conversion, but for the rounding of finite values; invalid is 1, overflow and inexact 20, inexact 16. -/
def ConversionClasses (t : Ty) (rm : Rm) (sat : Bool) : Prop :=
  let w := Rows.width t
  let lo : Int := if Rows.isSigned t then -2 ^ (w - 1) else 0
  let hi : Int := if Rows.isSigned t then 2 ^ (w - 1) - 1 else 2 ^ w - 1
  let f := fmtOf t
  let largest (r : FRes) (neg : Bool) : Prop :=
    ∃ M : ℝ, IsNum (readF f r.bits) (if neg then -M else M) ∧ 0 < M ∧ ∀ b y, IsNum (readF f b) y → |y| ≤ M
  if Rows.isInt t then
    (∀ x, ∃ k, Narrowed t sat x k ∧ (convert t rm sat (.int x)).bits = content k ∧ (convert t rm sat (.int x)).exc = 0) ∧
    (∀ s, (convert t rm sat (.fp (.nan s))).bits = 0 ∧ (convert t rm sat (.fp (.nan s))).exc = 1) ∧
    (∀ n, (convert t rm sat (.fp (.inf n))).bits = content (if n then lo else hi) ∧
      (convert t rm sat (.fp (.inf n))).exc = if sat then 16 else 1) ∧
    (∀ n m e, convert t rm sat (.fp (.fin n m e)) = { bits := content (fToI t rm sat (.fin n m e)).1, exc := (fToI t rm sat (.fin n m e)).2 })
  else
    (∀ s, (convert t rm sat (.fp (.nan s))).bits = nanBits f ∧ (convert t rm sat (.fp (.nan s))).exc = if s then 1 else 0) ∧
    (∀ n, let r := convert t rm sat (.fp (.inf n))
      if sat then largest r n ∧ r.exc = 20
      else if t = .e4m3 then r.bits = 0x7F ∧ r.exc = 1 else readF f r.bits = .inf n ∧ r.exc = 0) ∧
    (∀ v : Val, (∃ n m e, v = .fp (.fin n m e)) ∨ (∃ x, v = .int x) →
      let r := convert t rm false v
      (if r.exc.getLsbD 2 then largest (convert t rm true v) (match v with | .int x => decide (x < 0) | .fp x => x.neg) ∧ (convert t rm true v).exc = 20
       else convert t rm true v = r) ∧
      r = match v with | .int x => iToF f rm false x | .fp x => fToF f rm false x)

/-- What a lane of a floating-point instruction signals (05 R130-R143): the operation's own exceptions; invalid on a signalling NaN of a
choice, a compare or a widening, and in FN 2-5 of a compare on any NaN. -/
def signals (i : Instr) (f : RForm) (rm : Rm) (a b c : Opd) : Option Exc :=
  let fm := fmtOf f.ty
  let x := readF fm a.v; let y := readF fm b.v
  let nv (v : Bool) : Exc := if v then 1 else 0
  match i with
  | .fmin _ | .fmax _ => some (nv (x.isSnan || y.isSnan))
  | .fcmp k _ => some (nv (x.isSnan || y.isSnan || ((x.isNan || y.isNan) && (k = .lt || k = .le || k = .gt || k = .ge))))
  | .cvt sty _ => some (convert f.ty rm f.sat (readVal sty a.v)).exc
  | .pack _ => some ((convert f.ty rm f.sat (readVal (packSrc f.ty) a.v)).exc ||| (convert f.ty rm f.sat (readVal (packSrc f.ty) b.v)).exc)
  | .unpack _ =>
    let w := Rows.width f.ty
    some (nv (!Rows.isInt f.ty && (readF fm (a.v % 2 ^ 32 / 2 ^ (w * (b.v % (32 / w))) % 2 ^ w)).isSnan))
  | _ => (exactFp i fm rm x y (readF fm c.v) (BitVec.ofNat 32 b.v).toInt).map (·.exc)

/-- An enabled exception of `exc`, lane by lane: the instruction traps by the first cause that some lane signals and `fpctl` enables, in the
lanes that signal it; nothing is written, and `fpst` takes what was signalled (03 R79). -/
def TrapsFp (i : Instr) (s : State) (ln : Bool) (lanes : List Nat) (exc : Nat → Exc) : Prop :=
  let u := lanes.foldl (fun (x : Exc) l => x ||| exc l) 0
  let e := u &&& s.team.fpctl.extractLsb' 0 5
  ∀ b < 5, e.getLsbD b = true → (∀ b' < b, e.getLsbD b' = false) →
    ∃ r : TrapRec, r.cause = BitVec.ofNat 8 (4 + b) ∧ r.pc = s.team.pc ∧
      (∀ l, r.mask.getLsbD l = (ln && decide (l ∈ lanes) && (exc l).getLsbD b)) ∧
      exec i s = .next ((s.setTeam { s.team with fpst := s.team.fpst ||| u.setWidth 64 }).takeTrap s.cur r)

/-- A value of a format that is no NaN, in the order of the extended reals: −∞, the finite values, +∞. -/
def extVal : Fv → Int × ℚ
  | .inf n => (if n then -1 else 1, 0)
  | .fin n m e => (0, (if n then -1 else 1) * (m : ℚ) * 2 ^ e)
  | .nan _ => (0, 0)
def extLt (x y : Fv) : Prop := (extVal x).1 < (extVal y).1 ∨ ((extVal x).1 = (extVal y).1 ∧ (extVal x).2 < (extVal y).2)

/-- How many of A, B, C are value operands of those. -/
def fpArity (i : Instr) : Nat :=
  match i with
  | .fma _ | .fms _ | .fnma _ => 3
  | .fadd _ | .fsub _ | .fmul _ | .fdiv _ => 2
  | _ => 1

/-- The lanes of an F-R instruction hold these results in its destination, and it retires past its word; `u` is what it signals. -/
def Completes (i : Instr) (s : State) (row : Rows.RRow) (f : RForm) (w : Rows.Wd) (u : Exc) (res : Nat → Nat × Tag) : Prop :=
  ∃ t, exec i s = .next t ∧ Retires s t (s.team.pc + 8) (destOf row.d f.ln f.ty f.d.toNat (s.team.lanesFor row f)) ∧
    SameMask s t ∧ t.team.fpst = s.team.fpst ||| u.setWidth 64 ∧
    ∀ k < (s.team.lanesFor row f).length,
      Holds t.team f.ln w f.ty f.d.toNat ((s.team.lanesFor row f).getD k 0) (res k).1 (res k).2

/-- The same with a predicate destination. -/
def CompletesPred (i : Instr) (s : State) (row : Rows.RRow) (f : RForm) (u : Exc) (res : Nat → Bool) : Prop :=
  ∃ t, exec i s = .next t ∧ Retires s t (s.team.pc + 8) (destOf row.d f.ln f.ty f.d.toNat (s.team.lanesFor row f)) ∧
    SameMask s t ∧ t.team.fpst = s.team.fpst ||| u.setWidth 64 ∧
    (∀ k < (s.team.lanesFor row f).length, HoldsPred t.team f.ln f.d.toNat ((s.team.lanesFor row f).getD k 0) (res k)) ∧
    (f.ln = true → ∀ l, l ∉ s.team.lanesFor row f → (t.team.preg f.d.toNat).getLsbD l = (s.team.preg f.d.toNat).getLsbD l)

/-- A team instruction completes with a change of the moving team alone: it becomes `u`, but for what a retirement to `pc` moves. -/
def Becomes (i : Instr) (s : State) (pc : VAddr) (u : Team) : Prop :=
  ∃ t, exec i s = .next t ∧ OnlyMover s t ∧
    { t.team with lastPc := 0, retired := 0, wait := none, bpSkip := false, stalled := false, half := none, code := [], codeReq := none
                  st := .run, steps := 0, stepPending := false, epochUsed := 0 } =
      { u with pc := pc, lastPc := 0, retired := 0, wait := none, bpSkip := false, stalled := false, half := none, code := [], codeReq := none
               st := .run, steps := 0, stepPending := false, epochUsed := 0 }

/-- The lanes that a lane-form guarded instruction writes (06 R153). -/
def writtenLanes (t : Team) (g : BitVec 5) (gn : Bool) : List Nat := lanesOf (t.laneGuard true g gn) t.nlanes

/-- An element of a lane is readable as a value: full, and no fault tag (02 R42, 17 R342). -/
def Readable (t : Team) (r cnt l : Nat) : Prop := t.vempty r cnt l = false ∧ remoteCause (t.velems r cnt l).tag = none

/-- What a block instruction reads of element i of the block of lane l: that lane's, or of an s register (05 R144). -/
def blockOpd (t : Team) (f : RForm) (l i : Nat) : Opd :=
  if f.ob.getLsbD 2 then { v := (t.sreg f.a.toNat).v.toNat, tag := (t.sreg f.a.toNat).tag } else t.velems f.a.toNat 1 (l / 32 * 32 + i)
/-- The value of lane l's slot in f32 (05 R146): codes in words 0-3 of its block, the scale in word 4. -/
def kdecSlot (t : Team) (f : RForm) (l : Nat) : FRes :=
  let codes := (List.range 32).map fun i => (blockOpd t f l (i / 8)).v % 2 ^ 32 / 16 ^ (i % 8) % 16
  fToF fmtF32 .rne false (ky4Slot codes ((blockOpd t f l 4).v % 256) (l % 32))
/-- The block of lane l encoded, inactive lanes as +0 (05 R145). -/
def kencBlock (t : Team) (f : RForm) (l : Nat) : List Nat × Nat × Exc :=
  ky4Encode (if f.rm = .dyn then t.rnd else f.rm) ((List.range 32).map fun i =>
    if t.m.getLsbD (l / 32 * 32 + i) then readF fmtF32 (blockOpd t f l i).v else .fin false 0 0)
/-- What they read is there. -/
def KdecReads (t : Team) (f : RForm) (lanes : List Nat) : Prop :=
  if f.ob.getLsbD 2 then (t.sreg f.a.toNat).full = true ∧ remoteCause (t.sreg f.a.toNat).tag = none
  else ∀ l ∈ lanes, ∀ j < 5, Readable t f.a.toNat 1 (l / 32 * 32 + j)
def KencReads (t : Team) (f : RForm) (lanes : List Nat) : Prop :=
  if f.ob.getLsbD 2 then (t.sreg f.a.toNat).full = true ∧ remoteCause (t.sreg f.a.toNat).tag = none
  else ∀ l ∈ lanes, ∀ i < 32, t.m.getLsbD (l / 32 * 32 + i) = true → Readable t f.a.toNat 1 (l / 32 * 32 + i)

/-- A lane's element at the width of the type, as a reduction reads it (06 R169). -/
def redOpd (t : Team) (f : RForm) (l : Nat) : Opd :=
  let x := t.velems f.a.toNat (if Rows.width f.ty = 64 then 2 else 1) l
  { x with v := if Rows.isInt f.ty then content (readInt f.ty x.v) else x.v % 2 ^ Rows.width f.ty }
/-- The tree over the active lanes (03 R80), and the run over them in ascending order (06 R170), with what their combinations signal. -/
def reduced (o : RedOp) (f : RForm) (s : State) : List (Option Opd) × Exc :=
  tree (combine o f s.team (s.ownTag s.team)) 10
    ((List.range 1024).map fun l => if l ∈ lanesOf s.team.m s.team.nlanes then some (redOpd s.team f l) else none)
def scanned (o : RedOp) (f : RForm) (s : State) : List (Nat × Option Opd × Opd) × Exc :=
  scanRun (combine o f s.team (s.ownTag s.team)) none ((lanesOf s.team.m s.team.nlanes).map fun l => (l, redOpd s.team f l))

/-- Tags of a result that is no move and follows a fixed rule (04 R118). -/
def carried (s : State) (tags : List Tag) : Tag :=
  if tagPoison ∈ tags then tagPoison else if s.team.rule = 2 then 0x000001 else s.ownTag s.team

/-- R116: [nlo, nhi) of a root of base `rb` rounded outward to multiples of 2^e, the smallest e in 0-31 at which the bounds fit. -/
def RoundedBounds (rb nlo nhi e b l : Nat) : Prop :=
  let fits (k : Nat) : Prop := (nlo - rb) / 2 ^ k ≤ 32767 ∧ (nhi - rb + 2 ^ k - 1) / 2 ^ k - (nlo - rb) / 2 ^ k ≤ 32767
  rb ≤ nlo ∧ nlo ≤ nhi ∧ e ≤ 31 ∧ fits e ∧ (∀ k < e, ¬ fits k) ∧ b = (nlo - rb) / 2 ^ e ∧ l = (nhi - rb + 2 ^ e - 1) / 2 ^ e - b

/-- A derived capability r of k by an instruction, with the scalar x or the second capability q (04 R120-R124): what changes, and that
nothing else does; what stands open in bounds is said by the encodings of R116. -/
def CapDerived (i : Instr) (s : State) (k : CReg) (x : Opd) (q r : CReg) : Prop :=
  let lo := s.capLoOf (s.ctxOf s.team); let hi := s.capHiOf (s.ctxOf s.team)
  match i with
  | .cseta _ => r = { bits := capSetCursor k.bits x.v, valid := true, tag := carried s [k.tag, x.tag] }
  | .cinc _ => r = { bits := capSetCursor k.bits (capCursor k.bits + x.v), valid := true, tag := carried s [k.tag, x.tag] }
  | .cbnd _ => lo r.bits = capCursor k.bits ∧ hi r.bits = capCursor k.bits + x.v ∧
      (∃ e b l, r.bits = capSetBounds k.bits e b l) ∧ r.valid = true ∧ r.tag = carried s [k.tag, x.tag]
  | .cbndr _ => lo r.bits ≤ capCursor k.bits ∧ capCursor k.bits + x.v ≤ hi r.bits ∧ lo k.bits ≤ lo r.bits ∧ hi r.bits ≤ hi k.bits ∧
      (∃ e b l, RoundedBounds (rootOf (s.roots (s.ctxOf s.team)) k.bits).base (capCursor k.bits) (capCursor k.bits + x.v) e b l ∧
        r.bits = capSetBounds k.bits e b l) ∧ r.valid = true ∧ r.tag = carried s [k.tag, x.tag]
  | .cperm _ => r = { bits := capSetPerms k.bits (capPerms k.bits &&& BitVec.ofNat 12 (x.v % 2 ^ 11)), valid := true, tag := carried s [k.tag, x.tag] }
  | .cseal _ => r = { bits := capSetOtype k.bits (capCursor q.bits), valid := true, tag := carried s [k.tag, q.tag] }
  | .cunseal _ => r = { bits := capSetOtype k.bits 0, valid := true, tag := carried s [k.tag, q.tag] }
  | .cmov _ => r = { k with valid := k.valid && (rootOf (s.roots (s.ctxOf s.team)) k.bits).state ≠ .revoked, busy := false }
  | .cnull _ => r = { bits := 0, valid := false, tag := carried s [] }
  | _ => False

/-- What each of them checks passes (04 R117, R120-R125). -/
def CapAllows (i : Instr) (s : State) (k : CReg) (x : Opd) (q : CReg) : Prop :=
  let who : Checker := { s.checker s.team anyKind with fab := false }
  let roots := s.roots (s.ctxOf s.team)
  let lo := s.capLoOf (s.ctxOf s.team) k.bits; let hi := s.capHiOf (s.ctxOf s.team) k.bits
  let rb := (rootOf roots k.bits).base
  let own (c : CReg) : Prop := capCheck roots who c (s.capLoOf (s.ctxOf s.team) c.bits) 0 0 = none
  match i with
  | .cseta _ | .cinc _ | .cperm _ => own k
  | .cbnd _ => own k ∧ x.v < 2 ^ 64 ∧ lo ≤ capCursor k.bits ∧ capCursor k.bits + x.v ≤ hi ∧
      (exactEnc rb (capCursor k.bits) (capCursor k.bits + x.v)).isSome
  | .cbndr _ => own k ∧ x.v < 2 ^ 64 ∧ lo ≤ capCursor k.bits ∧ capCursor k.bits + x.v ≤ hi ∧
      ∃ e b l, roundedEnc rb (capCursor k.bits) (capCursor k.bits + x.v) = some (e, b, l) ∧ lo ≤ rb + b * 2 ^ e ∧ rb + (b + l) * 2 ^ e ≤ hi
  | .cseal _ => own k ∧ 1 ≤ capCursor q.bits ∧ capCursor q.bits ≤ 15 ∧ capCheck roots who q (capCursor q.bits) 1 pSEAL = none ∧
      (capCursor q.bits = 1 → capPerms k.bits &&& pX ≠ 0)
  | .cunseal _ => own { k with bits := capSetOtype k.bits 0 } ∧ 2 ≤ capOtype k.bits ∧ capCheck roots who q (capOtype k.bits) 1 pSEAL = none
  | .cmov _ | .cnull _ => True
  | _ => False

/-- The cause that a derivation fails with in a lane: R117's check of the source, then the instruction's own (04 R120-R124). -/
def capFails (i : Instr) (s : State) (k : CReg) (x : Opd) (q : CReg) : Option (BitVec 8) :=
  let who : Checker := { s.checker s.team anyKind with fab := false }
  let roots := s.roots (s.ctxOf s.team)
  let lo := s.capLoOf (s.ctxOf s.team) k.bits; let hi := s.capHiOf (s.ctxOf s.team) k.bits
  let rb := (rootOf roots k.bits).base
  let own (c : CReg) : Option (BitVec 8) := capCheck roots who c (s.capLoOf (s.ctxOf s.team) c.bits) 0 0
  let fits (e : Nat × Nat × Nat) : Bool := lo ≤ rb + e.2.1 * 2 ^ e.1 && rb + (e.2.1 + e.2.2) * 2 ^ e.1 ≤ hi
  let top := capCursor k.bits + x.v % 2 ^ 64
  let bounds (enc : Option (Nat × Nat × Nat)) : Option (BitVec 8) :=
    if capCursor k.bits < lo || hi < top || !(enc.map fits).getD false then some 0x11 else none
  match i with
  | .cseta _ | .cinc _ | .cperm _ => own k
  | .cbnd _ => (own k).or (bounds (exactEnc rb (capCursor k.bits) top))
  | .cbndr _ => (own k).or (bounds (roundedEnc rb (capCursor k.bits) top))
  | .cseal _ =>
    let o := capCursor q.bits
    ((own k).or (capCheck roots who q o 1 pSEAL)).or
      (if o < 1 || 15 < o then some 0x11 else if o = 1 && capPerms k.bits &&& pX = 0 then some 0x12 else none)
  | .cunseal _ =>
    ((own { k with bits := capSetOtype k.bits 0 }).or (if capOtype k.bits ≤ 1 then some 0x13 else none)).or
      (capCheck roots who q (capOtype k.bits) 1 pSEAL)
  | _ => none

/-- An instruction traps with a cause at its own pc; a team that has no access out keeps its registers, but for c29 and c31 of a handler. -/
def TrapsWith (i : Instr) (s : State) (cause : BitVec 8) (r : TrapRec) : Prop :=
  r.cause = cause ∧ r.pc = s.team.pc ∧ exec i s = .next (s.takeTrap s.cur r) ∧
  (s.team.outs = [] → SameRegs s.team (s.takeTrap s.cur r).team { c := fun n => n = 29 ∨ n = 31 })

/-- The capability in a quad of a lane (04 R115). -/
def laneCap (t : Team) (n l : Nat) : CReg :=
  { bits := BitVec.ofNat 128 (t.velems n 4 l).v, valid := t.vvalid n l, tag := (t.velems n 4 l).tag }

/-- The accesses without one of them; what the others are ordered before may have grown (10 R242). -/
def WithoutAccess (old new : List Access) (id : Nat) : Prop :=
  new.map (fun x => { x with before := 0 }) = (old.filter fun x => x.id ≠ id).map fun x => { x with before := 0 }

/-- No recording traces the moving team (21 R409), and no debugger watches it (21 R413). -/
def Unobserved (s : State) : Prop :=
  (∀ c, s.ctxOf s.team = some c → (s.ctxAt c).recorder.dies.getLsbD (s.crewAt s.team.crew).die = false) ∧ s.attached s.team = none

/-- The memory instructions that issue accesses, each with its columns of 09 Table 9-3. -/
def memOpOf (i : Instr) : Option (MForm × MemOp) :=
  match i with
  | .ldG f => some (f, loadOp f [.loc, .peer, .host])
  | .ldGCap f => some (f, { loadOp f [.loc, .peer, .host] with kind := .loadCap, aligned := true, dst := .quad f.data.toNat })
  | .stG f => some (f, storeOp f [.loc, .peer, .host])
  | .stGCap f => some (f, { storeOp f [.loc, .peer, .host] with kind := .storeCap, aligned := true, data := .cap })
  | .ldS f => some (f, loadOp f [.scratch])
  | .stS f => some (f, storeOp f [.scratch])
  | .ldsTr f => some (f, trOp f)
  | .ldc f => some (f, { loadOp f [.loc, .scratch, .peer, .host] with kind := .loadCap, aligned := true, dst := .c f.data.toNat })
  | .stc f => some (f, { storeOp f [.loc, .scratch, .peer, .host] with kind := .storeCap, aligned := true, data := .cap })
  | .atom f => some (f, atomOf f (atomKind f))
  | .aCas f => some (f, atomOf f .cas)
  | .aFadd f => some (f, atomOf f .fadd)
  | _ => none

/-- The lanes of a memory instruction ask for these accesses (09 R214): its destination is free, and capability, index and data read. -/
def Asks (s : State) (f : MForm) (op : MemOp) (ys : List Ask) : Prop :=
  let written := s.team.memLanes f
  destWaits s.team op written = false ∧
  ∃ xs, readAddr s.team f op (s.team.readLanes op written) = .ok xs ∧
    withData s.team f op (xs.map fun x => { x with write := written.contains x.lane }) = .ok ys

/-- Every access that is asked for passes its checks (09 R215, R223, 14 R314). -/
def Allowed (s : State) (f : MForm) (op : MemOp) (ys : List Ask) : Prop :=
  (∀ y ∈ ys, poisoned s s.team op y = false ∧ askCause s s.team op y = none ∧ askPages s s.team op y = []) ∧
  checkStored s s.team f.ln op ys = .ok () ∧
  (op.data ≠ .none → ∀ y ∈ ys, (askSpace s s.team op y = .dev ∨ askSpace s s.team op y = .scratch) ∨ (y.d.tag ≠ tagPoison ∧ y.d2.tag ≠ tagPoison))

/-- The registers that a load or an atomic marks empty. -/
def destWrites (d : Dest) (lanes : List Nat) : Writes :=
  match d with
  | .none => {}
  | .s n cnt => { s := fun k => n ≤ k ∧ k < n + cnt }
  | .v n cnt => { v := fun r l => n ≤ r ∧ r < n + cnt ∧ l ∈ lanes }
  | .c n => { c := fun k => k = n }
  | .quad n => { v := fun r l => n ≤ r ∧ r < n + 4 ∧ l ∈ lanes }

/-- A destination is empty, or busy, in these lanes. -/
def DestEmpty (t : Team) (d : Dest) (lanes : List Nat) : Prop :=
  match d with
  | .none => True
  | .s n cnt => ∀ q < cnt, (t.sreg (n + q)).full = false
  | .v n cnt => ∀ l ∈ lanes, ∀ q < cnt, (t.velem (n + q) l).full = false
  | .c n => n ≠ 0 → (t.c.getD n {}).busy = true
  | .quad n => ∀ l ∈ lanes, ∀ q < 4, (t.velem (n + q) l).full = false

/-- New values of the atomics (09 Table 9-5, R228, R229) on old and operand of `size` bytes. -/
def atomValue (op : AtomOp) (size old x new : Nat) : Nat :=
  let a : BitVec (8 * size) := BitVec.ofNat _ old; let b : BitVec (8 * size) := BitVec.ofNat _ x
  match op with
  | .add => (a + b).toNat
  | .min => (if a.sle b then a else b).toNat
  | .max => (if a.sle b then b else a).toNat
  | .minu => (if a.ule b then a else b).toNat
  | .maxu => (if a.ule b then b else a).toNat
  | .and => (a &&& b).toNat
  | .or => (a ||| b).toNat
  | .xor => (a ^^^ b).toNat
  | .xch => b.toNat
  | .cas => if a = b then new % 2 ^ (8 * size) else a.toNat
  | .fadd =>
    let f := if size = 2 then fmtBf16 else if size = 4 then fmtF32 else fmtF64
    (fAdd f .rne (readF f old) (readF f x)).bits

/-! Engine commands. -/

/-- The events that perform units of the copy commands, by KIND (11 Table 11-2). -/
def copyEvents (cmd n : Nat) : List (Nat × Instr) :=
  [(0x43, .copy cmd n), (0x46, .fill cmd n), (0x47, .gather cmd n), (0x5A, .zero cmd n), (0x55, .unpackKy4 cmd n), (0x50, .packKy4 cmd n)]

/-- A running copy command that has rows left, as its event finds it: a cancel stops it only at the end of a line (11 R266), and the lines of a
PACK.KY4 are whole. -/
def Moving (s : State) (cmd : Nat) : Prop :=
  cmd < s.cmds.length ∧ (s.cmdAt cmd).q ≤ 3 ∧ (s.cmdAt cmd).state = .running ∧
  ((s.cmdAt cmd).cancelled = false ∨ (s.cmdAt cmd).req ≠ none ∨ (s.cmdAt cmd).mid = true) ∧
  (s.cmdAt cmd).linkFail = none ∧ (s.cmdAt cmd).idx < (copyW (s.cmdAt cmd).w).rows ∧
  ((s.cmdAt cmd).kind = 0x50 → (((capCursor (s.cmdAt cmd).dstC.bits : Int) + (copyW (s.cmdAt cmd).w).doff).toNat + 64 * (s.cmdAt cmd).idx) % 64 = 0)

/-- The source row that it reads: the capability, the address of its first byte, its length (11 R271, R273, R275, R276). A GATHER reads
the row's index first. -/
def rowRead (c : Cmd) : Option (CReg × Nat × Nat) :=
  let m := copyW c.w
  let at_ (k : CReg) (x : Int) : Nat := ((capCursor k.bits : Int) + x).toNat
  let i1 : Nat := c.idx % max m.n1 1; let i2 : Nat := c.idx / max m.n1 1
  if c.kind = 0x43 then some (c.srcC, at_ c.srcC (m.soff + i1 * m.ss1 + i2 * m.ss2), m.n0)
  else if c.kind = 0x47 then
    match c.row with
    | none => some (c.auxC, at_ c.auxC (m.ds2 + 4 * c.idx), 4)
    | some a => some (c.srcC, a, m.n0)
  else if c.kind = 0x55 then some (c.srcC, at_ c.srcC (m.soff + 64 * c.idx), 64)
  else if c.kind = 0x50 then some (c.srcC, at_ c.srcC (m.soff + 256 * c.idx), 256)
  else none

/-- The destination row that it writes (11 R271, R273-R276). -/
def rowWritten (c : Cmd) : CReg × Nat × Nat :=
  let m := copyW c.w
  let at_ (x : Int) : Nat := ((capCursor c.dstC.bits : Int) + x).toNat
  let i1 : Nat := c.idx % max m.n1 1; let i2 : Nat := c.idx / max m.n1 1
  if c.kind = 0x47 then (c.dstC, at_ (m.doff + c.idx * m.ds1), m.n0)
  else if c.kind = 0x55 then (c.dstC, at_ (m.doff + 256 * c.idx), 256)
  else if c.kind = 0x50 then (c.dstC, at_ (m.doff + 64 * c.idx), 64)
  else (c.dstC, at_ (m.doff + i1 * m.ds1 + i2 * m.ds2), m.n0)

/-- The bytes of that row: a pattern of 2^MODE bytes, zeros, the values or the codes of 03 R75-R78, or what was read (11 R271-R276). -/
def rowOut (c : Cmd) : List Byte :=
  let m := copyW c.w
  let read := c.buf.flatMap (·.bytes)
  if c.kind = 0x46 then (List.range m.n0).map fun j => (BitVec.ofInt 64 m.soff).extractLsb' (8 * (j % 2 ^ m.mode)) 8
  else if c.kind = 0x5A then List.replicate m.n0 0
  else if c.kind = 0x55 then (unpackLine read (c.buf.headD { off := 0, bytes := [] }).side.scales).flatMap fun r => leBytes 2 r.bits
  else if c.kind = 0x50 then (packLine (c.packRm m.mode) read).1
  else read

/-- It has read what the row is made of. -/
def RowReady (c : Cmd) : Prop :=
  (rowOut c).length = (rowWritten c).2.2 ∧ (∀ x, rowRead c = some x → x.2.2 ≤ c.rd) ∧ (c.kind = 0x47 → c.row ≠ none ∧ (copyW c.w).n0 ≠ 0) ∧
  (c.kind = 0x55 → ∃ p, c.buf = [p] ∧ p.side.kind = 1)

/-- A running matrix command of a kind, on a crew that owns eight tiles (12 R279, R282). -/
def Working (s : State) (cmd kind : Nat) (ts : List Tile) : Prop :=
  cmd < s.cmds.length ∧ ((s.cmdAt cmd).q = 4 ∨ (s.cmdAt cmd).q = 5) ∧ (s.cmdAt cmd).kind = kind ∧ (s.cmdAt cmd).state = .running ∧
  (s.cmdAt cmd).cancelled = false ∧ (s.cmdAt cmd).crew < s.crews.length ∧ (s.crewAt (s.cmdAt cmd).crew).state ≠ .saving ∧ (s.crewAt (s.cmdAt cmd).crew).tiles = some ts ∧ ts.length = 8

/-- 64 rows of 64. -/
def Square {α : Type} (rows : List (List α)) : Prop := rows.length = 64 ∧ ∀ r ∈ rows, r.length = 64

/-- Element (i, j) of rows. -/
def elemAt (rows : List (List Elem)) (i j : Nat) : Elem := (rows.getD i []).getD j (0, 0)

/-- A command ended with a fault flag. -/
def Stopped (t : State) (cmd : Nat) (cause : BitVec 8) : Prop := (t.cmdAt cmd).state = .done ∧ (t.cmdAt cmd).cause = cause

/-! Packets. -/

/-- A packet goes out on the port of its flow (17 R335): it stands there, sent or waiting, with a sequence number of the port and, under a
fabric key, its COUNT and number (20 R397); a port to an S7 strips it (17 R347). -/
def Sends (s t : State) (p : Packet) : Prop :=
  ∀ q, s.portFor p.src p.dst p.exp = some q → q < s.ports.length →
    ∃ x ∈ (t.portAt q).unacked ++ (t.portAt q).queue ++ (t.portAt q).stalled.map (·.2),
      { x with seq := p.seq, count := p.count, fport := p.fport } = if (s.portAt q).major = 1 then s7Strip p else p

/-- A packet of a class with a listed operation comes over an UP port, waits for no run's tag, and what a fabric key protects is in order (17
R334, R345, 20 R397, R398). -/
def Accepted (s : State) (ctx : Option Nat) (p : Packet) (cls : BitVec 4) (ops : BitVec 6 → Bool) : Prop :=
  ∃ i s', s.portFrom p.src = some i ∧ listed p = true ∧ p.cls = cls ∧ ops p.op = true ∧ s.runWorld ctx i p = none ∧
    s.authentic ctx i p = .ok s'

/-- Nothing holds arrivals for a context: its job runs in no epochs and it replays nothing (21 R417, R419). -/
def Live (s : State) (ctx : Option Nat) : Prop := s.inEpoch ctx = false ∧ s.replaying ctx = false

/-! Firmware. -/

/-- A firmware request that is performed when it arrives (17 R345, R349): over an UP port, it is this event's command, nothing holds it back, no
request before it waits, its sender has no reply under its SEQ and fewer than 16 requests unanswered. -/
def Fresh (ctx : Option Nat) (i : Instr) (m : FwMsg) (s : State) : Prop :=
  isCommand i = true ∧ (s.portFrom m.src).isSome ∧ s.seqHeld m = false ∧ Live s ctx ∧ (s.sender m.src).replies.find? (fun r => r.1 = m.seq) = none ∧
  (s.sender m.src).waiting.contains m.seq = false ∧ (s.sender m.src).waiting.length < 16

/-- The packet of a firmware reply (17 R348). -/
def fwReply (dst : BitVec 12) (line : List Byte) : Packet :=
  { cls := 2, op := 2, first := 0, last := 63, src := Config.deviceId, dst := dst, exp := 0, xid := 0, gen := 0, otag := 0, kind := 0
    obs := 0, addr := 0, seq := 0, scales := 0, line := line }

/-- It has been answered: the reply is the last that the firmware keeps for the sender. -/
def Answered (t : State) (m : FwMsg) (status : Nat) (body : List Byte) : Prop :=
  (t.sender m.src).replies.getLast? = some (m.seq, replyLine m.code m.seq status body)

/-- The message names context c, which its sender created and nobody destroys (17 R349, R353). -/
def OfContext (s : State) (m : FwMsg) (c : Nat) : Prop :=
  m.cid.toNat = c + 1 ∧ c < s.contexts.length ∧ (s.ctxAt c).alive = true ∧ (s.ctxAt c).creator = m.src ∧ (s.ctxAt c).destroying = none

/-- A world may be configured: it is unknown, or CONFIG_UNLOCKED (20 R401). -/
def Unlocked (s : State) (world : Nat) : Prop := ∀ w, s.worlds.find? (fun w => w.id = world) = some w → w.lock = .unlocked

/-- The world of a context is as it was, but for the count of what its ports have sent under its fabric key (20 R393). -/
def Unsent (s t : State) (c : Nat) : Prop :=
  (t.worldOf (some c)).map (fun w => { w with sent := [] }) = (s.worldOf (some c)).map (fun w => { w with sent := [] })

/-- A well-formed debug command with a listed CODE stands in its mailbox under a new SEQ (21 R412). -/
def Stands (s : State) (m : DbgMsg) (code : BitVec 16) : Prop := s.inMailbox m code = true ∧ m.code = code ∧ m.rsv = 0

/-- A debug command has been answered (21 R412): its reply stands in the mailbox, its SEQ is the last, and no other byte of memory has
changed. -/
def DbgReply (s t : State) (m : DbgMsg) (status : Nat) (body : List Byte) : Prop :=
  let a := (s.ctxAt m.ctx).mailbox + 32832
  t.mem.bytes a 64 = (leBytes 2 (m.code ||| 0x8000).toNat ++ leBytes 2 m.seq.toNat ++ leBytes 4 status ++ body ++ List.replicate 64 0).take 64 ∧
  (∀ x, (x < a ∨ a + 64 ≤ x) → t.mem.byte x = s.mem.byte x) ∧ (t.ctxAt m.ctx).dbg.seq = m.seq

/-! Collectives. -/

/-- A running instance whose start has not been cancelled. -/
def Running (s : State) (sc : Nat) : Prop :=
  sc < s.scheds.length ∧ (s.schedAt sc).st = .running ∧ (s.cmdAt (s.schedAt sc).cmd).cancelled = false

/-- The events of operations, by OP (18 Table 18-2). -/
def OpEvent (sc k kind : Nat) (i : Instr) : Prop :=
  (kind = 1 ∧ i = .send sc k) ∨ (kind = 2 ∧ i = .recv sc k) ∨ (kind = 3 ∧ i = .recvred sc k) ∨ (kind = 4 ∧ i = .schedCopy sc k) ∨
  (kind = 5 ∧ i = .reduce sc k) ∨ (kind = 6 ∧ i = .wait sc k) ∨ (kind = 7 ∧ i = .signal sc k) ∨ (kind = 10 ∧ i = .gbar sc k)

/-- A collective packet that arrives in order and that its group takes as one of the running instance sc (18 R362; an S7 sends no generation,
17 R347). -/
def ForInstance (s : State) (p : Packet) (gi sc : Nat) : Prop :=
  s.packetGroup p = some gi ∧ (p.gen = BitVec.ofNat 16 (s.groupAt gi).gen ∨ s.fromS7 p.src = true) ∧ s.instanceOf gi = some sc ∧
  sc < s.scheds.length ∧ (s.schedAt sc).inst % 65536 = p.xid.toNat ∧ Live s (s.groupCtx p) ∧ Accepted s (s.groupCtx p) p 3 (fun _ => true)

/-- The first started operation with a peer that a packet is for (18 R362). -/
def Finds (x : Sched) (peer : Nat) (ok : SOp → Bool) (i : Nat) : Prop :=
  let hit (j : Nat) : Prop := (x.opAt j).st = .started ∧ (x.opAt j).peer = peer ∧ ok (x.opAt j) = true
  i < x.issued.length ∧ hit i ∧ ∀ j < i, ¬ hit j

/-- What an operation that moves bytes writes next: what has arrived (RECV), what it has read (COPY), or the two combined (18 R368, R371). -/
def UnitOf (s : State) (sc k : Nat) (bs : List (Byte × Tag)) : Prop :=
  let x := s.schedAt sc
  let o := x.opAt k
  let e := codeBytes (bitsAt o.w 56 4)
  if o.op = 2 ∨ o.op = 4 then bytesIn o.a o.bytes (o.unit (s.chunkOf sc) 1) = some bs
  else (o.op = 3 ∨ o.op = 5) ∧ ∃ as cs ty, bytesIn o.a o.bytes (o.unit (s.chunkOf sc) e) = some as ∧
    bytesIn o.b o.bytes (o.unit (s.chunkOf sc) e) = some cs ∧ Rows.tyOf (bitsAt o.w 56 4) = some ty ∧
    bs = (combineAll ty (redOf (bitsAt o.w 53 3)) (tagSched (16 + 16 * x.die + x.slot)) e (o.unit (s.chunkOf sc) e / e) as cs).1

end Sys2Proof
end

