-- ==== Sys2Proof/Certificates/Slice0/Obligations.lean ====
section
/-! DEFINITION. The statements about the model that are to be proved. Each docstring names the rules it follows. -/

open Sys2Proof Sys2Proof.Machine

/-! Encoding. -/

/-- Decoding the encoded bytes of a well-formed word gives it back, whatever follows it; the four rows of `pmap` share their words
(02 R55-R66, 09 R235). -/
def Obligations.DecodeEncode : Prop :=
  ∀ (i : Instr) (rest : List Byte), Rows.isWord i = true → i.wf = true → decode (encodeBytes i ++ rest) = .ok (canon i, rest)

/-- A word that decodes is the word that its instruction encodes to: no bit is dropped (02 R55, R65). -/
def Obligations.EncodeDecode : Prop :=
  ∀ (w x : Nat) (i : Instr), w < 2 ^ 64 → x < 2 ^ 64 → decodeWord w x = .ok i → encode i = if isLit w then [w, x] else [w]

/-- Words written out from the bit rulers and examples of the spec decode to the instructions they stand for: `fma.f32.rn v8, v9, v10,
v11`, `ld.g.64.acq s8, [c4+s2*8+16], obs=dev`, `loop s9`, `brc.f b3`, `push.y 4, s16, b2`, `cvt.f32.e4m3.rn.sat s6, s5`. -/
def Obligations.DecodeWords : Prop :=
  decodeWord 0x4220928BC200A000 0 = .ok (.fma
    { d := 8, a := 9, b := 10, c := 11, g := 24, gn := false, ln := true, ea := false, eb := false, ec := false, ty := .f32
      rm := .rne, sat := false, ob := 0 }) ∧
  decodeWord 0x8020816036068002 0 = .ok (.ldG
    { data := 8, cap := 4, index := 2, g := 24, gn := false, ln := false, e := false, sz := 3, scl := 3, obs := 3, ord := 1
      tg := false, off := 2 }) ∧
  decodeWord 0x07240000FFFFFFFF 0 = .ok (.loop { d := 9, a := 0, g := 0, gn := false, ln := false, ea := false, imm := 0xFFFFFFFF }) ∧
  decodeWord 0x0319000000000005 0 = .ok (.brc true { cnd := 3, off := 5 }) ∧
  decodeWord 0xB040985000000003 0 = .ok (.push { sf := 16, q := 4, g := 24, gn := false, y := true, bq := 2, cont := 3 }) ∧
  decodeWord 0x60185000C00AC100 0 = .ok (.cvt .f32
    { d := 6, a := 5, b := 0, c := 0, g := 24, gn := false, ln := false, ea := false, eb := false, ec := false, ty := .e4m3
      rm := .rne, sat := true, ob := 0 })

/-- The MOP values of R65 are unassigned: whatever its other bits, such a word is read as the illegal encoding (02 R65). -/
def Obligations.UnassignedWordsAreIllegal : Prop :=
  ∀ w x : Nat, w < 2 ^ 64 →
    (let m := w / 2 ^ 56
     m = 0 ∨ (0x0B ≤ m ∧ m ≤ 0x0F) ∨ (0x20 ≤ m ∧ m ≤ 0x2F) ∨ (0x37 ≤ m ∧ m ≤ 0x3F) ∨ (0x4A ≤ m ∧ m ≤ 0x5F) ∨ (0x63 ≤ m ∧ m ≤ 0x6F) ∨
     (0x74 ≤ m ∧ m ≤ 0x77) ∨ m = 0x7E ∨ m = 0x7F ∨ (0x8D ≤ m ∧ m ≤ 0x9F) ∨ (0xA5 ≤ m ∧ m ≤ 0xAF) ∨ (0xB1 ≤ m ∧ m ≤ 0xB7) ∨
     (0xBC ≤ m ∧ m ≤ 0xBF) ∨ 0xC9 ≤ m) →
    readInstr w x = .illegalEncoding (BitVec.ofNat 64 w)

/-! The step. -/

/-- When it is a team's turn, no boundary event is due, and the words at its pc are fetched and decode to an instruction at which no
breakpoint stops it, the step is the meaning of that instruction at the state in which the team moves and the turn's cycles have
passed and its fetch is counted at home (20 R393), with the slots that it has issued counted and nothing else changed (02 R51, 21 R406, log 1).
What is fetched is what the bytes at the pc decode to: 8 of them, or 16 where the first word is that of `lit`; a first word that a turn before
has fetched stands (R54). Of the fetch only caches and counts move: the lines that the core does not hold, which log 9 leaves open. -/
def Obligations.StepRunsDecoded : Prop :=
  ∀ (s : State) (cycles j : Nat) (rest : List Turn) (i : Instr), s.poweredDown = false → s.agenda = { cycles := cycles, act := .team j } :: rest →
    let turn : Turn := { cycles := cycles, act := .team j }
    let s0 : State := { s with agenda := rest }
    let s1 : State := { s0.before turn with cur := j }
    let t := s1.team
    (j < s1.teams.length → t.alive → t.killPending = none → (s1.crewAt t.crew).state = .resident → s1.cancelDue j = false →
      s1.canMove j = true → s1.stopDue t = false → t.mismatch = false → (t.wait = none ∨ t.wait = some .twait ∨ t.wait = some .cwait) →
      (t.frame.isSome ∨ (t.stepPending = false ∧ s1.timerDue t = false)) →
      s1.fetch t = .ok (some i) → (s1.breakpointAt t = none ∨ admissible t i = false) →
      let s2 := s1.noteFetch (Rows.size i)
      Machine.step s = s2.counting i (exec i s2) ∧
      (∀ u, exec i s2 = .next u → ∃ m, Machine.step s = .next { u with slotCounts := m }) ∧
      (∃ (l : List (Nat × LlcLine)) (n x : _) (cs : List CoreSt), s2 = { s1 with llc := l, llcCounts := n, transfers := x, cores := cs } ∧
        cs.map (fun (c : CoreSt) => { c with l1 := [] }) = s1.cores.map fun (c : CoreSt) => { c with l1 := [] })) ∧
    (∀ (c : Nat) (r1 r2 : List (Nat × Nat)), s1.inRom t = false → s1.ctxOf t = some c → t.half = none →
      let need : Need := { x := true, compt := s1.comptOf t }
      let check (a : Nat) := capCheck (s1.codeRoots t) (s1.checker t anyKind) (t.c.getD 31 {}) a 8 pX true
      let second := (t.pc.toNat + 8) % 2 ^ 57
      check t.pc.toNat = none → s1.translate (some c) need t.pc.toNat 8 = .ok (r1, false) → (∀ l ∈ linesOf r1, s1.mem.bad l = false) →
      (decode (readRuns s1.mem r1) = .ok (i, []) → s1.fetch t = .ok (some (refine t i))) ∧
      ((readRuns s1.mem r1).length = 8 → check second = none → s1.translate (some c) need second 8 = .ok (r2, false) →
        (∀ l ∈ linesOf r2, s1.mem.bad l = false) → (readRuns s1.mem r2).length = 8 →
        decode (readRuns s1.mem r1 ++ readRuns s1.mem r2) = .ok (i, []) → s1.fetch t = .ok (some i)))

/-- Every step answers a next state unless TEMPERATURE_LIMIT has powered the package down, and then none does (17 R357). -/
def Obligations.EveryStepIsSafe : Prop :=
  ∀ s : State, (s.poweredDown = false → Safe s) ∧ (s.poweredDown = true → Machine.step s = .fault .poweredDown)

/-- The reset state: every port in training (17 R332), no page of memory written, every die's `dcyc` at a value of its own (00 R3), and each
die's firmware team running at its mask ROM entry in firmware mode with Tables 2-1 and 6-1 (02 R44). Its memory is in canonical form and
its register files are shaped (log 3, log 4). -/
def Obligations.ResetState : Prop :=
  State.reset.ports = List.replicate 36 {} ∧ State.reset.mem = {} ∧ State.reset.dies.length = 4 ∧
  (∀ d < 4, (State.reset.dieAt d).dcyc = Config.dcycStart d ∧ (State.reset.dieAt d).kills = [] ∧ (State.reset.dieAt d).usable = true) ∧
  State.reset.contexts = [] ∧ State.reset.launches = [] ∧ State.reset.poweredOn = false ∧ State.reset.teams.length = 4 ∧
  MemoryCanonical State.reset ∧ TeamsShaped State.reset ∧ LanesBounded State.reset ∧
  ∀ d < 4, let t := State.reset.teamAt d
    t.mode = .firm ∧ t.pc = Config.romEntry d &&& ~~~7 ∧ t.st = .run ∧ t.frame = none ∧ t.stack = [] ∧ t.m = 0xFFFFFFFF ∧
    t.nlanes = 32 ∧ t.vregs = 64 ∧ t.fpctl = 0 ∧ t.fpst = 0 ∧ t.tagrule = 0 ∧ t.ttimer = 0 ∧ (∀ n < 64, t.sreg n = { v := 0, tag := 0xFFF001, full := true }) ∧
    (∀ n < 8, t.breg n = false) ∧ (∀ n < 24, t.preg n = 0)

/-- Memory and the scratchpads stay in canonical form: equal memories are equal data (log 3). -/
def Obligations.StepKeepsMemoryCanonical : Prop :=
  ∀ s t : State, MemoryCanonical s → Machine.step s = .next t → MemoryCanonical t

/-- Register files keep the sizes of 02 R38-R42 and 06 R151, and no launch and no kernel of a context names more than 1,024 lanes. -/
def Obligations.StepKeepsTeamsShaped : Prop :=
  ∀ s t : State, TeamsShaped s → LanesBounded s → Machine.step s = .next t → TeamsShaped t ∧ LanesBounded t

/-! Issue and exceptions. -/

/-- A word that is not legal for the team traps ILLEGAL in every mode; a legal one of too high a mode traps PRIV; one that names a special
register that its mode may not touch traps as R45 says, all whatever the guard is and with no source read (02 R51, R66). The illegal
encoding traps ILLEGAL (R65). -/
def Obligations.IllegalAndPrivilegedTrap : Prop :=
  (∀ (i : Instr) (s : State), s.cur < s.teams.length → Rows.isWord i = true → Rows.legal s.team.vregs i = false →
    exec i s = .next (s.takeTrap s.cur { cause := 0x01, pc := s.team.pc })) ∧
  (∀ (i : Instr) (s : State), s.cur < s.teams.length → Rows.isWord i = true → Rows.legal s.team.vregs i = true →
    modeRank s.team.mode < modeRank (Rows.mode i) → exec i s = .next (s.takeTrap s.cur { cause := 0x02, pc := s.team.pc })) ∧
  (∀ (i : Instr) (s : State), s.cur < s.teams.length → Rows.legal s.team.vregs i = true → modeRank (Rows.mode i) ≤ modeRank s.team.mode →
    let reg (f : IForm) : Nat := f.imm.toNat % 256
    (∀ f, i = .rdsr f → 14 ≤ reg f ∧ reg f ≤ 21 → s.team.mode = .user → exec i s = .next (s.takeTrap s.cur { cause := 0x02, pc := s.team.pc })) ∧
    (∀ f, i = .wrsr f → (14 ≤ reg f ∧ reg f ≤ 21 ∧ s.team.mode = .user) ∨ (reg f = 7 ∧ s.team.mode ≠ .firm) →
      exec i s = .next (s.takeTrap s.cur { cause := 0x02, pc := s.team.pc })) ∧
    (∀ f, i = .wrsr f → reg f ≤ 6 ∨ reg f = 8 ∨ ((reg f = 16 ∨ reg f = 20) ∧ s.team.mode ≠ .user) →
      exec i s = .next (s.takeTrap s.cur { cause := 0x01, pc := s.team.pc })) ∧
    (∀ f, i = .lvlWrite f → s.team.mode ≠ .firm → exec i s = .next (s.takeTrap s.cur { cause := 0x02, pc := s.team.pc })) ∧
    (∀ f, i = .trappcWrite f → s.team.mode = .user → exec i s = .next (s.takeTrap s.cur { cause := 0x02, pc := s.team.pc }))) ∧
  (∀ (w : Word) (s : State), s.cur < s.teams.length → exec (.illegalEncoding w) s = .next (s.takeTrap s.cur { cause := 0x01, pc := s.team.pc }))

/-- A legal scalar-form instruction of the team's mode whose guard is false reads nothing and writes nothing: the pc passes its words
(02 R42 rule 4, R51). -/
def Obligations.FalseGuardSkips : Prop :=
  ∀ (i : Instr) (s : State), s.cur < s.teams.length → Rows.isWord i = true → Rows.legal s.team.vregs i = true →
    modeRank (Rows.mode i) ≤ modeRank s.team.mode → srCause s.team i = none → skipped s.team i = true →
    ∃ t, exec i s = .next t ∧ Retires s t (s.team.pc + BitVec.ofNat 57 (Rows.size i)) {} ∧ SameMask s t ∧ SameFlags s t

/-- Taking an exception (14 R305, Table 14-3): a running team outside a compartment and outside a handler, of a context with a valid handler or in
firmware mode, that waits for no value through a window, performs its accesses; it saves pc, mode, mask, stack, c29, c31, s56-s63, b registers and
exception enables; the record is written; it goes on at the handler's entry in supervisor mode, a team in FIRM at the firmware's own entry and in
its mode (what stands there is log 2), with the enables off, M the trap mask where that is not 0, c31 the handler and c29 its data. -/
def Obligations.TakeTrapEntersHandler : Prop :=
  ∀ (s : State) (r : TrapRec) (h hd : CReg) (mode : Mode), s.cur < s.teams.length → s.team.st = .run → s.team.frame = none →
    s.comptOf s.team = 0 → routeK r.cause = false → (debugCause r.cause = false ∨ s.attached s.team = none) → r.fault = none →
    r.latched = false →
    (let die := (s.crewAt s.team.crew).die
     (s.team.mode = .firm ∧ mode = .firm ∧ h = romCapAt (Config.romTrapEntry die) ∧ hd = { bits := Config.romDataCap die, valid := true, tag := 0 }) ∨
     (s.team.mode ≠ .firm ∧ mode = .super ∧ ∃ c, s.ctxOf s.team = some c ∧ h = (s.ctxAt c).h ∧ hd = (s.ctxAt c).hd ∧ h.valid = true)) →
    let u := (s.drain s.cur).team
    let t := (s.takeTrap s.cur r).team
    u.filling = false →
    t.frame = some { pc := r.pc, mode := u.mode, m := u.m, stack := u.stack, c29 := u.c.getD 29 {}, c31 := u.c.getD 31 {},
                     sHigh := u.s.drop 56, b := u.b, fpen := u.fpctl.extractLsb' 0 5,
                     wait := match u.wait with | some (.push q n x) => some (.push q n x) | _ => none
                     mismatch := u.mismatch } ∧
    t.st = .handler ∧ t.mode = mode ∧ t.pc = BitVec.ofNat 57 (capCursor h.bits / 8 * 8) ∧ t.stack = [] ∧
    t.m = (if r.mask = 0 then u.m else r.mask) ∧ t.fpctl = u.fpctl &&& ~~~0x1F ∧
    t.trapcause = r.cause ∧ t.trappc = r.pc ∧ t.trapmask = r.mask ∧ t.trapaddr = r.addr ∧ t.traptagA = r.tagA ∧ t.traptagB = r.tagB ∧
    t.traptagC = r.tagC ∧ t.skid = 0 ∧ t.s = u.s ∧ t.v = u.v ∧ t.p = u.p ∧ t.b = u.b ∧
    (u.c.length = 32 → t.c.getD 31 {} = { h with tag := 0 } ∧ t.c.getD 29 {} = { hd with tag := 0 } ∧
      ∀ n, n ≠ 29 → n ≠ 31 → t.c.getD n {} = u.c.getD n {}) ∧
    ((∀ j, (s.teamAt j).outs = []) → (s.takeTrap s.cur r).mem = s.mem)

/-- A cause of route K, a trap inside a handler or in a compartment, and a trap without a valid handler kill the team instead: a record
joins its die's log, its number its crew's KILLED, and the team has ended (14 R300, R308, R313, R314, 20 R391). That the point of a kill other than
by route K is recorded as 0 is log 31. -/
def Obligations.TrapWithoutHandlerKills : Prop :=
  ∀ (s : State) (r : TrapRec), s.cur < s.teams.length → s.team.crew < s.crews.length → (s.crewAt s.team.crew).die < s.dies.length →
    s.team.st = .run ∨ s.team.st = .handler → r.fault = none → r.latched = false → s.team.outs = [] →
    (debugCause r.cause = false ∨ s.attached s.team = none ∨ s.comptOf s.team ≠ 0 ∨ s.team.frame.isSome) →
    (routeK r.cause = true ∨ s.comptOf s.team ≠ 0 ∨ s.team.frame.isSome ∨ (s.handlerOf s.team).1.valid = false) →
    let t := s.takeTrap s.cur r
    (t.teamAt s.cur).st = .ended ∧ (t.crewAt s.team.crew).killed = (s.crewAt s.team.crew).killed ||| BitVec.twoPow 16 s.team.num ∧
    ∃ k, (t.dieAt (s.crewAt s.team.crew).die).kills = (s.dieAt (s.crewAt s.team.crew).die).kills ++ [k] ∧ k.team = s.team.num ∧ k.pc = r.pc ∧
      k.crewid = (s.crewAt s.team.crew).crewid ∧ (if routeK r.cause then k.cause = 0x40 ∧ k.point = r.cause else k.cause = r.cause ∧ k.point = 0)

/-! Integer, logical and move instructions. -/

/-- The frame of 04 R95 over the exact values of R96, R99-R102: each lane (or the scalar) reads its sources, narrows the exact value by
TY and SAT, and writes it, extended, with the tag of `tag_result`; nothing else changes but what a retirement moves. -/
def Obligations.IntegerResults : Prop :=
  ∀ (i : Instr) (mop fn : Nat) (row : Rows.RRow) (src : Ty) (f : RForm) (s : State) (as bs cs : List Opd),
    Rows.view i = .r mop fn row src f → (exactInt i f.ty 0 0 0 0).isSome → Shaped s.team → Issues i s → Reads s row src f as bs cs →
    ∃ v : Nat → Int,
      (∀ k < (s.team.lanesFor row f).length, ∃ x,
        exactInt i f.ty (readInt f.ty (as.getD k {}).v) (readInt f.ty (bs.getD k {}).v) (readInt f.ty (cs.getD k {}).v)
          (bs.getD k {}).v = some x ∧ Narrowed f.ty f.sat x (v k)) ∧
      Completes i s row f .ty 0 fun k => (content (v k),
        tagResult s.team.rule (s.ownTag s.team) (intInputs i f.ty (as.getD k {}) (bs.getD k {}) (cs.getD k {})))

/-- `mulw` writes the exact product to a destination twice as wide (04 R98); `addc` and `subc` write the carry or borrow of the unsigned
values and bit 0 of C, zero-extended (R97; C's magnitude for DOMINANT is the model's choice, log 13). -/
def Obligations.WideAndCarryResults : Prop :=
  (∀ (mop fn : Nat) (row : Rows.RRow) (src : Ty) (f : RForm) (s : State) (as bs cs : List Opd),
    Rows.view (.mulw f) = .r mop fn row src f → Shaped s.team → Issues (.mulw f) s → Reads s row src f as bs cs →
    Completes (.mulw f) s row f .dbl 0 fun k => (content (readInt f.ty (as.getD k {}).v * readInt f.ty (bs.getD k {}).v),
      tagResult s.team.rule (s.ownTag s.team)
        [{ tag := (as.getD k {}).tag, m := (readInt f.ty (as.getD k {}).v).natAbs },
         { tag := (bs.getD k {}).tag, m := (readInt f.ty (bs.getD k {}).v).natAbs }])) ∧
  (∀ (sub : Bool) (mop fn : Nat) (row : Rows.RRow) (src : Ty) (f : RForm) (s : State) (as bs cs : List Opd),
    let i : Instr := if sub then .subc f else .addc f
    Rows.view i = .r mop fn row src f → Shaped s.team → Issues i s → Reads s row src f as bs cs →
    let w := Rows.width f.ty
    Completes i s row f .ty 0 fun k =>
      let a := (as.getD k {}).v % 2 ^ w; let b := (bs.getD k {}).v % 2 ^ w; let cin := (cs.getD k {}).v % 2
      ((if sub then (if a < b + cin then 1 else 0) else (if 2 ^ w ≤ a + b + cin then 1 else 0)),
       tagResult s.team.rule (s.ownTag s.team) [{ tag := (as.getD k {}).tag, m := a }, { tag := (bs.getD k {}).tag, m := b },
         { tag := (cs.getD k {}).tag, m := cin }]))

/-- Immediate instructions operate at 64 bits in scalar form and 32 in lane form, and wrap; `lit` writes its extension word
(04 R105, R106). -/
def Obligations.ImmediateResults : Prop :=
  ∀ (i : Instr) (mop fn : Nat) (row : Rows.IRow) (f : IForm) (s : State) (as : List Opd),
    Rows.view i = .i mop fn row f → (exactImm i 0).isSome → Shaped s.team → Issues i s → ReadsI s row f as →
    let lanes := s.team.lanesForI row f
    let wd : Rows.Wd := match row.d with | .genD w => w | _ => .one
    ∃ t, exec i s = .next t ∧ Retires s t (s.team.pc + BitVec.ofNat 57 (Rows.size i)) (destOf row.d f.ln .i8 f.d.toNat lanes) ∧
      SameMask s t ∧ SameFlags s t ∧
      ∀ k < lanes.length,
        let a := (pat (if f.ln then 32 else 64) (as.getD k {}).v).toInt
        ∃ x, exactImm i a = some x ∧
          Holds t.team f.ln wd .i8 f.d.toNat (lanes.getD k 0) (x % 2 ^ (if f.ln && wd = .one then 32 else 64 : Nat)).toNat
            (tagResult s.team.rule (s.ownTag s.team) (immInputs i a (as.getD k {}).tag))

/-- `mov`, `sel` and `tmov` are moves: the value of the w bits, extended, with the chosen source's tag under every rule; `sel` reads only
the chosen source (04 R103, 03 R92); `tmov` gives A's value B's tag, poison of either winning (05 R148). -/
def Obligations.MovesKeepTags : Prop :=
  (∀ (mop fn : Nat) (row : Rows.RRow) (src : Ty) (f : RForm) (s : State) (as bs cs : List Opd),
    Rows.view (.mov f) = .r mop fn row src f → Shaped s.team → Issues (.mov f) s → Reads s row src f as bs cs →
    Completes (.mov f) s row f .ty 0 fun k => (content (readInt f.ty (as.getD k {}).v), (as.getD k {}).tag)) ∧
  (∀ (mop fn : Nat) (row : Rows.RRow) (src : Ty) (f : RForm) (s : State) (as bs : List Opd),
    Rows.view (.sel f) = .r mop fn row src f → Shaped s.team → Issues (.sel f) s →
    let lanes := s.team.lanesFor row f
    let la := lanes.filter fun l => s.team.pred f.ln f.c.toNat l
    let lb := lanes.filter fun l => !s.team.pred f.ln f.c.toNat l
    destBusy s.team f.ln row.d f.d.toNat f.ty lanes = false →
    readFld s.team row.a f.ln (f.ob.getLsbD 2) f.ea f.ty f.ty f.a.toNat la = .ok as →
    readFld s.team row.b f.ln (f.ob.getLsbD 1) f.eb f.ty f.ty f.b.toNat lb = .ok bs →
    ∃ t, exec (.sel f) s = .next t ∧ Retires s t (s.team.pc + 8) (destOf row.d f.ln f.ty f.d.toNat lanes) ∧ SameMask s t ∧ SameFlags s t ∧
      (∀ k < la.length, Holds t.team f.ln .ty f.ty f.d.toNat (la.getD k 0) (content (readInt f.ty (as.getD k {}).v)) (as.getD k {}).tag) ∧
      (∀ k < lb.length, Holds t.team f.ln .ty f.ty f.d.toNat (lb.getD k 0) (content (readInt f.ty (bs.getD k {}).v)) (bs.getD k {}).tag)) ∧
  (∀ (mop fn : Nat) (row : Rows.RRow) (src : Ty) (f : RForm) (s : State) (as bs : List Opd),
    Rows.view (.tmov f) = .r mop fn row src f → Shaped s.team → Issues (.tmov f) s →
    let lanes := s.team.lanesFor row f
    destBusy s.team f.ln row.d f.d.toNat f.ty lanes = false →
    readFld s.team row.a f.ln (f.ob.getLsbD 2) f.ea f.ty f.ty f.a.toNat lanes = .ok as →
    readGenTag s.team f.ln (f.ob.getLsbD 1) f.eb f.b.toNat lanes = .ok bs →
    Completes (.tmov f) s row f .one 0 fun k => ((as.getD k {}).v,
      if (as.getD k {}).tag = tagPoison ∨ (bs.getD k {}).tag = tagPoison then tagPoison else (bs.getD k {}).tag))

/-- `cmp`, `cmpi` and the predicate instructions write the predicate of the condition in each written lane, or the b register; they move
no tag and set no flag (04 R104, R105, 06 R158). A poisoned source of a compare is another matter (R107). -/
def Obligations.PredicateResults : Prop :=
  (∀ (i : Instr) (mop fn : Nat) (row : Rows.RRow) (src : Ty) (f : RForm) (s : State) (as bs cs : List Opd),
    Rows.view i = .r mop fn row src f → (exactPred i 0 0).isSome → Shaped s.team → Issues i s → Reads s row src f as bs cs →
    (∀ o ∈ as ++ bs, o.tag ≠ tagPoison) →
    ∃ v : Nat → Bool, (∀ k < (s.team.lanesFor row f).length, exactPred i (as.getD k {}).v (bs.getD k {}).v = some (v k)) ∧
      CompletesPred i s row f 0 v) ∧
  (∀ (c : CmpiCond) (mop fn : Nat) (row : Rows.IRow) (f : IForm) (s : State) (as : List Opd),
    Rows.view (.cmpi c f) = .i mop fn row f → Shaped s.team → Issues (.cmpi c f) s → ReadsI s row f as → (∀ o ∈ as, o.tag ≠ tagPoison) →
    let lanes := s.team.lanesForI row f
    ∃ t, exec (.cmpi c f) s = .next t ∧ Retires s t (s.team.pc + 8) (destOf row.d f.ln .i8 f.d.toNat lanes) ∧ SameMask s t ∧ SameFlags s t ∧
      (∀ k < lanes.length, HoldsPred t.team f.ln f.d.toNat (lanes.getD k 0) (exactCmpi c f.ln (as.getD k {}).v f.imm)) ∧
      (f.ln = true → ∀ l, l ∉ lanes → (t.team.preg f.d.toNat).getLsbD l = (s.team.preg f.d.toNat).getLsbD l))

/-- A compare reads values: a poisoned source traps TAG_POISON, which kills (03 R92, 14 R300). An empty source A, B or C, of which those before it are
read, makes the instruction wait with policy bit 0 and trap EMPTY_READ with policy bit 1: an s register in scalar form or where it is broadcast, which
names no lane (log 40), or an element of a written lane, and `trapmask` names the lanes whose element is empty (02 R42, 04 R94). An empty destination
makes it wait whatever the policy. -/
def Obligations.SourcesWaitTrapAndPoison : Prop :=
  (∀ (c : ICond) (mop fn : Nat) (row : Rows.RRow) (src : Ty) (f : RForm) (s : State) (as bs cs : List Opd),
    Rows.view (.cmp c f) = .r mop fn row src f → Issues (.cmp c f) s → Reads s row src f as bs cs → (∃ o ∈ as ++ bs, o.tag = tagPoison) →
    exec (.cmp c f) s = .next (s.takeTrap s.cur { cause := 0x18, pc := s.team.pc, tagA := 0xFFF000 })) ∧
  (∀ (c : CmpiCond) (mop fn : Nat) (row : Rows.IRow) (f : IForm) (s : State) (as : List Opd),
    Rows.view (.cmpi c f) = .i mop fn row f → Issues (.cmpi c f) s → ReadsI s row f as → (∃ o ∈ as, o.tag = tagPoison) →
    exec (.cmpi c f) s = .next (s.takeTrap s.cur { cause := 0x18, pc := s.team.pc, tagA := 0xFFF000 })) ∧
  (∀ (i : Instr) (mop fn : Nat) (row : Rows.RRow) (src : Ty) (f : RForm) (s : State), Rows.view i = .r mop fn row src f →
    (exactInt i f.ty 0 0 0 0).isSome → Issues i s →
    let lanes := s.team.lanesFor row f
    (destBusy s.team f.ln row.d f.d.toNat f.ty lanes = true → exec i s = .next s.stall) ∧
    (destBusy s.team f.ln row.d f.d.toNat f.ty lanes = false → ∀ q < 3,
      let field (k : Nat) : Rows.Fld × Bool × Bool × Nat :=
        if k = 0 then (row.a, f.ob.getLsbD 2, f.ea, f.a.toNat) else if k = 1 then (row.b, f.ob.getLsbD 1, f.eb, f.b.toNat)
        else (row.c, f.ob.getLsbD 0, f.ec, f.c.toNat)
      (∀ k < q, ∃ os, readFld s.team (field k).1 f.ln (field k).2.1 (field k).2.2.1 f.ty src (field k).2.2.2 lanes = .ok os) →
      ∀ w, (field q).1 = .gen w →
      let n := (field q).2.2.2
      let empty := lanes.filter fun l => (List.range (Rows.elems w f.ty src)).any fun j => !(s.team.velem (n + j) l).full
      let one : Bool := !f.ln || (field q).2.1
      lanes ≠ [] → (if one then (s.team.sreg n).full = false else empty ≠ []) →
      ((field q).2.2.1 = false → exec i s = .next s.stall) ∧
      ((field q).2.2.1 = true → (∀ m, s.team.st ≠ .skid m) →
        ∃ r : TrapRec, r.cause = 0x03 ∧ r.pc = s.team.pc ∧ (∀ l < 1024, r.mask.getLsbD l = (!one && decide (l ∈ empty))) ∧
          exec i s = .next (s.takeTrap s.cur r))))

/-! Origin tags. -/

/-- `tag_result` (03 R90): poison wins under every rule; FROZEN gives TAG_IMM; a NaN or infinite result takes the tag of the first such
input, and is otherwise born here; BIRTH gives the instruction's own tag; DOMINANT gives the tag of a finite input than which none is
greater, the first such, and the own tag where no input is finite. -/
def Obligations.TagResultFollowsRules : Prop :=
  ∀ (rule : BitVec 2) (own : Tag) (ins : List TagIn) (exceptional : Bool),
    ((∃ x ∈ ins, x.tag = tagPoison) → tagResult rule own ins exceptional = tagPoison) ∧
    ((∀ x ∈ ins, x.tag ≠ tagPoison) →
      (rule = 2 → tagResult rule own ins exceptional = 0x000001) ∧
      (rule ≠ 2 → exceptional = true →
        (∀ (pre post : List TagIn) (x : TagIn), ins = pre ++ x :: post → x.exceptional = true → (∀ y ∈ pre, y.exceptional = false) →
          tagResult rule own ins exceptional = x.tag) ∧
        ((∀ x ∈ ins, x.exceptional = false) → tagResult rule own ins exceptional = own)) ∧
      (rule = 0 → exceptional = false → tagResult rule own ins exceptional = own) ∧
      (rule = 1 → exceptional = false →
        (∀ (pre post : List TagIn) (x : TagIn), ins = pre ++ x :: post → x.exceptional = false →
          (∀ y ∈ pre, y.exceptional = true ∨ (y.m : ℚ) * 2 ^ y.e < (x.m : ℚ) * 2 ^ x.e) →
          (∀ y ∈ post, y.exceptional = true ∨ (y.m : ℚ) * 2 ^ y.e ≤ (x.m : ℚ) * 2 ^ x.e) → tagResult rule own ins exceptional = x.tag) ∧
        ((∀ x ∈ ins, x.exceptional = true) → tagResult rule own ins exceptional = own)))

/-- `tget` reads A's tag as a number, `ttest` tests it, `tset` gives A a tag of its own; none consumes poison (05 R147-R149). -/
def Obligations.TagInstructions : Prop :=
  (∀ (mop fn : Nat) (row : Rows.RRow) (src : Ty) (f : RForm) (s : State) (as : List Opd), Rows.view (.tget f) = .r mop fn row src f →
    Shaped s.team → Issues (.tget f) s → destBusy s.team f.ln row.d f.d.toNat f.ty (s.team.lanesFor row f) = false →
    readGenTag s.team f.ln (f.ob.getLsbD 2) f.ea f.a.toNat (s.team.lanesFor row f) = .ok as →
    Completes (.tget f) s row f .one 0 fun k => ((as.getD k {}).tag.toNat, if s.team.rule = 2 then 0x000001 else s.ownTag s.team)) ∧
  (∀ (special : Bool) (mop fn : Nat) (row : Rows.RRow) (src : Ty) (f : RForm) (s : State) (as : List Opd),
    let i : Instr := if special then .ttestSpecial f else .ttestPoison f
    Rows.view i = .r mop fn row src f → Shaped s.team → Issues i s →
    readGenTag s.team f.ln (f.ob.getLsbD 2) f.ea f.a.toNat (s.team.lanesFor row f) = .ok as →
    CompletesPred i s row f 0 fun k =>
      let tag := (as.getD k {}).tag
      if special then tag.extractLsb' 12 12 = 0 || tag.extractLsb' 12 12 = 0xFFF else tag = 0xFFF000) ∧
  (∀ (f : RForm) (s : State) (a : Opd), Issues (.tset f) s → readS s.team f.a.toNat f.ea = .ok a →
    Becomes (.tset f) s (s.team.pc + 8)
      (s.team.setS f.a.toNat (BitVec.ofNat 64 a.v) (if a.tag = 0xFFF000 then 0xFFF000 else if s.team.rule = 2 then 0x000001 else s.ownTag s.team)))

/-! Floating point. -/

/-- Arithmetic, `fscale` and `frnd`: the exact result rounded in the instruction's mode, with the tag of `tag_result` over its value
operands; what the lanes signal joins `fpst`; it completes where no signalled exception is enabled (05 R130-R132, R137, R138, 03 R79). -/
def Obligations.FloatResults : Prop :=
  ∀ (i : Instr) (mop fn : Nat) (row : Rows.RRow) (src : Ty) (f : RForm) (s : State) (as bs cs : List Opd) (r : Nat → FRes),
    Rows.view i = .r mop fn row src f → Shaped s.team → Issues i s → Reads s row src f as bs cs →
    let fm := fmtOf f.ty
    let lanes := s.team.lanesFor row f
    let rm := if f.rm = .dyn then s.team.rnd else f.rm
    (∀ k < lanes.length, exactFp i fm rm (readF fm (as.getD k {}).v) (readF fm (bs.getD k {}).v) (readF fm (cs.getD k {}).v)
      (BitVec.ofNat 32 (bs.getD k {}).v).toInt = some (r k)) →
    let u := (List.range lanes.length).foldl (fun (x : Exc) k => x ||| (r k).exc) 0
    (exactFp i fm rm (.fin false 0 0) (.fin false 0 0) (.fin false 0 0) 0).isSome → u &&& s.team.fpctl.extractLsb' 0 5 = 0 →
    Completes i s row f .ty u fun k => ((r k).bits,
      tagResult s.team.rule (s.ownTag s.team) ([fpIn (readF fm (as.getD k {}).v) (as.getD k {}).tag,
        fpIn (readF fm (bs.getD k {}).v) (bs.getD k {}).tag, fpIn (readF fm (cs.getD k {}).v) (cs.getD k {}).tag].take (fpArity i))
        (r k).exceptional)

/-- An enabled exception traps by the first cause that is signalled and enabled, with the lanes that signal it; no destination is written
and `fpst` takes what was signalled (03 R79): the arithmetic, the choices, `fcmp`, `cvt`, `pack` and `unpack` lane by lane, `kdec` by the slot
of each lane, `kenc` by the block, the reductions and scans by all their combinations. -/
def Obligations.FloatExceptionsTrap : Prop :=
  (∀ (i : Instr) (mop fn : Nat) (row : Rows.RRow) (src : Ty) (f : RForm) (s : State) (as bs cs : List Opd) (exc : Nat → Exc),
    Rows.view i = .r mop fn row src f → Shaped s.team → Issues i s → Reads s row src f as bs cs → (∀ n, s.team.st ≠ .skid n) →
    (∀ c, i = .fcmp c f → ∀ o ∈ as ++ bs, o.tag ≠ tagPoison) →
    let lanes := s.team.lanesFor row f
    (∀ k < lanes.length, signals i f (if f.rm = .dyn then s.team.rnd else f.rm) (as.getD k {}) (bs.getD k {}) (cs.getD k {}) =
      some (exc (lanes.getD k 0))) →
    TrapsFp i s f.ln lanes exc) ∧
  (∀ (f : RForm) (s : State), Shaped s.team → (∀ n, s.team.st ≠ .skid n) →
    let lanes := writtenLanes s.team f.g f.gn
    destBusy s.team true (.genD .one) f.d.toNat .i8 lanes = false →
    (Issues (.kdec f) s → KdecReads s.team f lanes → TrapsFp (.kdec f) s true lanes fun l => (kdecSlot s.team f l).exc) ∧
    (Issues (.kenc f) s → KencReads s.team f lanes → TrapsFp (.kenc f) s true lanes fun l => (kencBlock s.team f l).2.2)) ∧
  (∀ (o : RedOp) (excl : Bool) (f : RForm) (s : State), Shaped s.team → (∀ n, s.team.st ≠ .skid n) →
    let lanes := writtenLanes s.team f.g f.gn
    destBusy s.team true (.vD .ty) f.d.toNat f.ty lanes = false →
    (∀ l ∈ lanesOf s.team.m s.team.nlanes, Readable s.team f.a.toNat (if Rows.width f.ty = 64 then 2 else 1) l) →
    (Issues (.xred o f) s → TrapsFp (.xred o f) s true lanes fun _ => (reduced o f s).2) ∧
    (Issues (.xscan o excl f) s → TrapsFp (.xscan o excl f) s true lanes fun _ => (scanned o f s).2))

/-- `rnd` (03 R76, R77, Table 3-4) passes an exact value once through the format; and so do the operations, each of its own exact real result:
sum, product, product and addend, quotient, reciprocal, root and its reciprocal, scaling, the conversions between formats and from integers
(05 R131, R137, R140), the sum of a matrix step (03 R82) and a pair of slices (03 R86, R87). `frnd` and the conversion to an integer type take the integer
of Table 3-4 (05 R138, R140). The special operands of Table 5-3 give its results: NaN, infinities and zeros with their signs (R71, R72). -/
def Obligations.RoundingIsNearestOrDirected : Prop :=
  (∀ (f : Fmt) (rm : Rm) (neg : Bool) (m : Nat) (e : Int), f ∈ formats →
    RoundedTo f rm ((if neg then -1 else 1) * (m : ℝ) * 2 ^ e) (rnd f rm false neg m e)) ∧
  (∀ (f g : Fmt) (rm : Rm) (a b c : Nat) (X Y Z : ℝ) (n : Int), f ∈ formats → g ∈ formats →
    let x := readF f a; let y := readF f b; let z := readF f c
    IsNum x X → IsNum y Y → IsNum z Z →
    RoundedTo f rm (X + Y) (fAdd f rm x y) ∧ RoundedTo f rm (X - Y) (fAdd f rm x y.flip) ∧ RoundedTo f rm (X * Y) (fMul f rm x y) ∧
    RoundedTo f rm (X * Y + Z) (fFma f rm x y z) ∧ RoundedTo f rm (X * Y - Z) (fFma f rm x y z.flip) ∧
    RoundedTo f rm (Z - X * Y) (fFma f rm x.flip y z) ∧
    (Y ≠ 0 → RoundedTo f rm (X / Y) (fDiv f rm x y)) ∧ (X ≠ 0 → RoundedTo f rm (1 / X) (fRcp f rm x)) ∧
    (0 < X → RoundedTo f rm (Real.sqrt X) (fSqrt f rm x) ∧ RoundedTo f rm (1 / Real.sqrt X) (fRsq f rm x)) ∧
    RoundedTo f rm (X * 2 ^ n) (fScale f rm x n) ∧ RoundedTo g rm X (fToF g rm false x) ∧ RoundedTo f rm n (iToF f rm false n) ∧
    (∃ k : Int, RoundedToInt rm X k ∧ IsNum (readF f (fRnd f rm x).bits) k ∧ (fRnd f rm x).exc = if (k : ℝ) = X then 0 else 16) ∧
    (∀ (t : Ty) (sat : Bool), Rows.isInt t = true →
      let w := Rows.width t
      let lo : Int := if Rows.isSigned t then -2 ^ (w - 1) else 0
      let hi : Int := if Rows.isSigned t then 2 ^ (w - 1) - 1 else 2 ^ w - 1
      ∃ k : Int, RoundedToInt rm X k ∧
        fToI t rm sat x = if k < lo then (lo, if sat then 16 else 1) else if hi < k then (hi, if sat then 16 else 1)
          else (k, if (k : ℝ) = X then 0 else 16))) ∧
  (∀ (xs : List Fv) (vs : List ℝ), List.Forall₂ IsNum xs vs → RoundedTo fmtF32 .rne vs.sum (sumRound xs)) ∧
  (∀ (x y : Fv) (X Y : ℝ), IsNum x X → IsNum y Y → IsNum (fvMul x y) (X * Y)) ∧
  (∀ (p q : Nat) (a b : Int × List (List Int)), 1 ≤ p → 1 ≤ q →
    let n : Int := ((a.2.zip b.2).map fun x => x.1.getD (p - 1) 0 * x.2.getD (q - 1) 0).sum
    RoundedTo fmtF64 .rne ((n : ℝ) * 2 ^ (a.1 + b.1 - 7 * (p + q : Nat))) (pairValue true p q a b) ∧
    ∀ Y, IsNum (readF fmtF64 (pairValue true p q a b).bits) Y →
      ∃ r, RoundedTo fmtF32 .rne Y r ∧ (pairValue false p q a b).bits = r.bits) ∧
  ([fmtF64, fmtF32, fmtBf16, fmtF16, fmtE5m2, fmtE4m3].map nanBits = [0x7FF8000000000000, 0x7FC00000, 0x7FC0, 0x7E00, 0x7E, 0x7F]) ∧
  (∀ (f : Fmt) (rm : Rm) (a b c : Nat) (n : Int), f ∈ [fmtF16, fmtBf16, fmtF32, fmtF64] → SpecialOperands f rm (readF f a) (readF f b) (readF f c) n)

/-- `fmin` and `fmax` select an operand, `fabs` and `fneg` change the sign bit alone, `fclass` names the class; the first two carry the
chosen operand's tag, poison of either winning (05 R133, R134, R136). -/
def Obligations.FloatSelectAndSign : Prop :=
  (∀ (max : Bool) (mop fn : Nat) (row : Rows.RRow) (src : Ty) (f : RForm) (s : State) (as bs cs : List Opd),
    let i : Instr := if max then .fmax f else .fmin f
    Rows.view i = .r mop fn row src f → Shaped s.team → Issues i s → Reads s row src f as bs cs →
    let fm := fmtOf f.ty
    let lanes := s.team.lanesFor row f
    let x (k : Nat) := readF fm (as.getD k {}).v
    let y (k : Nat) := readF fm (bs.getD k {}).v
    let u := (List.range lanes.length).foldl (fun (z : Exc) k => z ||| if (x k).isSnan || (y k).isSnan then 1 else 0) 0
    u &&& s.team.fpctl.extractLsb' 0 5 = 0 →
    ∃ pick : Nat → Nat,
      (∀ k < lanes.length,
        ((x k).isNan = true → (y k).isNan = true → pick k = 2) ∧ ((x k).isNan = true → (y k).isNan = false → pick k = 1) ∧
        ((x k).isNan = false → (y k).isNan = true → pick k = 0) ∧
        ((x k).isNan = false → (y k).isNan = false → pick k < 2 ∧
          (extLt (x k) (y k) → pick k = if max then 1 else 0) ∧ (extLt (y k) (x k) → pick k = if max then 0 else 1) ∧
          ((x k).isZero = true → (y k).isZero = true → (x k).neg = true → (y k).neg = false → pick k = if max then 1 else 0) ∧
          ((x k).isZero = true → (y k).isZero = true → (x k).neg = false → (y k).neg = true → pick k = if max then 0 else 1))) ∧
      Completes i s row f .ty u fun k =>
        ((if pick k = 0 then (as.getD k {}).v % 2 ^ fm.width else if pick k = 1 then (bs.getD k {}).v % 2 ^ fm.width else nanBits fm),
         if (as.getD k {}).tag = tagPoison ∨ (bs.getD k {}).tag = tagPoison then tagPoison
         else if pick k = 1 then (bs.getD k {}).tag else (as.getD k {}).tag)) ∧
  (∀ (mop fn : Nat) (row : Rows.RRow) (src : Ty) (f : RForm) (s : State) (as bs cs : List Opd), Rows.view (.fabs f) = .r mop fn row src f →
    Shaped s.team → Issues (.fabs f) s → Reads s row src f as bs cs →
    Completes (.fabs f) s row f .ty 0 fun k => (((as.getD k {}).v % 2 ^ (Rows.width f.ty - 1)), (as.getD k {}).tag)) ∧
  (∀ (mop fn : Nat) (row : Rows.RRow) (src : Ty) (f : RForm) (s : State) (as bs cs : List Opd), Rows.view (.fneg f) = .r mop fn row src f →
    Shaped s.team → Issues (.fneg f) s → Reads s row src f as bs cs →
    Completes (.fneg f) s row f .ty 0 fun k =>
      ((BitVec.ofNat (Rows.width f.ty) (as.getD k {}).v ^^^ BitVec.twoPow _ (Rows.width f.ty - 1)).toNat, (as.getD k {}).tag)) ∧
  (∀ (mop fn : Nat) (row : Rows.RRow) (src : Ty) (f : RForm) (s : State) (as bs cs : List Opd), Rows.view (.fclass f) = .r mop fn row src f →
    Shaped s.team → Issues (.fclass f) s → Reads s row src f as bs cs →
    let fm := fmtOf f.ty
    Completes (.fclass f) s row f .one 0 fun k =>
      (2 ^ (match readF fm (as.getD k {}).v with
        | .nan true => 8 | .nan false => 9 | .inf true => 0 | .inf false => 7
        | .fin n m _ => if m = 0 then (if n then 3 else 4) else if m < 2 ^ fm.fb then (if n then 2 else 5) else if n then 1 else 6),
       if (as.getD k {}).tag = tagPoison then tagPoison else if s.team.rule = 2 then 0x000001 else s.ownTag s.team))

/-- `fcmp` (05 R135, Table 5-4): each condition over the values, false on a NaN in FN 2-5, −0 equal to +0; it signals invalid on a
signalling NaN, and in FN 2-5 on any; it completes where invalid is not signalled or not enabled and no source is poisoned. -/
def Obligations.FloatCompare : Prop :=
  ∀ (c : FCond) (mop fn : Nat) (row : Rows.RRow) (src : Ty) (f : RForm) (s : State) (as bs cs : List Opd),
    Rows.view (.fcmp c f) = .r mop fn row src f → Shaped s.team → Issues (.fcmp c f) s → Reads s row src f as bs cs →
    (∀ o ∈ as ++ bs, o.tag ≠ tagPoison) →
    let fm := fmtOf f.ty
    let lanes := s.team.lanesFor row f
    let x (k : Nat) := readF fm (as.getD k {}).v
    let y (k : Nat) := readF fm (bs.getD k {}).v
    let nan (k : Nat) : Bool := (x k).isNan || (y k).isNan
    let signals (k : Nat) : Bool := (x k).isSnan || (y k).isSnan || (nan k && (c = .lt || c = .le || c = .gt || c = .ge))
    let u : Exc := if (List.range lanes.length).any signals then 1 else 0
    u &&& s.team.fpctl.extractLsb' 0 5 = 0 →
    ∃ v : Nat → Bool,
      (∀ k < lanes.length,
        (nan k = true → v k = (c = .ne || c = .un)) ∧ (nan k = false → c = .un → v k = false) ∧ (nan k = false → c = .ord → v k = true) ∧
        (nan k = false →
          (c = .eq → (v k = true ↔ extVal (x k) = extVal (y k))) ∧ (c = .ne → (v k = true ↔ extVal (x k) ≠ extVal (y k))) ∧
          (c = .lt → (v k = true ↔ extLt (x k) (y k))) ∧ (c = .le → (v k = true ↔ ¬ extLt (y k) (x k))) ∧
          (c = .gt → (v k = true ↔ extLt (y k) (x k))) ∧ (c = .ge → (v k = true ↔ ¬ extLt (x k) (y k))))) ∧
      CompletesPred (.fcmp c f) s row f u v

/-- `cvt` converts the source's value to the type, `pack` packs two such values, `unpack` widens one field of A; each completes where no
signalled exception is enabled, `cvt` and `unpack` carry A's tag, `pack` that of its first
half that is NaN or infinite, else B's, poison winning (05 R139-R143). A conversion gives what its class says (Table 5-6): an integer narrowed or
clamped, and of NaN, infinities and overflows the values named there; of other finite values the rounded one, as stated of `rnd`. -/
def Obligations.Conversions : Prop :=
  (∀ (sty : Ty) (mop fn : Nat) (row : Rows.RRow) (src : Ty) (f : RForm) (s : State) (as bs cs : List Opd),
    Rows.view (.cvt sty f) = .r mop fn row src f → Shaped s.team → Issues (.cvt sty f) s → Reads s row src f as bs cs →
    let rm := if f.rm = .dyn then s.team.rnd else f.rm
    let r (k : Nat) := convert f.ty rm f.sat (readVal sty (as.getD k {}).v)
    let u := (List.range (s.team.lanesFor row f).length).foldl (fun (x : Exc) k => x ||| (r k).exc) 0
    u &&& s.team.fpctl.extractLsb' 0 5 = 0 →
    Completes (.cvt sty f) s row f .ty u fun k => ((r k).bits, (as.getD k {}).tag)) ∧
  (∀ (mop fn : Nat) (row : Rows.RRow) (src : Ty) (f : RForm) (s : State) (as bs cs : List Opd),
    Rows.view (.pack f) = .r mop fn row src f → Shaped s.team → Issues (.pack f) s → Reads s row src f as bs cs →
    let w := Rows.width f.ty
    let rm := if f.rm = .dyn then s.team.rnd else f.rm
    let lo (k : Nat) := convert f.ty rm f.sat (readVal (packSrc f.ty) (as.getD k {}).v)
    let hi (k : Nat) := convert f.ty rm f.sat (readVal (packSrc f.ty) (bs.getD k {}).v)
    let u := (List.range (s.team.lanesFor row f).length).foldl (fun (x : Exc) k => x ||| (lo k).exc ||| (hi k).exc) 0
    u &&& s.team.fpctl.extractLsb' 0 5 = 0 →
    Completes (.pack f) s row f .one u fun k =>
      ((lo k).bits % 2 ^ w + 2 ^ w * ((hi k).bits % 2 ^ w),
       if (as.getD k {}).tag = tagPoison ∨ (bs.getD k {}).tag = tagPoison then tagPoison
       else if (lo k).exceptional then (as.getD k {}).tag else (bs.getD k {}).tag)) ∧
  (∀ (mop fn : Nat) (row : Rows.RRow) (src : Ty) (f : RForm) (s : State) (as bs cs : List Opd),
    Rows.view (.unpack f) = .r mop fn row src f → Shaped s.team → Issues (.unpack f) s → Reads s row src f as bs cs →
    let w := Rows.width f.ty
    let x (k : Nat) := (as.getD k {}).v % 2 ^ 32 / 2 ^ (w * ((bs.getD k {}).v % (32 / w))) % 2 ^ w
    let snan (k : Nat) : Bool := !Rows.isInt f.ty && (readF (fmtOf f.ty) (x k)).isSnan
    let u : Exc := if (List.range (s.team.lanesFor row f).length).any snan then 1 else 0
    u &&& s.team.fpctl.extractLsb' 0 5 = 0 →
    Completes (.unpack f) s row f .one u fun k =>
      ((if Rows.isInt f.ty then content (readInt f.ty (x k)) else (convert .f32 .rne false (readVal f.ty (x k))).bits),
       if (bs.getD k {}).tag = tagPoison then tagPoison else (as.getD k {}).tag)) ∧
  (∀ (t : Ty) (rm : Rm) (sat : Bool), ConversionClasses t rm sat)

/-- KY4 blocks in registers: `kdec` gives each written lane the value of its slot in f32, from the five lanes of its block whether active
or not; `kenc` encodes the 32 lanes of a block, inactive ones as +0, into the layout of Table 5-8 (05 R144-R146). The encoding of finite
values is R75's: the unit 2^e is the smallest that holds the odd values and all but four even ones in 7 units and every even one in 96; a value
is rounded to an integer of units, and one beyond 7 becomes the outlier that the mode chooses, its odd neighbour +0. -/
def Obligations.Ky4Blocks : Prop :=
  (∀ (f : RForm) (s : State), Shaped s.team → Issues (.kdec f) s →
    let lanes := writtenLanes s.team f.g f.gn
    let u := lanes.foldl (fun (x : Exc) l => x ||| (kdecSlot s.team f l).exc) 0
    destBusy s.team true (.genD .one) f.d.toNat .i8 lanes = false → KdecReads s.team f lanes → u &&& s.team.fpctl.extractLsb' 0 5 = 0 →
    ∃ t, exec (.kdec f) s = .next t ∧ Retires s t (s.team.pc + 8) (destOf (.genD .one) true .i8 f.d.toNat lanes) ∧ SameMask s t ∧
      t.team.fpst = s.team.fpst ||| u.setWidth 64 ∧
      ∀ l ∈ lanes, Holds t.team true .one .i8 f.d.toNat l (kdecSlot s.team f l).bits
        (if (List.range 5).any (fun j => (blockOpd s.team f l j).tag = tagPoison) then tagPoison else (blockOpd s.team f l 4).tag)) ∧
  (∀ (f : RForm) (s : State), Shaped s.team → Issues (.kenc f) s →
    let lanes := writtenLanes s.team f.g f.gn
    let active (l : Nat) : List Nat := (List.range 32).filter fun i => s.team.m.getLsbD (l / 32 * 32 + i)
    let u := lanes.foldl (fun (x : Exc) l => x ||| (kencBlock s.team f l).2.2) 0
    destBusy s.team true (.genD .one) f.d.toNat .i8 lanes = false → KencReads s.team f lanes → u &&& s.team.fpctl.extractLsb' 0 5 = 0 →
    ∃ t, exec (.kenc f) s = .next t ∧ Retires s t (s.team.pc + 8) (destOf (.genD .one) true .i8 f.d.toNat lanes) ∧ SameMask s t ∧
      t.team.fpst = s.team.fpst ||| u.setWidth 64 ∧
      ∀ l ∈ lanes, Holds t.team true .one .i8 f.d.toNat l (ky4Lane (kencBlock s.team f l).1 (kencBlock s.team f l).2.1 (l % 32))
        (if (active l).any (fun i => (blockOpd s.team f l i).tag = tagPoison) then tagPoison
         else (((active l).getLast?.map fun i => (blockOpd s.team f l i).tag).getD 0))) ∧
  (∀ (rm : Rm) (xs : List Fv) (vs : List ℝ), xs.length = 32 → List.Forall₂ IsNum xs vs →
    let v (i : Nat) : ℝ := vs.getD i 0
    let r := ky4Encode rm xs
    let code (i : Nat) : Nat := r.1.getD i 0
    ((∀ i < 32, v i = 0) → r = (List.replicate 32 0, 127, 0)) ∧
    ((∃ i < 32, v i ≠ 0) → ∃ e : Int, -127 ≤ e ∧ r.2.1 = (e + 127).toNat ∧ r.1.length = 32 ∧
      (let holds (k : Int) : Prop := (∀ i < 32, i % 2 = 1 → |v i| ≤ 7 * 2 ^ k) ∧ (∀ i < 32, |v i| ≤ 96 * 2 ^ k) ∧
        ((List.range 32).countP fun i => i % 2 = 0 && decide (7 * (2 : ℝ) ^ k < |v i|)) ≤ 4
       holds e ∧ (e = -127 ∨ ¬ holds (e - 1))) ∧
      (r.2.2.getLsbD 4 = true ↔ ∃ i < 32, ¬ IsNum (ky4Slot r.1 r.2.1 i) (v i)) ∧
      ∀ j < 16, ∃ c : Int, RoundedToInt rm (v (2 * j) / 2 ^ e) c ∧
        (|c| ≤ 7 → code (2 * j) = (c % 16).toNat ∧ ∃ d : Int, RoundedToInt rm (v (2 * j + 1) / 2 ^ e) d ∧ code (2 * j + 1) = (d % 16).toNat) ∧
        (7 < |c| → code (2 * j) = 8 ∧
          let x := v (2 * j) / 2 ^ e
          let o : ℝ := (ky4Outlier (code (2 * j + 1)) : Int)
          let table (z : ℝ) : Prop := 0 < x * z ∧ (|z| = 8 ∨ |z| = 12 ∨ |z| = 16 ∨ |z| = 24 ∨ |z| = 32 ∨ |z| = 48 ∨ |z| = 64 ∨ |z| = 96)
          table o ∧ (∀ z, table z → ¬ (min x o < z ∧ z < max x o)) ∧ ((rm = .rne ∨ rm = .rna) → ∀ z, table z → |x - o| ≤ |x - z|) ∧
          (rm = .rtz → |o| ≤ |x|) ∧ (rm = .rdn → o ≤ x) ∧ (rm = .rup → x ≤ o))))

/-! Lanes. -/

/-- The mask stack (06 R159-R161): `mpush`, `melse`, `mpop`, `mall` in their own order, `mset` of one word under the limit of the deepest
entry; a full or an empty stack traps ILLEGAL. -/
def Obligations.MaskStack : Prop :=
  (∀ (f : RForm) (s : State), Issues (.mpush f) s →
    let m := s.team.m &&& s.team.predMask f.a.toNat
    (s.team.stack.length < 16 → Becomes (.mpush f) s (s.team.pc + 8) { s.team with stack := (s.team.m, m) :: s.team.stack, m := m }) ∧
    (16 ≤ s.team.stack.length → exec (.mpush f) s = .next (s.takeTrap s.cur { cause := 0x01, pc := s.team.pc }))) ∧
  (∀ (f : RForm) (s : State), Issues (.melse f) s →
    (∀ o k rest, s.team.stack = (o, k) :: rest →
      Becomes (.melse f) s (s.team.pc + 8) { s.team with stack := (o, o &&& ~~~k) :: rest, m := o &&& ~~~k }) ∧
    (s.team.stack = [] → exec (.melse f) s = .next (s.takeTrap s.cur { cause := 0x01, pc := s.team.pc }))) ∧
  (∀ (f : RForm) (s : State), Issues (.mpop f) s →
    (∀ o k rest, s.team.stack = (o, k) :: rest → Becomes (.mpop f) s (s.team.pc + 8) { s.team with stack := rest, m := o }) ∧
    (s.team.stack = [] → exec (.mpop f) s = .next (s.takeTrap s.cur { cause := 0x01, pc := s.team.pc }))) ∧
  (∀ (f : RForm) (s : State), Issues (.mall f) s →
    let m := BitVec.ofNat 1024 (2 ^ s.team.nlanes - 1)
    (s.team.stack.length < 16 → Becomes (.mall f) s (s.team.pc + 8) { s.team with stack := (s.team.m, m) :: s.team.stack, m := m }) ∧
    (16 ≤ s.team.stack.length → exec (.mall f) s = .next (s.takeTrap s.cur { cause := 0x01, pc := s.team.pc }))) ∧
  (∀ (f : RForm) (s : State) (a b : Opd), Issues (.mset f) s → readS s.team f.a.toNat f.ea = .ok a → readS s.team f.b.toNat f.eb = .ok b →
    a.tag ≠ tagPoison → b.tag ≠ tagPoison → s.team.nlanes ≤ 1024 →
    (s.team.nlanes / 32 ≤ a.v → Becomes (.mset f) s (s.team.pc + 8) s.team) ∧
    (a.v < s.team.nlanes / 32 →
      ∃ m : Mask, Becomes (.mset f) s (s.team.pc + 8) { s.team with m := m } ∧
        ∀ l < 1024, m.getLsbD l =
          if l / 32 = a.v then b.v.testBit (l % 32) && (match s.team.stack with | [] => decide (l < s.team.nlanes) | (o, _) :: _ => o.getLsbD l)
          else s.team.m.getLsbD l))

/-- `lid` gives each written lane its number, and waits for nothing; the votes reduce a predicate over the active lanes (06 R162, R163). -/
def Obligations.LaneIdsAndVotes : Prop :=
  (∀ (f : RForm) (s : State), Shaped s.team → Issues (.lid f) s →
    let lanes := writtenLanes s.team f.g f.gn
    ∃ t, exec (.lid f) s = .next t ∧ Retires s t (s.team.pc + 8) (destOf (.vD .one) true .i8 f.d.toNat lanes) ∧ SameMask s t ∧ SameFlags s t ∧
      ∀ l ∈ lanes, Holds t.team true .one .i8 f.d.toNat l l (carried s [])) ∧
  (∀ (f : RForm) (s : State), Issues (.voteAny f) s → s.team.nlanes ≤ 1024 →
    ∃ v, (v = true ↔ ∃ l < 1024, s.team.m.getLsbD l = true ∧ (s.team.predMask f.a.toNat).getLsbD l = true) ∧
      Becomes (.voteAny f) s (s.team.pc + 8) (s.team.setB f.d.toNat v)) ∧
  (∀ (f : RForm) (s : State), Issues (.voteAll f) s → s.team.nlanes ≤ 1024 →
    ∃ v, (v = true ↔ ∀ l < 1024, s.team.m.getLsbD l = true → (s.team.predMask f.a.toNat).getLsbD l = true) ∧
      Becomes (.voteAll f) s (s.team.pc + 8) (s.team.setB f.d.toNat v)) ∧
  (∀ (f : RForm) (s : State) (b : Opd), Issues (.voteBallot f) s → (s.team.sreg f.d.toNat).full = true → readS s.team f.b.toNat f.eb = .ok b →
    b.tag ≠ tagPoison →
    ∃ x : BitVec 32, (∀ l < 32, x.getLsbD l = (decide (b.v < s.team.nlanes / 32) && (s.team.predMask f.a.toNat &&& s.team.m).getLsbD (32 * b.v + l))) ∧
      Becomes (.voteBallot f) s (s.team.pc + 8) (s.team.setS f.d.toNat (x.setWidth 64) (carried s [])))

/-- Cross-lane moves (06 R164-R168): each written lane takes the value and the tag of the lane that the instruction names, where that lane
exists and is active; else 0 with TAG_INACTIVE. -/
def Obligations.CrossLaneMoves : Prop :=
  (∀ (i : Instr) (f : IForm) (s : State) (src : Nat → Int),
    ((i = .xchi f ∧ ∀ l, src l = (((l &&& f.imm.toNat / 2 ^ 10 % 1024) ||| f.imm.toNat / 2 ^ 20 % 1024) ^^^ f.imm.toNat % 1024 : Nat)) ∨
     (i = .xup f ∧ ∀ l, src l = (l : Int) - (f.imm.toNat % 1024 : Nat)) ∨ (i = .xdn f ∧ ∀ l, src l = (l : Int) + (f.imm.toNat % 1024 : Nat)) ∨
     (i = .xbc f ∧ ∀ l, src l = (f.imm.toNat % 1024 : Nat))) →
    Shaped s.team → Issues i s →
    let lanes := writtenLanes s.team f.g f.gn
    let valid (l : Nat) : Prop := 0 ≤ src l ∧ src l < s.team.nlanes ∧ s.team.m.getLsbD (src l).toNat = true
    destBusy s.team true (.vD .one) f.d.toNat .i8 lanes = false → (∀ l ∈ lanes, valid l → Readable s.team f.a.toNat 1 (src l).toNat) →
    ∃ t, exec i s = .next t ∧ Retires s t (s.team.pc + 8) (destOf (.vD .one) true .i8 f.d.toNat lanes) ∧ SameMask s t ∧ SameFlags s t ∧
      ∀ l ∈ lanes, (valid l → Holds t.team true .one .i8 f.d.toNat l (s.team.velem f.a.toNat (src l).toNat).v.toNat
          (s.team.velem f.a.toNat (src l).toNat).tag) ∧
        (¬ valid l → Holds t.team true .one .i8 f.d.toNat l 0 0xFFF002)) ∧
  (∀ (f : RForm) (s : State) (bs : List Opd), Shaped s.team → Issues (.xch f) s →
    let lanes := writtenLanes s.team f.g f.gn
    let cnt := if Rows.width f.ty = 64 then 2 else 1
    destBusy s.team true (.vD .ty) f.d.toNat f.ty lanes = false →
    readGen s.team true (f.ob.getLsbD 1) f.eb 1 f.b.toNat lanes = .ok bs →
    let valid (k : Nat) : Prop := (bs.getD k {}).v % 2 ^ 32 < s.team.nlanes ∧ s.team.m.getLsbD ((bs.getD k {}).v % 2 ^ 32) = true
    (∀ k < lanes.length, valid k → Readable s.team f.a.toNat cnt ((bs.getD k {}).v % 2 ^ 32)) →
    ∃ t, exec (.xch f) s = .next t ∧ Retires s t (s.team.pc + 8) (destOf (.vD .ty) true f.ty f.d.toNat lanes) ∧ SameMask s t ∧ SameFlags s t ∧
      ∀ k < lanes.length,
        (valid k → Holds t.team true .ty f.ty f.d.toNat (lanes.getD k 0)
          (content (readInt f.ty (s.team.velems f.a.toNat cnt ((bs.getD k {}).v % 2 ^ 32)).v))
          (s.team.velems f.a.toNat cnt ((bs.getD k {}).v % 2 ^ 32)).tag) ∧
        (¬ valid k → Holds t.team true .ty f.ty f.d.toNat (lanes.getD k 0) 0 0xFFF002))

/-- Reductions and scans (06 R169, R170, 03 R80, R81): every written lane receives the tree over the active lanes, or its lane's part of
the scan in ascending order; no active lane gives the identity of R81 with TAG_INACTIVE. For integer `add` that is the sum, wrapped. -/
def Obligations.ReductionsAndScans : Prop :=
  ∀ (o : RedOp) (f : RForm) (s : State), Shaped s.team →
    let lanes := writtenLanes s.team f.g f.gn
    let active := lanesOf s.team.m s.team.nlanes
    let cnt := if Rows.width f.ty = 64 then 2 else 1
    let none_ : Opd := { v := identity o f.ty, tag := tagInactive }
    destBusy s.team true (.vD .ty) f.d.toNat f.ty lanes = false → (∀ l ∈ active, Readable s.team f.a.toNat cnt l) →
    (Issues (.xred o f) s →
      let r := reduced o f s
      r.2 &&& s.team.fpctl.extractLsb' 0 5 = 0 →
      let x := (r.1.headD none).getD none_
      (∃ t, exec (.xred o f) s = .next t ∧ Retires s t (s.team.pc + 8) (destOf (.vD .ty) true f.ty f.d.toNat lanes) ∧ SameMask s t ∧
        t.team.fpst = s.team.fpst ||| r.2.setWidth 64 ∧ ∀ l ∈ lanes, Holds t.team true .ty f.ty f.d.toNat l x.v x.tag) ∧
      (Rows.isInt f.ty = true → o = .add →
        ∃ v, Narrowed f.ty false ((active.map fun l => readInt f.ty (s.team.velems f.a.toNat cnt l).v).sum) v ∧ x.v = content v)) ∧
    (∀ excl, Issues (.xscan o excl f) s →
      let r := scanned o f s
      r.2 &&& s.team.fpctl.extractLsb' 0 5 = 0 →
      ∃ t, exec (.xscan o excl f) s = .next t ∧ Retires s t (s.team.pc + 8) (destOf (.vD .ty) true f.ty f.d.toNat lanes) ∧ SameMask s t ∧
        t.team.fpst = s.team.fpst ||| r.2.setWidth 64 ∧
        ∀ l ∈ lanes, ∃ before after, (l, before, after) ∈ r.1 ∧
          (if excl then Holds t.team true .ty f.ty f.d.toNat l (before.getD none_).v (before.getD none_).tag
           else Holds t.team true .ty f.ty f.d.toNat l after.v after.tag) ∧
          (Rows.isInt f.ty = true → o = .add → ∃ v,
            Narrowed f.ty false
              (((active.filter fun j => j < l || (!excl && j = l)).map fun j => readInt f.ty (s.team.velems f.a.toNat cnt j).v).sum) v ∧
            (if excl then (before.getD none_).v else after.v) = content v))

/-! Control. -/

/-- Branches and `loop` (04 R108-R111): the target is the pc of the branch plus eight times the signed offset; `brany` and `brall` test the
predicate over the active lanes; `loop` counts down, and leaves at 0 and at 1. -/
def Obligations.BranchesAndLoop : Prop :=
  (∀ s : State, Issues .nop s → Becomes .nop s (s.team.pc + 8) s.team) ∧
  (∀ (f : BForm) (s : State), Issues (.br f) s → Becomes (.br f) s (BitVec.ofInt 57 (s.team.pc.toNat + 8 * f.off.toInt)) s.team) ∧
  (∀ (neg : Bool) (f : BForm) (s : State), Issues (.brc neg f) s →
    Becomes (.brc neg f) s (if s.team.breg f.cnd.toNat = !neg then BitVec.ofInt 57 (s.team.pc.toNat + 8 * f.off.toInt) else s.team.pc + 8) s.team) ∧
  (∀ (f : BForm) (s : State), s.team.nlanes ≤ 1024 → Issues (.brany f) s →
    ((∃ l < 1024, s.team.m.getLsbD l = true ∧ (s.team.predMask f.cnd.toNat).getLsbD l = true) →
      Becomes (.brany f) s (BitVec.ofInt 57 (s.team.pc.toNat + 8 * f.off.toInt)) s.team) ∧
    ((∀ l < 1024, s.team.m.getLsbD l = true → (s.team.predMask f.cnd.toNat).getLsbD l = false) → Becomes (.brany f) s (s.team.pc + 8) s.team)) ∧
  (∀ (f : BForm) (s : State), s.team.nlanes ≤ 1024 → Issues (.brall f) s →
    ((∀ l < 1024, s.team.m.getLsbD l = true → (s.team.predMask f.cnd.toNat).getLsbD l = true) →
      Becomes (.brall f) s (BitVec.ofInt 57 (s.team.pc.toNat + 8 * f.off.toInt)) s.team) ∧
    ((∃ l < 1024, s.team.m.getLsbD l = true ∧ (s.team.predMask f.cnd.toNat).getLsbD l = false) → Becomes (.brall f) s (s.team.pc + 8) s.team)) ∧
  (∀ (f : IForm) (s : State), Issues (.loop f) s →
    let r := s.team.sreg f.d.toNat
    r.full = true → remoteCause r.tag = none → r.tag ≠ tagPoison →
    let u := s.team.setS f.d.toNat (r.v - 1) (tagResult s.team.rule (s.ownTag s.team) [{ tag := r.tag, m := r.v.toInt.natAbs }])
    (r.v = 0 → Becomes (.loop f) s (s.team.pc + 8) s.team) ∧ (r.v = 1 → Becomes (.loop f) s (s.team.pc + 8) u) ∧
    (r.v ≠ 0 → r.v ≠ 1 → Becomes (.loop f) s (BitVec.ofInt 57 (s.team.pc.toNat + 8 * f.imm.toInt)) u))

/-- `call` leaves a sealed entry to the next word in c30 and goes to its target; `ret` goes through c30 and `jmpc` through any capability
with X that is unsealed or an entry, of the team's compartment or an entry into another from user mode; c31 becomes it, unsealed
(04 R112, R113, 20 R390) with the tag of the capability gone through (log 7). The low bits of a cursor are dropped (log 39). -/
def Obligations.CallsAndTransfers : Prop :=
  (∀ (f : BForm) (s : State), Issues (.call f) s → (s.team.creg 30).busy = false →
    Becomes (.call f) s (BitVec.ofInt 57 (s.team.pc.toNat + 8 * f.off.toInt))
      (s.team.setC 30 { bits := capSetOtype (capSetCursor (s.team.creg 31).bits (s.team.pc + 8).toNat) 1, valid := (s.team.creg 31).valid
                        tag := carried s [(s.team.creg 31).tag] })) ∧
  (∀ (i : Instr) (f : RForm) (s : State) (n : Nat), ((i = .ret ∧ n = 30) ∨ (i = .jmpc f ∧ n = f.a.toNat)) → Issues i s →
    let k := s.team.creg n
    let roots := s.roots (s.ctxOf s.team)
    let root := rootOf roots k.bits
    let open_ : CReg := { k with bits := capSetOtype k.bits 0 }
    k.busy = false → remoteCause k.tag = none → k.tag ≠ tagPoison →
    capCheck roots { s.checker s.team anyKind with compt := root.compt, fab := false } open_ (capLo root.base k.bits) 0 pX = none →
    capOtype k.bits ≤ 1 → (root.compt = s.comptOf s.team ∨ root.compt = 0 ∨ (capOtype k.bits = 1 ∧ s.team.mode = .user)) →
    Becomes i s (BitVec.ofNat 57 (capCursor k.bits / 8 * 8)) { s.team with c := s.team.c.set 31 open_ })

/-! Capabilities. -/

/-- Derivations (04 R117-R125): in each lane, or in the scalar, the result of R120-R125 where what the instruction checks passes. -/
def Obligations.CapabilityDerivations : Prop :=
  ∀ (i : Instr) (mop fn : Nat) (row : Rows.RRow) (src : Ty) (f : RForm) (s : State) (ks : List CReg) (xs : List Opd) (qs : List CReg),
    (match i with
      | .cseta _ | .cinc _ | .cbnd _ | .cbndr _ | .cperm _ | .cseal _ | .cunseal _ | .cmov _ | .cnull _ => True | _ => False) →
    Rows.view i = .r mop fn row src f → Shaped s.team → Issues i s →
    let lanes := s.team.lanesFor row f
    destBusy s.team f.ln row.d f.d.toNat f.ty lanes = false →
    (row.a = .c → readCap s.team f.ln f.ea f.a.toNat lanes = .ok ks) →
    (row.b = .c → readCap s.team f.ln f.eb f.b.toNat lanes = .ok qs) →
    readFld s.team row.b f.ln (f.ob.getLsbD 1) f.eb f.ty f.ty f.b.toNat lanes = .ok xs →
    (∀ k < lanes.length, CapAllows i s (ks.getD k {}) (xs.getD k {}) (qs.getD k {})) →
    ∃ t, exec i s = .next t ∧ Retires s t (s.team.pc + 8) (destOf row.d f.ln f.ty f.d.toNat lanes) ∧ SameMask s t ∧ SameFlags s t ∧
      ∀ k < lanes.length, ∃ r : CReg, CapDerived i s (ks.getD k {}) (xs.getD k {}) (qs.getD k {}) r ∧
        HoldsCap t.team f.ln f.d.toNat (lanes.getD k 0) r

/-- No derivation widens a capability: whatever the state, where the instruction completes and what it writes is valid, the source was valid,
and the result's bounds lie in the source's, its root is the source's, and it has no permission that the source lacks
(04 R114, R117, R120-R125). -/
def Obligations.DerivationsNeverWiden : Prop :=
  ∀ (i : Instr) (mop fn : Nat) (row : Rows.RRow) (src : Ty) (f : RForm) (s t : State),
    (match i with
      | .cseta _ | .cinc _ | .cbnd _ | .cbndr _ | .cperm _ | .cseal _ | .cunseal _ | .cmov _ => True | _ => False) →
    Rows.view i = .r mop fn row src f → Shaped s.team → Issues i s → exec i s = .next t → t.team.retired = s.team.retired + 1 →
    let within (k r : CReg) : Prop := r.valid = true →
      k.valid = true ∧ s.capLoOf (s.ctxOf s.team) k.bits ≤ s.capLoOf (s.ctxOf s.team) r.bits ∧
      s.capHiOf (s.ctxOf s.team) r.bits ≤ s.capHiOf (s.ctxOf s.team) k.bits ∧
      capRoot r.bits = capRoot k.bits ∧ capPerms r.bits &&& ~~~capPerms k.bits = 0
    (f.ln = false → f.d ≠ 0 → within (s.team.creg f.a.toNat) (t.team.c.getD f.d.toNat {})) ∧
    (f.ln = true → ∀ l ∈ s.team.lanesFor row f, within (laneCap s.team f.a.toNat l) (laneCap t.team f.d.toNat l))

/-- A failing check of a derivation traps by the first cause in the order of R117 that some lane has, with those lanes; so do the checks of
`croot`, `crev`, `ret` and `jmpc`, in their own order. The destination, and every other register, is as it was, but for what the entry of
the handler writes (04 R113, R117, R120-R124, R126, R127, 20 R390). -/
def Obligations.CapabilityChecksTrap : Prop :=
  (∀ (i : Instr) (mop fn : Nat) (row : Rows.RRow) (src : Ty) (f : RForm) (s : State) (ks : List CReg) (xs : List Opd) (qs : List CReg) (c : BitVec 8),
    Rows.view i = .r mop fn row src f → Issues i s →
    let lanes := s.team.lanesFor row f
    destBusy s.team f.ln row.d f.d.toNat f.ty lanes = false → readCap s.team f.ln f.ea f.a.toNat lanes = .ok ks →
    (row.b = .c → readCap s.team f.ln f.eb f.b.toNat lanes = .ok qs) →
    readFld s.team row.b f.ln (f.ob.getLsbD 1) f.eb f.ty f.ty f.b.toNat lanes = .ok xs →
    let fails (k : Nat) (e : BitVec 8) : Prop := capFails i s (ks.getD k {}) (xs.getD k {}) (qs.getD k {}) = some e
    (∃ pre post, [(0x10 : BitVec 8), 0x14, 0x13, 0x12, 0x11] = pre ++ c :: post ∧ (∃ k < lanes.length, fails k c) ∧
      ∀ e ∈ pre, ∀ k < lanes.length, ¬ fails k e) →
    ∃ r, TrapsWith i s c r ∧ (f.ln = false → r.mask = 0) ∧
      (f.ln = true → s.team.nlanes ≤ 1024 → ∀ l, (r.mask.getLsbD l = true ↔ ∃ k < lanes.length, lanes.getD k 0 = l ∧ fails k c))) ∧
  (∀ (f : RForm) (s : State) (a b : Opd), Issues (.croot f) s → (s.team.creg f.d.toNat).busy = false →
    readS s.team f.a.toNat f.ea = .ok a → readS s.team f.b.toNat f.eb = .ok b →
    let n := b.v % 2 ^ 47
    let bad : Prop := 2 ^ 57 ≤ a.v ∨ a.v % 65536 ≠ 0 ∨ n = 0 ∨ n % 65536 ≠ 0 ∨ exactEnc 0 0 n = none
    (bad → ∃ r, TrapsWith (.croot f) s 0x11 r) ∧ (¬ bad → b.v / 2 ^ 58 ≠ 0 → ∃ r, TrapsWith (.croot f) s 0x12 r)) ∧
  (∀ (f : RForm) (s : State) (c : BitVec 8), Issues (.crev f) s → (s.team.creg f.a.toNat).busy = false →
    remoteCause (s.team.creg f.a.toNat).tag = none →
    let k := s.team.creg f.a.toNat
    capCheck (s.roots (s.ctxOf s.team)) { s.checker s.team anyKind with fab := false } k (s.capLoOf (s.ctxOf s.team) k.bits) 0 pSYS = some c →
    ∃ r, TrapsWith (.crev f) s c r) ∧
  (∀ (i : Instr) (f : RForm) (s : State) (n : Nat), ((i = .ret ∧ n = 30) ∨ (i = .jmpc f ∧ n = f.a.toNat)) → Issues i s →
    let k := s.team.creg n
    let root := rootOf (s.roots (s.ctxOf s.team)) k.bits
    let check := capCheck (s.roots (s.ctxOf s.team)) { s.checker s.team anyKind with compt := root.compt, fab := false }
      { k with bits := capSetOtype k.bits 0 } (capLo root.base k.bits) 0 pX
    let at_ (c : BitVec 8) : Prop := ∃ r, TrapsWith i s c r ∧ ∀ l < s.team.nlanes, r.addr.getD l 0 = BitVec.ofNat 64 (capCursor k.bits)
    k.busy = false → remoteCause k.tag = none → k.tag ≠ tagPoison →
    (∀ c, check = some c → at_ c) ∧
    (check = none → 2 ≤ capOtype k.bits → at_ 0x13) ∧
    (check = none → capOtype k.bits ≤ 1 → root.compt ≠ s.comptOf s.team → root.compt ≠ 0 → (capOtype k.bits = 0 ∨ s.team.mode ≠ .user) → at_ 0x12))

/-- `cget` reads a field with the capability's tag, `ctest` tests that the capability is valid and its root live; `croot` claims the lowest
free root of its table, or gives the null capability when there is none; `crev` revokes the root and orders its sweep on all dies
(04 R119, R125-R127). -/
def Obligations.CapabilityQueriesAndRoots : Prop :=
  (∀ (k : CapFld) (mop fn : Nat) (row : Rows.RRow) (src : Ty) (f : RForm) (s : State) (as : List CReg), Rows.view (.cget k f) = .r mop fn row src f →
    Shaped s.team → Issues (.cget k f) s → destBusy s.team f.ln row.d f.d.toNat f.ty (s.team.lanesFor row f) = false →
    readCap s.team f.ln f.ea f.a.toNat (s.team.lanesFor row f) = .ok as →
    let val (c : CReg) : Int :=
      let r := rootOf (s.roots (s.ctxOf s.team)) c.bits
      let lo : Nat := if r.state = .free then 0 else capLo r.base c.bits
      match k with
      | .base => lo | .length => if r.state = .free then 0 else (capLen c.bits * 2 ^ capExp c.bits : Nat)
      | .perms => (capPerms c.bits).toNat | .otype => capOtype c.bits | .cursor => capCursor c.bits | .offset => (capCursor c.bits : Int) - lo
    ∃ t, exec (.cget k f) s = .next t ∧ Retires s t (s.team.pc + 8) (destOf row.d f.ln .i8 f.d.toNat (s.team.lanesFor row f)) ∧ SameMask s t ∧
      SameFlags s t ∧ ∀ j < (s.team.lanesFor row f).length,
        Holds t.team f.ln (match row.d with | .genD w => w | _ => .one) .i8 f.d.toNat ((s.team.lanesFor row f).getD j 0)
          (content (val (as.getD j {}))) (as.getD j {}).tag) ∧
  (∀ (mop fn : Nat) (row : Rows.RRow) (src : Ty) (f : RForm) (s : State) (as : List CReg), Rows.view (.ctest f) = .r mop fn row src f →
    Shaped s.team → Issues (.ctest f) s → readCap s.team f.ln f.ea f.a.toNat (s.team.lanesFor row f) = .ok as →
    CompletesPred (.ctest f) s row f 0 fun k =>
      (as.getD k {}).valid && (rootOf (s.roots (s.ctxOf s.team)) (as.getD k {}).bits).state = .live) ∧
  (∀ (f : RForm) (s : State) (a b : Opd) (e l : Nat), Issues (.croot f) s → (s.team.creg f.d.toNat).busy = false →
    readS s.team f.a.toNat f.ea = .ok a → readS s.team f.b.toNat f.eb = .ok b → a.v < 2 ^ 57 → a.v % 65536 = 0 →
    b.v % 2 ^ 47 ≠ 0 → b.v % 2 ^ 47 % 65536 = 0 → exactEnc 0 0 (b.v % 2 ^ 47) = some (e, 0, l) → b.v / 2 ^ 58 = 0 →
    let perms := BitVec.ofNat 12 (b.v / 2 ^ 47 % 2 ^ 11)
    let free (k : Nat) : Prop := 0 < k ∧ (aget ({} : Root) (s.roots (s.ctxOf s.team)) k).state = .free
    awf ({} : Root) (s.roots (s.ctxOf s.team)) = true →
    (f.d = 0 → Becomes (.croot f) s (s.team.pc + 8) s.team) ∧
    (∀ r, f.d ≠ 0 → r < 2 ^ 20 → free r → (∀ k < r, ¬ free k) →
      ∃ t, exec (.croot f) s = .next t ∧ t.team.pc = s.team.pc + 8 ∧
        t.team.c = s.team.c.set f.d.toNat
          { bits := capMk l 0 e 0 perms r a.v, valid := true, tag := carried s [a.tag, b.tag] } ∧
        (∀ c, s.ctxOf s.team = some c → c < s.contexts.length → (t.ctxAt c).roots = aset ({} : Root) (s.ctxAt c).roots r
          { kind := .loc, state := .live, base := a.v, limit := a.v + b.v % 2 ^ 47, ceil := perms, compt := s.comptOf s.team }) ∧
        t.mem = s.mem ∧ (∀ j, j ≠ s.cur → t.teamAt j = s.teamAt j)) ∧
    (f.d ≠ 0 → (∀ r < 2 ^ 20, ¬ free r) →
      ∃ t, exec (.croot f) s = .next t ∧ t.team.pc = s.team.pc + 8 ∧ t.contexts = s.contexts ∧
        t.team.c = s.team.c.set f.d.toNat { bits := 0, valid := false, tag := carried s [a.tag, b.tag] })) ∧
  (∀ (f : RForm) (s : State) (c : Nat), Issues (.crev f) s → s.ctxOf s.team = some c → c < s.contexts.length →
    let k := s.team.creg f.a.toNat
    k.busy = false → remoteCause k.tag = none →
    capCheck (s.roots (some c)) { s.checker s.team anyKind with fab := false } k (s.capLoOf (some c) k.bits) 0 pSYS = none →
    s.team.held 0x7F false = false →
    ∃ t, exec (.crev f) s = .next t ∧ t.team.pc = s.team.pc + 8 ∧
      (t.rootAt (some c) (capRoot k.bits)).state = .revoked ∧ (t.rootAt (some c) (capRoot k.bits)).sweeps = 0xF ∧
      (∀ r, r ≠ capRoot k.bits → t.rootAt (some c) r = s.rootAt (some c) r))

/-! Memory. -/

/-- A memory instruction of plain order to device memory and the scratchpad issues one access per space, of the lanes that ask for it, in
lane order, behind the team's earlier ones; loads and atomics mark their destination empty; no byte, tag or other register changes
(02 R42, 09 R214, R218, R219, 10 R242). -/
def Obligations.LocalAccessesIssue : Prop :=
  ∀ (i : Instr) (f : MForm) (op : MemOp) (s : State) (ys : List Ask), memOpOf i = some (f, op) → Shaped s.team → Issues i s → Asks s f op ys →
    Allowed s f op ys → (∀ y ∈ ys, askSpace s s.team op y = .dev ∨ askSpace s s.team op y = .scratch) → f.ord = 0 → Unobserved s →
    ∃ t, exec i s = .next t ∧ OnlyMover s t ∧ t.team.pc = s.team.pc + 8 ∧ t.mem = s.mem ∧ SameMask s t ∧ SameFlags s t ∧
      SameRegs s.team t.team (destWrites op.dst (s.team.memLanes f)) ∧ DestEmpty t.team op.dst (s.team.memLanes f) ∧
      ∃ new : List Access, t.team.outs = s.team.outs ++ new ∧
        (∀ a ∈ new, a.kind = op.kind ∧ a.dst = op.dst ∧ a.own = s.ownTag s.team ∧ a.rule = s.team.rule ∧ a.time = s.now ∧
          s.team.nextAcc ≤ a.id ∧
          a.lanes = (ys.filter fun y => askSpace s s.team op y = a.space).map (laneOf s s.team op)) ∧
        (∀ y ∈ ys, ∃ a ∈ new, laneOf s s.team op y ∈ a.lanes)

/-- A memory instruction of any order and to any space completes where its checks pass, what its release waits for is over and its acquire
finds no other scope: the pc passes its word; its release has performed the team's stores, one that also acquires everything of the team
that goes to memory (09 R221, R339, 10 R242, R243, R247). -/
def Obligations.OrderedAccessesComplete : Prop :=
  ∀ (i : Instr) (f : MForm) (op : MemOp) (s : State) (ys : List Ask), memOpOf i = some (f, op) → Issues i s → Asks s f op ys →
    Allowed s f op ys → Unobserved s →
    (s.team.outs.map (·.id)).Nodup →
    let acs := accessesOf s s.team f op ys
    let mask := s.releaseMask s.team f.obs op acs
    (f.ord.getLsbD 1 = true → s.team.held mask false = false ∧ s.team.latched mask = none) →
    (f.ord.getLsbD 0 = true →
      let s1 := if f.ord.getLsbD 1 then (s.storesHome s.cur).drain s.cur else s
      let s2 := acs.foldl (fun (s : State) p => if p.1.isWindow then s else s.drainLines p.1) s1
      acs.flatMap (fun p => scopeFails s2 s.team op p) = []) →
    ∃ t, exec i s = .next t ∧ t.team.pc = s.team.pc + 8 ∧ t.team.frame = s.team.frame ∧ t.team.mode = s.team.mode ∧
      (f.ord.getLsbD 1 = true → ∀ a ∈ t.team.outs, a.isWindow = false → (a.isStore = true ∨ f.ord.getLsbD 0 = true) → s.team.nextAcc ≤ a.id)

/-- A memory instruction whose destination is still empty waits (09 R218); one whose capability check fails in some lane traps by the first
cause in the order of R117 that some lane has, with those lanes, and stores and loads nothing (09 R215). -/
def Obligations.AccessesWaitAndTrap : Prop :=
  (∀ (i : Instr) (f : MForm) (op : MemOp) (s : State), memOpOf i = some (f, op) → Issues i s → destWaits s.team op (s.team.memLanes f) = true →
    exec i s = .next s.stall) ∧
  (∀ (i : Instr) (f : MForm) (op : MemOp) (s : State) (ys : List Ask) (c : BitVec 8), memOpOf i = some (f, op) → Issues i s → Asks s f op ys →
    (∀ n, s.team.st ≠ .skid n) → (∀ y ∈ ys, poisoned s s.team op y = false) →
    (∃ pre post, [(0x10 : BitVec 8), 0x14, 0x13, 0x12, 0x11] = pre ++ c :: post ∧ (∃ y ∈ ys, askCause s s.team op y = some c) ∧
      ∀ d ∈ pre, ∀ y ∈ ys, askCause s s.team op y ≠ some d) →
    ∃ r : TrapRec, r.cause = c ∧ r.pc = s.team.pc ∧ (f.ln = false → r.mask = 0) ∧
      (f.ln = true → s.team.nlanes ≤ 1024 → ∀ y ∈ ys, (r.mask.getLsbD y.lane = true ↔ askCause s s.team op y = some c)) ∧
      exec i s = .next (s.takeTrap s.cur r))

/-- FILL_ARRIVAL performs a load: the destination of each lane takes the bytes of memory, with the team's own earlier stores over them, in its one or
more registers, and the tag of the line of the highest, and is full; a capability load takes its valid bit too, `lds.tr` its column of the rows of
its group, an inactive lane's row being zeros with TAG_INACTIVE. An atomic stores, lane after lane, its new value, that of Table 9-5, and gives the
old one. Both leave the access list; no other byte and no other register changes (02 R42, 09 R206, R218, R220, R222-R224, R226-R229). -/
def Obligations.FillArrivalPerforms : Prop :=
  ∀ (s : State) (team acc : Nat) (a : Access), team < s.teams.length → Shaped (s.teamAt team) →
    (s.teamAt team).outs.find? (fun x => x.id = acc) = some a → a.isStore = false → a.isWindow = false →
    (a.lanes.map (·.lane)).Nodup → (∀ l ∈ a.lanes, l.lane < (s.teamAt team).nlanes) →
    let u := s.teamAt team
    let earlier := earlierThan u.outs acc
    let m := s.spaceMem u.crew a.space
    let seen := overlay m earlier a.space
    let bytes (l : LaneAcc) := readRuns seen l.runs
    let tag (l : LaneAcc) := runsTag seen l.runs
    let elem (v : Nat) (g : Tag) : VElem := { v := BitVec.ofNat 32 v, tag := g, full := true }
    canPerform earlier a = true →
    ∃ t, exec (.fillArrival team acc) s = .next t ∧ (∀ j, j ≠ team → t.teamAt j = s.teamAt j) ∧
      WithoutAccess u.outs (t.teamAt team).outs acc ∧ (t.teamAt team).pc = u.pc ∧
      SameRegs u (t.teamAt team) (destWrites a.dst (a.lanes.map (·.lane))) ∧
      (a.isLoad = true → t.mem = s.mem ∧ t.crews = s.crews) ∧
      (a.kind = .load →
        (∀ n cnt, a.dst = .s n cnt → cnt = 1 ∨ cnt = 2 → n + cnt ≤ 64 → ∀ l, a.lanes = [l] → ∀ q < cnt,
          (t.teamAt team).sreg (n + q) = { v := BitVec.ofNat 64 (leNat (((bytes l).drop (8 * q)).take 8)), tag := tag l, full := true }) ∧
        (∀ n cnt, a.dst = .v n cnt → n + cnt ≤ u.vregs → ∀ l ∈ a.lanes, ∀ q < cnt,
          (t.teamAt team).velem (n + q) l.lane = elem (leNat (((bytes l).drop (4 * q)).take 4)) (tag l))) ∧
      (a.kind = .loadCap →
        let valid (l : LaneAcc) : Bool := l.cap && (match l.runs with | (x, _) :: _ => (seen.line (x / 64)).ctag.getLsbD (x % 64 / 16) | [] => false) &&
          (rootOf (s.roots (s.ctxOf u)) (BitVec.ofNat 128 (leNat (bytes l)))).state = .live
        (∀ n, a.dst = .c n → n < 32 → ∀ l, a.lanes = [l] →
          HoldsCap (t.teamAt team) false n 0 { bits := capClean (BitVec.ofNat 128 (leNat (bytes l))), valid := valid l, tag := tag l }) ∧
        (∀ n, a.dst = .quad n → n % 4 = 0 → n + 4 ≤ u.vregs → ∀ l ∈ a.lanes, (bytes l).length = 16 →
          HoldsCap (t.teamAt team) true n l.lane { bits := BitVec.ofNat 128 (leNat (bytes l)), valid := valid l, tag := tag l })) ∧
      (a.kind = .loadTr → ∀ n, a.dst = .v n 4 → n + 4 ≤ u.vregs → a.size = 1 ∨ a.size = 2 ∨ a.size = 4 →
        let e := a.size
        let cols := 16 / e
        let row (j : Nat) : List Byte × Tag :=
          match a.lanes.find? (fun l => l.lane = j) with | some l => (bytes l, tag l) | none => (List.replicate 16 0, 0xFFF002)
        ∀ l ∈ a.lanes, l.write = true → ∀ q < 4,
          let rows := (List.range (4 / e)).map fun k => row (l.lane / cols * cols + q * (4 / e) + k)
          (t.teamAt team).velem (n + q) l.lane =
            elem (leNat (rows.flatMap fun r => (r.1.drop (l.lane % cols * e)).take e))
              (if rows.any (fun r => r.2 = 0xFFF000) then 0xFFF000 else (row (l.lane / cols * cols + q * (4 / e) + (4 / e - 1))).2)) ∧
      (∀ op, a.kind = .atom op → m.wf = true → a.size ≤ 8 →
        ∃ ms : Nat → Memory, ms 0 = m ∧ (∀ x, (t.spaceMem u.crew a.space).byte x = (ms a.lanes.length).byte x) ∧
          ∀ k l, a.lanes[k]? = some l →
            (∀ x, (∀ r ∈ l.runs, x < r.1 ∨ r.1 + r.2 ≤ x) → (ms (k + 1)).byte x = (ms k).byte x) ∧
            (∀ x, l.runs = [(x, a.size)] → l.data.length = a.size →
              leNat ((ms (k + 1)).bytes x a.size) =
                atomValue op a.size (leNat ((ms k).bytes x a.size)) (leNat l.data) (leNat l.data2) % 2 ^ (8 * a.size)) ∧
            (∀ n, a.dst = .s n 1 → n < 64 → a.lanes = [l] → (t.teamAt team).sreg n =
              { v := BitVec.ofNat 64 (leNat ((readRuns (ms k) l.runs).take 8)), tag := runsTag (ms k) l.runs, full := true }) ∧
            (∀ n cnt, a.dst = .v n cnt → n + cnt ≤ u.vregs → ∀ q < cnt, (t.teamAt team).velem (n + q) l.lane =
              elem (leNat (((readRuns (ms k) l.runs).drop (4 * q)).take 4)) (runsTag (ms k) l.runs)))

/-- STORE_PERFORMED_AT_HOME performs a store: each byte of its runs takes its value, the line of its highest byte its tag; every other byte
reads as before; the access leaves the list and nothing else of the teams changes, but that what it overtakes is seen in the order that a
fence or the release itself asks (09 R219, R220, 10 R242, R244). -/
def Obligations.StorePerformsAtHome : Prop :=
  ∀ (s : State) (team acc : Nat) (a : Access), team < s.teams.length → (s.teamAt team).outs.find? (fun x => x.id = acc) = some a → a.kind = .store →
    a.space = .dev → s.mem.wf = true → canPerform (earlierThan (s.teamAt team).outs acc) a = true →
    ∃ t, exec (.storePerformedAtHome team acc) s = .next t ∧
      (∃ outs, WithoutAccess (s.teamAt team).outs outs acc ∧ t.teams = s.teams.set team { s.teamAt team with outs := outs }) ∧
      t.crews = s.crews ∧ t.mem.wf = true ∧
      (∀ x, (∀ w ∈ a.writes, w.1 ≠ x) → t.mem.byte x = s.mem.byte x) ∧
      (∀ pre post x v tag, a.writes = pre ++ (x, v, tag) :: post → (∀ w ∈ post, w.1 ≠ x) → t.mem.byte x = v) ∧
      (∀ l w, (∀ x ∈ a.writes, x.1 / 64 = l → x.1 ≤ w) → (s.mem.line l).err = false →
        ∀ pre post v tag, a.writes = pre ++ (w, v, tag) :: post → w / 64 = l → (∀ x ∈ post, x.1 ≠ w) → (t.mem.line l).otag = tag) ∧
      (∀ l, (∀ w ∈ a.writes, w.1 / 64 ≠ l) → t.mem.line l = s.mem.line l)

/-- A fence performs every earlier local store of its team and passes; a load or an atomic that is still out is seen by the observers of its
mask before what follows, or, of `fence.rel`, before later stores and atomics; `pref` changes no register and no byte (09 R225, R231, 10 R242). -/
def Obligations.FenceAndPref : Prop :=
  (∀ (f : MForm) (s : State), Issues (.fence f) s → s.team.held (normObs f.obs) (decide (f.ord = 1)) = false →
    s.team.latched (normObs f.obs) = none → (s.team.outs.map (·.id)).Nodup →
    ∃ t, exec (.fence f) s = .next t ∧ t.team.pc = s.team.pc + 8 ∧ ∀ a ∈ t.team.outs, (∃ b ∈ s.team.outs, b.id = a.id) ∧
      (a.isWindow = true ∨ (a.isStore = false ∧
        (if f.ord = 2 then a.beforeW else a.before) &&& normObs f.obs = normObs f.obs))) ∧
  (∀ (f : MForm) (s : State), Issues (.pref f) s → Unobserved s →
    ∃ t, exec (.pref f) s = .next t ∧ t.team.pc = s.team.pc + 8 ∧ t.mem = s.mem ∧ t.crews.map Crew.rest = s.crews.map Crew.rest ∧
      SameRegs s.team t.team {} ∧ SameMask s t ∧ SameFlags s t ∧ t.team.outs = s.team.outs ∧ (∀ j, j ≠ s.cur → t.teamAt j = s.teamAt j))

/-- `pmap` (09 R235, R238, Table 9-6): MAP, UNMAP, PROTECT and MIGRATE_IN of exactly one page, with their statuses, the mapping that each leaves,
the frame that MAP zeroes, and the status in the s register with the instruction's own tag. Which frame a page takes, and whether the device or
the host wins a migration, are the model's (log 6). -/
def Obligations.PageOperations : Prop :=
  ∀ (i : Instr) (f : MForm) (s : State) (c : Nat) (x : Opd), s.ctxOf s.team = some c → c < s.contexts.length → Shaped s.team →
    (i = .pmapMap f ∨ i = .pmapUnmap f ∨ i = .pmapProtect f ∨ i = .pmapMigrateIn f) → Issues i s →
    let k := s.team.creg f.cap.toNat
    let sz := x.v / 8 % 4
    let z := if sz = 0 then 2 ^ 16 else if sz = 1 then 2 ^ 21 else 2 ^ 30
    let a := ((capCursor k.bits + f.off.toInt * 65536) % 2 ^ 57).toNat / z * z
    let r := x.v / 32 % 2 = 1; let w := x.v / 64 % 2 = 1; let xx := x.v / 128 % 2 = 1
    k.busy = false → remoteCause k.tag = none → k.tag ≠ tagPoison → readS s.team f.data.toNat f.e = .ok x → x.tag ≠ tagPoison →
    x.v < 256 → x.v % 8 < 4 → sz ≠ 3 → s.check s.team [.loc] k a z pSYS = none →
    let maps := (s.ctxAt c).maps
    let over_ := maps.filter fun m => m.va < a + z ∧ a < m.va + m.size
    let others (l : List Mapping) := l.filter fun m => m.va ≠ a
    ∃ t, exec i s = .next t ∧ t.team.pc = s.team.pc + 8 ∧ ∃ st : Word,
      t.team.sreg f.data.toNat = { v := st, tag := s.ownTag s.team, full := true } ∧
      ((∃ m ∈ over_, m.size ≠ z) → st = 3 ∧ (t.ctxAt c).maps = maps) ∧
      ((∀ m ∈ over_, m.size = z) →
        (i = .pmapMap f →
          (over_ ≠ [] → st = 1 ∧ (t.ctxAt c).maps = maps) ∧
          (over_ = [] → takeChunk z z (s.ctxAt c).poolFree = none → st = 2 ∧ (t.ctxAt c).maps = maps) ∧
          (∀ frame rest, over_ = [] → takeChunk z z (s.ctxAt c).poolFree = some (frame, rest) → st = 0 ∧ (t.ctxAt c).poolFree = rest ∧
            (t.ctxAt c).maps = others maps ++ [{ va := a, size := z, frame := frame, r := r, w := w, x := xx }] ∧
            (Unobserved s → (∀ y, frame ≤ y → y < frame + z → t.mem.byte y = 0) ∧
              ∀ l, frame ≤ l * 64 → l * 64 < frame + z → t.mem.line l = { otag := 0xFFF001, ctag := 0, kind := 0 }))) ∧
        (i = .pmapUnmap f → (over_ = [] → st = 6 ∧ (t.ctxAt c).maps = maps) ∧ (over_ ≠ [] → st = 0 ∧ (t.ctxAt c).maps = others maps)) ∧
        (i = .pmapProtect f → (over_ = [] → st = 6 ∧ (t.ctxAt c).maps = maps) ∧
          (∀ m rest, over_ = m :: rest → st = 0 ∧ (t.ctxAt c).maps = (maps.filter fun y => y.va ≠ m.va) ++ [{ m with r := r, w := w, x := xx }])) ∧
        (i = .pmapMigrateIn f → (over_ = [] → st = 6 ∧ (t.ctxAt c).maps = maps) ∧
          (∀ m rest, over_ = m :: rest →
            let becomes (m' : Mapping) : Prop := (t.ctxAt c).maps = (maps.filter fun y => y.va ≠ m.va) ++ [m']
            (m.resid = .device → st = 1 ∧ (t.ctxAt c).maps = maps) ∧
            (m.resid ≠ .device → s.now < m.hold → st = 5 ∧ becomes { m with resid := .remote }) ∧
            (m.resid ≠ .device → m.hold ≤ s.now → takeChunk z z (s.ctxAt c).poolFree = none → st = 2 ∧ (t.ctxAt c).maps = maps) ∧
            (∀ frame free, m.resid ≠ .device → m.hold ≤ s.now → takeChunk z z (s.ctxAt c).poolFree = some (frame, free) →
              (Config.migrationWins s.tick = false → st = 4 ∧ becomes { m with resid := .remote, hold := s.now + 100000 } ∧
                (t.ctxAt c).poolFree = (s.ctxAt c).poolFree) ∧
              (Config.migrationWins s.tick = true → m.away = none →
                st = 0 ∧ becomes { m with frame := frame, resid := .device, hold := s.now + 100000 } ∧ (t.ctxAt c).poolFree = free)))))

/-! System instructions. -/

/-- Special registers (02 R45-R50, Table 2-3, 14 R310): what `rdsr` reads of each, in the lane form each lane its own `trapaddr`; what
`wrsr` writes of each, and which values are refused. Which mode may do so is said at `IllegalAndPrivilegedTrap`. -/
def Obligations.SpecialRegisters : Prop :=
  (∀ (f : IForm) (s : State), Issues (.rdsr f) s → f.ln = false → (s.team.sreg f.d.toNat).full = true →
    let n := f.imm.toNat % 256
    let t := s.team
    let c := s.crewAt t.crew
    (∃ v : Word, Becomes (.rdsr f) s (s.team.pc + 8) (s.team.setS f.d.toNat v (s.ownTag s.team)) ∧
        (∀ p ∈ ([(0, t.teamid), (1, c.crewid.setWidth 64), (2, c.x.setWidth 64), (3, c.y.setWidth 64), (4, c.z.setWidth 64),
            (5, BitVec.ofNat 64 t.nlanes), (7, c.tcyc), (8, (s.dieAt c.die).dcyc), (9, t.ttimer), (10, t.fpctl), (11, t.fpst), (12, t.tagrule),
            (13, BitVec.ofNat 64 (c.killed.toNat * 2 ^ 16 + if t.abandoned then 1 else 0)), (14, t.trapcause.setWidth 64),
            (15, t.trappc.setWidth 64), (16, (t.trapmask.extractLsb' (32 * (f.imm.toNat / 256 % 32)) 32).setWidth 64),
            (17, t.traptagA.setWidth 64), (18, t.traptagB.setWidth 64), (19, t.traptagC.setWidth 64), (21, t.skid.setWidth 64),
            (22, BitVec.ofNat 64 (c.prio * 256 + match t.mode with | .user => 0 | .super => 1 | .firm => 2))] : List (Nat × Word)),
          n = p.1 → v = p.2) ∧
        (n = 6 → ∀ w < 64, v.getLsbD w = decide (w < 32 ∧ t.m.extractLsb' (32 * w) 32 ≠ 0)) ∧
        (n = 20 → ∀ l < t.nlanes, t.trapmask.getLsbD l = true → (∀ k < l, t.trapmask.getLsbD k = false) → v = t.trapaddr.getD l 0))) ∧
  (∀ (f : IForm) (s : State), Shaped s.team → Issues (.rdsr f) s → f.ln = true →
    let lanes := writtenLanes s.team f.g f.gn
    (∀ l ∈ lanes, s.team.vempty f.d.toNat 2 l = false) →
    ∃ t, exec (.rdsr f) s = .next t ∧ SameMask s t ∧ SameFlags s t ∧
      Retires s t (s.team.pc + 8) { v := fun r l => f.d.toNat ≤ r ∧ r < f.d.toNat + 2 ∧ l ∈ lanes } ∧
      ∀ l ∈ lanes, ∀ q < 2, t.team.velem (f.d.toNat + q) l =
        { v := (s.team.trapaddr.getD l 0).extractLsb' (32 * q) 32, tag := s.ownTag s.team, full := true }) ∧
  (∀ (f : IForm) (s : State) (x : Opd), Issues (.wrsr f) s →
    let n := f.imm.toNat % 256
    let t := s.team
    let v := BitVec.ofNat 64 x.v
    (readS t f.a.toNat f.ea = .ok x → x.tag ≠ tagPoison →
      (n = 9 → Becomes (.wrsr f) s (t.pc + 8) { t with ttimer := v }) ∧
      (n = 10 → x.v / 256 % 8 < 5 → Becomes (.wrsr f) s (t.pc + 8) { t with fpctl := v &&& 0x71F }) ∧
      (n = 10 → 5 ≤ x.v / 256 % 8 → exec (.wrsr f) s = .next (s.takeTrap s.cur { cause := 0x01, pc := s.team.pc })) ∧
      (n = 11 → Becomes (.wrsr f) s (t.pc + 8) { t with fpst := v &&& 0x1F }) ∧
      (n = 12 → x.v % 4 ≠ 3 → Becomes (.wrsr f) s (t.pc + 8) { t with tagrule := v &&& 3 }) ∧
      (n = 12 → x.v % 4 = 3 → exec (.wrsr f) s = .next (s.takeTrap s.cur { cause := 0x01, pc := s.team.pc })) ∧
      (n = 14 → Becomes (.wrsr f) s (t.pc + 8) { t with trapcause := v.setWidth 8 }) ∧
      (n = 17 → Becomes (.wrsr f) s (t.pc + 8) { t with traptagA := v.setWidth 24 }) ∧
      (n = 18 → Becomes (.wrsr f) s (t.pc + 8) { t with traptagB := v.setWidth 24 }) ∧
      (n = 19 → Becomes (.wrsr f) s (t.pc + 8) { t with traptagC := v.setWidth 24 }) ∧
      (n = 21 → Becomes (.wrsr f) s (t.pc + 8) { t with skid := v.setWidth 5 }) ∧
      (n = 7 → t.crew < s.crews.length → s.replayable (s.ctxOf t) = false →
        ∃ u, exec (.wrsr f) s = .next u ∧ u.team.pc = t.pc + 8 ∧ (u.crewAt t.crew).tcyc = v ∧ SameRegs t u.team {} ∧ u.mem = s.mem))) ∧
  (∀ (f : IForm) (s : State) (x : Opd), Issues (.lvlWrite f) s →
    (readS s.team f.a.toNat f.ea = .ok x → x.tag ≠ tagPoison →
      ((x.v % 4 = 3 ∨ 24 ≤ x.v / 256 % 32) → exec (.lvlWrite f) s = .next (s.takeTrap s.cur { cause := 0x01, pc := s.team.pc })) ∧
      (x.v % 4 ≠ 3 → x.v / 256 % 32 < 24 → s.team.crew < s.crews.length →
        ∃ t, exec (.lvlWrite f) s = .next t ∧ t.team.pc = s.team.pc + 8 ∧ SameRegs s.team t.team {} ∧ SameMask s t ∧ t.mem = s.mem ∧
          t.team.mode = (if x.v % 4 = 0 then .user else if x.v % 4 = 1 then .super else .firm) ∧
          (t.crewAt s.team.crew).prio = x.v / 256 % 32))) ∧
  (∀ (f : IForm) (s : State) (x : Opd), Issues (.crewstWrite f) s → readS s.team f.a.toNat f.ea = .ok x → x.tag ≠ tagPoison →
    Becomes (.crewstWrite f) s (s.team.pc + 8) { s.team with abandoned := s.team.abandoned && !x.v.testBit 0 }) ∧
  (∀ (f : IForm) (s : State) (x : Opd), Issues (.trappcWrite f) s →
    (readS s.team f.a.toNat f.ea = .ok x → x.tag ≠ tagPoison →
      (x.v % 8 = 0 → Becomes (.trappcWrite f) s (s.team.pc + 8) { s.team with trappc := BitVec.ofNat 57 x.v }) ∧
      (x.v % 8 ≠ 0 → exec (.trappcWrite f) s = .next (s.takeTrap s.cur { cause := 0x01, pc := s.team.pc }))))

/-- `trap` and `bkpt` trap past themselves with their code; `eret` restores what the entry saved, goes to `trappc` and lets the stopped
siblings run, waiting for a fill of what it restores (log 5), or ends a team that has taken CANCELLED as `exit` does; `halt` gives the team to
an attached debugger, else kills it (log 31); `kat` passes, and its core is allowed again, or traps SHADOW_MISMATCH with the units that
failed: which fail is free (log 10); `csave` of a crew that can be saved makes it READY in its area, else begins its save and resumes at BUSY;
`crest` makes RESIDENT in the slot of the header the crew that the area names; an image's name is the model's (log 17); the bytes of an area on a REMOTE page are
its host's (log 6) (14 R309-R312, R316-R320, R323). -/
def Obligations.TrapsAndReturns : Prop :=
  (∀ (f : IForm) (s : State), Issues (.trap f) s →
    exec (.trap f) s = .next (s.takeTrap s.cur { cause := 0x3C, pc := s.team.pc + 8, tagA := BitVec.ofNat 24 (f.imm.toNat % 2 ^ 16) })) ∧
  (∀ (f : IForm) (s : State), Issues (.bkpt f) s →
    exec (.bkpt f) s = .next (s.takeTrap s.cur { cause := 0x39, pc := s.team.pc + 8, tagA := BitVec.ofNat 24 (f.imm.toNat % 2 ^ 16) })) ∧
  (∀ (f : RForm) (s : State), Issues (.eret f) s →
    (s.team.frame = none → exec (.eret f) s = .next (s.takeTrap s.cur { cause := 0x01, pc := s.team.pc })) ∧
    (∀ fr, s.team.frame = some fr →
      let d := (s.drain s.cur).team
      let filled := (∀ k < 8, (d.sreg (56 + k)).full = true) ∧ (d.c.getD 29 {}).busy = false
      let cancelled := s.team.trapcause = 0x48 ∨ s.team.cancelTaken = true
      Shaped s.team →
      ((cancelled ∧ s.team.held (s.exitObs s.team) false = true) ∨ ¬ filled → exec (.eret f) s = .next s.stall) ∧
      (cancelled → s.team.held (s.exitObs s.team) false = false → filled → ∃ t, exec (.eret f) s = .next t ∧ t.team.st = .ended) ∧
      (¬ cancelled → filled → (∀ w, fr.wait = some w → ∃ q n x, w = .push q n x) →
        ∃ t, exec (.eret f) s = .next t ∧ t.team.frame = none ∧ t.team.st = .run ∧ t.team.pc = s.team.trappc ∧ t.team.mode = fr.mode ∧
          t.team.m = fr.m ∧ t.team.stack = fr.stack ∧ t.team.b = fr.b ∧ t.team.c.getD 29 {} = fr.c29 ∧ t.team.c.getD 31 {} = fr.c31 ∧
          (∀ k < 8, t.team.sreg (56 + k) = fr.sHigh.getD k {}) ∧
          t.team.fpctl = (s.team.fpctl &&& ~~~0x1F) ||| fr.fpen.setWidth 64 ∧
          t.team.wait = (if s.team.trappc = fr.pc then fr.wait else none) ∧ t.team.mismatch = (fr.mismatch && decide (s.team.trappc = fr.pc)) ∧
          (s.team.outs = [] → t.team.s.take 56 = s.team.s.take 56 ∧ t.team.v = s.team.v ∧ t.team.p = s.team.p ∧ t.mem = s.mem) ∧
          (∀ j ∈ s.crewTeams s.team.crew, j ≠ s.cur → (s.teamAt j).st = .stopped → (s.teamAt j).wait = none →
            t.teamAt j = { s.teamAt j with st := .run })))) ∧
  (∀ (f : RForm) (s : State), Issues (.halt f) s →
    (s.attached s.team = none → exec (.halt f) s = .next (s.killTeam s.cur 0x39 0 0)) ∧
    (∀ c, s.attached s.team = some c → Becomes (.halt f) s (s.team.pc + 8) { s.team with halted := true, trappc := s.team.pc + 8 })) ∧
  (∀ (f : RForm) (s : State), Issues (.kat f) s → s.team.crew < s.crews.length → (s.crewAt s.team.crew).place < s.cores.length →
    (Config.katFailure s.tick = 0 →
      ∃ t, exec (.kat f) s = .next t ∧ t.team.pc = s.team.pc + 8 ∧ (t.coreAt (s.crewAt s.team.crew).place).out = false ∧
        SameRegs s.team t.team {} ∧ SameMask s t ∧ SameFlags s t ∧ t.mem = s.mem) ∧
    (Config.katFailure s.tick ≠ 0 →
      exec (.kat f) s = .next ({ s with tick := s.tick + 1 }.takeTrap s.cur
        { cause := 0x41, pc := s.team.pc, addr := [(Config.katFailure s.tick).setWidth 64] }))) ∧
  -- q is the state in which what the area holds on REMOTE pages has been asked of its host (09 R237)
  (∀ (f : RForm) (s q : State) (runs all : List (Nat × Nat)) (ci : Nat), Issues (.csave f) s →
    let k := s.team.creg f.a.toNat
    k.busy = false → remoteCause k.tag = none → k.tag ≠ tagPoison → s.saveArea s.team k = .ok runs →
    s.areaReads (s.ctxOf s.team) runs = (q, none) →
    let h := q.areaBytes runs
    let size := q.capHiOf (s.ctxOf s.team) k.bits - q.capLoOf (s.ctxOf s.team) k.bits
    q.crewIn (field h 12 1) (field h 13 1) (field h 14 1) = some ci →
    q.areaRuns s.team k (q.saveSizeOf ci) = .ok all →
    (field h 8 4 = 0 ∨ (field h 8 4 = 2 ∧ (q.crewAt ci).state = .saving ∧ (q.crewAt ci).area = some (q.nameIn all))) →
    q.saveSizeOf ci ≤ field h 0 8 → field h 0 8 ≤ size →
    (q.saveReady ci = true →
      ∃ t name, exec (.csave f) s = .next t ∧ t.team.pc = s.team.pc + 8 ∧ (t.crewAt ci).state = .ready ∧ (t.crewAt ci).area = some name) ∧
    (q.saveReady ci = false →
      ∃ t name, exec (.csave f) s = .next t ∧ t.team.pc = s.team.pc ∧ (t.crewAt ci).state = .saving ∧ (t.crewAt ci).area = some name)) ∧
  (∀ (f : RForm) (s q : State) (runs named all : List (Nat × Nat)) (ci : Nat), Issues (.crest f) s →
    let k := s.team.creg f.a.toNat
    k.busy = false → remoteCause k.tag = none → k.tag ≠ tagPoison → s.saveArea s.team k = .ok runs →
    s.areaReads (s.ctxOf s.team) runs = (q, none) →
    let h := q.areaBytes runs
    let size := q.capHiOf (s.ctxOf s.team) k.bits - q.capLoOf (s.ctxOf s.team) k.bits
    let die := field h 12 1
    let core := field h 13 1
    let slot := field h 14 1
    q.areaRuns s.team k 4104 = .ok named →
    (indices q.crews).find? (fun i => (q.crewAt i).area = some (q.nameIn named) && (q.crewAt i).state = .ready) = some ci →
    q.areaRuns s.team k (q.saveSizeOf ci) = .ok all →
    (q.crewAt ci).started = true → field h 8 4 = 1 → q.saveSizeOf ci ≤ field h 0 8 → field h 0 8 ≤ size → die < 4 → core < 64 → slot < 32 →
    q.crewIn die core slot = none → q.fits (q.crewAt ci).launch (die * 64 + core) none = true → q.tilesFit ci (die * 64 + core) = true →
    ∃ t, exec (.crest f) s = .next t ∧ t.team.pc = s.team.pc + 8 ∧ (t.crewAt ci).state = .resident ∧ (t.crewAt ci).die = die ∧
      (t.crewAt ci).core = core ∧ (t.crewAt ci).slot = slot ∧ (t.crewAt ci).area = none)

/-! Synchronisation and queues. -/

/-- `bar` completes when every team that lives has arrived, `tsync` when every one of its mask has: every waiting team goes on, with 0 in its
b register and ABANDONED set where a team of the crew, of the mask, has been killed (of the mask: R174's pseudocode, log 31); `twait` and `cwait` pass at their numbers; cancels
reach what is open; `exit` ends the team, and the crew with its last; `yield` gives the slot up where a crew of no lower level waits for it
(07 R172-R182, 11 R262). -/
def Obligations.Synchronisation : Prop :=
  (∀ (i : Instr) (f : IForm) (s : State) (m : BitVec 16), Issues i s → s.cur ∈ s.crewTeams s.team.crew → s.team.alive = true →
    s.team.st ≠ .stopped →
    (∀ j ∈ s.crewTeams s.team.crew, j < s.teams.length) →
    let n := f.imm.toNat % 16
    let all := s.crewTeams s.team.crew
    let named (j : Nat) : Prop := j ∈ all ∧ (s.teamAt j).alive = true ∧ (i = .bar f ∨ m.getLsbD (s.teamAt j).num = true)
    let there (j d : Nat) : Prop := (s.teamAt j).wait = some (if i = .bar f then .bar n d else .tsync m d)
    ((i = .bar f ∧ m = 0xFFFF) ∨ (i = .tsync f ∧ m = f.imm.setWidth 16 ∧ m.getLsbD s.team.num = true ∧ m.toNat < 2 ^ all.length ∧
      s.syncConflicts s.cur m = [])) →
    ((∀ j, named j → j ≠ s.cur → (∃ d, there j d) ∧ (s.teamAt j).st ≠ .stopped) →
      ∃ t, exec i s = .next t ∧ ∀ j d, named j → ((j = s.cur ∧ d = f.d.toNat) ∨ (j ≠ s.cur ∧ there j d)) →
        (t.teamAt j).pc = (s.teamAt j).pc + 8 ∧ (t.teamAt j).wait = none ∧
        (t.teamAt j).b = (s.teamAt j).b.set d (decide ((s.crewAt s.team.crew).killed &&& m = 0)) ∧
        (t.teamAt j).abandoned = ((s.teamAt j).abandoned || decide ((s.crewAt s.team.crew).killed &&& m ≠ 0))) ∧
    ((∃ j, named j ∧ j ≠ s.cur ∧ ¬ ∃ d, there j d) →
      ∃ t, exec i s = .next t ∧ t.team.pc = s.team.pc ∧ t.team.wait = some (if i = .bar f then .bar n f.d.toNat else .tsync m f.d.toNat))) ∧
  (∀ (f : IForm) (s : State), Issues (.tsync f) s →
    (f.imm.getLsbD s.team.num = false ∨ 2 ^ (s.crewTeams s.team.crew).length ≤ f.imm.toNat % 2 ^ 16) → s.team.num < 16 →
    exec (.tsync f) s = .next (s.takeTrap s.cur { cause := 0x01, pc := s.team.pc })) ∧
  (∀ (f : IForm) (s : State) (x : Opd), Issues (.twait f) s →
    let q := f.imm.toNat % 32
    let tl := s.timeline s.team.crew q
    q < 9 → readS s.team f.a.toNat f.ea = .ok x → x.tag ≠ tagPoison → x.v ≤ tl.issued →
    (tl.value < x.v → ∃ t, exec (.twait f) s = .next t ∧ t.team = { s.team with wait := some .twait } ∧ t.mem = s.mem) ∧
    (x.v ≤ tl.value → (∀ e ∈ tl.faults, x.v < e.n) →
      ∃ t, exec (.twait f) s = .next t ∧ t.team.pc = s.team.pc + 8 ∧ t.team.wait = none ∧ SameRegs s.team t.team {} ∧ SameMask s t ∧
        SameFlags s t ∧ t.mem = s.mem) ∧
    (∀ e ∈ tl.faults, x.v ≤ tl.value → e.n ≤ x.v → (∀ g ∈ tl.faults, g ≠ e → e.n < g.n) →
      exec (.twait f) s = .next ((s.acquireL1 (s.crewAt s.team.crew).place (queueObs q)).takeTrap s.cur
        { cause := 0x50, pc := s.team.pc, addr := List.replicate s.team.nlanes e.addr, tagA := BitVec.ofNat 24 (q * 256 + e.cause.toNat)
          tagB := BitVec.ofNat 24 e.n, fault := some (q, e.n) }))) ∧
  (∀ (f : RForm) (s : State) (h n : Opd) (level slot c : Nat), Issues (.cwait f) s → readS s.team f.a.toNat f.ea = .ok h →
    readS s.team f.b.toNat f.eb = .ok n → h.tag ≠ tagPoison → n.tag ≠ tagPoison → s.ctxOf s.team = some c →
    h.v = level * 2 ^ 16 + slot → level < 4 → slot < 2 ^ 16 → (level = 3 ↔ slot = 0) →
    let count := leNat (s.mem.bytes ((s.ctxAt c).levelTable + (level * 2 ^ 16 + slot) * 32) 8)
    (count < n.v → ∃ t, exec (.cwait f) s = .next t ∧ t.team = { s.team with wait := some .cwait } ∧ t.mem = s.mem) ∧
    (n.v ≤ count → ∃ t, exec (.cwait f) s = .next t ∧ t.team.pc = s.team.pc + 8 ∧ t.team.wait = none ∧ SameRegs s.team t.team {} ∧
      SameMask s t ∧ SameFlags s t ∧ t.mem = s.mem)) ∧
  (∀ (i : Instr) (f : RForm) (s : State) (h : Opd) (level slot c : Nat),
    ((i = .cancelLaunch f ∧ level = 0) ∨ (i = .cancelGraph f ∧ level = 1) ∨ (i = .cancelPhase f ∧ level = 2) ∨ (i = .cancelJob f ∧ level = 3)) →
    Issues i s → readS s.team f.a.toNat f.ea = .ok h → h.tag ≠ tagPoison → s.ctxOf s.team = some c → h.v = level * 2 ^ 16 + slot →
    slot < 2 ^ 16 → (level = 3 ↔ slot = 0) → c < s.contexts.length →
    ∃ t, exec i s = .next t ∧ t.team.pc = s.team.pc + 8 ∧
      (level = 0 → ∀ li, (indices s.launches).filter (fun j => (s.launchAt j).ctx = some c && (s.launchAt j).lslot = slot) = [li] →
        s.launchOver li = false → (t.launchAt li).cancelled = true ∧
        ∀ ci ∈ (s.launchAt li).crews, (s.crewAt ci).started = true → (s.crewAt ci).state ≠ .ended → ∀ j ∈ (s.crewAt ci).teams,
          j < s.teams.length → (s.teamAt j).alive = true → (s.teamAt j).cancelTaken = false → (t.teamAt j).cancelPending = true) ∧
      ((level = 1 ∨ level = 2) → ∀ g,
        (indices s.levelRuns).filter (fun j => (s.runAt j).ctx = c && (s.runAt j).level = level && (s.runAt j).slot = slot) = [g] →
        s.runOver g = false → (s.runAt g).done = false → (t.runAt g).cancelled = true) ∧
      (level = 3 → (s.ctxAt c).hasJob = true →
        (∃ li < s.launches.length, (s.launchAt li).ctx = some c ∧ (s.ctxAt c).firstLaunch ≤ li ∧ s.launchOver li = false) →
        (t.ctxAt c).jobCancelled = true)) ∧
  (∀ (f : RForm) (s : State), Issues (.exit f) s → s.team.alive = true →
    let o := (s.launchAt (s.crewAt s.team.crew).launch).obs
    s.team.held (if o = 0 then 0x03 else o) false = false →
    ∃ t, exec (.exit f) s = .next t ∧ t.team.st = .ended ∧ t.team.wait = none ∧ (∀ a ∈ t.team.outs, a.isWindow = true) ∧
      ((∀ j ∈ (s.crewAt s.team.crew).teams, j ≠ s.cur → (s.teamAt j).st = .ended) → s.team.crew < s.crews.length →
        (t.crewAt s.team.crew).state = .ended)) ∧
  (∀ (f : RForm) (s : State), Issues (.yield f) s →
    ∃ t, exec (.yield f) s = .next t ∧ t.team.pc = s.team.pc + 8 ∧ SameRegs s.team t.team {} ∧ SameMask s t ∧ SameFlags s t ∧ t.mem = s.mem ∧
      (let ci := s.team.crew
       let c := s.crewAt ci
       s.replayable c.ctx = false → ci < s.crews.length → c.state = .resident →
        ((t.crewAt ci).state = .saving ↔ ∃ x < s.crews.length, s.eligible c.place (some ci) x = true ∧ (s.coreAt c.place).next.contains x = false ∧
          c.eff ≤ (s.crewAt x).eff ∧ (s.crewAt x).joined < c.quantumAt)))

/-- A `push` whose eight registers are readable: a full queue gives 0 in its b register; an accepted command gives 1, its number in the
last register with the instruction's own tag, and goes on, or, yielding, waits for the number before it goes to its continuation. The
command, or launch, stands under the next number of its timeline; a malformed one completes at once with ILLEGAL, a malformed launch on
the slots that its words name (log 16)
(11 R257-R261, R266, 07 R184, R185, 18 R364). -/
def Obligations.Pushes : Prop :=
  (∀ (i : Instr) (f : EForm) (go : State → Team → List Word → Except Stop PushRes) (s : State),
    ((i = .push f ∧ go = pushEngine f.q.toNat) ∨ (i = .launchRecord f ∧ go = pushLaunch) ∨ (i = .start f ∧ go = pushStart)) → Issues i s →
    Shaped s.team →
    (∀ k < 8, (s.team.sreg (f.sf.toNat + k)).full = true ∧ remoteCause (s.team.sreg (f.sf.toNat + k)).tag = none ∧
      (s.team.sreg (f.sf.toNat + k)).tag ≠ tagPoison) →
    let w := (List.range 8).map fun k => (s.team.sreg (f.sf.toNat + k)).v
    let q := f.q.toNat
    let next := (s.timeline s.team.crew q).issued + 1
    let s0 := s.release s.cur (queueObs q)
    (go s0 s.team w = .ok .full →
      ∃ t, exec i s = .next t ∧ t.team.pc = s.team.pc + 8 ∧ t.team.breg f.bq.toNat = false ∧ t.cmds = s.cmds ∧ t.launches = s.launches) ∧
    (∀ s' n, go s0 s.team w = .ok (.accepted s' n) →
      ∃ t, exec i s = .next t ∧ n = next ∧ t.team.breg f.bq.toNat = true ∧
        t.team.sreg (f.sf.toNat + 7) = { v := BitVec.ofNat 64 n, tag := s.ownTag s.team, full := true } ∧
        (f.y = false → t.team.pc = s.team.pc + 8) ∧
        (f.y = true → t.team.pc = s.team.pc ∧ t.team.wait = some (.push q n (s.team.pc + (f.cont.signExtend 57 <<< 3)))) ∧
        (q ≠ 6 → ∃ c : Cmd, t.cmds = s.cmds ++ [c] ∧ c.q = q ∧ c.n = n ∧ c.w = w ∧ c.crew = s.team.crew ∧
          ((c.state = .queued ∧ c.cause = 0) ∨ (c.state = .done ∧ c.cause = 0x01))))) ∧
  (∀ (f : EForm) (s : State), Issues (.start f) s →
    let w := (List.range 8).map fun k => (s.team.sreg (f.sf.toNat + k)).v
    let crew := s.crewAt s.team.crew
    (16 ≤ s.queueLen 7 crew.die none → pushStart s s.team w = .ok .full) ∧
    (s.queueLen 7 crew.die none < 16 → (bitsAt (wordAt w 0) 56 8 ≠ 0x51 ∨ startOk w crew.scrk = false) →
      ∃ s' n, pushStart s s.team w = .ok (.accepted s' n) ∧ (s'.cmdAt s.cmds.length).state = .done ∧ (s'.cmdAt s.cmds.length).cause = 0x01)) ∧
  (∀ (s : State) (t : Team) (w : List Word) (k : Kernel), s.kernelOf (s.ctxOf t) (bitsAt (wordAt w 0) 0 32) = some k →
    (s.launches.filter fun x => !x.root && x.die = (s.crewAt t.crew).die && x.state ≠ .done).length < 256 → bitsAt (wordAt w 0) 56 8 = 0x4C →
    launchOk s t w (launchOf s t w) = true → s.ctxOf t ≠ none → ∀ s' n, pushLaunch s t w = .ok (.accepted s' n) →
    let l := s'.launchAt s.launches.length
    s'.launches.length = s.launches.length + 1 ∧ l.state = .queued ∧ l.number = n ∧ l.pusher = t.crew ∧ l.malformed = false ∧
      (l.lanes, l.regs, l.teamsPer, l.g, l.h, l.k) = (k.lanes, k.regs, k.teams, k.g, k.h, k.k) ∧ l.dep0 = wordAt w 6 ∧ l.dep1 = wordAt w 7 ∧
      l.gx = bitsAt (wordAt w 1) 0 32 ∧ l.gy = bitsAt (wordAt w 1) 32 16 ∧ l.gz = bitsAt (wordAt w 1) 48 16 ∧ l.code.valid = true) ∧
  (∀ (s : State) (t : Team) (w : List Word),
    (s.launches.filter fun x => !x.root && x.die = (s.crewAt t.crew).die && x.state ≠ .done).length < 256 →
    (bitsAt (wordAt w 0) 56 8 ≠ 0x4C ∨ launchOk s t w (launchOf s t w) = false) →
    ∃ s' n, pushLaunch s t w = .ok (.accepted s' n) ∧ s'.launches.length = s.launches.length + 1 ∧
      let l := s'.launchAt s.launches.length
      l.state = .done ∧ l.malformed = true ∧ l.status = 2 ∧ l.lslot = bitsAt (wordAt w 4) 0 16 ∧ l.gslot = bitsAt (wordAt w 4) 16 16 ∧
      l.pslot = bitsAt (wordAt w 4) 32 16)

/-! Events of teams, crews and launches. -/

/-- TIMER clears `ttimer` and traps; SIBLING_STOP stops a team at its boundary with its accesses performed; CANCELLED enters the handler, or
ends a team that is in it or has none (02 R46, 14 R302, R307, R308). LAUNCH_TAKE makes the crews of the record in order; CREW_SWITCH_IN
places the FIFO head and starts its teams as Tables 2-1, 2-3 and 6-1 say; the ends of quanta, waiting crews, ageing, VACATE, SAVE_COMPLETE
and LAUNCH_COMPLETE (07 R180, R186-R197; which level a core has, of crews of several levels, and which the unplaced crews: log 38). -/
def Obligations.CrewEvents : Prop :=
  (∀ s : State, s.canMove s.cur = true → s.timerDue s.team = true → s.team.frame = none → (∀ n, s.team.st ≠ .skid n) →
    exec .timer s = .next ((s.setTeam { s.team with ttimer := 0 }).takeTrap s.cur { cause := 0x38, pc := s.team.pc })) ∧
  (∀ (j n : Nat) (s : State), (s.teamAt j).st = .skid n → (s.teamAt j).acquiring = false →
    ∃ t, exec (.siblingStop j) s = .next t ∧ (t.teamAt j).st = .stopped ∧ (t.teamAt j).pc = (s.teamAt j).pc ∧
      (t.teamAt j).trappc = (if (s.teamAt j).halted && (s.teamAt j).byEvent then (s.teamAt j).trappc else (s.teamAt j).pc) ∧ (t.teamAt j).skid = BitVec.ofNat 5 n ∧ (t.teamAt j).trapcause = 0 ∧
      (∀ a ∈ (t.teamAt j).outs, a.isWindow = true) ∧ ∀ k, k ≠ j → t.teamAt k = s.teamAt k) ∧
  (∀ s : State, s.cur < s.teams.length → s.team.alive = true → s.team.cancelPending = true → (s.crewAt s.team.crew).state = .resident →
    s.team.acquiring = false →
    (s.team.frame = none → s.team.st ≠ .handler → s.comptOf s.team = 0 → (s.handlerOf s.team).1.valid = true → s.team.filling = false →
      ∃ t, exec .cancelled s = .next t ∧ t.team.st = .handler ∧ t.team.trapcause = 0x48 ∧
        t.team.trappc = (if s.team.halted && s.team.byEvent then s.team.trappc else s.team.pc) ∧
        t.team.cancelPending = false ∧ t.team.cancelTaken = true ∧ (∀ k, k ≠ s.cur → t.teamAt k = s.teamAt k)) ∧
    ((s.team.frame ≠ none ∨ s.team.st = .handler ∨ (s.comptOf s.team = 0 ∧ (s.handlerOf s.team).1.valid = false)) →
      s.team.held (s.exitObs s.team) false = false →
      ∃ t, exec .cancelled s = .next t ∧ t.team.st = .ended ∧ (t.crewAt s.team.crew).killed = (s.crewAt s.team.crew).killed)) ∧
  (∀ (l : Nat) (s : State), let r := s.launchAt l
    l < s.launches.length → r.state = .queued → s.depOk l r.dep0 = true → s.depOk l r.dep1 = true → s.earlierQueued l = false →
    (∀ c, r.ctx = some c → (s.ctxAt c).holdJob = false) → s.epochStart r.ctx = true →
    ∃ t, exec (.launchTake l) s = .next t ∧ (t.launchAt l).state = .taken ∧
      (t.launchAt l).crews = (List.range (r.gx * r.gy * r.gz)).map (s.crews.length + ·) ∧
      t.crews.length = s.crews.length + r.gx * r.gy * r.gz ∧ (∀ j < s.crews.length, { t.crewAt j with scratch := {} } = { s.crewAt j with scratch := {} }) ∧
      ∀ i < r.gx * r.gy * r.gz, let c := t.crewAt (s.crews.length + i)
        c.launch = l ∧ c.ctx = r.ctx ∧ c.crewid = BitVec.ofNat 32 i ∧ c.x = BitVec.ofNat 32 (i % r.gx) ∧
        c.y = BitVec.ofNat 32 (i / r.gx % r.gy) ∧ c.z = BitVec.ofNat 32 (i / (r.gx * r.gy)) ∧ c.prio = r.prio ∧ c.scrk = r.scrk ∧
        (c.state = .ready ∨ c.state = .resident)) ∧
  (∀ (ci die core : Nat) (s : State), let p := die * 64 + core; let c := s.crewAt ci; let l := s.launchAt c.launch
    die < 4 → core < 64 → s.epochStart c.ctx = true → s.readyHead (fun x => s.eligible p none x && s.tilesFit x p && s.maySlot p x) = some ci →
    (c.started = true ∨ (s.claimRoot c.ctx {}).isSome) →
    ∃ t, exec (.crewSwitchIn ci die core) s = .next t ∧ (t.crewAt ci).state = .resident ∧ (t.crewAt ci).die = die ∧
      (t.crewAt ci).core = core ∧ (t.crewAt ci).used = 0 ∧ (t.crewAt ci).level = c.prio ∧ t.mem = s.mem ∧
      (∀ j < s.crews.length, (s.crewAt j).state = .ended → (s.crewAt j).root = 0 → (s.crewAt j).place = p → (t.crewAt j).scratch = {}) ∧
      (∀ i < s.cmds.length, (s.cmdAt i).crew = ci → ((s.cmdAt i).state = .away ∨ (s.cmdAt i).state = .paused) →
        t.cmdAt i = { s.cmdAt i with die := die, core := core, state := .queued }) ∧
      (c.started = true → t.teams = s.teams) ∧
      (c.started = false → t.teams.length = s.teams.length + l.teamsPer ∧
        (t.crewAt ci).teams = (List.range l.teamsPer).map (s.teams.length + ·) ∧ (∀ j < s.teams.length, t.teamAt j = s.teamAt j) ∧
        ∀ k < l.teamsPer, let u := t.teamAt (s.teams.length + k)
          u.crew = ci ∧ u.num = k ∧ u.teamid = BitVec.ofNat 64 (c.crewid.toNat * l.teamsPer + k) ∧
          u.mode = (if l.firm then .firm else .user) ∧ u.nlanes = l.lanes ∧ u.vregs = l.regs ∧ u.stack = [] ∧
          u.sreg 0 = { v := BitVec.ofNat 64 k, tag := 0, full := true } ∧ u.sreg 1 = { v := c.crewid.setWidth 64, tag := 0, full := true } ∧
          u.c.getD 31 {} = { l.code with tag := 0 } ∧ (l.arg.valid = true → u.c.getD 2 {} = { l.arg with tag := 0 }) ∧
          (l.lanes ≤ 1024 → ∀ x, u.m.getLsbD x = decide (x < l.lanes)) ∧
          (awf ({} : Root) (s.roots c.ctx) = true → (rootOf (s.roots c.ctx) l.code.bits).state = .live →
            u.pc = BitVec.ofNat 57 ((s.capLoOf c.ctx l.code.bits + l.entry) / 8 * 8)))) ∧
  (∀ (ci x : Nat) (s : State), let c := s.crewAt ci
    c.ctx = some x → c.state = .resident → (s.ctxAt x).quantum ≤ c.used → s.epochStart c.ctx = true →
    ∃ t, exec (.quantumEnd ci) s = .next t ∧ t.teams = s.teams ∧ t.mem = s.mem ∧ (t.crewAt ci).raised = 0 ∧
      ((∃ y < s.crews.length, s.eligible c.place (some ci) y = true ∧ (s.coreAt c.place).next.contains y = false ∧ c.eff ≤ (s.crewAt y).eff ∧
          (s.crewAt y).joined < c.quantumAt) → (t.crewAt ci).state = .saving) ∧
      ((∀ y < s.crews.length, s.eligible c.place (some ci) y = true → (s.coreAt c.place).next.contains y = false → c.eff ≤ (s.crewAt y).eff →
          c.quantumAt ≤ (s.crewAt y).joined) →
        (t.crewAt ci).state = .resident ∧ (t.crewAt ci).used = 0 ∧ (t.crewAt ci).quantumAt = s.now ∧ (t.crewAt ci).level = c.prio)) ∧
  (∀ (ci : Nat) (s : State), let c := s.crewAt ci
    c.state = .resident → (∀ i ∈ c.teams, (s.teamAt i).alive = false ∨ (s.teamAt i).wait ≠ none ∨ (s.teamAt i).halted = true) →
    s.epochStart c.ctx = true → c.place < s.cores.length →
    let may (y : Nat) : Prop := y < s.crews.length ∧ s.eligible c.place (some ci) y = true ∧ (s.coreAt c.place).next.contains y = false
    (∃ y, may y) →
    ∃ t x, exec (.allTeamsWait ci) s = .next t ∧ t.crewAt ci = { c with state := .saving, raised := 0 } ∧ t.teams = s.teams ∧ t.mem = s.mem ∧
      may x ∧ (∀ y, may y → (s.crewAt y).eff < (s.crewAt x).eff ∨
        ((s.crewAt y).eff = (s.crewAt x).eff ∧ (s.crewAt x).joined ≤ (s.crewAt y).joined)) ∧
      (t.coreAt c.place).next = (s.coreAt c.place).next ++ [x]) ∧
  (∀ (ci core : Nat) (s : State), let c := s.crewAt ci
    s.isReady ci = true → 8 ≤ aget 0 c.ended8 core → c.eff < 21 →
    ∃ t, exec (.ageingRise ci core) s = .next t ∧ t = s.setCrewAt ci { c with raised := c.raised + 1, ended8 := [] } ∧
      (t.crewAt ci).eff = c.eff + 1) ∧
  (∀ (l p : Nat) (s : State), let r := s.launchAt l
    let top (q : Nat) : Nat := (s.crewsOn q).foldl (fun n x => max n (s.crewAt x).eff) 0
    let key (q : Nat) : Nat := (top q * 1024 + s.teamsOn q) * 256 + q
    let waits (i : Nat) : Prop := i < s.crews.length ∧ (s.crewAt i).launch = l ∧ s.isReady i = true
    l < s.launches.length → r.state = .taken → ∀ w, waits w → (∀ i, waits i → (s.crewAt i).level ≤ (s.crewAt w).level) →
    let can (q : Nat) : Prop := q ∈ s.allowed l ∧ s.crewsOn q ≠ [] ∧ (s.coreAt q).reservedTo = none ∧ top q < (s.crewAt w).level
    (∀ q < 256, (s.coreAt q).reservedTo = some l → ∀ x ∈ s.crewsOn q, (s.crewAt x).launch = l) →
    (∀ q ∈ s.allowed l, s.fits l q none = false) → 1 ≤ r.slots → can p → (∀ q, can q → q ≠ p → key p < key q) → p < s.cores.length →
    ∃ t, exec (.vacate l) s = .next t ∧ t.teams = s.teams ∧ t.mem = s.mem ∧ (t.coreAt p).reservedTo = some l ∧
      ∀ x ∈ s.crewsOn p, (s.crewAt x).state = .resident → s.epochStart (s.crewAt x).ctx = true → (t.crewAt x).state = .saving) ∧
  (∀ (ci : Nat) (s : State), (s.crewAt ci).state = .saving → (s.crewAt ci).area = none → s.saveReady ci = true →
    ∃ t, exec (.saveComplete ci) s = .next t ∧ (t.crewAt ci).state = .ready ∧ (t.crewAt ci).joined = s.now ∧
      (∀ i ∈ (s.crewAt ci).teams, (t.teamAt i).outs = []) ∧ (t.coreAt (s.crewAt ci).place).l1 = [] ∧
      ∀ i < s.cmds.length, t.cmdAt i =
        { s.cmdAt i with state :=
            if (s.cmdAt i).crew = ci ∧ ((s.cmdAt i).entry = true ∨ (s.cmdAt i).q = 4 ∨ (s.cmdAt i).q = 5) then
              (match (s.cmdAt i).state with | .queued => .away | .running => .paused | x => x)
            else (s.cmdAt i).state }) ∧
  (∀ (l : Nat) (s : State), let r := s.launchAt l
    l < s.launches.length → r.state = .taken → s.launchOver l = true →
    ∃ t, exec (.launchComplete l) s = .next t ∧ (t.launchAt l).state = .done ∧
      (t.launchAt l).status = (if r.malformed then 2 else if r.cancelled then 1 else if r.kills ≠ 0 then 2 else 0) ∧
      ∀ c, r.ctx = some c → r.lslot ≠ 0 → r.graph = none → r.phase = none → (s.ctxAt c).hasJob = false → (s.ctxAt c).destroying = none →
        s.mem.wf = true → let a := (s.ctxAt c).levelTable + r.lslot * 32
        leNat (t.mem.bytes a 8) = (leNat (s.mem.bytes a 8) + 1) % 2 ^ 64 ∧ leNat (t.mem.bytes (a + 8) 4) = (t.launchAt l).status)

/-! Engines. -/

/-- A unit of `copy`, `fill`, `gather`, `zero`, `unpackKy4` or `packKy4` reads the rest of a line of its source row, or writes the rest of
a line of its destination row, in the scratchpad of a chunk of 16 bytes of it, and nothing else: a line that it fills whole with its
sideband, a partial one PLAIN; an access through a window is a request whose answer it takes; what fails stops it with cause and address,
a refused window line with REMOTE_FAULT. COMMAND_START, COMMAND_COMPLETE and SWEEPWAIT (11 R261, R264-R266, R268, R271-R277). -/
def Obligations.EngineCommands : Prop :=
  (∀ (cmd : Nat) (ki : Nat × Instr) (s : State) (k : CReg) (base len : Nat), ki ∈ copyEvents cmd 1 → Moving s cmd →
    let c := s.cmdAt cmd
    let a := base + c.rd
    let n := min (len - c.rd) (64 - a % 64)
    c.kind = ki.1 → rowRead c = some (k, base, len) → c.rd < len →
    (∀ sp x, c.req = none → s.way c k a n pLD false = .ok (.mem sp x) →
      ∃ t, exec ki.2 s = .next t ∧ t.teams = s.teams ∧ t.crews = s.crews ∧ t.mem = s.mem ∧ (∀ j, j ≠ cmd → t.cmdAt j = s.cmdAt j) ∧
        t.cmdAt cmd = { c with
          buf := c.buf ++ [{ off := c.rd, bytes := (s.spaceMem c.crew sp).bytes x n
                             side := { (s.spaceMem c.crew sp).line (x / 64) with otag := (s.spaceMem c.crew sp).lineTag (x / 64), err := false } }]
          rd := c.rd + n }) ∧
    (∀ dst exp x host, c.req = none → s.way c k a n pLD false = .ok (.far dst exp x host) →
      ∃ t r, exec ki.2 s = .next t ∧ (t.cmdAt cmd).req = some s.reqs.length ∧ (t.cmdAt cmd).rd = c.rd ∧ t.reqs[s.reqs.length]? = some r ∧
        r.owner = .command cmd ∧ (r.dst, r.exp, r.addr, r.len) = (dst, exp, x, min n (64 - x % 64))) ∧
    (∀ q r, c.req = some q → s.reqAt q = some r →
      (r.st = .out → exec ki.2 s = .next s) ∧
      (∀ line tag kind scales, r.st = .data line tag kind scales → line.length = 64 → r.addr % 64 + r.len ≤ 64 →
        exec ki.2 s = .next (s.modCmd cmd fun c => { c with
          buf := c.buf ++ [{ off := c.rd, bytes := (line.drop (r.addr % 64)).take r.len
                             side := { otag := tag, kind := kind.setWidth 4, scales := scales } }]
          rd := c.rd + r.len, req := none })) ∧
      (∀ cause, r.st = .refused cause →
        ∃ t, exec ki.2 s = .next t ∧ (t.cmdAt cmd).state = .done ∧
          (t.cmdAt cmd).cause = (if cause = 0x31 then 0x31 else 0x30) ∧ (t.cmdAt cmd).addr = BitVec.ofNat 64 a)) ∧
    (∀ cause, c.req = none → s.way c k a n pLD false = .error cause →
      ∃ t, exec ki.2 s = .next t ∧ (t.cmdAt cmd).state = .done ∧ (t.cmdAt cmd).cause = cause ∧ (t.cmdAt cmd).addr = BitVec.ofNat 64 a)) ∧
  (∀ (cmd : Nat) (s : State), Moving s cmd → let c := s.cmdAt cmd
    let m := copyW c.w
    let a : Int := capCursor c.srcC.bits + m.soff + leNat (c.buf.flatMap (·.bytes)) * m.ss1
    c.kind = 0x47 → c.row = none → 4 ≤ c.rd → (∀ p ∈ c.buf, p.side.otag ≠ tagPoison) → 0 ≤ a → a ≤ 2 ^ 57 →
    capCheck (s.roots (s.crewAt c.crew).ctx) { crew := c.crew, compt := c.compt } c.srcC a.toNat m.n0 (pLD ||| pENG) = none →
    exec (.gather cmd 1) s = .next (s.modCmd cmd fun c => { c with row := some a.toNat, rd := 0, buf := [] })) ∧
  (∀ (cmd : Nat) (ki : Nat × Instr) (s : State), ki ∈ copyEvents cmd 1 → Moving s cmd →
    let c := s.cmdAt cmd
    let w := rowWritten c
    let a := w.2.1 + c.wr
    let rest := min (w.2.2 - c.wr) (64 - a % 64)
    let lo := a / 64 * 64
    let inRow : Prop := w.2.1 ≤ lo ∧ lo + 64 ≤ w.2.1 + w.2.2
    c.kind = ki.1 → RowReady c → c.req = none → c.wr < w.2.2 →
    (∀ sp x, let n := if sp = .scratch then min rest (16 - a % 16) else rest
      s.way c w.1 a rest pST true = .ok (.mem sp x) → (s.spaceMem c.crew sp).wf = true → (sp = .scratch → c.crew < s.crews.length) →
      ∃ t, exec ki.2 s = .next t ∧ t.teams = s.teams ∧
        (∀ j < n, (t.spaceMem c.crew sp).byte (x + j) = (rowOut c).getD (c.wr + j) 0) ∧
        (∀ y, (y < x ∨ x + n ≤ y) → (t.spaceMem c.crew sp).byte y = (s.spaceMem c.crew sp).byte y) ∧
        (sp = .scratch → t.mem = s.mem) ∧ (sp = .dev → t.crews = s.crews) ∧
        (c.wr + n < w.2.2 → (t.cmdAt cmd).wr = c.wr + n ∧ (t.cmdAt cmd).idx = c.idx) ∧
        (w.2.2 ≤ c.wr + n → (t.cmdAt cmd).idx = c.idx + 1 ∧ (t.cmdAt cmd).rd = 0 ∧ (t.cmdAt cmd).wr = 0 ∧ (t.cmdAt cmd).buf = [] ∧
          (t.cmdAt cmd).row = none) ∧
        let side := (t.spaceMem c.crew sp).line (x / 64)
        let granules (ct : BitVec 4) : Prop := (sp = .scratch ∨ n = 64) → ∀ g, a % 64 / 16 ≤ g → 16 * g < a % 64 + n →
          side.ctag.getLsbD g = ct.getLsbD g
        ((¬ inRow ∨ a % 64 + n < 64) → side.kind = 0 ∧ side.scales = 0) ∧
        (inRow → a % 64 + n = 64 → c.kind = 0x46 ∨ c.kind = 0x5A →
          (side.kind, side.scales, side.otag) = (0, 0, if c.rule = 2 then 0x000001 else c.own) ∧ granules 0) ∧
        (inRow → a % 64 + n = 64 → c.kind = 0x50 →
          side.kind = 1 ∧ side.scales = BitVec.ofNat 32 (packLine (c.packRm (copyW c.w).mode) (c.buf.flatMap (·.bytes))).2.1 ∧ granules 0) ∧
        (inRow → c.kind = 0x43 ∨ c.kind = 0x47 → ∀ p, c.buf.find? (fun p => p.off = lo - w.2.1 && p.bytes.length = 64) = some p →
          (a % 64 + n = 64 → (side.kind, side.scales, side.otag) = (p.side.kind, p.side.scales, p.side.otag)) ∧
          granules (if s.capsPass c c.srcC c.dstC p then p.side.ctag else 0))) ∧
    (∀ cause, s.way c w.1 a rest pST true = .error cause →
      ∃ t, exec ki.2 s = .next t ∧ (t.cmdAt cmd).state = .done ∧ (t.cmdAt cmd).cause = cause ∧ (t.cmdAt cmd).addr = BitVec.ofNat 64 a ∧
        t.mem = s.mem)) ∧
  (∀ (cmd n j : Nat) (s t : State) (one more rest : Nat × Instr), (copyEvents cmd 1)[j]? = some one → (copyEvents cmd (n + 1))[j]? = some more →
    (copyEvents cmd n)[j]? = some rest → exec one.2 s = .next t → exec more.2 s = exec rest.2 t) ∧
  (∀ (cmd : Nat) (s : State), let c := s.cmdAt cmd
    cmd < s.cmds.length →
    (c.q ≤ 5 → c.state = .queued → s.queueHead cmd = true → (∀ j ∈ c.behind, (s.cmdAt j).state = .done) →
      (∃ j ∈ c.behind, (s.cmdAt j).cause ≠ 0) →
      ∃ t, exec (.commandStart cmd) s = .next t ∧ (t.cmdAt cmd).state = .done ∧ (t.cmdAt cmd).cause = 0x50 ∧ t.mem = s.mem) ∧
    (s.canStart cmd = true → (∀ j < cmd, sameUnit (s.cmdAt j) c = true → s.canStart j = false) →
      ∃ t, exec (.commandStart cmd) s = .next t ∧ (t.cmdAt cmd).state = .running ∧ (∀ j, j ≠ cmd → t.cmdAt j = s.cmdAt j) ∧
        t.teams = s.teams ∧ t.crews = s.crews ∧ t.mem = s.mem)) ∧
  (∀ (cmd : Nat) (s : State), let c := s.cmdAt cmd
    cmd < s.cmds.length → (c.q ≤ 5 ∨ c.q = 8) → c.state = .running → c.req = none → (c.over = true ∨ (c.cancelled = true ∧ c.mid = false)) →
    ∃ t, exec (.commandComplete cmd) s = .next t ∧ (t.cmdAt cmd).state = .done ∧
      (t.cmdAt cmd).cause = (if c.over then c.cause else 0x48) ∧ t.teams = s.teams ∧ t.mem = s.mem ∧
      (c.crew < s.crews.length → (s.crewAt c.crew).state ≠ .ended → (s.crewAt c.crew).timelines.length = 9 →
        let tl := t.timeline c.crew c.q
        (s.timeline c.crew c.q).value ≤ tl.value ∧ (c.n ≤ tl.value ∨ c.n ∈ tl.done) ∧ tl.issued = (s.timeline c.crew c.q).issued ∧
        tl.faults = (s.timeline c.crew c.q).faults ++
          (if (t.cmdAt cmd).cause = 0 then [] else [{ n := c.n, cause := (t.cmdAt cmd).cause, addr := (t.cmdAt cmd).addr }]) ∧
        (c.record = true → (s.crewAt c.crew).scratch.wf = true →
          leNat ((t.crewAt c.crew).scratch.bytes c.statusOff 8) = c.n % 2 ^ 64 ∧
          (t.crewAt c.crew).scratch.byte (c.statusOff + 8) = (t.cmdAt cmd).cause ∧
          (t.crewAt c.crew).scratch.byte (c.statusOff + 9) = c.exc.setWidth 8))) ∧
  (∀ (cmd : Nat) (s : State), let c := s.cmdAt cmd
    let r := (wordAt c.w 1).toNat
    let root := s.rootAt (s.crewAt c.crew).ctx r
    cmd < s.cmds.length → c.q = 8 → c.state = .queued → s.queueHead cmd = true →
    (root.state = .live ∨ r = 0 →
      ∃ t, exec (.sweepwait cmd) s = .next t ∧ (t.cmdAt cmd).state = .done ∧ (t.cmdAt cmd).cause = 0x01) ∧
    (root.state = .free → r ≠ 0 → ∃ t, exec (.sweepwait cmd) s = .next t ∧ (t.cmdAt cmd).state = .done ∧ (t.cmdAt cmd).cause = c.cause) ∧
    (root.state = .revoked →
      ∃ t, exec (.sweepwait cmd) s = .next t ∧ (t.cmdAt cmd).state = .running ∧ t.teams = s.teams ∧ t.crews = s.crews ∧ t.mem = s.mem))

/-- `mloop` and `mgen` first test the mode and the K count of their tile, then add one step: the exact sum clamped to 32 bits, or C and all
products rounded once; `mslice` splits its rows and adds one pair at a time (digits of a row with an element that is not finite: log 34);
`mdrain` writes its tile converted, a chunk at a time, `mloadc` fills a tile, `mzero` zeroes the tiles that it names: how they are cut into
events is log 28. None touches device memory or a team (12 R284-R292, 03 R82-R88, R91). -/
def Obligations.MatrixCommands : Prop :=
  (∀ (cmd : Nat) (i : Instr) (kind : Nat) (s : State) (ts : List Tile), ((i = .mloop cmd 1 ∧ kind = 0x4D) ∨ (i = .mgen cmd 1 ∧ kind = 0x4E)) →
    Working s cmd kind ts → let c := s.cmdAt cmd
    let m := matW c.w
    m.kind = kind →
    (c.begun = false →
      let t0 : Tile := if m.flag then { rows := List.replicate 64 (List.replicate 64 (0, c.ownTag)) } else ts.getD m.tile {}
      ((t0.mode ≠ .zero ∧ t0.mode ≠ m.cls) ∨ (m.ty = 0 ∧ 131072 < t0.kcount + 8 * m.count) → ∃ t, exec i s = .next t ∧ Stopped t cmd 0x01) ∧
      ((t0.mode = .zero ∨ t0.mode = m.cls) → (m.ty = 0 → t0.kcount + 8 * m.count ≤ 131072) → (kind = 0x4D ∨ m.gen ≠ 1) →
        ∃ t, exec i s = .next t ∧ (t.cmdAt cmd).begun = true ∧ (t.cmdAt cmd).state = .running ∧ t.teams = s.teams ∧ t.mem = s.mem ∧
          ∀ k < 8, (t.crewAt c.crew).tile k =
            if k = m.tile then (if m.count = 0 then t0 else { t0 with mode := m.cls }) else ts.getD k {})) ∧
    (c.begun = true → c.idx < m.count → Square (ts.getD m.tile {}).rows →
      let side (gen : Bool) (k : CReg) (off inc : Int) (str : Nat) (far : Bool) : Except (BitVec 8 × Nat) (List (List Elem)) :=
        if kind = 0x4E ∧ m.gside = gen then .ok (genSide m m.tyOf c.list c.idx (kStep m.ty))
        else s.stepSide c k off inc str far m.peer c.idx (codeBytes m.ty) (kStep m.ty)
      let a := side true c.dstC m.aoff m.ainc m.astr m.arem
      let b := side false c.srcC m.boff m.binc m.bstr m.brem
      (∀ x, (a = .error x ∨ (∃ as, a = .ok as ∧ b = .error x)) →
        ∃ t, exec i s = .next t ∧ Stopped t cmd x.1 ∧ (t.cmdAt cmd).addr = BitVec.ofNat 64 x.2) ∧
      (∀ as bs, a = .ok as → b = .ok bs →
        let e := (s.crewAt c.crew).elems m.tile false
        ∃ t, exec i s = .next t ∧ (t.cmdAt cmd).idx = c.idx + 1 ∧ t.teams = s.teams ∧ t.mem = s.mem ∧
          ((t.crewAt c.crew).tile m.tile).kcount = (ts.getD m.tile {}).kcount + (if m.ty = 0 then 8 else 0) ∧
          ((t.crewAt c.crew).tile m.tile).mode = (ts.getD m.tile {}).mode ∧
          (∀ k < 8, k ≠ m.tile → (t.crewAt c.crew).tile k = ts.getD k {}) ∧
          ∀ x < 64, ∀ y < 64,
            let o := elemAt e x y
            let ps := (as.getD x []).zip (bs.getD y [])
            let new := elemAt ((t.crewAt c.crew).elems m.tile false) x y
            let fp := sumRound (readF fmtF32 o.1 :: ps.map fun p => fvMul (readF (fmtOf m.tyOf) p.1.1) (readF (fmtOf m.tyOf) p.2.1))
            (m.ty = 0 → new.1 = (BitVec.ofInt 32 (max (-2 ^ 31) (min (2 ^ 31 - 1)
              (sextN o.1 32 + (ps.map fun p => sextN p.1.1 8 * sextN p.2.1 8).sum)))).toNat) ∧
            (m.ty ∈ [8, 9, 12, 13] → new.1 = fp.bits % 2 ^ 32 ∧ (t.cmdAt cmd).exc &&& fp.exc = fp.exc) ∧
            (o.2 = tagPoison ∨ (∃ p ∈ as.getD x [] ++ bs.getD y [], p.2 = tagPoison) → new.2 = tagPoison) ∧
            (o.2 ≠ tagPoison → (∀ p ∈ as.getD x [] ++ bs.getD y [], p.2 ≠ tagPoison) → c.rule = 2 → new.2 = 0x000001)))) ∧
  (∀ (cmd : Nat) (s : State) (ts : List Tile), Working s cmd 0x49 ts → let c := s.cmdAt cmd
    let m := matW c.w
    let f64 := m.ty = 11
    let f := if f64 then fmtF64 else fmtF32
    let e := (s.crewAt c.crew).elems m.tile f64
    m.kind = 0x49 → (m.ty = 10 ∨ m.ty = 11) → (f64 → m.tile % 2 = 0) →
    (c.begun = false → m.flag = false →
      ∃ t, exec (.mslice cmd 1) s = .next t ∧ (t.cmdAt cmd).begun = true ∧ (t.cmdAt cmd).matC = [] ∧ t.teams = s.teams ∧ t.mem = s.mem ∧
        ((t.crewAt c.crew).tile m.tile).mode = if f64 then .f64 else .f32) ∧
    (c.begun = true → c.idx < m.s * (m.s + 1) / 2 → c.matA = [] →
      let a := rowAddr c.dstC m.aoff; let b := rowAddr c.srcC m.boff; let w := codeBytes m.ty
      s.boundOk c c.dstC a (63 * m.astr + w * m.k) pLD = true → s.boundOk c c.srcC b (63 * m.bstr + w * m.k) pLD = true →
      ∃ t, exec (.mslice cmd 1) s = .next t ∧ t.crews = s.crews ∧ t.mem = s.mem ∧ (t.cmdAt cmd).idx = c.idx ∧
        ∀ x < 64, ∀ k < m.k,
          elemAt (t.cmdAt cmd).matA x k = (leNat ((s.crewAt c.crew).scratch.bytes (a + x * m.astr + w * k) w),
            (s.crewAt c.crew).scratch.lineTag ((a + x * m.astr + w * k) / 64)) ∧
          elemAt (t.cmdAt cmd).matB x k = (leNat ((s.crewAt c.crew).scratch.bytes (b + x * m.bstr + w * k) w),
            (s.crewAt c.crew).scratch.lineTag ((b + x * m.bstr + w * k) / 64))) ∧
    (c.begun = true → c.idx < m.s * (m.s + 1) / 2 → c.matA.length = 64 → c.matB.length = 64 → (m.flag = true → Square c.matC) → Square e →
      ∃ t, exec (.mslice cmd 1) s = .next t ∧ (t.cmdAt cmd).idx = c.idx + 1 ∧ t.teams = s.teams ∧ t.mem = s.mem ∧
        ∀ x < 64, ∀ y < 64,
          let a := c.matA.getD x []; let b := c.matB.getD y []
          let pq := (slicePairs m.s).getD c.idx (1, 1)
          let v := pairValue f64 pq.1 pq.2 (splitRow f m.s a) (splitRow f m.s b)
          let bad := (a ++ b).any fun z => (readF f z.1).exceptional
          let sum := if c.idx = 0 ∧ m.flag = false then v.bits else (fAdd f .rne (readF f (elemAt e x y).1) (readF f v.bits)).bits
          (elemAt ((t.crewAt c.crew).elems m.tile f64) x y).1 % 2 ^ (if f64 then 64 else 32 : Nat) =
            (if c.idx + 1 = (slicePairs m.s).length ∧ bad = true then nanBits f else sum) % 2 ^ (if f64 then 64 else 32 : Nat))) ∧
  (∀ (cmd : Nat) (s : State) (ts : List Tile), Working s cmd 0x44 ts → let c := s.cmdAt cmd
    let m := matW c.w
    let cr := s.crewAt c.crew
    let w := codeBytes m.ty
    m.kind = 0x44 →
    (c.begun = false → drainFrom m (cr.tile m.tile).mode (cr.tile (m.tile + 1)).mode = none →
      ∃ t, exec (.mdrain cmd) s = .next t ∧ Stopped t cmd 0x01) ∧
    (∀ src, drainFrom m (cr.tile m.tile).mode (cr.tile (m.tile + 1)).mode = some src →
      (c.begun = false → exec (.mdrain cmd) s = .next (s.modCmd cmd fun c => { c with begun := true })) ∧
      -- a chunk of 16 bytes of a row at a time (11 R265): n elements from number idx on
      (let x := c.idx / 64
       let y := c.idx % 64
       let a := rowAddr c.dstC (m.aoff + (x * m.astr : Nat) + (w * y : Nat))
       let n := min (64 - y) ((16 - a % 16 + w - 1) / w)
       c.begun = true → c.idx < 4096 → cr.scratch.wf = true → Square (cr.elems m.tile (src = .f64)) →
       (s.boundOk c c.dstC a (w * n) pST = false → ∃ t, exec (.mdrain cmd) s = .next t ∧ Stopped t cmd 0x14) ∧
       (s.boundOk c c.dstC a (w * n) pST = true →
        ∃ t, exec (.mdrain cmd) s = .next t ∧ (t.cmdAt cmd).idx = c.idx + n ∧ t.teams = s.teams ∧ t.mem = s.mem ∧
          (∀ j < n, leNat ((t.crewAt c.crew).scratch.bytes (a + w * j) w) =
            (if src = m.tyOf then (elemAt (cr.elems m.tile (src = .f64)) x (y + j)).1
              else (convert m.tyOf (c.drainRm m) m.flag (readVal src (elemAt (cr.elems m.tile (src = .f64)) x (y + j)).1)).bits) % 256 ^ w) ∧
          (∀ z, (z < a ∨ a + w * n ≤ z) → (t.crewAt c.crew).scratch.byte z = cr.scratch.byte z) ∧
          ((m.count.testBit 28 = false ∨ c.idx + n < 4096) → (t.crewAt c.crew).tiles = cr.tiles) ∧
          (m.count.testBit 28 = true → 4096 ≤ c.idx + n →
            (t.crewAt c.crew).tile m.tile = { rows := List.replicate 64 (List.replicate 64 (0, c.ownTag)) }))))) ∧
  (∀ (cmd : Nat) (s : State) (ts : List Tile), Working s cmd 0x41 ts → let c := s.cmdAt cmd
    let m := matW c.w
    let w := codeBytes m.ty
    let a := rowAddr c.dstC m.aoff
    m.kind = 0x41 → c.idx = 0 → (m.ty = 4 ∨ m.ty = 10 ∨ (m.ty = 11 ∧ m.tile % 2 = 0)) →
    (s.boundOk c c.dstC a (63 * m.astr + 64 * w) pLD = false → ∃ t, exec (.mloadc cmd) s = .next t ∧ Stopped t cmd 0x14) ∧
    (s.boundOk c c.dstC a (63 * m.astr + 64 * w) pLD = true →
      ∃ t, exec (.mloadc cmd) s = .next t ∧ (t.cmdAt cmd).idx = 1 ∧ t.teams = s.teams ∧ t.mem = s.mem ∧
        ((t.crewAt c.crew).tile m.tile).mode = (if m.ty = 4 then .i32 else if m.ty = 10 then .f32 else .f64) ∧
        ((t.crewAt c.crew).tile m.tile).kcount = 0 ∧ (t.crewAt c.crew).scratch = (s.crewAt c.crew).scratch ∧
        ∀ x < 64, ∀ y < 64, elemAt ((t.crewAt c.crew).elems m.tile (m.ty = 11)) x y =
          (leNat ((s.crewAt c.crew).scratch.bytes (a + x * m.astr + w * y) w), (s.crewAt c.crew).scratch.lineTag ((a + x * m.astr + w * y) / 64)))) ∧
  (∀ (cmd : Nat) (s : State) (ts : List Tile), Working s cmd 0x5C ts → let c := s.cmdAt cmd
    (matW c.w).kind = 0x5C → c.idx = 0 →
    ∃ t, exec (.mzero cmd) s = .next t ∧ (t.cmdAt cmd).idx = 1 ∧ t.teams = s.teams ∧ t.mem = s.mem ∧
      ∀ k < 8, (t.crewAt c.crew).tile k =
        if (matW c.w).count.testBit k then { rows := List.replicate 64 (List.replicate 64 (0, c.ownTag)) } else ts.getD k {}) ∧
  (∀ (cmd n : Nat) (s t : State),
    (exec (.mloop cmd 1) s = .next t → exec (.mloop cmd (n + 1)) s = exec (.mloop cmd n) t) ∧
    (exec (.mgen cmd 1) s = .next t → exec (.mgen cmd (n + 1)) s = exec (.mgen cmd n) t) ∧
    (exec (.mslice cmd 1) s = .next t → exec (.mslice cmd (n + 1)) s = exec (.mslice cmd n) t))

/-! Events of the hardware. -/

/-- L1 copies expire; a sweep that completes frees its root, no capability on it keeps a valid bit in a c register, a lane quad, a scratchpad
or the context's pages, and SWEEPWAITs for it end (09 R239, R240, 10 R244). A hold ends; a page leaves for the host unless it is held (09
R238). An uncorrectable error poisons what carries a tag and kills, aborts or puts in error what does not (14 R315, 09 R213, 20 R401). Shadow
lanes, the replay queue, known answers (14 R321, R323), a failed die link (17 R329), power-on, power and temperature (17 R356, R357). Log 22
says what the spec leaves open of transfers over a die link and of the replay queue, log 10 which units fail at power-on. -/
def Obligations.HardwareEvents : Prop :=
  (∀ (core line : Nat) (s : State), core < s.cores.length →
    ∃ t, exec (.l1CopyExpiry core line) s = .next t ∧ (∀ e, e ∈ (t.coreAt core).l1 ↔ e ∈ (s.coreAt core).l1 ∧ e.1 ≠ line) ∧
      (∀ k, k ≠ core → t.coreAt k = s.coreAt k) ∧ t.teams = s.teams ∧ t.mem = s.mem) ∧
  (∀ (ctx root : Nat) (s : State), ctx < s.contexts.length → (s.rootAt (some ctx) root).state = .revoked → (s.ctxAt ctx).destroying = none →
    awf ({} : Root) (s.ctxAt ctx).roots = true →
    ∃ t, exec (.maceSweepComplete ctx root) s = .next t ∧ (t.rootAt (some ctx) root).state = .free ∧
      (∀ i < s.teams.length, (s.crewAt (s.teamAt i).crew).ctx = some ctx → ∀ k < 32, capRoot ((t.teamAt i).c.getD k {}).bits = root →
        ((t.teamAt i).c.getD k {}).valid = false) ∧
      (∀ i < s.teams.length, (s.crewAt (s.teamAt i).crew).ctx = some ctx → ∀ q l,
        capRoot (BitVec.ofNat 128 ((t.teamAt i).velems (4 * q) 4 l).v) = root → (t.teamAt i).vvalid (4 * q) l = false) ∧
      (∀ i < s.crews.length, (s.crewAt i).ctx = some ctx → (s.crewAt i).scratch.wf = true → ∀ l g, g < 4 →
        capRoot (BitVec.ofNat 128 (leNat ((t.crewAt i).scratch.bytes (64 * l + 16 * g) 16))) = root →
        (t.crewAt i).scratch.granuleValid (64 * l + 16 * g) = false) ∧
      (∀ i < s.cmds.length, (s.cmdAt i).q = 8 → (s.cmdAt i).state = .running → (s.crewAt (s.cmdAt i).crew).ctx = some ctx →
        (wordAt (s.cmdAt i).w 1).toNat = root → (t.cmdAt i).state = .done) ∧
      ((∀ i < s.teams.length, (s.teamAt i).outs = []) → s.mem.wf = true → t.mem.cells = s.mem.cells ∧
        ∀ m ∈ (s.ctxAt ctx).maps, m.resid = .device → ∀ l g, m.frame ≤ l * 64 → l * 64 < m.frame + m.size → g < 4 →
          capRoot (BitVec.ofNat 128 (leNat (s.mem.bytes (64 * l + 16 * g) 16))) = root → t.mem.granuleValid (64 * l + 16 * g) = false)) ∧
  (∀ (ctx page : Nat) (m : Mapping) (s : State), (s.ctxAt ctx).maps.find? (fun m => m.va = page) = some m →
    (m.hold ≠ 0 → m.hold ≤ s.now →
      ∃ t, exec (.migrationHoldExpiry ctx page) s = .next t ∧ t.mem = s.mem ∧ t.teams = s.teams ∧ (t.ctxAt ctx).maps.find? (fun m => m.va = page) =
        some { m with hold := 0, resid := if m.resid = .remote then .host else m.resid }) ∧
    (s.now < m.hold → exec (.hostMigrationRequest ctx page) s = .next s) ∧
    (m.resid = .device → m.hold ≤ s.now →
      let prot := match s.worldOf (some ctx) with | some w => w.prot | none => false
      ∃ t m', exec (.hostMigrationRequest ctx page) s = .next t ∧ (t.ctxAt ctx).maps.find? (fun m => m.va = page) = some m' ∧
        m'.resid = .host ∧ m'.hold = s.now + 100000 ∧ (m'.va, m'.size, m'.r, m'.w, m'.x) = (m.va, m.size, m.r, m.w, m.x) ∧
        m'.version = m.version + (if prot then 1 else 0) ∧ m'.away.isSome = prot ∧
        (t.ctxAt ctx).poolFree = addChunk m.frame m.size (s.ctxAt ctx).poolFree)) ∧
  (∀ s : State,
    (∀ a, ∃ t, exec (.uncorrectable (.line a)) s = .next t ∧ (t.mem.line (a / 64)).err = true ∧ (t.mem.line (a / 64)).otag = 0xFFF000 ∧
      t.mem.cells = s.mem.cells ∧ t.teams = s.teams ∧ t.crews = s.crews) ∧
    (∀ ci a, ci < s.crews.length → ∃ t, exec (.uncorrectable (.scratch ci a)) s = .next t ∧ t.mem = s.mem ∧ t.teams = s.teams ∧
      ((t.crewAt ci).scratch.line (a / 64)).err = true ∧ ((t.crewAt ci).scratch.line (a / 64)).otag = 0xFFF000) ∧
    (∀ i r l, i < s.teams.length → r < (s.teamAt i).v.length → l < ((s.teamAt i).v.getD r []).length →
      ∃ t, exec (.uncorrectable (.elem i r l)) s = .next t ∧ (t.teamAt i).velem r l = { (s.teamAt i).velem r l with tag := 0xFFF000 } ∧
        (∀ r' l', (r' ≠ r ∨ l' ≠ l) → (t.teamAt i).velem r' l' = (s.teamAt i).velem r' l') ∧ t.mem = s.mem) ∧
    (∀ i r, i < s.teams.length → r < (s.teamAt i).s.length →
      ∃ t, exec (.uncorrectable (.scalar i r)) s = .next t ∧ (t.teamAt i).sreg r = { (s.teamAt i).sreg r with tag := 0xFFF000 } ∧
        (∀ k, k ≠ r → (t.teamAt i).sreg k = (s.teamAt i).sreg k) ∧ t.mem = s.mem) ∧
    (∀ i r, i < s.teams.length → r < (s.teamAt i).c.length →
      ∃ t, exec (.uncorrectable (.cap i r)) s = .next t ∧ (t.teamAt i).c.getD r {} = { (s.teamAt i).c.getD r {} with tag := 0xFFF000 } ∧
        (∀ k, k ≠ r → (t.teamAt i).c.getD k {} = (s.teamAt i).c.getD k {}) ∧ t.mem = s.mem) ∧
    (∀ ci k x ts, ci < s.crews.length → (s.crewAt ci).tiles = some ts → k < ts.length → x < 4096 → Square (ts.getD k {}).rows →
      ∃ t, exec (.uncorrectable (.tile ci k x)) s = .next t ∧ t.mem = s.mem ∧
        (((t.crewAt ci).tile k).rows.getD (x / 64) []).getD (x % 64) (0, 0) = ((((ts.getD k {}).rows.getD (x / 64) []).getD (x % 64) (0, 0)).1, 0xFFF000)) ∧
    (∀ i, i < s.teams.length → (s.teamAt i).alive = true →
      ∃ t, exec (.uncorrectable (.untagged i)) s = .next t ∧ (t.teamAt i).killPending = some (0x40, none) ∧ t.mem = s.mem) ∧
    (∀ ci, ∃ t, exec (.uncorrectable (.crewState ci)) s = .next t ∧ t.mem = s.mem ∧
      ∀ i ∈ s.crewTeams ci, i < s.teams.length → (s.teamAt i).alive = true → (t.teamAt i).killPending = some (0x40, none)) ∧
    (∀ sc, sc < s.scheds.length → (s.schedAt sc).st = .running →
      ∃ t r, exec (.uncorrectable (.engineState sc)) s = .next t ∧ (t.schedAt sc).st = .aborting ∧ (t.schedAt sc).mine = some r ∧
        r.code = 0x83 ∧ (t.schedAt sc).cause = 0x40) ∧
    (∀ w, ∃ t, exec (.uncorrectable (.keyState w)) s = .next t ∧ (∀ x ∈ t.worlds, x.id = w → x.lock = .error) ∧
      ∀ e ∈ t.exports, (s.ctxAt e.2.ctx).world = w → (s.ctxAt e.2.ctx).alive = true → e.2.ctx < s.contexts.length → e.2.state ≠ .live)) ∧
  (∀ (i pipe : Nat) (s : State), i < s.teams.length → (s.teamAt i).alive = true →
    let p := (s.crewAt (s.teamAt i).crew).place
    p < s.cores.length → pipe < 4 →
    (s.canMove i = true → s.shadowedPass i = true →
      ∃ t, exec (.shadowMismatch i pipe false false) s = .next t ∧ (t.coreAt p).retired = (s.coreAt p).retired ||| BitVec.twoPow 8 pipe ∧
      t.teams = s.teams ∧ t.mem = s.mem) ∧
    (s.canMove i = true → s.shadowedPass i = true →
      ∃ t, exec (.shadowMismatch i pipe false true) s = .next t ∧ (t.coreAt p).retired.getLsbD pipe = true ∧ (t.teamAt i).st = .ended) ∧
    (∀ e b, (s.coreAt p).replayQ.find? (fun e => e.1 = i) = some e →
      ∃ t, exec (.shadowMismatch i pipe true b) s = .next t ∧ (t.coreAt p).retired.getLsbD pipe = true ∧
        (t.teamAt i).killPending = some (0x41, some e.2.1))) ∧
  (∀ (core : Nat) (e : Nat × VAddr × Nat) (rest : List (Nat × VAddr × Nat)) (s : State), core < s.cores.length →
    (s.coreAt core).replayQ = e :: rest →
    exec (.replayQueueDrop core) s = .next
      (if e.2.2 + 4096 ≤ s.now then s.modCore core fun c => { c with replayQ := rest, replayDrops := c.replayDrops + 1 } else s)) ∧
  (∀ (core unit : Nat) (s : State), core < 256 → core < s.cores.length → unit < 8 →
    ∃ t, exec (.knownAnswerFailure core unit) s = .next t ∧ (t.coreAt core).out = true ∧ (t.coreAt core).retired.getLsbD unit = true ∧
      (∀ x ∈ s.crewsOn core, (t.crewAt x).state = .saving) ∧ t.teams = s.teams ∧ t.mem = s.mem) ∧
  (∀ (i : Nat) (a : Access) (b : Bool) (l : LaneAcc) (s : State), (s.teamAt i).outs.find? (fun x => x.id = a.id) = some a → a.space = .dev →
    canPerform (earlierThan (s.teamAt i).outs a.id) a = true → a.lanes = [l] →
    (linesOf l.runs).any (crosses (s.crewAt (s.teamAt i).crew).die) = true →
    (∀ n, a.kind = .load → a.dst = .s n 1 → n < (s.teamAt i).s.length →
      ∃ t, exec (.dieLinkFailure (.access i) a.id b) s = .next t ∧ t.mem = s.mem ∧ ((t.teamAt i).sreg n).full = true ∧ ((t.teamAt i).sreg n).tag = 0xFFF000) ∧
    (∀ x n, a.kind = .store → a.dst = .none → l.runs = [(x, n)] → 1 ≤ n → x % 64 + n ≤ 63 → l.data.length = n →
      ∃ t, exec (.dieLinkFailure (.access i) a.id false) s = .next t ∧ (t.mem.line (x / 64)).err = true ∧ (t.mem.line (x / 64)).otag = 0xFFF000)) ∧
  (∀ (x : DieXfer) (die line : Nat) (s : State), x = .sweep die ∨ x = .firmware die → homeDie (line * 64) ≠ die →
    exec (.dieLinkFailure x line true) s = .next s ∧
    ∃ t, exec (.dieLinkFailure x line false) s = .next t ∧ (t.mem.line line).err = true ∧ (t.mem.line line).otag = 0xFFF000 ∧
      t.mem.cells = s.mem.cells ∧ t.teams = s.teams ∧ t.crews = s.crews) ∧
  (∀ (cmd a n x : Nat) (k : CReg) (base len : Nat) (b : Bool) (s : State), let c := s.cmdAt cmd
    cmd < s.cmds.length → c.kind = 0x43 → c.q ≤ 3 → c.state = .running → c.cancelled = false → c.req = none → c.linkFail = some b →
    c.idx < (copyW c.w).rows → rowRead c = some (k, base, len) → c.rd < len → a = base + c.rd → n = min (len - c.rd) (64 - a % 64) →
    s.way c k a n pLD false = .ok (.mem .dev x) → homeDie (x / 64 * 64) ≠ c.die →
    ∃ t p, exec (.copy cmd 1) s = .next t ∧ (t.cmdAt cmd).buf = c.buf ++ [p] ∧ p.side.otag = 0xFFF000 ∧ (t.cmdAt cmd).linkFail = none) ∧
  (∀ (failed : BitVec 4) (s : State), s.poweredOn = false →
    ∃ t, exec (.powerOn failed) s = .next t ∧ t.poweredOn = true ∧ t.teams = s.teams ∧ t.mem = s.mem ∧
      t.freeMem = [(0, (12 - 3 * ((List.range 4).filter fun d => failed.getLsbD d).length) * 48 * 2 ^ 30)] ∧
      (∀ d < 4, d < s.dies.length → (t.dieAt d).usable = !failed.getLsbD d) ∧
      (∀ p < s.cores.length, (t.coreAt p).retired = Config.katFailure (s.tick + p) ∧
        ((t.coreAt p).out = true ↔ Config.katFailure (s.tick + p) ≠ 0))) ∧
  (∀ (watts : Nat) (s : State),
    (3200 < watts → exec (.powerSample watts) s = .next { s with clock := max 500 (s.clock - 50) }) ∧
    (watts < 3040 → exec (.powerSample watts) s = .next { s with clock := min 1000 (s.clock + 50) }) ∧
    (3040 ≤ watts → watts ≤ 3200 → exec (.powerSample watts) s = .next s)) ∧
  (∀ (deg : Nat) (s : State),
    (115 ≤ deg → ∃ t, exec (.temperatureLimit deg) s = .next t ∧ t.poweredDown = true ∧ ∀ i < 36, i < s.ports.length → (t.portAt i).st = .down) ∧
    (100 ≤ deg → deg < 115 → exec (.temperatureLimit deg) s = .next { s with clock := max 500 (s.clock - 50) }) ∧
    (deg < 100 → exec (.temperatureLimit deg) s = .next s))

/-! The fabric. -/

/-- Over an UP port `read`, `readAcq`, `write`, `writeRel` and `atomic` are checked in the order of R340; one that passes is performed and answered, one that
does not is logged and answered by a NACK with its cause (17 R338, R340, R358; what a release records: 10 R246); one to a REMOTE page goes on
to its host (09 R237; that the answer comes back through this device is log 11). `data`, `ack`, `nack` and
`fabricTimeout` close the request that they answer: the lane of a load is filled, with TAG_RFAULT or TAG_RTIMEOUT where it failed, a failed
store sets the latch (17 R341, R342, 09 R221). A packet that Table 17-3 does not list is dropped and counted (17 R334). Over which port a
packet has come is the model's: the one that leads to its sender (log 11). -/
def Obligations.FabricRequests : Prop :=
  (∀ (i : Instr) (k : Inbound) (p : Packet) (s : State),
    ((i = .read p ∧ k = .read false) ∨ (i = .readAcq p ∧ k = .read true) ∨ (i = .write p ∧ k = .write false) ∨
      (i = .writeRel p ∧ k = .write true) ∨ (i = .atomic p ∧ k = .atomic)) → Live s (s.exportCtx p) →
    Accepted s (s.exportCtx p) p 0 (fun o => decide (o ∈ ((match k with
      | .read false => [0x01] | .read true => [0x02] | .write false => [0x04] | .write true => [0x05]
      | .atomic => [0x08, 0x09, 0x0A, 0x0B]) : List (BitVec 6)))) →
    (∀ cause, s.inboundCheck k p = .error cause →
      ∃ t ans, exec i s = .next t ∧ t.mem = s.mem ∧ t.teams = s.teams ∧ Sends s t ans ∧
        (ans.cls, ans.op, ans.dst, ans.xid, ans.line) = (1, 0x03, p.src, p.xid, cause :: List.replicate 63 0) ∧
        (s.dieFrom p.src < s.dies.length → (t.dieAt (s.dieFrom p.src)).faults.getLast? =
          some { src := p.src, exp := p.exp, addr := p.addr.toNat, cause := cause, dcyc := (s.dieAt (s.dieFrom p.src)).dcyc })) ∧
    (∀ m, s.inboundCheck k p = .ok [] →
      let e := aget ({} : Exported) s.exports p.exp.toNat
      let a := e.start + p.addr.toNat + p.first.toNat
      findMap (s.ctxAt e.ctx).maps a = some m →
      let far := Config.remotePage e.ctx m.va
      ∃ t r, exec i s = .next t ∧ t.mem = s.mem ∧ t.teams = s.teams ∧ t.reqs[s.reqs.length]? = some r ∧ r.owner = .relay p ∧
        (r.dst, r.exp, r.addr, r.len) = ((s.ctxAt e.ctx).creator, far.1, far.2.toNat + (a - m.va), pktLen p)) ∧
    (∀ runs, s.inboundCheck k p = .ok runs → runs ≠ [] → (k = .read false ∨ k = .read true) →
      ∃ t ans, exec i s = .next t ∧ t.mem = s.mem ∧ t.teams = s.teams ∧ Sends s t ans ∧
        (ans.cls, ans.op, ans.dst, ans.xid, ans.otag) = (1, 0x01, p.src, p.xid, runsTag s.mem runs) ∧
        (ans.line.drop p.first.toNat).take (readRuns s.mem runs).length = readRuns s.mem runs) ∧
    (∀ a n, s.inboundCheck k p = .ok [(a, n)] → (k = .write false ∨ k = .write true) → p.line.length = 64 → 1 ≤ n → s.mem.wf = true →
      ∃ t ans, exec i s = .next t ∧ t.teams = s.teams ∧ Sends s t ans ∧ (ans.cls, ans.op, ans.dst, ans.xid) = (1, 0x02, p.src, p.xid) ∧
        (∀ j < n, t.mem.byte (a + j) = p.line.getD (p.first.toNat + j) 0) ∧
        (∀ x, (x < a ∨ a + n ≤ x) → t.mem.byte x = s.mem.byte x) ∧
        ((s.mem.line (a / 64)).err = false → (t.mem.line (a / 64)).otag = s.tagFrom p) ∧
        (k = .write false → (t.mem.record (a / 64)).kind = 0) ∧
        (k = .write true → s.mem.recs.length < 4096 →
          t.mem.record (a / 64) = { kind := if Config.isHost p.src then 4 else 3, obs := s.obsOf p })) ∧
    (∀ a op, k = .atomic → inboundOp p = some op → let size := 2 ^ atomLog p
      s.inboundCheck k p = .ok [(a, size)] → s.mem.wf = true →
      let old := leNat (s.mem.bytes a size)
      let x := leNat (p.line.take 8) % 2 ^ (8 * size)
      let y := leNat ((p.line.drop 8).take 8) % 2 ^ (8 * size)
      ∃ t ans, exec i s = .next t ∧ t.teams = s.teams ∧ Sends s t ans ∧ (ans.cls, ans.op, ans.dst, ans.xid) = (1, 0x01, p.src, p.xid) ∧
        (ans.line.drop p.first.toNat).take (readRuns s.mem [(a, size)]).length = readRuns s.mem [(a, size)] ∧
        (op = .cas → old ≠ x → t.mem = s.mem) ∧ leNat (t.mem.bytes a size) = atomValue op size old x y % 256 ^ size ∧
        ∀ z, (z < a ∨ a + size ≤ z) → t.mem.byte z = s.mem.byte z) ∧
    (let e := aget ({} : Exported) s.exports p.exp.toNat
     let root := s.rootAt (some e.ctx) e.root
     (e.state = .free → s.inboundCheck k p = .error 0x10) ∧ (e.state = .closed → s.inboundCheck k p = .error 0x14) ∧
     (e.state = .live → p.src ≠ e.allow → s.inboundCheck k p = .error 0x12) ∧
     (e.state = .live → p.src = e.allow → root.state ≠ .live → s.inboundCheck k p = .error 0x14) ∧
     (e.state = .live → p.src = e.allow → root.state = .live → (e.perms &&& k.perms) ≠ k.perms → s.inboundCheck k p = .error 0x12) ∧
     (e.state = .live → p.src = e.allow → root.state = .live → (e.perms &&& k.perms) = k.perms → e.length ≤ p.addr.toNat + p.last.toNat →
       s.inboundCheck k p = .error 0x11))) ∧
  (∀ (i : Instr) (k : Nat) (r : Req) (st : ReqState) (p : Packet) (s : State), s.reqAt k = some r → r.st = .out → Live s r.ctx →
    ((s.reqOf p = some k ∧ s.now < r.deadline ∧
        ((i = .data p ∧ Accepted s r.ctx p 1 (· = 0x01) ∧
            st = .data p.line (s.tagFrom p) ((s.kindFrom p).setWidth 2) (if s.kindFrom p = 1 then p.scales else 0)) ∨
          (i = .ack p ∧ Accepted s r.ctx p 1 (· = 0x02) ∧ st = .acked) ∨
          (i = .nack p ∧ Accepted s r.ctx p 1 (· = 0x03) ∧ st = .refused (p.line.getD 0 0)))) ∨
      (i = .fabricTimeout k ∧ r.deadline ≤ s.now ∧ (∀ c, r.ctx = some c → (s.ctxAt c).held.contains (.fabricTimeout k) = false) ∧
        st = .refused 0x31)) →
    (∃ t, exec i s = .next t ∧ t.reqs[k]? = some { r with st := st } ∧ (∀ c, r.owner = .command c → t.teams = s.teams) ∧
      (∀ q, r.owner = .relay q → t.teams = s.teams ∧ ∃ ans, Sends s t ans ∧ (ans.cls, ans.dst, ans.xid) = (1, q.src, q.xid) ∧
        ans.op = match st with | .data _ _ _ _ => 0x01 | .refused _ => 0x03 | _ => 0x02)) ∧
    (∀ j lane a, r.owner = .access j a.id lane → j < s.teams.length → (s.teamAt j).outs.find? (fun x => x.id = a.id) = some a →
      a.reqs = [(k, lane)] → a.got = [] → a.fails = [] →
      (∀ n, a.kind = .load → a.dst = .s n 1 → n < (s.teamAt j).s.length → (st = .acked → False) →
        ∃ t, exec i s = .next t ∧ (t.teamAt j).outs = (s.teamAt j).outs.filter (fun x => x.id ≠ a.id) ∧
          (t.teamAt j).sreg n =
            match st with
            | .data line tag _ _ => { v := BitVec.ofNat 64 (leNat (((line.drop (r.addr % 64)).take r.len).take 8)), tag := tag, full := true }
            | .refused c => { v := a.own.setWidth 64, tag := if c = 0x31 then 0xFFF004 else 0xFFF003, full := true }
            | _ => {}) ∧
      (∀ c, a.kind = .store → st = .refused c → (s.teamAt j).latch = none →
        ∃ t, exec i s = .next t ∧ (t.teamAt j).outs = (s.teamAt j).outs.filter (fun x => x.id ≠ a.id) ∧
          (t.teamAt j).latch = some { cause := if c = 0x31 then 0x31 else 0x30, addr := BitVec.ofNat 64 r.va, site := a.own, host := r.host }))) ∧
  (∀ (p : Packet) (s : State), listed p = true → s.reqOf p = none →
    exec (.data p) s = .next s ∧ exec (.ack p) s = .next s ∧ exec (.nack p) s = .next s) ∧
  (∀ (i : Instr) (p : Packet) (port : Nat) (s : State), i ∈ [Instr.read p, .readAcq p, .write p, .writeRel p, .atomic p, .data p, .ack p, .nack p] →
    (s.portFrom p.src = none → exec i s = .next s) ∧
    (s.portFrom p.src = some port → listed p = false →
      exec i s = .next (s.modPort port fun pt => { pt with errors := pt.errors + 1 })))

/-- HELLO settles on the highest common major version, and the highest minor that both list in it, and brings a port in training UP, with a route to its neighbour, or DOWN; a credit
lets a waiting packet go, under the next sequence number; lock loss and a failed replay take a port DOWN, which refuses the requests that
wait on it; an acknowledgement frees what it covers; a link that retrains begins again; an S7 run that has been idle ends with its tag (00 R4,
17 R332, R335, R344, 20 R398). The highest minor version, what a retrained link forgets and how its replays are counted are log 32. -/
def Obligations.LinkEvents : Prop :=
  (∀ (port : Nat) (dev : BitVec 12) (vers : List (Nat × Nat)) (s : State), port < 36 → port < s.ports.length → s.poweredOn = true →
    (s.portAt port).st = .training → dev ≠ 0xFFF →
    (∀ v, ((v = 2 ∧ ∃ x ∈ vers, x.1 = 2) ∨ (v = 1 ∧ (∀ x ∈ vers, x.1 ≠ 2) ∧ ∃ x ∈ vers, x.1 = 1)) →
      ∃ t, exec (.hello port dev vers) s = .next t ∧ (t.portAt port).st = .up ∧ (t.portAt port).peer = dev ∧ (t.portAt port).major = v ∧
        (v = 2 → (∃ x ∈ vers, x.1 = 2 ∧ x.2 ≤ 1) → (2, (t.portAt port).minor) ∈ vers ∧ (t.portAt port).minor ≤ 1 ∧
          ∀ x ∈ vers, x.1 = 2 → x.2 ≤ 1 → x.2 ≤ (t.portAt port).minor) ∧
        (aget (0 : BitVec 36) t.routes dev.toNat).getLsbD port = true ∧ t.teams = s.teams ∧ t.mem = s.mem) ∧
    ((∀ x ∈ vers, x.1 ≠ 1 ∧ x.1 ≠ 2) → ∃ t, exec (.hello port dev vers) s = .next t ∧ (t.portAt port).st = .down)) ∧
  (∀ (port cls n : Nat) (s : State), let pt := s.portAt port
    port < s.ports.length → awf 0 pt.credits = true →
    (pt.queue = [] → ∃ t, exec (.credit port cls n) s = .next t ∧ aget 0 (t.portAt port).credits cls = aget 0 pt.credits cls + n ∧
      (t.portAt port).unacked = pt.unacked ∧ (∀ q, q ≠ port → t.portAt q = s.portAt q) ∧ t.teams = s.teams ∧ t.mem = s.mem) ∧
    (∀ p, pt.st = .up → pt.queue = [p] → p.cls.toNat = cls → pt.unacked.length < 255 → 1 ≤ aget 0 pt.credits cls + n →
      ∃ t, exec (.credit port cls n) s = .next t ∧ (t.portAt port).queue = [] ∧
        (t.portAt port).unacked = pt.unacked ++ [{ p with seq := pt.seq }] ∧ (t.portAt port).seq = pt.seq + 1 ∧
        aget 0 (t.portAt port).credits cls = aget 0 pt.credits cls + n - 1)) ∧
  (∀ (i : Instr) (port : Nat) (s : State), (i = .laneLockLoss port ∨ (i = .replayFailure port ∧ 16 ≤ (s.portAt port).replays)) →
    port < s.ports.length → (s.portAt port).st ≠ .down →
    ∃ t, exec i s = .next t ∧ (t.portAt port).st = .down ∧ (t.portAt port).queue = [] ∧ (t.portAt port).credits = [] ∧
      ∀ p k r, (s.portAt port).queue = [p] → p.cls = 0 → s.reqAt k = some r → r.st = .out → r.xid = p.xid → Live s r.ctx →
        (∀ j < k, ∀ r', s.reqAt j = some r' → ¬ (r'.st = .out ∧ r'.xid = p.xid)) → t.reqs[k]? = some { r with st := .refused 0x30 }) ∧
  (∀ (port : Nat) (seq : BitVec 8) (s : State), port < s.ports.length → (s.portAt port).st = .up →
    (∃ p ∈ (s.portAt port).unacked, p.seq = seq) →
    exec (.packetReplay port seq) s = .next (s.modPort port fun pt => { pt with replays := pt.replays + 1 })) ∧
  (∀ (port : Nat) (seq : BitVec 8) (pre post : List Packet) (x : Packet) (s : State), port < s.ports.length →
    (s.portAt port).unacked = pre ++ x :: post → x.seq = seq → (∀ y ∈ pre, y.seq ≠ seq) → (s.portAt port).queue = [] →
    exec (.linkAcknowledgement port seq) s = .next (s.modPort port fun pt => { pt with unacked := post, replays := 0 })) ∧
  (∀ (port : Nat) (s : State), port < s.ports.length → (s.portAt port).st = .down →
    exec (.portRetrain port) s = .next (s.modPort port fun pt => { pt with st := .training, seq := 0, unacked := [], replays := 0 })) ∧
  (∀ (port : Nat) (s : State), port < s.ports.length →
    let idle (r : Nat × Nat × Nat) : Bool := decide (r.2.2 + 256 ≤ s.now)
    ∃ t, exec (.s7RunIdleTag port) s = .next t ∧ t.teams = s.teams ∧ t.mem = s.mem ∧ (∀ q, q ≠ port → t.portAt q = s.portAt q) ∧
      (t.portAt port).runs = (s.portAt port).runs.filter (fun r => !idle r) ∧
      (t.portAt port).tagFlits = (s.portAt port).tagFlits + ((s.portAt port).runs.filter idle).length)

/-! Firmware commands. -/

/-- A repeated request gets its cached reply, a seventeenth BUSY, one with a reserved byte set MALFORMED (17 R349). The queries, NEGOTIATE and
ROUTE_SET answer; CONTEXT_CREATE makes a context with its mailbox export, CONTEXT_DESTROY takes its steps, POOL_GRANT gives cores and zeroed
memory, JOB_START loads and queues the root launch, JOB_CANCEL cancels; windows are exported, imported and closed (00 R4, 17 R346,
R350-R355, R358; bodies whose layout the spec does not give, and whether what the firmware reads of a sender is refused, are free values, log
20; which minor NEGOTIATE takes is log 32). -/
def Obligations.ContextsAndJobs : Prop :=
  (∀ (m : FwMsg) (i : Instr) (s : State), i ∈ [Instr.deviceQueryId m, .deviceQueryHealth m, .negotiate m, .contextCreate m, .routeSet m] →
    isCommand i = true →
    ((s.portFrom m.src).isSome → ∀ r, (s.sender m.src).replies.find? (fun r => r.1 = m.seq) = some r →
      ∃ t, exec i s = .next t ∧ Sends s t (fwReply m.src r.2) ∧ t.contexts = s.contexts ∧ t.routes = s.routes) ∧
    ((s.portFrom m.src).isSome → (s.sender m.src).replies.find? (fun r => r.1 = m.seq) = none →
      (s.sender m.src).waiting.contains m.seq = false → 16 ≤ (s.sender m.src).waiting.length → s.replaying (fwCtx m) = false →
      ∃ t, exec i s = .next t ∧ Sends s t (fwReply m.src (replyLine m.code m.seq 6 [])) ∧ t.contexts = s.contexts ∧ t.routes = s.routes ∧
        t.senders = s.senders) ∧
    (Fresh none i m s → (m.cid ≠ 0 ∨ (m.args.getD 40 0 ≠ 0 ∧ i ≠ .negotiate m)) →
      ∃ t, exec i s = .next t ∧ Answered t m 1 [] ∧ t.contexts = s.contexts ∧ t.routes = s.routes)) ∧
  (∀ (m : FwMsg) (s : State), m.cid = 0 → reservedZero m.args [(8, 1), (12, 4)] = true →
    let n := fwArg m.args 12 4
    (Fresh none (.deviceQueryId m) m s → m.code = 1 → fwArg m.args 8 1 = 0 →
      ∃ t, exec (.deviceQueryId m) s = .next t ∧ Answered t m 0 (Config.layout 0 [Config.deviceId.toNat, 1, 0, 3, 2, 2, 1, 1, 0, 1, 0])) ∧
    (Fresh none (.deviceQueryId m) m s → m.code ≠ 1 → ∃ t, exec (.deviceQueryId m) s = .next t ∧ Answered t m 1 []) ∧
    (Fresh none (.deviceQueryHealth m) m s →
      ∃ t, exec (.deviceQueryHealth m) s = .next t ∧ Answered t m 0
        (Config.layout 1 ((s.dies.map fun d => if d.usable then 1 else 0) ++ (s.cores.map fun c => c.retired.toNat)))) ∧
    (Fresh none (.deviceQueryKillLog m) m s →
      ((s.dies.flatMap (·.kills)).length ≤ n → ∃ t, exec (.deviceQueryKillLog m) s = .next t ∧ Answered t m 5 []) ∧
      (∀ k, (s.dies.flatMap (·.kills))[n]? = some k → ∃ t, exec (.deviceQueryKillLog m) s = .next t ∧ Answered t m 0
        (Config.layout 2 [k.die, k.core, k.crewid.toNat, k.team, k.cause.toNat, k.point.toNat, k.pc.toNat, k.tag.toNat]))) ∧
    (Fresh none (.deviceQueryFaultLog m) m s →
      ((s.dies.flatMap (·.faults)).length ≤ n → ∃ t, exec (.deviceQueryFaultLog m) s = .next t ∧ Answered t m 5 []) ∧
      (∀ f, (s.dies.flatMap (·.faults))[n]? = some f → ∃ t, exec (.deviceQueryFaultLog m) s = .next t ∧ Answered t m 0
        (Config.layout 3 ([f.src.toNat, f.exp.toNat, f.addr, f.cause.toNat, f.dcyc.toNat] ++ s.dies.map (·.faultLoss)))))) ∧
  (∀ (m : FwMsg) (s : State) (own : Nat × Nat), Fresh none (.negotiate m) m s → m.cid = 0 → reservedZero m.args [(8, 2), (12, 48)] = true →
    let n := fwArg m.args 9 1
    let pair (j : Nat) : Nat × Nat := (fwArg m.args (12 + 4 * j) 2, fwArg m.args (14 + 4 * j) 2)
    (fwArg m.args 8 1, own) ∈ [(1, (3, 2)), (2, (2, 1)), (3, (1, 0)), (4, (1, 0))] → 1 ≤ n → n ≤ 12 →
    (∀ j < n, (pair j).1 = own.1 → (pair j).2 ≤ own.2 → (∀ k < n, (pair k).1 = own.1 → (pair k).2 ≤ own.2 → (pair k).2 ≤ (pair j).2) →
      ∃ t, exec (.negotiate m) s = .next t ∧ Answered t m 0 (leBytes 2 own.1 ++ leBytes 2 (pair j).2)) ∧
    ((∀ j < n, (pair j).1 ≠ own.1 ∧ (pair j).1 ≠ 1) → ∃ t, exec (.negotiate m) s = .next t ∧ Answered t m 2 [])) ∧
  (∀ (m : FwMsg) (s : State), Fresh none (.routeSet m) m s → m.cid = 0 → reservedZero m.args [(8, 2), (16, 8)] = true →
    let d := fwArg m.args 8 2
    let mask := fwArg m.args 16 8
    d < 0xFFF → 0 < mask → mask < 2 ^ 36 →
    ((∃ w ∈ s.worlds, w.lock = .locked ∨ w.lock = .run) → ∃ t, exec (.routeSet m) s = .next t ∧ Answered t m 3 [] ∧ t.routes = s.routes) ∧
    ((∀ w ∈ s.worlds, w.lock ≠ .locked ∧ w.lock ≠ .run) →
      ∃ t, exec (.routeSet m) s = .next t ∧ Answered t m 0 [] ∧ aget (0 : BitVec 36) t.routes d = BitVec.ofNat 36 mask)) ∧
  (∀ (m : FwMsg) (s : State) (b n : Nat), Fresh none (.contextCreate m) m s → m.cid = 0 → reservedZero m.args [(8, 32)] = true →
    let world := fwArg m.args 8 2
    let flags := fwArg m.args 12 4
    let quantum := if fwArg m.args 16 8 = 0 then 4000000 else fwArg m.args 16 8
    let timeout := if fwArg m.args 24 8 = 0 then 2000000 else fwArg m.args 24 8
    let hd := fwArg m.args 36 4
    world ≠ 0 → fwArg m.args 10 2 = 0 → flags ∈ [0, 1, 2, 3, 5, 7] → 100000 ≤ quantum → quantum ≤ 2 ^ 31 → 10000 ≤ timeout → timeout ≤ 2 ^ 31 →
    hd ≠ 0 → hd % 64 = 0 → Unlocked s world → (∀ w, s.worlds.find? (fun w => w.id = world) = some w → w.prot = (flags / 2 % 2 = 1 : Bool)) →
    (s.contexts.filter (·.alive)).length < 64 → s.worlds.length < 16 → s.freeMem = [(b, n)] → b % 65536 = 0 → 2 ^ 26 ≤ n →
    s.exports.length < 65535 →
    ∃ t k, exec (.contextCreate m) s = .next t ∧ Answered t m 0 (leBytes 4 (s.contexts.length + 1) ++ leBytes 2 k) ∧
      t.contexts.length = s.contexts.length + 1 ∧ (∀ c < s.contexts.length, t.ctxAt c = s.ctxAt c) ∧
      (let x := t.ctxAt s.contexts.length
       x.alive = true ∧ x.creator = m.src ∧ x.world = world ∧ x.replayable = decide (flags % 2 = 1) ∧ x.quantum = quantum ∧
         x.fabricTimeout = timeout ∧ x.hentry = fwArg m.args 32 4 ∧ x.hdsize = hd ∧ x.hasJob = false ∧ x.grants = [] ∧
         x.holdJob = decide (4 ≤ flags)) ∧
      (∃ w ∈ t.worlds, w.id = world) ∧
      (let e := aget ({} : Exported) t.exports k
       e.ctx = s.contexts.length ∧ e.length = 65536 ∧ e.perms = pLD ||| pST ∧ e.allow = m.src ∧ e.state = .live)) ∧
  (∀ (m : FwMsg) (s : State) (c : Nat), Fresh (fwCtx m) (.contextDestroy m) m s → reservedZero m.args [] = true → OfContext s m c →
    ((s.ctxAt c).hasJob = true → (∀ j < s.launches.length, (s.launchAt j).ctx = some c → (s.ctxAt c).firstLaunch ≤ j → s.launchOver j = true) →
      ∃ t, exec (.contextDestroy m) s = .next t ∧ (t.ctxAt c).destroying = some (m.src, m.seq) ∧ (t.ctxAt c).roots = (s.ctxAt c).roots ∧
        m.seq ∈ (t.sender m.src).waiting) ∧
    ((s.ctxAt c).hasJob = false → (∃ r ∈ (s.ctxAt c).roots, r.2.state = .live) →
      ∃ t, exec (.contextDestroy m) s = .next t ∧ (t.ctxAt c).destroying = some (m.src, m.seq) ∧
        (∀ r ∈ (t.ctxAt c).roots, r.2.state = .revoked) ∧ (∀ e ∈ t.exports, e.2.ctx = c → e.2.state = .closed) ∧
        (∀ g ∈ t.groups, g.ctx = c → g.gone = true)) ∧
    ((s.ctxAt c).hasJob = false → (s.ctxAt c).roots = [] →
      ∃ t, exec (.contextDestroy m) s = .next t ∧ Answered t m 0 [] ∧ (t.ctxAt c).alive = false ∧ (∀ e ∈ t.exports, e.2.ctx ≠ c) ∧
        ∀ r ∈ (s.ctxAt c).poolAll, ∀ x, r.1 ≤ x → x < r.1 + r.2 → t.mem.byte x = 0)) ∧
  (∀ (m : FwMsg) (s : State) (c : Nat) (as : List Nat) (rest : List (Nat × Nat)), Fresh (fwCtx m) (.poolGrant m) m s →
    reservedZero m.args [(8, 1), (16, 16)] = true → OfContext s m c → Unlocked s (s.ctxAt c).world →
    let mask := fwArg m.args 8 1
    let cores := fwArg m.args 16 8
    let size := fwArg m.args 24 8
    mask < 16 → size % 2 ^ 30 = 0 → ((s.ctxAt c).replayable = true → mask ∈ [1, 2, 4, 8]) → size ≤ s.freeMem.foldl (fun n r => n + r.2) 0 →
    takeGiB (size / 2 ^ 30) s.freeMem = some (as, rest) →
    ∃ t, exec (.poolGrant m) s = .next t ∧ Answered t m 0 [] ∧ t.freeMem = rest ∧
      (t.ctxAt c).grants = (s.ctxAt c).grants ++
        [(if mask = 0 then 0xF else BitVec.ofNat 4 mask, if cores = 0 then BitVec.allOnes 64 else BitVec.ofNat 64 cores)] ∧
      (t.ctxAt c).poolAll = (s.ctxAt c).poolAll ++ as.map (fun a => (a, 2 ^ 30)) ∧
      ∀ a ∈ as, ∀ x, a ≤ x → x < a + 2 ^ 30 → t.mem.byte x = 0) ∧
  (∀ (m : FwMsg) (object hostArgs : List Byte) (s : State) (c : Nat) (o : Obj) (k : Kernel) (die core : Nat),
    Fresh (fwCtx m) (.jobStart m object hostArgs) m s → reservedZero m.args [(8, 19), (28, 16)] = true → OfContext s m c →
    let x := s.ctxAt c
    let prio := fwArg m.args 26 1
    let argLen := fwArg m.args 32 4
    prio ≤ 21 → argLen ≤ 65472 → x.hasJob = false → (∀ w, s.worldOf (some c) = some w → if w.prot then w.lock = .run else w.lock ≠ .error) →
    -- what it reads of its sender, by READs of the ranges that the message names (R352): q is the state after it
    let sources : List (BitVec 16 × Nat × Nat) :=
      [(BitVec.ofNat 16 (fwArg m.args 24 2), fwArg m.args 8 8, fwArg m.args 16 8), (BitVec.ofNat 16 (fwArg m.args 24 2), fwArg m.args 36 8, argLen)]
    fwSources m = sources ∧ (∀ q, s.readFor c m = (q, false) → ∃ t, exec (.jobStart m object hostArgs) s = .next t ∧ Answered t m 7 []) ∧
    ∀ q, s.readFor c m = (q, true) →
    (∃ rs, q.reqs = s.reqs ++ rs ∧ (rs.map (·.len)).sum = fwArg m.args 16 8 + argLen ∧
      ∀ r ∈ rs, r.owner = .firmware ∧ r.dst = m.src ∧ r.exp = BitVec.ofNat 16 (fwArg m.args 24 2) ∧ r.kind = 0) ∧
    (objOf (object.take (fwArg m.args 16 8)) = some o → o.kernels.find? (fun k => k.entry = fwArg m.args 28 4) = some k →
    (x.hentry = 0xFFFFFFFF ∨ (x.hentry < (o.get 1).length ∧ x.hentry % 8 = 0)) →
    (q.loadRegions c o (((o.get 3).length + 63) / 64 * 64 + (o.get 6).length) argLen).isSome →
    die < 4 → core < 64 → q.grantOf (some c) die core = true → (q.dieAt die).usable = true → (q.coreAt (die * 64 + core)).out = false →
    (x.replayable = true → die = x.lowestDie) →
    ∃ t, exec (.jobStart m object hostArgs) s = .next t ∧ Answered t m 0 [] ∧ (t.ctxAt c).hasJob = true ∧ (t.ctxAt c).kernels = o.kernels ∧
      (t.ctxAt c).sites = o.sites ∧ (t.ctxAt c).firstLaunch = s.launches.length ∧ t.launches.length = s.launches.length + 1 ∧
      let l := t.launchAt s.launches.length
      l.root = true ∧ l.ctx = some c ∧ l.state = .queued ∧ l.malformed = false ∧ l.prio = prio ∧ l.entry = k.entry ∧ l.policy = 1 ∧
        (l.gx, l.gy, l.gz) = (1, 1, 1) ∧ (l.lanes, l.regs, l.teamsPer, l.g, l.h, l.k) = (k.lanes, k.regs, k.teams, k.g, k.h, k.k) ∧
        l.code.valid = true ∧ l.arg.valid = true)) ∧
  (∀ (m : FwMsg) (s : State) (c : Nat), Fresh (fwCtx m) (.jobCancel m) m s → reservedZero m.args [] = true → OfContext s m c →
    ∃ t, exec (.jobCancel m) s = .next t ∧ Answered t m 0 [] ∧
      ((s.ctxAt c).hasJob = true → (∃ j < s.launches.length, (s.launchAt j).ctx = some c ∧ (s.ctxAt c).firstLaunch ≤ j ∧ s.launchOver j = false) →
        (t.ctxAt c).jobCancelled = true)) ∧
  (∀ (m : FwMsg) (s : State) (c : Nat), Fresh (fwCtx m) (.windowExport m) m s → reservedZero m.args [(8, 4), (16, 20)] = true → OfContext s m c →
    Unlocked s (s.ctxAt c).world →
    let root := fwArg m.args 8 4
    let start := fwArg m.args 16 8
    let len := fwArg m.args 24 8
    let perm := fwArg m.args 32 2
    let allow := fwArg m.args 34 2
    let r := s.rootAt (some c) root
    root < 2 ^ 20 → allow < 2 ^ 12 → len ≤ 2 ^ 56 → r.state = .live → r.kind = .loc → r.compt = 0 → r.base ≤ start → start + len ≤ r.limit →
    perm < 2 ^ 12 → BitVec.ofNat 12 perm &&& ~~~r.ceil = 0 → s.exportsOf c < 4096 → s.exports.length < 65535 →
    ∃ t k, exec (.windowExport m) s = .next t ∧ Answered t m 0 (leBytes 2 k) ∧ aget ({} : Exported) t.exports k =
      { ctx := c, entry := s.exportsOf c, root := root, start := start, length := len, perms := BitVec.ofNat 12 perm, allow := BitVec.ofNat 12 allow,
        state := .live }) ∧
  (∀ (m : FwMsg) (s : State) (c e b l : Nat), Fresh (fwCtx m) (.windowImport m) m s → reservedZero m.args [(8, 4), (16, 12)] = true →
    OfContext s m c → Unlocked s (s.ctxAt c).world →
    let peer := fwArg m.args 8 2
    let len := fwArg m.args 16 8
    let gran := fwArg m.args 26 2
    let a := (s.ctxAt c).intake + 16 * gran
    let perms := BitVec.ofNat 12 (fwArg m.args 24 2) &&& (pLD ||| pST ||| pAT ||| pENG ||| pFAB ||| pGLB)
    peer < 0xFFF → gran < 1024 → len ≤ 2 ^ 56 → (s.ctxAt c).intake ≠ 0 → a % 16 = 0 → exactEnc 0 0 len = some (e, b, l) →
    (s.claimRoot (some c) {}).isSome → s.mem.wf = true →
    ∃ t r, exec (.windowImport m) s = .next t ∧ Answered t m 0 [] ∧ (t.rootAt (some c) r).state = .live ∧
      (t.rootAt (some c) r).kind = (if Config.isHost (BitVec.ofNat 12 peer) then .host else .peer) ∧ (t.rootAt (some c) r).dev = BitVec.ofNat 12 peer ∧
      (t.rootAt (some c) r).exp = BitVec.ofNat 16 (fwArg m.args 10 2) ∧ (t.rootAt (some c) r).limit = len ∧
      leNat (t.mem.bytes a 16) = (capMk l b e 0 perms r 0).toNat ∧ t.mem.granuleValid a = true) ∧
  (∀ (m : FwMsg) (s : State) (c : Nat), reservedZero m.args [(8, 1), (12, 4)] = true → OfContext s m c → Unlocked s (s.ctxAt c).world →
    let k := fwArg m.args 12 4
    (Fresh (fwCtx m) (.windowCloseExport m) m s → fwArg m.args 8 1 = 0 → (aget ({} : Exported) s.exports k).state ≠ .free →
      (aget ({} : Exported) s.exports k).ctx = c →
      ∃ t, exec (.windowCloseExport m) s = .next t ∧ Answered t m 0 [] ∧
        aget ({} : Exported) t.exports k = { aget ({} : Exported) s.exports k with state := .closed }) ∧
    (Fresh (fwCtx m) (.windowCloseRoot m) m s → 1 ≤ k → k < 2 ^ 20 → (s.rootAt (some c) k).state = .live →
      ((s.rootAt (some c) k).kind = .peer ∨ (s.rootAt (some c) k).kind = .host) →
      ∃ t, exec (.windowCloseRoot m) s = .next t ∧ Answered t m 0 [] ∧ (t.rootAt (some c) k).state = .revoked))

/-- Groups form when a message of every other member is there with the CRC of the list, fail on another one, and re-form with a higher
generation when every other member has confirmed it; both fail at their deadline (18 R359-R361; the two messages of a re-form and their way by
another member are log 19). What the firmware reads for a command and does not get answers STATE, or DENIED of a key (log 20). A configuration command outside
CONFIG_UNLOCKED gets STATE and, in CONFIG_LOCKED or RUN, puts the interface in ERROR (that it does nothing else: log 24). ATTEST writes the evidence out, KEY_ROTATE rotates a key, makes a compartment or takes a fabric key,
LOCK_STATE moves as Table 20-5 says; rotations start at their threshold and end with their sweep (20 R387-R401). What of evidence and keys the
spec leaves open is a free value (log 9). -/
def Obligations.WorldsAndGroups : Prop :=
  (∀ (m : FwMsg) (members : List (BitVec 12)) (s : State) (c : Nat), Fresh (fwCtx m) (.groupForm m members) m s →
    reservedZero m.args [(8, 6), (16, 8)] = true → OfContext s m c → Unlocked s (s.ctxAt c).world →
    let id := fwArg m.args 8 2
    let die := fwArg m.args 10 1
    let n := fwArg m.args 11 1
    id ≠ 0 → die < 4 → 2 ≤ n → n ≤ 64 → members.length = n → members.Nodup → Config.deviceId ∈ members →
    s.groupOf c (BitVec.ofNat 16 id) = none → (s.groups.filter fun g => !g.gone).length < 256 →
    (∀ x ∈ s.scheds, x.group < s.groups.length) → (∀ g ∈ s.groupMsgs, ¬ (g.ctx = c ∧ g.group = BitVec.ofNat 16 id)) →
    ((s.readFor c m).2 = false → ∃ t, exec (.groupForm m members) s = .next t ∧ Answered t m 8 [] ∧ t.groups = s.groups) ∧
    ((s.readFor c m).2 = true → ∃ t f, exec (.groupForm m members) s = .next t ∧ m.seq ∈ (t.sender m.src).waiting ∧
      t.groupOf c (BitVec.ofNat 16 id) = some s.groups.length ∧
      let g := t.groupAt s.groups.length
      g.members = members ∧ g.die = die ∧ g.ready = false ∧ g.forming = some f ∧ f.sent = true ∧ f.members = members ∧
        f.deadline = s.now + (s.ctxAt c).fabricTimeout)) ∧
  (∀ (ctx gi gen : Nat) (id : BitVec 16) (src : BitVec 12) (crc : BitVec 32) (confirm : Bool) (f : Forming) (s : State), Live s (some ctx) →
    ((s.portFrom src).isSome ∨ (s.wayBy ctx id).isSome) → s.groupOf ctx id = some gi → (s.groupAt gi).ctx = ctx → (s.groupAt gi).id = id → (s.groupAt gi).forming = some f →
    f.sent = true → s.instanceOf gi = none → src ∈ f.members → src ≠ Config.deviceId →
    let reply (t : State) (status : Nat) (body : List Byte) : Prop :=
      (t.sender f.src).replies.getLast? = some (f.seq, replyLine (if f.reform then 0x31 else 0x30) f.seq status body)
    let formed (t : State) (g : Nat) : Prop :=
      reply t 0 (leBytes 2 (t.groupAt gi).rank ++ leBytes 2 g) ∧ (t.groupAt gi).ready = true ∧ (t.groupAt gi).forming = none ∧
      (t.groupAt gi).members = f.members ∧ (t.groupAt gi).die = f.die ∧ (t.groupAt gi).count = 0 ∧ (t.groupAt gi).gen = g
    -- every other member but this one has sent such a message
    let rest (ok : GroupMsg → Prop) : Prop :=
      ∀ d ∈ f.members, d ≠ Config.deviceId → d ≠ src → ∃ x, s.msgOf ctx id confirm d = some x ∧ x.crc = listCrc f.members ∧ ok x
    (f.reform = false → confirm = false → crc ≠ listCrc f.members →
      ∃ t, exec (.groupMessage ctx id src crc { gen := gen, confirm := confirm }) s = .next t ∧ reply t 8 [] ∧ (t.groupAt gi).forming = none ∧ (t.groupAt gi).gone = true) ∧
    (f.reform = false → confirm = false → crc = listCrc f.members → rest (fun _ => True) →
      ∃ t, exec (.groupMessage ctx id src crc { gen := gen, confirm := confirm }) s = .next t ∧ formed t 1) ∧
    (f.reform = true → confirm = false → f.gen = none → crc = listCrc f.members → rest (fun _ => True) →
      ∃ t g, exec (.groupMessage ctx id src crc { gen := gen, confirm := confirm }) s = .next t ∧ (g = 1 ∨ ((s.groupAt gi).gen < g ∧ gen < g)) ∧
        ((t.groupAt gi).forming = some { f with gen := some g } ∨ formed t g)) ∧
    (∀ g, f.reform = true → confirm = true → f.gen = some g → crc = listCrc f.members → gen = g → rest (fun x => x.gen = g) →
      ∃ t, exec (.groupMessage ctx id src crc { gen := gen, confirm := confirm }) s = .next t ∧ formed t g)) ∧
  (∀ (m : FwMsg) (members : List (BitVec 12)) (s : State) (c gi : Nat), Fresh (fwCtx m) (.groupReform m members) m s →
    reservedZero m.args [(8, 6), (16, 8)] = true → OfContext s m c → s.groupOf c (BitVec.ofNat 16 (fwArg m.args 8 2)) = some gi →
    let g := s.groupAt gi
    fwArg m.args 11 1 = 0 → g.die < 4 → Config.deviceId ∈ g.members → g.ready = true → g.forming = none →
    (s.instanceOf gi = none → (∃ d ∈ g.members, d ≠ Config.deviceId) → (∀ x ∈ s.groupMsgs, ¬ (x.ctx = c ∧ x.group = g.id)) →
      ∃ t f, exec (.groupReform m members) s = .next t ∧ (t.groupAt gi).forming = some f ∧ f.reform = true ∧ f.sent = true ∧ f.members = g.members) ∧
    (∀ sc, s.instanceOf gi = some sc → (s.schedAt sc).st = .running →
      ∃ t r, exec (.groupReform m members) s = .next t ∧ (t.schedAt sc).st = .aborting ∧ (t.schedAt sc).mine = some r ∧ r.code = 0x84 ∧
        (t.groupAt gi).forming.isSome)) ∧
  (∀ (ctx gi : Nat) (id : BitVec 16) (f : Forming) (s : State), s.groupOf ctx id = some gi → (s.groupAt gi).forming = some f → f.deadline ≤ s.now →
    ∃ t, exec (.groupFormTimeout ctx id) s = .next t ∧ (t.groupAt gi).forming = none ∧ (f.reform = false → (t.groupAt gi).gone = true) ∧
      (f.reform = true → (t.groupAt gi).gone = (s.groupAt gi).gone ∧ (t.groupAt gi).gen = (s.groupAt gi).gen) ∧
      (t.sender f.src).replies.getLast? = some (f.seq, replyLine (if f.reform then 0x31 else 0x30) f.seq 8 [])) ∧
  (∀ (w : World) (nonce : List Byte) (key : Nat), nonce.length = 32 →
    let e := evidence w nonce key
    e.length = 1664 + Config.certificate.length ∧ leNat (e.take 4) = 1 ∧ leNat ((e.drop 4).take 2) = Config.deviceId.toNat ∧
      leNat ((e.drop 8).take 2) = w.id % 65536 ∧
      e.getD 10 0 = (match w.lock with | .unlocked => 0 | .locked => 1 | .run => 2 | .error => 3) ∧ (e.drop 32).take 32 = nonce) ∧
  (∀ (m : FwMsg) (s : State) (c : Nat) (w : World), Fresh (fwCtx m) (.attest m) m s → reservedZero m.args [(8, 34), (48, 8)] = true → OfContext s m c →
    s.worldOf (some c) = some w →
    ∃ t rs, exec (.attest m) s = .next t ∧ Answered t m 0 [] ∧ t.reqs = s.reqs ++ rs ∧
      (rs.map (·.len)).sum = 1664 + Config.certificate.length ∧
      ∀ r ∈ rs, r.owner = .firmware ∧ r.dst = m.src ∧ r.exp = BitVec.ofNat 16 (fwArg m.args 40 2) ∧ r.kind = 1) ∧
  (∀ (m : FwMsg) (s : State) (c : Nat) (w : World) (k : KeySt), Fresh (fwCtx m) (.keyRotateRotate m) m s →
    reservedZero m.args [(8, 1), (12, 1)] = true → OfContext s m c → s.worldOf (some c) = some w → fwArg m.args 8 1 = 0 →
    w.key (fwArg m.args 12 1) = some k →
    (k.rotating = true → ∃ t, exec (.keyRotateRotate m) s = .next t ∧ Answered t m 8 [] ∧ Unsent s t c) ∧
    (k.rotating = false →
      ∃ t w', exec (.keyRotateRotate m) s = .next t ∧ Answered t m 0 [] ∧ t.worldOf (some c) = some w' ∧
        w'.key (fwArg m.args 12 1) = some { k with epoch := k.epoch + 1, rotating := true })) ∧
  (∀ (m : FwMsg) (code : List Byte) (s : State) (c : Nat) (w : World), Fresh (fwCtx m) (.keyRotateCompartment m code) m s →
    reservedZero m.args [(8, 1), (12, 1), (16, 10), (32, 22)] = true → OfContext s m c → s.worldOf (some c) = some w → w.lock = .unlocked →
    let k := fwArg m.args 12 1
    let size := fwArg m.args 16 8
    let a := (s.ctxAt c).intake + 16 * fwArg m.args 52 2
    fwArg m.args 8 1 = 1 → k ≠ 0 → size ≠ 0 → size % 65536 = 0 → fwArg m.args 40 8 ≤ size → fwArg m.args 52 2 < 1024 → w.key k = none →
    (s.ctxAt c).intake ≠ 0 → a % 16 = 0 → fwArg m.args 40 8 ≤ code.length →
    (∀ q, s.readFor c m = (q, false) → ∃ t, exec (.keyRotateCompartment m code) s = .next t ∧ Answered t m 3 [] ∧ Unsent s t c) ∧
    ∀ q, s.readFor c m = (q, true) → (q.region c size comptPerms 7 false k).isSome → s.mem.wf = true →
    ∃ t w', exec (.keyRotateCompartment m code) s = .next t ∧ Answered t m 0 [] ∧ t.worldOf (some c) = some w' ∧
      w'.key k = some { compt := k, epoch := 1, rotating := false } ∧
      (∃ r, (t.rootAt (some c) r).state = .live ∧ (t.rootAt (some c) r).compt = k) ∧
      capOtype (BitVec.ofNat 128 (leNat (t.mem.bytes a 16))) = 1 ∧ t.mem.granuleValid a = true) ∧
  (∀ (m : FwMsg) (cipher : List Byte) (s : State) (c : Nat) (w : World), Fresh (fwCtx m) (.keyRotateFabric m cipher) m s →
    reservedZero m.args [(8, 1), (12, 1), (24, 2), (32, 8)] = true → OfContext s m c → s.worldOf (some c) = some w → w.lock = .unlocked →
    let n := fwArg m.args 12 1
    fwArg m.args 8 1 = 2 → 1 ≤ n → n ≤ 64 →
    ∃ t, exec (.keyRotateFabric m cipher) s = .next t ∧
      (if (s.readFor c m).2 = true ∧ cipher.length = 1568 ∧ Config.decapsulates cipher = true then
        Answered t m 0 [] ∧ ∃ w', t.worldOf (some c) = some w' ∧ { w' with sent := [] } =
          { w with fabricKey := true, runLen := n, keys := (w.keys.filter fun k => k.compt ≠ 256) ++ [{ compt := 256, epoch := 1, rotating := false }]
                   sent := [] }
      else Answered t m 3 [] ∧ Unsent s t c)) ∧
  (∀ (m : FwMsg) (s : State) (c : Nat) (w : World), Fresh (fwCtx m) (.lockState m) m s → reservedZero m.args [(8, 1)] = true → OfContext s m c →
    s.worldOf (some c) = some w →
    let ask := fwArg m.args 8 1
    let jobs : Prop := ∃ x < s.contexts.length, (s.ctxAt x).world = w.id ∧ (s.ctxAt x).alive = true ∧ (s.ctxAt x).hasJob = true
    (∀ l, ((w.lock = .unlocked ∧ ask = 1 ∧ l = .locked) ∨ (w.lock = .locked ∧ ask = 2 ∧ l = .run) ∨ (w.lock = .locked ∧ ask = 0 ∧ l = .unlocked) ∨
        (w.lock = .run ∧ ask = 0 ∧ ¬ jobs ∧ l = .unlocked)) →
      ∃ t w', exec (.lockState m) s = .next t ∧ Answered t m 0 [] ∧ t.worldOf (some c) = some w' ∧ w'.lock = l ∧ w'.keys = w.keys) ∧
    ((w.lock = .error ∨ 3 ≤ ask ∨ (w.lock = .unlocked ∧ ask ≠ 1) ∨ (w.lock = .locked ∧ ask = 1) ∨ (w.lock = .run ∧ (ask ≠ 0 ∨ jobs))) →
      ∃ t, exec (.lockState m) s = .next t ∧ Answered t m 8 [] ∧ Unsent s t c)) ∧
  (∀ (world compt : Nat) (w : World) (k : KeySt) (s : State), s.worlds.find? (fun w => w.id = world) = some w → w.key compt = some k →
    (k.rotating = true → exec (.rotationThreshold world compt) s = .next s) ∧
    -- the fabric key, number 256 among the keys, is counted at the fabric ports (20 R394, log 9)
    let reached : Prop := if compt = 256 then ∃ x ∈ w.sent, 2 ^ 31 ≤ x.2 else
      ∃ x ∈ s.transfers, countKey world compt k.epoch 0 ≤ x.1 ∧ x.1 < countKey world compt (k.epoch + 1) 0 ∧ 2 ^ 31 ≤ x.2
    (¬ reached → exec (.rotationThreshold world compt) s = .next s) ∧
    (k.rotating = false → reached →
      ∃ t w', exec (.rotationThreshold world compt) s = .next t ∧ t.worlds.find? (fun w => w.id = world) = some w' ∧
        w'.key compt = some { k with epoch := k.epoch + 1, rotating := true } ∧ t.mem = s.mem ∧ t.teams = s.teams) ∧
    (∃ t w', exec (.rotationSweepComplete world compt) s = .next t ∧ t.worlds.find? (fun w => w.id = world) = some w' ∧
      w'.key compt = some { k with rotating := false } ∧ t.mem = s.mem ∧ t.teams = s.teams ∧
      (k.rotating = true → ∀ x ∈ t.transfers, ¬ (countKey world compt 0 0 ≤ x.1 ∧ x.1 < countKey world compt k.epoch 0)))) ∧
  (∀ (m : FwMsg) (s : State) (c : Nat) (w : World), Fresh (fwCtx m) (.poolGrant m) m s → reservedZero m.args [(8, 1), (16, 16)] = true →
    OfContext s m c → s.worldOf (some c) = some w → w.lock ≠ .unlocked →
    ∃ t w', exec (.poolGrant m) s = .next t ∧ Answered t m 8 [] ∧ t.worldOf (some c) = some w' ∧ w'.lock = .error ∧ t.contexts = s.contexts ∧
      t.freeMem = s.freeMem ∧ t.exports = s.exports)

/-! Observation. -/

/-- RECORD_START lays the enabled streams out in its region and writes their headers, RECORD_STOP ends the recording; each cycle gives every
recorded core six slots, which a snapshot has charged to its leaves; a sample takes the next team of its core, KIND or LANEPORT for one that has
still to issue; REPLAY_START takes a log; an epoch ends with its arrivals delivered, and the next begins (21 R403-R410, R417-R419). Whether a
log is of this recording, and what of a running team a sample sees, are free values; where epochs and their numbers begin, and that a replay
keeps the job until the log's JOB_START, are the model's (log 21). -/
def Obligations.Observation : Prop :=
  (∀ (what : BitVec 4) (len : Nat), 65536 ≤ len → ∀ i < 4, what.getLsbD i = true →
    let x := (streamAreas what len).getD i (0, 0)
    65536 ≤ x.1 ∧ x.1 % 64 = 0 ∧ x.2 % 64 = 0 ∧ x.1 + x.2 ≤ len ∧
      ∀ j < 4, what.getLsbD j = true → i < j → ((streamAreas what len).getD j (0, 0)).2 = x.2 ∧ x.1 + x.2 ≤ ((streamAreas what len).getD j (0, 0)).1) ∧
  (∀ (m : FwMsg) (s : State) (c : Nat), Fresh (fwCtx m) (.recordStart m) m s → reservedZero m.args [(8, 2), (12, 21), (36, 4)] = true →
    OfContext s m c →
    let what := fwArg m.args 8 1
    let dies := fwArg m.args 9 1
    let root := fwArg m.args 12 4
    let len := fwArg m.args 24 8
    let sper := fwArg m.args 32 1
    let r := s.rootAt (some c) root
    let a := r.base + fwArg m.args 16 8
    1 ≤ what → what < 16 → dies < 16 → fwArg m.args 16 8 % 65536 = 0 → len % 65536 = 0 → 262144 ≤ len → 10 ≤ sper → sper ≤ 24 →
    (s.ctxAt c).recorder.on = false → (8 ≤ what → (s.ctxAt c).replayable = true ∧ (s.ctxAt c).hasJob = false) →
    root < 2 ^ 20 → r.state = .live → r.kind = .loc → r.compt = 0 → a + len ≤ r.limit →
    ∃ t, exec (.recordStart m) s = .next t ∧ Answered t m 0 [] ∧
      (let x := (t.ctxAt c).recorder
       x.on = true ∧ x.what = BitVec.ofNat 4 what ∧ x.dies = (if dies = 0 then (s.ctxAt c).dies else BitVec.ofNat 4 dies) ∧ x.region = a ∧
         x.areas = streamAreas (BitVec.ofNat 4 what) len ∧ x.sper = sper ∧ x.snap = fwArg m.args 36 4 ∧ x.start = s.now) ∧
      (8 ≤ what → t.inEpoch (some c) = true ∧ (t.ctxAt c).epoch = 0 ∧ (t.ctxAt c).sentHeads = []) ∧
      ∀ f, (∀ i < 4, s.runsOf c (a + 64 * i) 64 = some [(f + 64 * i, 64)]) → s.mem.wf = true → ∀ i < 4,
        let x := (streamAreas (BitVec.ofNat 4 what) len).getD i (0, 0)
        t.mem.bytes (f + 64 * i) 64 = List.replicate 24 0 ++ leBytes 8 x.1 ++ leBytes 8 x.2 ++ List.replicate 24 0) ∧
  (∀ (m : FwMsg) (s : State) (c : Nat), Fresh (fwCtx m) (.recordStop m) m s → reservedZero m.args [] = true → OfContext s m c →
    ((s.ctxAt c).recorder.on = true → ∃ t, exec (.recordStop m) s = .next t ∧ Answered t m 0 [] ∧ (t.ctxAt c).recorder = {}) ∧
    ((s.ctxAt c).recorder.on = false → ∃ t, exec (.recordStop m) s = .next t ∧ Answered t m 5 [])) ∧
  (∀ (m : FwMsg) (s : State) (c : Nat) (a : Nat) (log : Replay), Fresh (fwCtx m) (.replayStart m) m s → reservedZero m.args [(12, 20)] = true →
    OfContext s m c → fwArg m.args 16 8 % 65536 = 0 → fwArg m.args 24 8 % 65536 = 0 → 262144 ≤ fwArg m.args 24 8 →
    (s.ctxAt c).replayable = true → (s.ctxAt c).hasJob = true → (s.ctxAt c).holdJob = true →
    s.regionAt c (fwArg m.args 12 4) (fwArg m.args 16 8) (fwArg m.args 24 8) = some a → s.readLog c a = some log →
    ∃ t, exec (.replayStart m) s = .next t ∧
      if Config.recordedProfile c a s.tick = ((s.ctxAt c).object, (s.ctxAt c).hostArgs, (s.ctxAt c).quantum, (s.ctxAt c).sizes) then Answered t m 0 [] ∧ (t.ctxAt c).holdJob = true ∧ (t.ctxAt c).replay = some log ∧ (t.ctxAt c).epoch = 0 ∧ (t.ctxAt c).sentHeads = []
      else Answered t m 8 [] ∧ (t.ctxAt c).holdJob = true ∧ (t.ctxAt c).replay = (s.ctxAt c).replay) ∧
  (∀ (c : Nat) (s : State), let r := (s.ctxAt c).recorder
    c < s.contexts.length → r.on = true → r.what.getLsbD 0 = true → r.snap ≠ 0 → r.since + r.snap * 2 ^ 20 ≤ s.now →
    ∃ t, exec (.counterSnapshot c) s = .next t ∧ t.teams = s.teams ∧ t.crews = s.crews ∧ (t.ctxAt c).recorder.since = s.now ∧
      (∀ p < 256, p ∈ (t.ctxAt c).recorder.seen ↔ ∃ i ∈ s.crewsOn p, (s.crewAt i).ctx = some c) ∧
      (awf ({} : SlotCount) s.slotCounts = true → ∀ p < 256, r.seen.contains p = true → r.dies.getLsbD (p / 64) = true →
        (s.slotsOf c p).leaves.length = 16 →
        (t.slotsOf c p).leaves.sum = (s.slotsOf c p).leaves.sum + (s.slotsOf c p).laneOpen + (s.slotsOf c p).scalarOpen ∧
          (t.slotsOf c p).laneOpen = 0 ∧ (t.slotsOf c p).scalarOpen = 0)) ∧
  (∀ (c p n : Nat) (s : State), (c, p) ∈ s.countedCores → awf ({} : SlotCount) s.slotCounts = true →
    let k := s.slotsOf c p
    let k' := (s.countCycles n).slotsOf c p
    k.leaves.length = 16 → (∀ o ∈ k.owed, ∀ p ∈ o.passes, p.1 < 16) →
      k'.leaves.sum + k'.laneOpen + k'.scalarOpen = k.leaves.sum + k.laneOpen + k.scalarOpen + 6 * n) ∧
  (∀ (c die core i : Nat) (s : State), let r := (s.ctxAt c).recorder
    let p := die * 64 + core
    let teams := ((s.crewsOn p).filter fun i => (s.crewAt i).ctx = some c).flatMap s.crewTeams
    let last := aget (0, 0) r.nextTeam p
    let period := (s.now - r.start) / 2 ^ r.sper
    let u := s.teamAt i
    c < s.contexts.length → r.on = true → r.what.getLsbD 2 = true → die < 4 → core < 64 → r.dies.getLsbD die = true → last.1 < period →
    teams[last.2 % teams.length]? = some i → (s.crewAt u.crew).ctx = some c →
    ∃ t word, exec (.pcSample c die core) s = .next t ∧ t.teams = s.teams ∧ t.crews = s.crews ∧
      aget (0, 0) (t.ctxAt c).recorder.nextTeam p = (period, last.2 % teams.length + 1) ∧
      t.mem = (s.recordTo c 2 die core 4 (leBytes 8 word ++ leBytes 8 ((s.crewAt u.crew).crewid.toNat * 2 ^ 32 + u.num % 16))).mem ∧
      (u.alive = false → word = (u.pc + 8).toNat + 2 ^ 59) ∧
      (u.alive = true → (s.slotsOf c p).issued.contains i = true → word = u.lastPc.toNat + 2 ^ 57) ∧
      (∀ o, u.alive = true → (s.slotsOf c p).issued.contains i = false → (s.slotsOf c p).owed.find? (fun o => o.team = i) = some o →
        word = u.lastPc.toNat + (if (s.slotsOf c p).portBusy ≠ 0 ∧ (o.passes.headD (0, 0)).2 ≠ 0 then 8 else 9) * 2 ^ 60) ∧
      (u.alive = true → (s.slotsOf c p).issued.contains i = false → (∀ o ∈ (s.slotsOf c p).owed, o.team ≠ i) →
        let waits := u.wait ≠ none ∨ u.st = .stopped ∨ u.halted = true ∨ (s.crewAt u.crew).state = .saving
        (waits → word = u.pc.toNat + 4 * 2 ^ 60) ∧
        (¬ waits → u.codeReq ≠ none → word = u.pc.toNat + 2 ^ 58) ∧
        (¬ waits → u.codeReq = none → u.acquiring = true ∨ (u.stalled = true ∧ u.ordered = true) → word = u.pc.toNat + 6 * 2 ^ 60) ∧
        (¬ waits → u.codeReq = none → u.acquiring = false → u.stalled = true → u.ordered = false → word = u.pc.toNat + 7 * 2 ^ 60)) ∧
      (u.alive = true → word % 2 ^ 57 = u.pc.toNat ∨ word % 2 ^ 57 = u.lastPc.toNat)) ∧
  (∀ (c : Nat) (s : State), let x := s.ctxAt c
    c < s.contexts.length → s.inEpoch (some c) = true → x.replay = none →
    (∀ i < s.crews.length, (s.crewAt i).ctx = some c → s.epochDone i = true) → (∀ d ∈ s.senders, d.queue = []) →
    (x.held = [] → ∃ t, exec (.epochEnd c) s = .next t ∧ (t.ctxAt c).epoch = x.epoch + 1 ∧ (t.ctxAt c).held = [] ∧
      (∀ i < s.teams.length, t.teamAt i = if s.ctxOf (s.teamAt i) = some c then { s.teamAt i with epochUsed := 0 } else s.teamAt i) ∧
      (t.ctxAt c).sentHeads = [] ∧ ∀ i < s.crews.length, (s.crewAt i).ctx = some c → (t.crewAt i).epochUsed = 0) ∧
    (∀ p k r n, x.held = [.ack p] → s.reqOf p = some k → s.reqAt k = some r → r.owner = .command n →
      ∃ t, exec (.epochEnd c) s = .next t ∧ t.reqs[k]? = some { r with st := .acked } ∧ (t.ctxAt c).epoch = x.epoch + 1))

/-! The debugger. -/

/-- A command that stands in a context's mailbox is performed once and answered there (21 R411-R416): one whose SEQ has been served does nothing;
ATTACH and RENEW give a lease; an unlisted CODE or a reserved byte set is MALFORMED (log 23, as what the other classes than 0-3 of a WRITE get,
the tag of a predicate, which team a command names, and that HALT stops a team that skids at once); DETACH and LEASE_EXPIRY clear what the debugger has set and let its teams run, breakpoints and watchpoints
are kept by number, HALT and RESUME stop a team and let it run, READ and WRITE reach the registers of a halted team. -/
def Obligations.DebuggerCommands : Prop :=
  (∀ (i : Instr) (m : DbgMsg) (s : State),
    i ∈ [Instr.attach m, .detach m, .renew m, .bpSet m, .bpClr m, .wpSet m, .wpClr m, .debugHalt m, .resume m, .debugRead m, .debugWrite m] →
    m.seq = (s.ctxAt m.ctx).dbg.seq → exec i s = .next s) ∧
  (∀ (m : DbgMsg) (s : State), s.inMailbox m 0x01 = true → s.mem.wf = true → m.code ≠ 0x01 ∨ m.rsv ≠ 0 ∨ reservedZero m.args [(8, 4)] = false →
    ∃ t, exec (.attach m) s = .next t ∧ DbgReply s t m 1 [] ∧ t.teams = s.teams) ∧
  (∀ (m : DbgMsg) (s : State), Stands s m 0x01 → s.mem.wf = true → reservedZero m.args [(8, 4)] = true →
    let ms := fwArg m.args 8 4
    1 ≤ ms → ms ≤ 60000 →
    ((s.ctxAt m.ctx).dbg.attached = true → ∃ t, exec (.attach m) s = .next t ∧ DbgReply s t m 8 [] ∧ t.teams = s.teams) ∧
    ((s.ctxAt m.ctx).dbg.attached = false →
      ∃ t, exec (.attach m) s = .next t ∧ DbgReply s t m 0 [] ∧ t.teams = s.teams ∧ (t.ctxAt m.ctx).dbg.attached = true ∧
        (t.ctxAt m.ctx).dbg.lease = ms * 1000 * s.clock ∧ (t.ctxAt m.ctx).dbg.until_ = s.now + ms * 1000 * s.clock)) ∧
  (∀ (m : DbgMsg) (s : State), s.mem.wf = true → (s.ctxAt m.ctx).dbg.attached = true →
    let d := (s.ctxAt m.ctx).dbg
    let freed (t : State) (c : Nat) : Prop := (t.ctxAt c).dbg.attached = false ∧ (t.ctxAt c).dbg.bps = [] ∧ (t.ctxAt c).dbg.wps = [] ∧
      ∀ i < s.teams.length, (s.crewAt (s.teamAt i).crew).ctx = some c → (t.teamAt i).halted = false ∧ (t.teamAt i).steps = 0 ∧
        (t.teamAt i).pc = if (s.teamAt i).halted && (s.teamAt i).byEvent then (s.teamAt i).trappc else (s.teamAt i).pc
    (Stands s m 0x02 → reservedZero m.args [] = true →
      ∃ t, exec (.detach m) s = .next t ∧ DbgReply s t m 0 [] ∧ freed t m.ctx) ∧
    (m.ctx < s.contexts.length → d.until_ ≤ s.now → ∃ t, exec (.leaseExpiry m.ctx) s = .next t ∧ t.mem = s.mem ∧ freed t m.ctx) ∧
    (Stands s m 0x03 → reservedZero m.args [] = true →
      ∃ t, exec (.renew m) s = .next t ∧ DbgReply s t m 0 [] ∧ t.teams = s.teams ∧ (t.ctxAt m.ctx).dbg = { d with seq := m.seq, until_ := s.now + d.lease }) ∧
    (Stands s m 0x10 → reservedZero m.args [(8, 1), (16, 12)] = true → fwArg m.args 8 1 < 8 → fwArg m.args 16 8 < 2 ^ 57 →
      ∃ t, exec (.bpSet m) s = .next t ∧ DbgReply s t m 0 [] ∧ t.teams = s.teams ∧
        (∀ b, (fwArg m.args 8 1, b) ∈ (t.ctxAt m.ctx).dbg.bps ↔
          b = { addr := BitVec.ofNat 57 (fwArg m.args 16 8), teamid := BitVec.ofNat 32 (fwArg m.args 24 4) }) ∧
        ∀ n b, n ≠ fwArg m.args 8 1 → ((n, b) ∈ (t.ctxAt m.ctx).dbg.bps ↔ (n, b) ∈ d.bps)) ∧
    (Stands s m 0x11 → reservedZero m.args [(8, 1)] = true → fwArg m.args 8 1 < 8 →
      ∃ t, exec (.bpClr m) s = .next t ∧ DbgReply s t m 0 [] ∧ t.teams = s.teams ∧
        ∀ x, x ∈ (t.ctxAt m.ctx).dbg.bps ↔ x ∈ d.bps ∧ x.1 ≠ fwArg m.args 8 1) ∧
    (Stands s m 0x12 → reservedZero m.args [(8, 3), (16, 16)] = true → fwArg m.args 8 1 < 4 → fwArg m.args 9 1 < 2 →
      fwArg m.args 10 1 < 4 → fwArg m.args 24 4 ≤ 20 → fwArg m.args 16 8 % 2 ^ fwArg m.args 24 4 = 0 →
      ∃ t, exec (.wpSet m) s = .next t ∧ DbgReply s t m 0 [] ∧ t.teams = s.teams ∧
        (∀ w, (fwArg m.args 8 1, w) ∈ (t.ctxAt m.ctx).dbg.wps ↔
          w = { scratch := decide (fwArg m.args 9 1 = 1), reads := (fwArg m.args 10 1).testBit 0, writes := (fwArg m.args 10 1).testBit 1
                addr := fwArg m.args 16 8, len := 2 ^ fwArg m.args 24 4, crewid := BitVec.ofNat 32 (fwArg m.args 28 4) }) ∧
        ∀ n w, n ≠ fwArg m.args 8 1 → ((n, w) ∈ (t.ctxAt m.ctx).dbg.wps ↔ (n, w) ∈ d.wps)) ∧
    (Stands s m 0x13 → reservedZero m.args [(8, 1)] = true → fwArg m.args 8 1 < 4 →
      ∃ t, exec (.wpClr m) s = .next t ∧ DbgReply s t m 0 [] ∧ t.teams = s.teams ∧
        ∀ x, x ∈ (t.ctxAt m.ctx).dbg.wps ↔ x ∈ d.wps ∧ x.1 ≠ fwArg m.args 8 1)) ∧
  (∀ (m : DbgMsg) (s : State), s.mem.wf = true → (s.ctxAt m.ctx).dbg.attached = true →
    (Stands s m 0x20 → reservedZero m.args [(8, 5)] = true → s.namedTeam m = none →
      ∃ t, exec (.debugHalt m) s = .next t ∧ DbgReply s t m 5 [] ∧ t.teams = s.teams) ∧
    ∀ i, s.namedTeam m = some i → i < s.teams.length → Shaped (s.teamAt i) → s.comptOf (s.teamAt i) = 0 →
      let u := s.teamAt i
      (Stands s m 0x20 → reservedZero m.args [(8, 5)] = true →
        (u.alive = true → (∀ k, u.st ≠ .skid k) →
          ∃ t, exec (.debugHalt m) s = .next t ∧ DbgReply s t m 0 [] ∧ t.teams = s.teams.set i { u with halted := true }) ∧
        (∀ k, u.st = .skid k → ∃ t, exec (.debugHalt m) s = .next t ∧ (t.teamAt i).halted = true ∧ (t.teamAt i).st = .stopped)) ∧
      (Stands s m 0x21 → reservedZero m.args [(8, 5), (16, 4)] = true → u.alive = true →
        ∃ t, exec (.resume m) s = .next t ∧ DbgReply s t m 0 [] ∧ t.teams = s.teams.set i
          (if u.halted && u.byEvent then
            { u with steps := fwArg m.args 16 4, stepPending := false, halted := false, byEvent := false, pc := u.trappc, bpSkip := true
                     half := none, code := [], codeReq := none }
          else { u with steps := fwArg m.args 16 4, stepPending := false, halted := false })) ∧
      (let cls := fwArg m.args 13 1
       let n := fwArg m.args 14 1
       let l := fwArg m.args 16 2
       (Stands s m 0x22 → reservedZero m.args [(8, 7), (16, 2)] = true →
        (u.halted = false → ∃ t, exec (.debugRead m) s = .next t ∧ DbgReply s t m 8 [] ∧ t.teams = s.teams) ∧
        (∀ (v : Nat) (tag : Tag), u.halted = true →
          ((cls = 0 ∧ n < 64 ∧ v = (u.sreg n).v.toNat ∧ tag = (u.sreg n).tag) ∨
            (cls = 1 ∧ n < u.vregs ∧ l < u.nlanes ∧ v = (u.velem n l).v.toNat ∧ tag = (u.velem n l).tag) ∨
            (cls = 3 ∧ n < 24 ∧ l < u.nlanes ∧ v = (if (u.preg n).getLsbD l then 1 else 0) ∧ tag = 0)) →
          ∃ t, exec (.debugRead m) s = .next t ∧ DbgReply s t m 0 (List.replicate 16 0 ++ leBytes 8 v ++ leBytes 3 tag.toNat) ∧ t.teams = s.teams)) ∧
       (Stands s m 0x23 → reservedZero m.args [(8, 7), (16, 2), (24, 8)] = true →
        let v := fwArg m.args 24 8
        (u.halted = false → ∃ t, exec (.debugWrite m) s = .next t ∧ DbgReply s t m 8 [] ∧ t.teams = s.teams) ∧
        (u.halted = true → 4 ≤ cls → ∃ t, exec (.debugWrite m) s = .next t ∧ DbgReply s t m 3 [] ∧ t.teams = s.teams) ∧
        (u.halted = true → cls = 0 → n < 64 →
          ∃ t, exec (.debugWrite m) s = .next t ∧ DbgReply s t m 0 [] ∧ t.teams = s.teams.set i (u.setS n (BitVec.ofNat 64 v) 0)) ∧
        (u.halted = true → cls = 1 → n < u.vregs → l < u.nlanes →
          ∃ t, exec (.debugWrite m) s = .next t ∧ DbgReply s t m 0 [] ∧ (t.teamAt i).velem n l = { v := BitVec.ofNat 32 v, tag := 0, full := true } ∧
            SameRegs u (t.teamAt i) { v := fun r k => r = n ∧ k = l }) ∧
        (u.halted = true → cls = 2 → n = 9 →
          ∃ t, exec (.debugWrite m) s = .next t ∧ DbgReply s t m 0 [] ∧ t.teams = s.teams.set i { u with ttimer := BitVec.ofNat 64 v }) ∧
        (u.halted = true → cls = 3 → n < 24 → l < u.nlanes →
          ∃ t, exec (.debugWrite m) s = .next t ∧ DbgReply s t m 0 [] ∧ ∀ k, ((t.teamAt i).preg n).getLsbD k =
            if k = l then decide (v % 2 = 1) else (u.preg n).getLsbD k))))

/-! Schedules. -/

/-- A start begins the next instance of its group, or ends ILLEGAL, or aborts at the first operation that fails; operations are issued in
order, start when what they fence and overlap has completed, move their chunks and complete; loops and END; packets reach the instance that
they name, and votes make it abort and decide (18 R362-R375, R379; the layout of packets is open, log 19). -/
def Obligations.Schedules : Prop :=
  (∀ (cmd ctx : Nat) (s : State), s.canBegin cmd = true → (s.crewAt (s.cmdAt cmd).crew).ctx = some ctx →
    let c := s.cmdAt cmd
    let k := c.dst.getD {}
    let base := capCursor k.bits + bitsAt (wordAt c.w 0) 0 32
    let len := 8 * bitsAt (wordAt c.w 3) 0 16
    let read := State.readSchedule cmd k base len (len / 16 + 2) s
    let named := s.groupOf ctx (BitVec.ofNat 16 (bitsAt (wordAt c.w 2) 48 16))
    (named = none → ∃ t, exec (.startBegin cmd) s = .next t ∧ Stopped t cmd 0x01 ∧ t.scheds = s.scheds) ∧
    ∀ gi, named = some gi →
      let g := s.groupAt gi
      (g.ready = true → g.forming ≠ none → exec (.startBegin cmd) s = .next s) ∧
      (g.ready = false ∨ (g.forming = none ∧ g.die ≠ c.die) → ∃ t, exec (.startBegin cmd) s = .next t ∧ Stopped t cmd 0x01 ∧ t.scheds = s.scheds) ∧
      (g.ready = true → g.forming = none → g.die = c.die → read.2 = none → exec (.startBegin cmd) s = .next read.1) ∧
      -- q is the state in which the schedule has been read, `bad` the fault of a line that could not be
      (∀ q bad, g.ready = true → g.forming = none → g.die = c.die → read = (q, some bad) → (q.groupAt gi).held = [] →
        ∃ t, exec (.startBegin cmd) s = .next t ∧ (t.cmdAt cmd).state = .running ∧ (t.cmdAt cmd).sched = some q.scheds.length ∧
          (t.groupAt gi).count = (q.groupAt gi).count + 1 ∧ t.scheds.take q.scheds.length = q.scheds ∧
          let x := t.schedAt q.scheds.length
          let h := q.groupAt gi
          x.cmd = cmd ∧ x.group = gi ∧ x.inst = h.count ∧ x.gen = h.gen ∧ x.die = (q.cmdAt cmd).die ∧ x.pc = 0 ∧ x.issued = [] ∧
          x.slot < 16 ∧ (∀ y ∈ q.scheds, y.st ≠ .free → y.die = (q.cmdAt cmd).die → y.slot ≠ x.slot) ∧
          (∀ sp y, c.buf = [] → c.rd = 0 → c.req = none → c.linkFail = none → 1 ≤ len → base % 64 + len ≤ 64 →
            s.way c k base len pLD false = .ok (.mem sp y) →
            x.ops = scheduleOps (len / 8 + 1) ((s.spaceMem c.crew sp).bytes y len)) ∧
          match firstInvalid h.rank h.n (t.chunkOf q.scheds.length) ((List.range 16).filter fun b => ((q.cmdAt cmd).slots.getD b none).isSome) 0 0 x.ops with
          | none => x.st = .running
          | some j => x.st = .aborting ∧ x.mine = some (report 0x83 h.rank j) ∧ x.votes = [(h.rank, some (report 0x83 h.rank j))])) ∧
  (∀ (sc k kind : Nat) (i : Instr) (s : State), OpEvent sc k kind i → sc < s.scheds.length →
    let x := s.schedAt sc
    let g := s.groupAt x.group
    let o := x.opAt k
    let w := x.ops.getD x.pc 0
    let n := s.nchOf sc
    let chunk := s.chunkOf sc
    let at_ (lo : Nat) (r : Nat × Nat) : Prop := r = chunkRef (bitsAt w lo 16) g.rank (innerI x.loops) n
    let addr (r : Nat × Nat) : Nat := capCursor (s.slotCap sc r.1).bits + r.2 * chunk
    (x.st = .running → (s.cmdAt x.cmd).cancelled = true → ∃ t, exec i s = .next t ∧ (t.schedAt sc).st = .aborting ∧
      (t.schedAt sc).mine = some (report 0x84 g.rank x.lowest)) ∧
    (Running s sc → k = x.issued.length → opOf w = kind → (x.issued.filter fun o => o.st ≠ .done).length < 64 →
      ∃ t o', exec i s = .next t ∧ t.schedAt sc = { x with issued := x.issued ++ [o'], pc := x.pc + 1 } ∧
        o'.j = x.pc ∧ o'.w = w ∧ o'.st = .issued ∧ o'.bytes = 0 ∧ o'.acked = 0 ∧ (kind ∈ [1, 2, 3, 6, 7] → o'.peer = schedPeer w g.rank g.n) ∧
        (kind ∈ [2, 3, 4, 5] → ∃ r, at_ 16 r ∧ o'.dst = some (r.1, r.2, addr r)) ∧
        (kind ∈ [1, 3, 4, 5] → ∃ r, at_ 0 r ∧ o'.srcA = some (r.1, addr r)) ∧
        (kind = 5 → ∃ r, at_ 32 r ∧ o'.srcB = some (r.1, addr r)) ∧
        (kind = 1 → o'.k = (x.issued.filter fun o => o.op = 1 && o.peer = o'.peer).length) ∧
        (kind ∈ [2, 3] → o'.k = (x.issued.filter fun o => o.receives && o.peer = o'.peer).length)) ∧
    (Running s sc → k < x.issued.length → o.op = kind → o.st = .issued →
      (s.opReady sc k = false → exec i s = .next s) ∧
      (s.opReady sc k = true → ∃ t, exec i s = .next t ∧ (t.schedAt sc).opAt k = { o with st := .started, last := s.now } ∧
        (s.replaying (some g.ctx) = false →
          (kind = 2 ∨ kind = 3 → Sends s t (collPacket g x .credit o.peer (o.k * chunk))) ∧
          (kind = 7 → Sends s t (collPacket g x .signal o.peer o.k)) ∧
          (kind = 10 → ∀ m ∈ g.others, Sends s t (collPacket g x .barrier m o.k))))) ∧
    (Running s sc → k < x.issued.length → o.op = kind → o.st = .started →
      (kind = 7 → exec i s = .next s) ∧
      (kind = 6 → exec i s = .next (if bitsAt o.w 0 16 ≤ aget 0 x.signals o.peer then s.doneOp sc k else s)) ∧
      (kind = 10 → exec i s = .next (if g.others.all fun m => o.k < aget 0 x.arrived m then s.doneOp sc k else s)) ∧
      (let c := s.cmdAt x.cmd
       (∀ (slot ch base y : Nat) (sp : Space) (bs : List (Byte × Tag)), kind ∈ [2, 3, 4, 5] → o.dst = some (slot, ch, base) → UnitOf s sc k bs →
        let a := base + o.bytes + o.wr
        let line := min (bs.length - o.wr) (64 - a % 64)
        let m := if sp = .scratch then min line (16 - a % 16) else line
        o.req = none → s.way c (s.slotCap sc slot) a line pST true = .ok (.mem sp y) → c.linkFail = none → (s.spaceMem c.crew sp).wf = true →
        (sp = .scratch → c.crew < s.crews.length) →
        ∃ t, exec i s = .next t ∧ (t.spaceMem c.crew sp).bytes y m = ((bs.drop o.wr).take m).map (·.1) ∧
          (∀ z, (z < y ∨ y + m ≤ z) → (t.spaceMem c.crew sp).byte z = (s.spaceMem c.crew sp).byte z) ∧
          ((t.schedAt sc).opAt k).bytes = (if o.wr + m < bs.length then o.bytes else o.bytes + bs.length) ∧
          ((t.schedAt sc).opAt k).wr = (if o.wr + m < bs.length then o.wr + m else 0) ∧
          (((t.schedAt sc).opAt k).st = .done ↔ bs.length ≤ o.wr + m ∧ o.bytes + bs.length = chunk)) ∧
       (∀ (slot base y : Nat) (sp : Space), kind = 4 → o.srcA = some (slot, base) → bytesIn o.a o.bytes (o.unit chunk 1) = none → o.req = none →
        let off := reach o.a o.bytes
        let m := min (o.bytes + o.unit chunk 1 - off) (64 - (base + off) % 64)
        s.way c (s.slotCap sc slot) (base + off) m pLD false = .ok (.mem sp y) → c.linkFail = none →
        ∃ t, exec i s = .next t ∧ t.mem = s.mem ∧ t.teams = s.teams ∧ t.crews = s.crews ∧
          t.scheds = (s.modOp sc k fun o => { o with a := o.a ++ [(s.spaceMem c.crew sp).piece y m off], req := none }).scheds) ∧
       (∀ (slot base : Nat) (bs : List (Byte × Tag)), kind = 1 → o.srcA = some (slot, base) →
        let off := (base + o.bytes) % 64
        let m := min (chunk - o.bytes) (64 - off)
        bytesIn o.a o.bytes m = some bs →
        ((x.credits.contains (o.peer, o.k) = false ∨ o.bytes = chunk) → exec i s = .next s) ∧
        (x.credits.contains (o.peer, o.k) = true → o.bytes ≠ chunk →
          ∃ t p, exec i s = .next t ∧ (t.schedAt sc).opAt k = { o with bytes := o.bytes + m, a := [] } ∧
            { p with otag := 0, kind := 0, scales := 0 } =
              collPacket g x .data o.peer (o.k * chunk + o.bytes) off (off + m - 1) (lineWith off (bs.map (·.1))) ∧
            (s.replaying (some g.ctx) = false → Sends s t p)))))) ∧
  (∀ (sc : Nat) (s : State), Running s sc →
    let x := s.schedAt sc
    let w := x.ops.getD x.pc 0
    (opOf w = 8 → ∃ t, exec (.schedLoop sc) s = .next t ∧
      t.schedAt sc = { x with pc := x.pc + 1, loops := { body := x.pc + 1, i := 0, count := bitsAt w 0 16 } :: x.loops }) ∧
    (∀ l ls, opOf w = 9 → x.loops = l :: ls → ∃ t, exec (.endloop sc) s = .next t ∧
      t.schedAt sc = (if l.i + 1 < l.count then { x with pc := l.body, loops := { l with i := l.i + 1 } :: ls } else { x with pc := x.pc + 1, loops := ls })) ∧
    (opOf w = 15 → (∀ o ∈ x.issued, o.st = .done) → x.cmd < s.cmds.length → (s.cmdAt x.cmd).state ≠ .done → (s.cmdAt x.cmd).cause = 0 →
      ∃ t, exec (.endSched sc) s = .next t ∧ (t.schedAt sc).st = .free ∧ Stopped t x.cmd 0) ∧
    (∀ k peer addr, s.awaits sc (x.opAt k) = some (peer, addr) →
      (x.opAt k).last + (s.ctxAt (s.groupAt x.group).ctx).fabricTimeout ≤ s.now →
      ∃ t, exec (.abortedTimeout sc k) s = .next t ∧ (t.schedAt sc).st = .aborting ∧ (t.schedAt sc).mine = some (report 0x82 peer (x.opAt k).j) ∧
        (t.schedAt sc).cause = 0x31 ∧ (t.schedAt sc).addr = BitVec.ofNat 64 addr)) ∧
  (∀ (sc : Nat) (s : State), sc < s.scheds.length → (s.schedAt sc).st = .aborting →
    let x := s.schedAt sc
    let g := s.groupAt x.group
    let missing := (List.range g.n).filter fun r => !x.votes.any fun v => v.1 = r
    let reports := x.votes.filterMap (·.2) ++ (missing.head?.map fun m => report 0x82 m 0xFFFF).toList
    let key (r : Report) : Nat := (precedence r.code * 256 + r.member.toNat) * 65536 + r.step.toNat
    missing = [] ∨ x.abortAt + (s.ctxAt g.ctx).fabricTimeout ≤ s.now → reports ≠ [] → (∀ r ∈ reports, r.code ≠ 0) → x.cmd < s.cmds.length →
    (s.cmdAt x.cmd).state ≠ .done →
    ∃ t r, exec (.abortDecide sc) s = .next t ∧ r ∈ reports ∧ (∀ r' ∈ reports, key r ≤ key r') ∧ (t.schedAt sc).st = .free ∧
      Stopped t x.cmd r.code ∧ (t.cmdAt x.cmd).addr = BitVec.ofNat 64 (r.step.toNat * 65536 + r.member.toNat * 256 + r.code.toNat)) ∧
  (∀ (p : Packet) (gi sc : Nat) (s : State), ForInstance s p gi sc →
    let x := s.schedAt sc
    let g := s.groupAt x.group
    let peer := g.rankOf p.src
    let addr := p.addr.toNat
    let chunk := s.chunkOf sc
    (x.st = .running →
      ∃ t, exec (.collectivePacket p) s = .next t ∧
        (collOf p.op = some .credit → (t.schedAt sc).credits = x.credits ++ [(peer, addr / chunk)]) ∧
        (collOf p.op = some .signal → aget 0 (t.schedAt sc).signals peer = aget 0 x.signals peer + 1) ∧
        (collOf p.op = some .barrier → aget 0 (t.schedAt sc).arrived peer = max (addr + 1) (aget 0 x.arrived peer)) ∧
        (collOf p.op = some .data → ∀ i, Finds x peer (fun o => o.receives && o.k = addr / chunk) i → addr % chunk + pktLen p ≤ chunk →
          ∃ piece, piece.off = addr % chunk ∧ piece.bytes = (p.line.drop p.first.toNat).take (pktLen p) ∧
            (t.schedAt sc).opAt i = (let o := x.opAt i
              if o.op = 2 then { o with a := o.a ++ [piece], last := s.now } else { o with b := o.b ++ [piece], last := s.now })) ∧
        (collOf p.op = some .dataAck → ∀ i, Finds x peer (fun o => o.op = 1 && o.k = addr / chunk) i →
          ((t.schedAt sc).opAt i).acked = (x.opAt i).acked + pktLen p ∧
          (((t.schedAt sc).opAt i).st = .done ↔ chunk ≤ (x.opAt i).acked + pktLen p)) ∧
        (collOf p.op = some .sigAck → ∀ i, Finds x peer (fun o => o.op = 7 && o.k = addr) i → ((t.schedAt sc).opAt i).st = .done)) ∧
    (∀ (voter : Nat) (r : Option Report), voter < g.n →
      (x.st = .running → ∃ t, exec (.vote p voter r) s = .next t ∧ (t.schedAt sc).st = .aborting ∧ (t.schedAt sc).mine = none ∧
        (t.schedAt sc).votes = (g.rank, none) :: (if voter = g.rank then [] else [(voter, r)])) ∧
      (x.st = .aborting → ∃ t, exec (.vote p voter r) s = .next t ∧ (t.schedAt sc).st = .aborting ∧
        (t.schedAt sc).votes = if x.votes.any (fun v => v.1 = voter) then x.votes else x.votes ++ [(voter, r)]))) ∧
  (∀ (p : Packet) (gi : Nat) (s : State), s.packetGroup p = some gi → (p.gen = BitVec.ofNat 16 (s.groupAt gi).gen ∨ s.fromS7 p.src = true) →
    s.instanceOf gi = none → (s.groupAt gi).count % 65536 = p.xid.toNat → Live s (s.groupCtx p) → Accepted s (s.groupCtx p) p 3 (fun _ => true) →
    (s.groupAt gi).held.length < 64 →
    ∃ t, exec (.collectivePacket p) s = .next t ∧ t.scheds = s.scheds ∧
      (t.groupAt gi).held = (s.groupAt gi).held ++ [.collectivePacket { p with tagOk := true }])
end

