-- ==== Sys2Proof/Laws/State.lean ====
section
/-! SUPPORT. The state's updates: what each leaves of every field, and what is read back. -/
namespace Sys2Proof.Machine

/-! One normal form: the updates by function are updates by value. -/

@[simp] theorem State.modTeam_eq (s : State) (i : Nat) (f : Team → Team) : s.modTeam i f = s.setTeamAt i (f (s.teamAt i)) := rfl
@[simp] theorem State.setTeam_eq (s : State) (t : Team) : s.setTeam t = s.setTeamAt s.cur t := rfl
@[simp] theorem State.modCrew_eq (s : State) (i : Nat) (f : Crew → Crew) : s.modCrew i f = s.setCrewAt i (f (s.crewAt i)) := rfl
@[simp] theorem Team.writeV_eq (t : Team) (r l : Nat) (x : BitVec 32) (tag : Tag) :
    t.writeV r l x tag = (t.setV r l { v := x, tag := tag, full := true }).setVvalid r l false := rfl
@[simp] theorem Team.emptyV_eq (t : Team) (r l : Nat) : t.emptyV r l = t.setV r l { t.velem r l with full := false } := rfl

/-! `State.setTeamAt` changes `teams` alone. -/

@[simp] theorem State.setTeamAt_tick (s : State) (i : Nat) (t : Team) : (s.setTeamAt i t).tick = s.tick := rfl
@[simp] theorem State.setTeamAt_agenda (s : State) (i : Nat) (t : Team) : (s.setTeamAt i t).agenda = s.agenda := rfl
@[simp] theorem State.setTeamAt_cur (s : State) (i : Nat) (t : Team) : (s.setTeamAt i t).cur = s.cur := rfl
@[simp] theorem State.setTeamAt_now (s : State) (i : Nat) (t : Team) : (s.setTeamAt i t).now = s.now := rfl
@[simp] theorem State.setTeamAt_crews (s : State) (i : Nat) (t : Team) : (s.setTeamAt i t).crews = s.crews := rfl
@[simp] theorem State.setTeamAt_launches (s : State) (i : Nat) (t : Team) : (s.setTeamAt i t).launches = s.launches := rfl
@[simp] theorem State.setTeamAt_levelRuns (s : State) (i : Nat) (t : Team) : (s.setTeamAt i t).levelRuns = s.levelRuns := rfl
@[simp] theorem State.setTeamAt_cmds (s : State) (i : Nat) (t : Team) : (s.setTeamAt i t).cmds = s.cmds := rfl
@[simp] theorem State.setTeamAt_contexts (s : State) (i : Nat) (t : Team) : (s.setTeamAt i t).contexts = s.contexts := rfl
@[simp] theorem State.setTeamAt_cores (s : State) (i : Nat) (t : Team) : (s.setTeamAt i t).cores = s.cores := rfl
@[simp] theorem State.setTeamAt_dies (s : State) (i : Nat) (t : Team) : (s.setTeamAt i t).dies = s.dies := rfl
@[simp] theorem State.setTeamAt_mem (s : State) (i : Nat) (t : Team) : (s.setTeamAt i t).mem = s.mem := rfl
@[simp] theorem State.setTeamAt_llc (s : State) (i : Nat) (t : Team) : (s.setTeamAt i t).llc = s.llc := rfl
@[simp] theorem State.setTeamAt_fwRoots (s : State) (i : Nat) (t : Team) : (s.setTeamAt i t).fwRoots = s.fwRoots := rfl
@[simp] theorem State.setTeamAt_ports (s : State) (i : Nat) (t : Team) : (s.setTeamAt i t).ports = s.ports := rfl
@[simp] theorem State.setTeamAt_routes (s : State) (i : Nat) (t : Team) : (s.setTeamAt i t).routes = s.routes := rfl
@[simp] theorem State.setTeamAt_exports (s : State) (i : Nat) (t : Team) : (s.setTeamAt i t).exports = s.exports := rfl
@[simp] theorem State.setTeamAt_reqs (s : State) (i : Nat) (t : Team) : (s.setTeamAt i t).reqs = s.reqs := rfl
@[simp] theorem State.setTeamAt_worlds (s : State) (i : Nat) (t : Team) : (s.setTeamAt i t).worlds = s.worlds := rfl
@[simp] theorem State.setTeamAt_freeMem (s : State) (i : Nat) (t : Team) : (s.setTeamAt i t).freeMem = s.freeMem := rfl
@[simp] theorem State.setTeamAt_senders (s : State) (i : Nat) (t : Team) : (s.setTeamAt i t).senders = s.senders := rfl
@[simp] theorem State.setTeamAt_groups (s : State) (i : Nat) (t : Team) : (s.setTeamAt i t).groups = s.groups := rfl
@[simp] theorem State.setTeamAt_groupMsgs (s : State) (i : Nat) (t : Team) : (s.setTeamAt i t).groupMsgs = s.groupMsgs := rfl
@[simp] theorem State.setTeamAt_scheds (s : State) (i : Nat) (t : Team) : (s.setTeamAt i t).scheds = s.scheds := rfl
@[simp] theorem State.setTeamAt_slotCounts (s : State) (i : Nat) (t : Team) : (s.setTeamAt i t).slotCounts = s.slotCounts := rfl
@[simp] theorem State.setTeamAt_llcCounts (s : State) (i : Nat) (t : Team) : (s.setTeamAt i t).llcCounts = s.llcCounts := rfl
@[simp] theorem State.setTeamAt_transfers (s : State) (i : Nat) (t : Team) : (s.setTeamAt i t).transfers = s.transfers := rfl
@[simp] theorem State.setTeamAt_clock (s : State) (i : Nat) (t : Team) : (s.setTeamAt i t).clock = s.clock := rfl
@[simp] theorem State.setTeamAt_poweredOn (s : State) (i : Nat) (t : Team) : (s.setTeamAt i t).poweredOn = s.poweredOn := rfl
@[simp] theorem State.setTeamAt_poweredDown (s : State) (i : Nat) (t : Team) : (s.setTeamAt i t).poweredDown = s.poweredDown := rfl

/-! `State.setCrewAt` changes `crews` alone. -/

@[simp] theorem State.setCrewAt_tick (s : State) (i : Nat) (c : Crew) : (s.setCrewAt i c).tick = s.tick := rfl
@[simp] theorem State.setCrewAt_agenda (s : State) (i : Nat) (c : Crew) : (s.setCrewAt i c).agenda = s.agenda := rfl
@[simp] theorem State.setCrewAt_cur (s : State) (i : Nat) (c : Crew) : (s.setCrewAt i c).cur = s.cur := rfl
@[simp] theorem State.setCrewAt_now (s : State) (i : Nat) (c : Crew) : (s.setCrewAt i c).now = s.now := rfl
@[simp] theorem State.setCrewAt_teams (s : State) (i : Nat) (c : Crew) : (s.setCrewAt i c).teams = s.teams := rfl
@[simp] theorem State.setCrewAt_launches (s : State) (i : Nat) (c : Crew) : (s.setCrewAt i c).launches = s.launches := rfl
@[simp] theorem State.setCrewAt_levelRuns (s : State) (i : Nat) (c : Crew) : (s.setCrewAt i c).levelRuns = s.levelRuns := rfl
@[simp] theorem State.setCrewAt_cmds (s : State) (i : Nat) (c : Crew) : (s.setCrewAt i c).cmds = s.cmds := rfl
@[simp] theorem State.setCrewAt_contexts (s : State) (i : Nat) (c : Crew) : (s.setCrewAt i c).contexts = s.contexts := rfl
@[simp] theorem State.setCrewAt_cores (s : State) (i : Nat) (c : Crew) : (s.setCrewAt i c).cores = s.cores := rfl
@[simp] theorem State.setCrewAt_dies (s : State) (i : Nat) (c : Crew) : (s.setCrewAt i c).dies = s.dies := rfl
@[simp] theorem State.setCrewAt_mem (s : State) (i : Nat) (c : Crew) : (s.setCrewAt i c).mem = s.mem := rfl
@[simp] theorem State.setCrewAt_llc (s : State) (i : Nat) (c : Crew) : (s.setCrewAt i c).llc = s.llc := rfl
@[simp] theorem State.setCrewAt_fwRoots (s : State) (i : Nat) (c : Crew) : (s.setCrewAt i c).fwRoots = s.fwRoots := rfl
@[simp] theorem State.setCrewAt_ports (s : State) (i : Nat) (c : Crew) : (s.setCrewAt i c).ports = s.ports := rfl
@[simp] theorem State.setCrewAt_routes (s : State) (i : Nat) (c : Crew) : (s.setCrewAt i c).routes = s.routes := rfl
@[simp] theorem State.setCrewAt_exports (s : State) (i : Nat) (c : Crew) : (s.setCrewAt i c).exports = s.exports := rfl
@[simp] theorem State.setCrewAt_reqs (s : State) (i : Nat) (c : Crew) : (s.setCrewAt i c).reqs = s.reqs := rfl
@[simp] theorem State.setCrewAt_worlds (s : State) (i : Nat) (c : Crew) : (s.setCrewAt i c).worlds = s.worlds := rfl
@[simp] theorem State.setCrewAt_freeMem (s : State) (i : Nat) (c : Crew) : (s.setCrewAt i c).freeMem = s.freeMem := rfl
@[simp] theorem State.setCrewAt_senders (s : State) (i : Nat) (c : Crew) : (s.setCrewAt i c).senders = s.senders := rfl
@[simp] theorem State.setCrewAt_groups (s : State) (i : Nat) (c : Crew) : (s.setCrewAt i c).groups = s.groups := rfl
@[simp] theorem State.setCrewAt_groupMsgs (s : State) (i : Nat) (c : Crew) : (s.setCrewAt i c).groupMsgs = s.groupMsgs := rfl
@[simp] theorem State.setCrewAt_scheds (s : State) (i : Nat) (c : Crew) : (s.setCrewAt i c).scheds = s.scheds := rfl
@[simp] theorem State.setCrewAt_slotCounts (s : State) (i : Nat) (c : Crew) : (s.setCrewAt i c).slotCounts = s.slotCounts := rfl
@[simp] theorem State.setCrewAt_llcCounts (s : State) (i : Nat) (c : Crew) : (s.setCrewAt i c).llcCounts = s.llcCounts := rfl
@[simp] theorem State.setCrewAt_transfers (s : State) (i : Nat) (c : Crew) : (s.setCrewAt i c).transfers = s.transfers := rfl
@[simp] theorem State.setCrewAt_clock (s : State) (i : Nat) (c : Crew) : (s.setCrewAt i c).clock = s.clock := rfl
@[simp] theorem State.setCrewAt_poweredOn (s : State) (i : Nat) (c : Crew) : (s.setCrewAt i c).poweredOn = s.poweredOn := rfl
@[simp] theorem State.setCrewAt_poweredDown (s : State) (i : Nat) (c : Crew) : (s.setCrewAt i c).poweredDown = s.poweredDown := rfl

/-! `State.modLaunch` changes `launches` alone. -/

@[simp] theorem State.modLaunch_tick (s : State) (i : Nat) (f : Launch → Launch) : (s.modLaunch i f).tick = s.tick := rfl
@[simp] theorem State.modLaunch_agenda (s : State) (i : Nat) (f : Launch → Launch) : (s.modLaunch i f).agenda = s.agenda := rfl
@[simp] theorem State.modLaunch_cur (s : State) (i : Nat) (f : Launch → Launch) : (s.modLaunch i f).cur = s.cur := rfl
@[simp] theorem State.modLaunch_now (s : State) (i : Nat) (f : Launch → Launch) : (s.modLaunch i f).now = s.now := rfl
@[simp] theorem State.modLaunch_teams (s : State) (i : Nat) (f : Launch → Launch) : (s.modLaunch i f).teams = s.teams := rfl
@[simp] theorem State.modLaunch_crews (s : State) (i : Nat) (f : Launch → Launch) : (s.modLaunch i f).crews = s.crews := rfl
@[simp] theorem State.modLaunch_levelRuns (s : State) (i : Nat) (f : Launch → Launch) : (s.modLaunch i f).levelRuns = s.levelRuns := rfl
@[simp] theorem State.modLaunch_cmds (s : State) (i : Nat) (f : Launch → Launch) : (s.modLaunch i f).cmds = s.cmds := rfl
@[simp] theorem State.modLaunch_contexts (s : State) (i : Nat) (f : Launch → Launch) : (s.modLaunch i f).contexts = s.contexts := rfl
@[simp] theorem State.modLaunch_cores (s : State) (i : Nat) (f : Launch → Launch) : (s.modLaunch i f).cores = s.cores := rfl
@[simp] theorem State.modLaunch_dies (s : State) (i : Nat) (f : Launch → Launch) : (s.modLaunch i f).dies = s.dies := rfl
@[simp] theorem State.modLaunch_mem (s : State) (i : Nat) (f : Launch → Launch) : (s.modLaunch i f).mem = s.mem := rfl
@[simp] theorem State.modLaunch_llc (s : State) (i : Nat) (f : Launch → Launch) : (s.modLaunch i f).llc = s.llc := rfl
@[simp] theorem State.modLaunch_fwRoots (s : State) (i : Nat) (f : Launch → Launch) : (s.modLaunch i f).fwRoots = s.fwRoots := rfl
@[simp] theorem State.modLaunch_ports (s : State) (i : Nat) (f : Launch → Launch) : (s.modLaunch i f).ports = s.ports := rfl
@[simp] theorem State.modLaunch_routes (s : State) (i : Nat) (f : Launch → Launch) : (s.modLaunch i f).routes = s.routes := rfl
@[simp] theorem State.modLaunch_exports (s : State) (i : Nat) (f : Launch → Launch) : (s.modLaunch i f).exports = s.exports := rfl
@[simp] theorem State.modLaunch_reqs (s : State) (i : Nat) (f : Launch → Launch) : (s.modLaunch i f).reqs = s.reqs := rfl
@[simp] theorem State.modLaunch_worlds (s : State) (i : Nat) (f : Launch → Launch) : (s.modLaunch i f).worlds = s.worlds := rfl
@[simp] theorem State.modLaunch_freeMem (s : State) (i : Nat) (f : Launch → Launch) : (s.modLaunch i f).freeMem = s.freeMem := rfl
@[simp] theorem State.modLaunch_senders (s : State) (i : Nat) (f : Launch → Launch) : (s.modLaunch i f).senders = s.senders := rfl
@[simp] theorem State.modLaunch_groups (s : State) (i : Nat) (f : Launch → Launch) : (s.modLaunch i f).groups = s.groups := rfl
@[simp] theorem State.modLaunch_groupMsgs (s : State) (i : Nat) (f : Launch → Launch) : (s.modLaunch i f).groupMsgs = s.groupMsgs := rfl
@[simp] theorem State.modLaunch_scheds (s : State) (i : Nat) (f : Launch → Launch) : (s.modLaunch i f).scheds = s.scheds := rfl
@[simp] theorem State.modLaunch_slotCounts (s : State) (i : Nat) (f : Launch → Launch) : (s.modLaunch i f).slotCounts = s.slotCounts := rfl
@[simp] theorem State.modLaunch_llcCounts (s : State) (i : Nat) (f : Launch → Launch) : (s.modLaunch i f).llcCounts = s.llcCounts := rfl
@[simp] theorem State.modLaunch_transfers (s : State) (i : Nat) (f : Launch → Launch) : (s.modLaunch i f).transfers = s.transfers := rfl
@[simp] theorem State.modLaunch_clock (s : State) (i : Nat) (f : Launch → Launch) : (s.modLaunch i f).clock = s.clock := rfl
@[simp] theorem State.modLaunch_poweredOn (s : State) (i : Nat) (f : Launch → Launch) : (s.modLaunch i f).poweredOn = s.poweredOn := rfl
@[simp] theorem State.modLaunch_poweredDown (s : State) (i : Nat) (f : Launch → Launch) : (s.modLaunch i f).poweredDown = s.poweredDown := rfl

/-! `State.modCtx` changes `contexts` alone. -/

@[simp] theorem State.modCtx_tick (s : State) (i : Nat) (f : Context → Context) : (s.modCtx i f).tick = s.tick := rfl
@[simp] theorem State.modCtx_agenda (s : State) (i : Nat) (f : Context → Context) : (s.modCtx i f).agenda = s.agenda := rfl
@[simp] theorem State.modCtx_cur (s : State) (i : Nat) (f : Context → Context) : (s.modCtx i f).cur = s.cur := rfl
@[simp] theorem State.modCtx_now (s : State) (i : Nat) (f : Context → Context) : (s.modCtx i f).now = s.now := rfl
@[simp] theorem State.modCtx_teams (s : State) (i : Nat) (f : Context → Context) : (s.modCtx i f).teams = s.teams := rfl
@[simp] theorem State.modCtx_crews (s : State) (i : Nat) (f : Context → Context) : (s.modCtx i f).crews = s.crews := rfl
@[simp] theorem State.modCtx_launches (s : State) (i : Nat) (f : Context → Context) : (s.modCtx i f).launches = s.launches := rfl
@[simp] theorem State.modCtx_levelRuns (s : State) (i : Nat) (f : Context → Context) : (s.modCtx i f).levelRuns = s.levelRuns := rfl
@[simp] theorem State.modCtx_cmds (s : State) (i : Nat) (f : Context → Context) : (s.modCtx i f).cmds = s.cmds := rfl
@[simp] theorem State.modCtx_cores (s : State) (i : Nat) (f : Context → Context) : (s.modCtx i f).cores = s.cores := rfl
@[simp] theorem State.modCtx_dies (s : State) (i : Nat) (f : Context → Context) : (s.modCtx i f).dies = s.dies := rfl
@[simp] theorem State.modCtx_mem (s : State) (i : Nat) (f : Context → Context) : (s.modCtx i f).mem = s.mem := rfl
@[simp] theorem State.modCtx_llc (s : State) (i : Nat) (f : Context → Context) : (s.modCtx i f).llc = s.llc := rfl
@[simp] theorem State.modCtx_fwRoots (s : State) (i : Nat) (f : Context → Context) : (s.modCtx i f).fwRoots = s.fwRoots := rfl
@[simp] theorem State.modCtx_ports (s : State) (i : Nat) (f : Context → Context) : (s.modCtx i f).ports = s.ports := rfl
@[simp] theorem State.modCtx_routes (s : State) (i : Nat) (f : Context → Context) : (s.modCtx i f).routes = s.routes := rfl
@[simp] theorem State.modCtx_exports (s : State) (i : Nat) (f : Context → Context) : (s.modCtx i f).exports = s.exports := rfl
@[simp] theorem State.modCtx_reqs (s : State) (i : Nat) (f : Context → Context) : (s.modCtx i f).reqs = s.reqs := rfl
@[simp] theorem State.modCtx_worlds (s : State) (i : Nat) (f : Context → Context) : (s.modCtx i f).worlds = s.worlds := rfl
@[simp] theorem State.modCtx_freeMem (s : State) (i : Nat) (f : Context → Context) : (s.modCtx i f).freeMem = s.freeMem := rfl
@[simp] theorem State.modCtx_senders (s : State) (i : Nat) (f : Context → Context) : (s.modCtx i f).senders = s.senders := rfl
@[simp] theorem State.modCtx_groups (s : State) (i : Nat) (f : Context → Context) : (s.modCtx i f).groups = s.groups := rfl
@[simp] theorem State.modCtx_groupMsgs (s : State) (i : Nat) (f : Context → Context) : (s.modCtx i f).groupMsgs = s.groupMsgs := rfl
@[simp] theorem State.modCtx_scheds (s : State) (i : Nat) (f : Context → Context) : (s.modCtx i f).scheds = s.scheds := rfl
@[simp] theorem State.modCtx_slotCounts (s : State) (i : Nat) (f : Context → Context) : (s.modCtx i f).slotCounts = s.slotCounts := rfl
@[simp] theorem State.modCtx_llcCounts (s : State) (i : Nat) (f : Context → Context) : (s.modCtx i f).llcCounts = s.llcCounts := rfl
@[simp] theorem State.modCtx_transfers (s : State) (i : Nat) (f : Context → Context) : (s.modCtx i f).transfers = s.transfers := rfl
@[simp] theorem State.modCtx_clock (s : State) (i : Nat) (f : Context → Context) : (s.modCtx i f).clock = s.clock := rfl
@[simp] theorem State.modCtx_poweredOn (s : State) (i : Nat) (f : Context → Context) : (s.modCtx i f).poweredOn = s.poweredOn := rfl
@[simp] theorem State.modCtx_poweredDown (s : State) (i : Nat) (f : Context → Context) : (s.modCtx i f).poweredDown = s.poweredDown := rfl

/-! `State.modCmd` changes `cmds` alone. -/

@[simp] theorem State.modCmd_tick (s : State) (i : Nat) (f : Cmd → Cmd) : (s.modCmd i f).tick = s.tick := rfl
@[simp] theorem State.modCmd_agenda (s : State) (i : Nat) (f : Cmd → Cmd) : (s.modCmd i f).agenda = s.agenda := rfl
@[simp] theorem State.modCmd_cur (s : State) (i : Nat) (f : Cmd → Cmd) : (s.modCmd i f).cur = s.cur := rfl
@[simp] theorem State.modCmd_now (s : State) (i : Nat) (f : Cmd → Cmd) : (s.modCmd i f).now = s.now := rfl
@[simp] theorem State.modCmd_teams (s : State) (i : Nat) (f : Cmd → Cmd) : (s.modCmd i f).teams = s.teams := rfl
@[simp] theorem State.modCmd_crews (s : State) (i : Nat) (f : Cmd → Cmd) : (s.modCmd i f).crews = s.crews := rfl
@[simp] theorem State.modCmd_launches (s : State) (i : Nat) (f : Cmd → Cmd) : (s.modCmd i f).launches = s.launches := rfl
@[simp] theorem State.modCmd_levelRuns (s : State) (i : Nat) (f : Cmd → Cmd) : (s.modCmd i f).levelRuns = s.levelRuns := rfl
@[simp] theorem State.modCmd_contexts (s : State) (i : Nat) (f : Cmd → Cmd) : (s.modCmd i f).contexts = s.contexts := rfl
@[simp] theorem State.modCmd_cores (s : State) (i : Nat) (f : Cmd → Cmd) : (s.modCmd i f).cores = s.cores := rfl
@[simp] theorem State.modCmd_dies (s : State) (i : Nat) (f : Cmd → Cmd) : (s.modCmd i f).dies = s.dies := rfl
@[simp] theorem State.modCmd_mem (s : State) (i : Nat) (f : Cmd → Cmd) : (s.modCmd i f).mem = s.mem := rfl
@[simp] theorem State.modCmd_llc (s : State) (i : Nat) (f : Cmd → Cmd) : (s.modCmd i f).llc = s.llc := rfl
@[simp] theorem State.modCmd_fwRoots (s : State) (i : Nat) (f : Cmd → Cmd) : (s.modCmd i f).fwRoots = s.fwRoots := rfl
@[simp] theorem State.modCmd_ports (s : State) (i : Nat) (f : Cmd → Cmd) : (s.modCmd i f).ports = s.ports := rfl
@[simp] theorem State.modCmd_routes (s : State) (i : Nat) (f : Cmd → Cmd) : (s.modCmd i f).routes = s.routes := rfl
@[simp] theorem State.modCmd_exports (s : State) (i : Nat) (f : Cmd → Cmd) : (s.modCmd i f).exports = s.exports := rfl
@[simp] theorem State.modCmd_reqs (s : State) (i : Nat) (f : Cmd → Cmd) : (s.modCmd i f).reqs = s.reqs := rfl
@[simp] theorem State.modCmd_worlds (s : State) (i : Nat) (f : Cmd → Cmd) : (s.modCmd i f).worlds = s.worlds := rfl
@[simp] theorem State.modCmd_freeMem (s : State) (i : Nat) (f : Cmd → Cmd) : (s.modCmd i f).freeMem = s.freeMem := rfl
@[simp] theorem State.modCmd_senders (s : State) (i : Nat) (f : Cmd → Cmd) : (s.modCmd i f).senders = s.senders := rfl
@[simp] theorem State.modCmd_groups (s : State) (i : Nat) (f : Cmd → Cmd) : (s.modCmd i f).groups = s.groups := rfl
@[simp] theorem State.modCmd_groupMsgs (s : State) (i : Nat) (f : Cmd → Cmd) : (s.modCmd i f).groupMsgs = s.groupMsgs := rfl
@[simp] theorem State.modCmd_scheds (s : State) (i : Nat) (f : Cmd → Cmd) : (s.modCmd i f).scheds = s.scheds := rfl
@[simp] theorem State.modCmd_slotCounts (s : State) (i : Nat) (f : Cmd → Cmd) : (s.modCmd i f).slotCounts = s.slotCounts := rfl
@[simp] theorem State.modCmd_llcCounts (s : State) (i : Nat) (f : Cmd → Cmd) : (s.modCmd i f).llcCounts = s.llcCounts := rfl
@[simp] theorem State.modCmd_transfers (s : State) (i : Nat) (f : Cmd → Cmd) : (s.modCmd i f).transfers = s.transfers := rfl
@[simp] theorem State.modCmd_clock (s : State) (i : Nat) (f : Cmd → Cmd) : (s.modCmd i f).clock = s.clock := rfl
@[simp] theorem State.modCmd_poweredOn (s : State) (i : Nat) (f : Cmd → Cmd) : (s.modCmd i f).poweredOn = s.poweredOn := rfl
@[simp] theorem State.modCmd_poweredDown (s : State) (i : Nat) (f : Cmd → Cmd) : (s.modCmd i f).poweredDown = s.poweredDown := rfl

/-! `State.modCore` changes `cores` alone. -/

@[simp] theorem State.modCore_tick (s : State) (i : Nat) (f : CoreSt → CoreSt) : (s.modCore i f).tick = s.tick := rfl
@[simp] theorem State.modCore_agenda (s : State) (i : Nat) (f : CoreSt → CoreSt) : (s.modCore i f).agenda = s.agenda := rfl
@[simp] theorem State.modCore_cur (s : State) (i : Nat) (f : CoreSt → CoreSt) : (s.modCore i f).cur = s.cur := rfl
@[simp] theorem State.modCore_now (s : State) (i : Nat) (f : CoreSt → CoreSt) : (s.modCore i f).now = s.now := rfl
@[simp] theorem State.modCore_teams (s : State) (i : Nat) (f : CoreSt → CoreSt) : (s.modCore i f).teams = s.teams := rfl
@[simp] theorem State.modCore_crews (s : State) (i : Nat) (f : CoreSt → CoreSt) : (s.modCore i f).crews = s.crews := rfl
@[simp] theorem State.modCore_launches (s : State) (i : Nat) (f : CoreSt → CoreSt) : (s.modCore i f).launches = s.launches := rfl
@[simp] theorem State.modCore_levelRuns (s : State) (i : Nat) (f : CoreSt → CoreSt) : (s.modCore i f).levelRuns = s.levelRuns := rfl
@[simp] theorem State.modCore_cmds (s : State) (i : Nat) (f : CoreSt → CoreSt) : (s.modCore i f).cmds = s.cmds := rfl
@[simp] theorem State.modCore_contexts (s : State) (i : Nat) (f : CoreSt → CoreSt) : (s.modCore i f).contexts = s.contexts := rfl
@[simp] theorem State.modCore_dies (s : State) (i : Nat) (f : CoreSt → CoreSt) : (s.modCore i f).dies = s.dies := rfl
@[simp] theorem State.modCore_mem (s : State) (i : Nat) (f : CoreSt → CoreSt) : (s.modCore i f).mem = s.mem := rfl
@[simp] theorem State.modCore_llc (s : State) (i : Nat) (f : CoreSt → CoreSt) : (s.modCore i f).llc = s.llc := rfl
@[simp] theorem State.modCore_fwRoots (s : State) (i : Nat) (f : CoreSt → CoreSt) : (s.modCore i f).fwRoots = s.fwRoots := rfl
@[simp] theorem State.modCore_ports (s : State) (i : Nat) (f : CoreSt → CoreSt) : (s.modCore i f).ports = s.ports := rfl
@[simp] theorem State.modCore_routes (s : State) (i : Nat) (f : CoreSt → CoreSt) : (s.modCore i f).routes = s.routes := rfl
@[simp] theorem State.modCore_exports (s : State) (i : Nat) (f : CoreSt → CoreSt) : (s.modCore i f).exports = s.exports := rfl
@[simp] theorem State.modCore_reqs (s : State) (i : Nat) (f : CoreSt → CoreSt) : (s.modCore i f).reqs = s.reqs := rfl
@[simp] theorem State.modCore_worlds (s : State) (i : Nat) (f : CoreSt → CoreSt) : (s.modCore i f).worlds = s.worlds := rfl
@[simp] theorem State.modCore_freeMem (s : State) (i : Nat) (f : CoreSt → CoreSt) : (s.modCore i f).freeMem = s.freeMem := rfl
@[simp] theorem State.modCore_senders (s : State) (i : Nat) (f : CoreSt → CoreSt) : (s.modCore i f).senders = s.senders := rfl
@[simp] theorem State.modCore_groups (s : State) (i : Nat) (f : CoreSt → CoreSt) : (s.modCore i f).groups = s.groups := rfl
@[simp] theorem State.modCore_groupMsgs (s : State) (i : Nat) (f : CoreSt → CoreSt) : (s.modCore i f).groupMsgs = s.groupMsgs := rfl
@[simp] theorem State.modCore_scheds (s : State) (i : Nat) (f : CoreSt → CoreSt) : (s.modCore i f).scheds = s.scheds := rfl
@[simp] theorem State.modCore_slotCounts (s : State) (i : Nat) (f : CoreSt → CoreSt) : (s.modCore i f).slotCounts = s.slotCounts := rfl
@[simp] theorem State.modCore_llcCounts (s : State) (i : Nat) (f : CoreSt → CoreSt) : (s.modCore i f).llcCounts = s.llcCounts := rfl
@[simp] theorem State.modCore_transfers (s : State) (i : Nat) (f : CoreSt → CoreSt) : (s.modCore i f).transfers = s.transfers := rfl
@[simp] theorem State.modCore_clock (s : State) (i : Nat) (f : CoreSt → CoreSt) : (s.modCore i f).clock = s.clock := rfl
@[simp] theorem State.modCore_poweredOn (s : State) (i : Nat) (f : CoreSt → CoreSt) : (s.modCore i f).poweredOn = s.poweredOn := rfl
@[simp] theorem State.modCore_poweredDown (s : State) (i : Nat) (f : CoreSt → CoreSt) : (s.modCore i f).poweredDown = s.poweredDown := rfl

/-! `State.modDie` changes `dies` alone. -/

@[simp] theorem State.modDie_tick (s : State) (i : Nat) (f : DieSt → DieSt) : (s.modDie i f).tick = s.tick := rfl
@[simp] theorem State.modDie_agenda (s : State) (i : Nat) (f : DieSt → DieSt) : (s.modDie i f).agenda = s.agenda := rfl
@[simp] theorem State.modDie_cur (s : State) (i : Nat) (f : DieSt → DieSt) : (s.modDie i f).cur = s.cur := rfl
@[simp] theorem State.modDie_now (s : State) (i : Nat) (f : DieSt → DieSt) : (s.modDie i f).now = s.now := rfl
@[simp] theorem State.modDie_teams (s : State) (i : Nat) (f : DieSt → DieSt) : (s.modDie i f).teams = s.teams := rfl
@[simp] theorem State.modDie_crews (s : State) (i : Nat) (f : DieSt → DieSt) : (s.modDie i f).crews = s.crews := rfl
@[simp] theorem State.modDie_launches (s : State) (i : Nat) (f : DieSt → DieSt) : (s.modDie i f).launches = s.launches := rfl
@[simp] theorem State.modDie_levelRuns (s : State) (i : Nat) (f : DieSt → DieSt) : (s.modDie i f).levelRuns = s.levelRuns := rfl
@[simp] theorem State.modDie_cmds (s : State) (i : Nat) (f : DieSt → DieSt) : (s.modDie i f).cmds = s.cmds := rfl
@[simp] theorem State.modDie_contexts (s : State) (i : Nat) (f : DieSt → DieSt) : (s.modDie i f).contexts = s.contexts := rfl
@[simp] theorem State.modDie_cores (s : State) (i : Nat) (f : DieSt → DieSt) : (s.modDie i f).cores = s.cores := rfl
@[simp] theorem State.modDie_mem (s : State) (i : Nat) (f : DieSt → DieSt) : (s.modDie i f).mem = s.mem := rfl
@[simp] theorem State.modDie_llc (s : State) (i : Nat) (f : DieSt → DieSt) : (s.modDie i f).llc = s.llc := rfl
@[simp] theorem State.modDie_fwRoots (s : State) (i : Nat) (f : DieSt → DieSt) : (s.modDie i f).fwRoots = s.fwRoots := rfl
@[simp] theorem State.modDie_ports (s : State) (i : Nat) (f : DieSt → DieSt) : (s.modDie i f).ports = s.ports := rfl
@[simp] theorem State.modDie_routes (s : State) (i : Nat) (f : DieSt → DieSt) : (s.modDie i f).routes = s.routes := rfl
@[simp] theorem State.modDie_exports (s : State) (i : Nat) (f : DieSt → DieSt) : (s.modDie i f).exports = s.exports := rfl
@[simp] theorem State.modDie_reqs (s : State) (i : Nat) (f : DieSt → DieSt) : (s.modDie i f).reqs = s.reqs := rfl
@[simp] theorem State.modDie_worlds (s : State) (i : Nat) (f : DieSt → DieSt) : (s.modDie i f).worlds = s.worlds := rfl
@[simp] theorem State.modDie_freeMem (s : State) (i : Nat) (f : DieSt → DieSt) : (s.modDie i f).freeMem = s.freeMem := rfl
@[simp] theorem State.modDie_senders (s : State) (i : Nat) (f : DieSt → DieSt) : (s.modDie i f).senders = s.senders := rfl
@[simp] theorem State.modDie_groups (s : State) (i : Nat) (f : DieSt → DieSt) : (s.modDie i f).groups = s.groups := rfl
@[simp] theorem State.modDie_groupMsgs (s : State) (i : Nat) (f : DieSt → DieSt) : (s.modDie i f).groupMsgs = s.groupMsgs := rfl
@[simp] theorem State.modDie_scheds (s : State) (i : Nat) (f : DieSt → DieSt) : (s.modDie i f).scheds = s.scheds := rfl
@[simp] theorem State.modDie_slotCounts (s : State) (i : Nat) (f : DieSt → DieSt) : (s.modDie i f).slotCounts = s.slotCounts := rfl
@[simp] theorem State.modDie_llcCounts (s : State) (i : Nat) (f : DieSt → DieSt) : (s.modDie i f).llcCounts = s.llcCounts := rfl
@[simp] theorem State.modDie_transfers (s : State) (i : Nat) (f : DieSt → DieSt) : (s.modDie i f).transfers = s.transfers := rfl
@[simp] theorem State.modDie_clock (s : State) (i : Nat) (f : DieSt → DieSt) : (s.modDie i f).clock = s.clock := rfl
@[simp] theorem State.modDie_poweredOn (s : State) (i : Nat) (f : DieSt → DieSt) : (s.modDie i f).poweredOn = s.poweredOn := rfl
@[simp] theorem State.modDie_poweredDown (s : State) (i : Nat) (f : DieSt → DieSt) : (s.modDie i f).poweredDown = s.poweredDown := rfl

/-! `State.modRun` changes `levelRuns` alone. -/

@[simp] theorem State.modRun_tick (s : State) (i : Nat) (f : LevelRun → LevelRun) : (s.modRun i f).tick = s.tick := rfl
@[simp] theorem State.modRun_agenda (s : State) (i : Nat) (f : LevelRun → LevelRun) : (s.modRun i f).agenda = s.agenda := rfl
@[simp] theorem State.modRun_cur (s : State) (i : Nat) (f : LevelRun → LevelRun) : (s.modRun i f).cur = s.cur := rfl
@[simp] theorem State.modRun_now (s : State) (i : Nat) (f : LevelRun → LevelRun) : (s.modRun i f).now = s.now := rfl
@[simp] theorem State.modRun_teams (s : State) (i : Nat) (f : LevelRun → LevelRun) : (s.modRun i f).teams = s.teams := rfl
@[simp] theorem State.modRun_crews (s : State) (i : Nat) (f : LevelRun → LevelRun) : (s.modRun i f).crews = s.crews := rfl
@[simp] theorem State.modRun_launches (s : State) (i : Nat) (f : LevelRun → LevelRun) : (s.modRun i f).launches = s.launches := rfl
@[simp] theorem State.modRun_cmds (s : State) (i : Nat) (f : LevelRun → LevelRun) : (s.modRun i f).cmds = s.cmds := rfl
@[simp] theorem State.modRun_contexts (s : State) (i : Nat) (f : LevelRun → LevelRun) : (s.modRun i f).contexts = s.contexts := rfl
@[simp] theorem State.modRun_cores (s : State) (i : Nat) (f : LevelRun → LevelRun) : (s.modRun i f).cores = s.cores := rfl
@[simp] theorem State.modRun_dies (s : State) (i : Nat) (f : LevelRun → LevelRun) : (s.modRun i f).dies = s.dies := rfl
@[simp] theorem State.modRun_mem (s : State) (i : Nat) (f : LevelRun → LevelRun) : (s.modRun i f).mem = s.mem := rfl
@[simp] theorem State.modRun_llc (s : State) (i : Nat) (f : LevelRun → LevelRun) : (s.modRun i f).llc = s.llc := rfl
@[simp] theorem State.modRun_fwRoots (s : State) (i : Nat) (f : LevelRun → LevelRun) : (s.modRun i f).fwRoots = s.fwRoots := rfl
@[simp] theorem State.modRun_ports (s : State) (i : Nat) (f : LevelRun → LevelRun) : (s.modRun i f).ports = s.ports := rfl
@[simp] theorem State.modRun_routes (s : State) (i : Nat) (f : LevelRun → LevelRun) : (s.modRun i f).routes = s.routes := rfl
@[simp] theorem State.modRun_exports (s : State) (i : Nat) (f : LevelRun → LevelRun) : (s.modRun i f).exports = s.exports := rfl
@[simp] theorem State.modRun_reqs (s : State) (i : Nat) (f : LevelRun → LevelRun) : (s.modRun i f).reqs = s.reqs := rfl
@[simp] theorem State.modRun_worlds (s : State) (i : Nat) (f : LevelRun → LevelRun) : (s.modRun i f).worlds = s.worlds := rfl
@[simp] theorem State.modRun_freeMem (s : State) (i : Nat) (f : LevelRun → LevelRun) : (s.modRun i f).freeMem = s.freeMem := rfl
@[simp] theorem State.modRun_senders (s : State) (i : Nat) (f : LevelRun → LevelRun) : (s.modRun i f).senders = s.senders := rfl
@[simp] theorem State.modRun_groups (s : State) (i : Nat) (f : LevelRun → LevelRun) : (s.modRun i f).groups = s.groups := rfl
@[simp] theorem State.modRun_groupMsgs (s : State) (i : Nat) (f : LevelRun → LevelRun) : (s.modRun i f).groupMsgs = s.groupMsgs := rfl
@[simp] theorem State.modRun_scheds (s : State) (i : Nat) (f : LevelRun → LevelRun) : (s.modRun i f).scheds = s.scheds := rfl
@[simp] theorem State.modRun_slotCounts (s : State) (i : Nat) (f : LevelRun → LevelRun) : (s.modRun i f).slotCounts = s.slotCounts := rfl
@[simp] theorem State.modRun_llcCounts (s : State) (i : Nat) (f : LevelRun → LevelRun) : (s.modRun i f).llcCounts = s.llcCounts := rfl
@[simp] theorem State.modRun_transfers (s : State) (i : Nat) (f : LevelRun → LevelRun) : (s.modRun i f).transfers = s.transfers := rfl
@[simp] theorem State.modRun_clock (s : State) (i : Nat) (f : LevelRun → LevelRun) : (s.modRun i f).clock = s.clock := rfl
@[simp] theorem State.modRun_poweredOn (s : State) (i : Nat) (f : LevelRun → LevelRun) : (s.modRun i f).poweredOn = s.poweredOn := rfl
@[simp] theorem State.modRun_poweredDown (s : State) (i : Nat) (f : LevelRun → LevelRun) : (s.modRun i f).poweredDown = s.poweredDown := rfl

/-! `State.modPort` changes `ports` alone. -/

@[simp] theorem State.modPort_tick (s : State) (i : Nat) (f : Port → Port) : (s.modPort i f).tick = s.tick := rfl
@[simp] theorem State.modPort_agenda (s : State) (i : Nat) (f : Port → Port) : (s.modPort i f).agenda = s.agenda := rfl
@[simp] theorem State.modPort_cur (s : State) (i : Nat) (f : Port → Port) : (s.modPort i f).cur = s.cur := rfl
@[simp] theorem State.modPort_now (s : State) (i : Nat) (f : Port → Port) : (s.modPort i f).now = s.now := rfl
@[simp] theorem State.modPort_teams (s : State) (i : Nat) (f : Port → Port) : (s.modPort i f).teams = s.teams := rfl
@[simp] theorem State.modPort_crews (s : State) (i : Nat) (f : Port → Port) : (s.modPort i f).crews = s.crews := rfl
@[simp] theorem State.modPort_launches (s : State) (i : Nat) (f : Port → Port) : (s.modPort i f).launches = s.launches := rfl
@[simp] theorem State.modPort_levelRuns (s : State) (i : Nat) (f : Port → Port) : (s.modPort i f).levelRuns = s.levelRuns := rfl
@[simp] theorem State.modPort_cmds (s : State) (i : Nat) (f : Port → Port) : (s.modPort i f).cmds = s.cmds := rfl
@[simp] theorem State.modPort_contexts (s : State) (i : Nat) (f : Port → Port) : (s.modPort i f).contexts = s.contexts := rfl
@[simp] theorem State.modPort_cores (s : State) (i : Nat) (f : Port → Port) : (s.modPort i f).cores = s.cores := rfl
@[simp] theorem State.modPort_dies (s : State) (i : Nat) (f : Port → Port) : (s.modPort i f).dies = s.dies := rfl
@[simp] theorem State.modPort_mem (s : State) (i : Nat) (f : Port → Port) : (s.modPort i f).mem = s.mem := rfl
@[simp] theorem State.modPort_llc (s : State) (i : Nat) (f : Port → Port) : (s.modPort i f).llc = s.llc := rfl
@[simp] theorem State.modPort_fwRoots (s : State) (i : Nat) (f : Port → Port) : (s.modPort i f).fwRoots = s.fwRoots := rfl
@[simp] theorem State.modPort_routes (s : State) (i : Nat) (f : Port → Port) : (s.modPort i f).routes = s.routes := rfl
@[simp] theorem State.modPort_exports (s : State) (i : Nat) (f : Port → Port) : (s.modPort i f).exports = s.exports := rfl
@[simp] theorem State.modPort_reqs (s : State) (i : Nat) (f : Port → Port) : (s.modPort i f).reqs = s.reqs := rfl
@[simp] theorem State.modPort_worlds (s : State) (i : Nat) (f : Port → Port) : (s.modPort i f).worlds = s.worlds := rfl
@[simp] theorem State.modPort_freeMem (s : State) (i : Nat) (f : Port → Port) : (s.modPort i f).freeMem = s.freeMem := rfl
@[simp] theorem State.modPort_senders (s : State) (i : Nat) (f : Port → Port) : (s.modPort i f).senders = s.senders := rfl
@[simp] theorem State.modPort_groups (s : State) (i : Nat) (f : Port → Port) : (s.modPort i f).groups = s.groups := rfl
@[simp] theorem State.modPort_groupMsgs (s : State) (i : Nat) (f : Port → Port) : (s.modPort i f).groupMsgs = s.groupMsgs := rfl
@[simp] theorem State.modPort_scheds (s : State) (i : Nat) (f : Port → Port) : (s.modPort i f).scheds = s.scheds := rfl
@[simp] theorem State.modPort_slotCounts (s : State) (i : Nat) (f : Port → Port) : (s.modPort i f).slotCounts = s.slotCounts := rfl
@[simp] theorem State.modPort_llcCounts (s : State) (i : Nat) (f : Port → Port) : (s.modPort i f).llcCounts = s.llcCounts := rfl
@[simp] theorem State.modPort_transfers (s : State) (i : Nat) (f : Port → Port) : (s.modPort i f).transfers = s.transfers := rfl
@[simp] theorem State.modPort_clock (s : State) (i : Nat) (f : Port → Port) : (s.modPort i f).clock = s.clock := rfl
@[simp] theorem State.modPort_poweredOn (s : State) (i : Nat) (f : Port → Port) : (s.modPort i f).poweredOn = s.poweredOn := rfl
@[simp] theorem State.modPort_poweredDown (s : State) (i : Nat) (f : Port → Port) : (s.modPort i f).poweredDown = s.poweredDown := rfl

/-! `State.setReq` changes `reqs` alone. -/

@[simp] theorem State.setReq_tick (s : State) (i : Nat) (r : Req) : (s.setReq i r).tick = s.tick := rfl
@[simp] theorem State.setReq_agenda (s : State) (i : Nat) (r : Req) : (s.setReq i r).agenda = s.agenda := rfl
@[simp] theorem State.setReq_cur (s : State) (i : Nat) (r : Req) : (s.setReq i r).cur = s.cur := rfl
@[simp] theorem State.setReq_now (s : State) (i : Nat) (r : Req) : (s.setReq i r).now = s.now := rfl
@[simp] theorem State.setReq_teams (s : State) (i : Nat) (r : Req) : (s.setReq i r).teams = s.teams := rfl
@[simp] theorem State.setReq_crews (s : State) (i : Nat) (r : Req) : (s.setReq i r).crews = s.crews := rfl
@[simp] theorem State.setReq_launches (s : State) (i : Nat) (r : Req) : (s.setReq i r).launches = s.launches := rfl
@[simp] theorem State.setReq_levelRuns (s : State) (i : Nat) (r : Req) : (s.setReq i r).levelRuns = s.levelRuns := rfl
@[simp] theorem State.setReq_cmds (s : State) (i : Nat) (r : Req) : (s.setReq i r).cmds = s.cmds := rfl
@[simp] theorem State.setReq_contexts (s : State) (i : Nat) (r : Req) : (s.setReq i r).contexts = s.contexts := rfl
@[simp] theorem State.setReq_cores (s : State) (i : Nat) (r : Req) : (s.setReq i r).cores = s.cores := rfl
@[simp] theorem State.setReq_dies (s : State) (i : Nat) (r : Req) : (s.setReq i r).dies = s.dies := rfl
@[simp] theorem State.setReq_mem (s : State) (i : Nat) (r : Req) : (s.setReq i r).mem = s.mem := rfl
@[simp] theorem State.setReq_llc (s : State) (i : Nat) (r : Req) : (s.setReq i r).llc = s.llc := rfl
@[simp] theorem State.setReq_fwRoots (s : State) (i : Nat) (r : Req) : (s.setReq i r).fwRoots = s.fwRoots := rfl
@[simp] theorem State.setReq_ports (s : State) (i : Nat) (r : Req) : (s.setReq i r).ports = s.ports := rfl
@[simp] theorem State.setReq_routes (s : State) (i : Nat) (r : Req) : (s.setReq i r).routes = s.routes := rfl
@[simp] theorem State.setReq_exports (s : State) (i : Nat) (r : Req) : (s.setReq i r).exports = s.exports := rfl
@[simp] theorem State.setReq_worlds (s : State) (i : Nat) (r : Req) : (s.setReq i r).worlds = s.worlds := rfl
@[simp] theorem State.setReq_freeMem (s : State) (i : Nat) (r : Req) : (s.setReq i r).freeMem = s.freeMem := rfl
@[simp] theorem State.setReq_senders (s : State) (i : Nat) (r : Req) : (s.setReq i r).senders = s.senders := rfl
@[simp] theorem State.setReq_groups (s : State) (i : Nat) (r : Req) : (s.setReq i r).groups = s.groups := rfl
@[simp] theorem State.setReq_groupMsgs (s : State) (i : Nat) (r : Req) : (s.setReq i r).groupMsgs = s.groupMsgs := rfl
@[simp] theorem State.setReq_scheds (s : State) (i : Nat) (r : Req) : (s.setReq i r).scheds = s.scheds := rfl
@[simp] theorem State.setReq_slotCounts (s : State) (i : Nat) (r : Req) : (s.setReq i r).slotCounts = s.slotCounts := rfl
@[simp] theorem State.setReq_llcCounts (s : State) (i : Nat) (r : Req) : (s.setReq i r).llcCounts = s.llcCounts := rfl
@[simp] theorem State.setReq_transfers (s : State) (i : Nat) (r : Req) : (s.setReq i r).transfers = s.transfers := rfl
@[simp] theorem State.setReq_clock (s : State) (i : Nat) (r : Req) : (s.setReq i r).clock = s.clock := rfl
@[simp] theorem State.setReq_poweredOn (s : State) (i : Nat) (r : Req) : (s.setReq i r).poweredOn = s.poweredOn := rfl
@[simp] theorem State.setReq_poweredDown (s : State) (i : Nat) (r : Req) : (s.setReq i r).poweredDown = s.poweredDown := rfl

/-! `State.modGroup` changes `groups` alone. -/

@[simp] theorem State.modGroup_tick (s : State) (i : Nat) (f : Group → Group) : (s.modGroup i f).tick = s.tick := rfl
@[simp] theorem State.modGroup_agenda (s : State) (i : Nat) (f : Group → Group) : (s.modGroup i f).agenda = s.agenda := rfl
@[simp] theorem State.modGroup_cur (s : State) (i : Nat) (f : Group → Group) : (s.modGroup i f).cur = s.cur := rfl
@[simp] theorem State.modGroup_now (s : State) (i : Nat) (f : Group → Group) : (s.modGroup i f).now = s.now := rfl
@[simp] theorem State.modGroup_teams (s : State) (i : Nat) (f : Group → Group) : (s.modGroup i f).teams = s.teams := rfl
@[simp] theorem State.modGroup_crews (s : State) (i : Nat) (f : Group → Group) : (s.modGroup i f).crews = s.crews := rfl
@[simp] theorem State.modGroup_launches (s : State) (i : Nat) (f : Group → Group) : (s.modGroup i f).launches = s.launches := rfl
@[simp] theorem State.modGroup_levelRuns (s : State) (i : Nat) (f : Group → Group) : (s.modGroup i f).levelRuns = s.levelRuns := rfl
@[simp] theorem State.modGroup_cmds (s : State) (i : Nat) (f : Group → Group) : (s.modGroup i f).cmds = s.cmds := rfl
@[simp] theorem State.modGroup_contexts (s : State) (i : Nat) (f : Group → Group) : (s.modGroup i f).contexts = s.contexts := rfl
@[simp] theorem State.modGroup_cores (s : State) (i : Nat) (f : Group → Group) : (s.modGroup i f).cores = s.cores := rfl
@[simp] theorem State.modGroup_dies (s : State) (i : Nat) (f : Group → Group) : (s.modGroup i f).dies = s.dies := rfl
@[simp] theorem State.modGroup_mem (s : State) (i : Nat) (f : Group → Group) : (s.modGroup i f).mem = s.mem := rfl
@[simp] theorem State.modGroup_llc (s : State) (i : Nat) (f : Group → Group) : (s.modGroup i f).llc = s.llc := rfl
@[simp] theorem State.modGroup_fwRoots (s : State) (i : Nat) (f : Group → Group) : (s.modGroup i f).fwRoots = s.fwRoots := rfl
@[simp] theorem State.modGroup_ports (s : State) (i : Nat) (f : Group → Group) : (s.modGroup i f).ports = s.ports := rfl
@[simp] theorem State.modGroup_routes (s : State) (i : Nat) (f : Group → Group) : (s.modGroup i f).routes = s.routes := rfl
@[simp] theorem State.modGroup_exports (s : State) (i : Nat) (f : Group → Group) : (s.modGroup i f).exports = s.exports := rfl
@[simp] theorem State.modGroup_reqs (s : State) (i : Nat) (f : Group → Group) : (s.modGroup i f).reqs = s.reqs := rfl
@[simp] theorem State.modGroup_worlds (s : State) (i : Nat) (f : Group → Group) : (s.modGroup i f).worlds = s.worlds := rfl
@[simp] theorem State.modGroup_freeMem (s : State) (i : Nat) (f : Group → Group) : (s.modGroup i f).freeMem = s.freeMem := rfl
@[simp] theorem State.modGroup_senders (s : State) (i : Nat) (f : Group → Group) : (s.modGroup i f).senders = s.senders := rfl
@[simp] theorem State.modGroup_groupMsgs (s : State) (i : Nat) (f : Group → Group) : (s.modGroup i f).groupMsgs = s.groupMsgs := rfl
@[simp] theorem State.modGroup_scheds (s : State) (i : Nat) (f : Group → Group) : (s.modGroup i f).scheds = s.scheds := rfl
@[simp] theorem State.modGroup_slotCounts (s : State) (i : Nat) (f : Group → Group) : (s.modGroup i f).slotCounts = s.slotCounts := rfl
@[simp] theorem State.modGroup_llcCounts (s : State) (i : Nat) (f : Group → Group) : (s.modGroup i f).llcCounts = s.llcCounts := rfl
@[simp] theorem State.modGroup_transfers (s : State) (i : Nat) (f : Group → Group) : (s.modGroup i f).transfers = s.transfers := rfl
@[simp] theorem State.modGroup_clock (s : State) (i : Nat) (f : Group → Group) : (s.modGroup i f).clock = s.clock := rfl
@[simp] theorem State.modGroup_poweredOn (s : State) (i : Nat) (f : Group → Group) : (s.modGroup i f).poweredOn = s.poweredOn := rfl
@[simp] theorem State.modGroup_poweredDown (s : State) (i : Nat) (f : Group → Group) : (s.modGroup i f).poweredDown = s.poweredDown := rfl

/-! `State.modSched` changes `scheds` alone. -/

@[simp] theorem State.modSched_tick (s : State) (i : Nat) (f : Sched → Sched) : (s.modSched i f).tick = s.tick := rfl
@[simp] theorem State.modSched_agenda (s : State) (i : Nat) (f : Sched → Sched) : (s.modSched i f).agenda = s.agenda := rfl
@[simp] theorem State.modSched_cur (s : State) (i : Nat) (f : Sched → Sched) : (s.modSched i f).cur = s.cur := rfl
@[simp] theorem State.modSched_now (s : State) (i : Nat) (f : Sched → Sched) : (s.modSched i f).now = s.now := rfl
@[simp] theorem State.modSched_teams (s : State) (i : Nat) (f : Sched → Sched) : (s.modSched i f).teams = s.teams := rfl
@[simp] theorem State.modSched_crews (s : State) (i : Nat) (f : Sched → Sched) : (s.modSched i f).crews = s.crews := rfl
@[simp] theorem State.modSched_launches (s : State) (i : Nat) (f : Sched → Sched) : (s.modSched i f).launches = s.launches := rfl
@[simp] theorem State.modSched_levelRuns (s : State) (i : Nat) (f : Sched → Sched) : (s.modSched i f).levelRuns = s.levelRuns := rfl
@[simp] theorem State.modSched_cmds (s : State) (i : Nat) (f : Sched → Sched) : (s.modSched i f).cmds = s.cmds := rfl
@[simp] theorem State.modSched_contexts (s : State) (i : Nat) (f : Sched → Sched) : (s.modSched i f).contexts = s.contexts := rfl
@[simp] theorem State.modSched_cores (s : State) (i : Nat) (f : Sched → Sched) : (s.modSched i f).cores = s.cores := rfl
@[simp] theorem State.modSched_dies (s : State) (i : Nat) (f : Sched → Sched) : (s.modSched i f).dies = s.dies := rfl
@[simp] theorem State.modSched_mem (s : State) (i : Nat) (f : Sched → Sched) : (s.modSched i f).mem = s.mem := rfl
@[simp] theorem State.modSched_llc (s : State) (i : Nat) (f : Sched → Sched) : (s.modSched i f).llc = s.llc := rfl
@[simp] theorem State.modSched_fwRoots (s : State) (i : Nat) (f : Sched → Sched) : (s.modSched i f).fwRoots = s.fwRoots := rfl
@[simp] theorem State.modSched_ports (s : State) (i : Nat) (f : Sched → Sched) : (s.modSched i f).ports = s.ports := rfl
@[simp] theorem State.modSched_routes (s : State) (i : Nat) (f : Sched → Sched) : (s.modSched i f).routes = s.routes := rfl
@[simp] theorem State.modSched_exports (s : State) (i : Nat) (f : Sched → Sched) : (s.modSched i f).exports = s.exports := rfl
@[simp] theorem State.modSched_reqs (s : State) (i : Nat) (f : Sched → Sched) : (s.modSched i f).reqs = s.reqs := rfl
@[simp] theorem State.modSched_worlds (s : State) (i : Nat) (f : Sched → Sched) : (s.modSched i f).worlds = s.worlds := rfl
@[simp] theorem State.modSched_freeMem (s : State) (i : Nat) (f : Sched → Sched) : (s.modSched i f).freeMem = s.freeMem := rfl
@[simp] theorem State.modSched_senders (s : State) (i : Nat) (f : Sched → Sched) : (s.modSched i f).senders = s.senders := rfl
@[simp] theorem State.modSched_groups (s : State) (i : Nat) (f : Sched → Sched) : (s.modSched i f).groups = s.groups := rfl
@[simp] theorem State.modSched_groupMsgs (s : State) (i : Nat) (f : Sched → Sched) : (s.modSched i f).groupMsgs = s.groupMsgs := rfl
@[simp] theorem State.modSched_slotCounts (s : State) (i : Nat) (f : Sched → Sched) : (s.modSched i f).slotCounts = s.slotCounts := rfl
@[simp] theorem State.modSched_llcCounts (s : State) (i : Nat) (f : Sched → Sched) : (s.modSched i f).llcCounts = s.llcCounts := rfl
@[simp] theorem State.modSched_transfers (s : State) (i : Nat) (f : Sched → Sched) : (s.modSched i f).transfers = s.transfers := rfl
@[simp] theorem State.modSched_clock (s : State) (i : Nat) (f : Sched → Sched) : (s.modSched i f).clock = s.clock := rfl
@[simp] theorem State.modSched_poweredOn (s : State) (i : Nat) (f : Sched → Sched) : (s.modSched i f).poweredOn = s.poweredOn := rfl
@[simp] theorem State.modSched_poweredDown (s : State) (i : Nat) (f : Sched → Sched) : (s.modSched i f).poweredDown = s.poweredDown := rfl

/-! `Team.setS` changes `s` alone. -/

@[simp] theorem Team.setS_crew (t : Team) (n : Nat) (v : Word) (tag : Tag) : (t.setS n v tag).crew = t.crew := rfl
@[simp] theorem Team.setS_num (t : Team) (n : Nat) (v : Word) (tag : Tag) : (t.setS n v tag).num = t.num := rfl
@[simp] theorem Team.setS_teamid (t : Team) (n : Nat) (v : Word) (tag : Tag) : (t.setS n v tag).teamid = t.teamid := rfl
@[simp] theorem Team.setS_pc (t : Team) (n : Nat) (v : Word) (tag : Tag) : (t.setS n v tag).pc = t.pc := rfl
@[simp] theorem Team.setS_half (t : Team) (n : Nat) (v : Word) (tag : Tag) : (t.setS n v tag).half = t.half := rfl
@[simp] theorem Team.setS_code (t : Team) (n : Nat) (v : Word) (tag : Tag) : (t.setS n v tag).code = t.code := rfl
@[simp] theorem Team.setS_codeReq (t : Team) (n : Nat) (v : Word) (tag : Tag) : (t.setS n v tag).codeReq = t.codeReq := rfl
@[simp] theorem Team.setS_mode (t : Team) (n : Nat) (v : Word) (tag : Tag) : (t.setS n v tag).mode = t.mode := rfl
@[simp] theorem Team.setS_nlanes (t : Team) (n : Nat) (v : Word) (tag : Tag) : (t.setS n v tag).nlanes = t.nlanes := rfl
@[simp] theorem Team.setS_vregs (t : Team) (n : Nat) (v : Word) (tag : Tag) : (t.setS n v tag).vregs = t.vregs := rfl
@[simp] theorem Team.setS_b (t : Team) (n : Nat) (v : Word) (tag : Tag) : (t.setS n v tag).b = t.b := rfl
@[simp] theorem Team.setS_c (t : Team) (n : Nat) (v : Word) (tag : Tag) : (t.setS n v tag).c = t.c := rfl
@[simp] theorem Team.setS_v (t : Team) (n : Nat) (v : Word) (tag : Tag) : (t.setS n v tag).v = t.v := rfl
@[simp] theorem Team.setS_vcap (t : Team) (n : Nat) (v : Word) (tag : Tag) : (t.setS n v tag).vcap = t.vcap := rfl
@[simp] theorem Team.setS_p (t : Team) (n : Nat) (v : Word) (tag : Tag) : (t.setS n v tag).p = t.p := rfl
@[simp] theorem Team.setS_m (t : Team) (n : Nat) (v : Word) (tag : Tag) : (t.setS n v tag).m = t.m := rfl
@[simp] theorem Team.setS_stack (t : Team) (n : Nat) (v : Word) (tag : Tag) : (t.setS n v tag).stack = t.stack := rfl
@[simp] theorem Team.setS_ttimer (t : Team) (n : Nat) (v : Word) (tag : Tag) : (t.setS n v tag).ttimer = t.ttimer := rfl
@[simp] theorem Team.setS_fpctl (t : Team) (n : Nat) (v : Word) (tag : Tag) : (t.setS n v tag).fpctl = t.fpctl := rfl
@[simp] theorem Team.setS_fpst (t : Team) (n : Nat) (v : Word) (tag : Tag) : (t.setS n v tag).fpst = t.fpst := rfl
@[simp] theorem Team.setS_tagrule (t : Team) (n : Nat) (v : Word) (tag : Tag) : (t.setS n v tag).tagrule = t.tagrule := rfl
@[simp] theorem Team.setS_abandoned (t : Team) (n : Nat) (v : Word) (tag : Tag) : (t.setS n v tag).abandoned = t.abandoned := rfl
@[simp] theorem Team.setS_trapcause (t : Team) (n : Nat) (v : Word) (tag : Tag) : (t.setS n v tag).trapcause = t.trapcause := rfl
@[simp] theorem Team.setS_trappc (t : Team) (n : Nat) (v : Word) (tag : Tag) : (t.setS n v tag).trappc = t.trappc := rfl
@[simp] theorem Team.setS_trapmask (t : Team) (n : Nat) (v : Word) (tag : Tag) : (t.setS n v tag).trapmask = t.trapmask := rfl
@[simp] theorem Team.setS_traptagA (t : Team) (n : Nat) (v : Word) (tag : Tag) : (t.setS n v tag).traptagA = t.traptagA := rfl
@[simp] theorem Team.setS_traptagB (t : Team) (n : Nat) (v : Word) (tag : Tag) : (t.setS n v tag).traptagB = t.traptagB := rfl
@[simp] theorem Team.setS_traptagC (t : Team) (n : Nat) (v : Word) (tag : Tag) : (t.setS n v tag).traptagC = t.traptagC := rfl
@[simp] theorem Team.setS_trapaddr (t : Team) (n : Nat) (v : Word) (tag : Tag) : (t.setS n v tag).trapaddr = t.trapaddr := rfl
@[simp] theorem Team.setS_skid (t : Team) (n : Nat) (v : Word) (tag : Tag) : (t.setS n v tag).skid = t.skid := rfl
@[simp] theorem Team.setS_frame (t : Team) (n : Nat) (v : Word) (tag : Tag) : (t.setS n v tag).frame = t.frame := rfl
@[simp] theorem Team.setS_entry (t : Team) (n : Nat) (v : Word) (tag : Tag) : (t.setS n v tag).entry = t.entry := rfl
@[simp] theorem Team.setS_st (t : Team) (n : Nat) (v : Word) (tag : Tag) : (t.setS n v tag).st = t.st := rfl
@[simp] theorem Team.setS_wait (t : Team) (n : Nat) (v : Word) (tag : Tag) : (t.setS n v tag).wait = t.wait := rfl
@[simp] theorem Team.setS_halted (t : Team) (n : Nat) (v : Word) (tag : Tag) : (t.setS n v tag).halted = t.halted := rfl
@[simp] theorem Team.setS_byEvent (t : Team) (n : Nat) (v : Word) (tag : Tag) : (t.setS n v tag).byEvent = t.byEvent := rfl
@[simp] theorem Team.setS_outs (t : Team) (n : Nat) (v : Word) (tag : Tag) : (t.setS n v tag).outs = t.outs := rfl
@[simp] theorem Team.setS_nextAcc (t : Team) (n : Nat) (v : Word) (tag : Tag) : (t.setS n v tag).nextAcc = t.nextAcc := rfl
@[simp] theorem Team.setS_latch (t : Team) (n : Nat) (v : Word) (tag : Tag) : (t.setS n v tag).latch = t.latch := rfl
@[simp] theorem Team.setS_cancelPending (t : Team) (n : Nat) (v : Word) (tag : Tag) : (t.setS n v tag).cancelPending = t.cancelPending := rfl
@[simp] theorem Team.setS_cancelTaken (t : Team) (n : Nat) (v : Word) (tag : Tag) : (t.setS n v tag).cancelTaken = t.cancelTaken := rfl
@[simp] theorem Team.setS_mismatch (t : Team) (n : Nat) (v : Word) (tag : Tag) : (t.setS n v tag).mismatch = t.mismatch := rfl
@[simp] theorem Team.setS_killPending (t : Team) (n : Nat) (v : Word) (tag : Tag) : (t.setS n v tag).killPending = t.killPending := rfl
@[simp] theorem Team.setS_bpSkip (t : Team) (n : Nat) (v : Word) (tag : Tag) : (t.setS n v tag).bpSkip = t.bpSkip := rfl
@[simp] theorem Team.setS_steps (t : Team) (n : Nat) (v : Word) (tag : Tag) : (t.setS n v tag).steps = t.steps := rfl
@[simp] theorem Team.setS_stepPending (t : Team) (n : Nat) (v : Word) (tag : Tag) : (t.setS n v tag).stepPending = t.stepPending := rfl
@[simp] theorem Team.setS_retired (t : Team) (n : Nat) (v : Word) (tag : Tag) : (t.setS n v tag).retired = t.retired := rfl
@[simp] theorem Team.setS_epochUsed (t : Team) (n : Nat) (v : Word) (tag : Tag) : (t.setS n v tag).epochUsed = t.epochUsed := rfl
@[simp] theorem Team.setS_lastPc (t : Team) (n : Nat) (v : Word) (tag : Tag) : (t.setS n v tag).lastPc = t.lastPc := rfl
@[simp] theorem Team.setS_stalled (t : Team) (n : Nat) (v : Word) (tag : Tag) : (t.setS n v tag).stalled = t.stalled := rfl
@[simp] theorem Team.setS_ordered (t : Team) (n : Nat) (v : Word) (tag : Tag) : (t.setS n v tag).ordered = t.ordered := rfl

/-! `Team.emptyS` changes `s` alone. -/

@[simp] theorem Team.emptyS_crew (t : Team) (n : Nat) : (t.emptyS n).crew = t.crew := rfl
@[simp] theorem Team.emptyS_num (t : Team) (n : Nat) : (t.emptyS n).num = t.num := rfl
@[simp] theorem Team.emptyS_teamid (t : Team) (n : Nat) : (t.emptyS n).teamid = t.teamid := rfl
@[simp] theorem Team.emptyS_pc (t : Team) (n : Nat) : (t.emptyS n).pc = t.pc := rfl
@[simp] theorem Team.emptyS_half (t : Team) (n : Nat) : (t.emptyS n).half = t.half := rfl
@[simp] theorem Team.emptyS_code (t : Team) (n : Nat) : (t.emptyS n).code = t.code := rfl
@[simp] theorem Team.emptyS_codeReq (t : Team) (n : Nat) : (t.emptyS n).codeReq = t.codeReq := rfl
@[simp] theorem Team.emptyS_mode (t : Team) (n : Nat) : (t.emptyS n).mode = t.mode := rfl
@[simp] theorem Team.emptyS_nlanes (t : Team) (n : Nat) : (t.emptyS n).nlanes = t.nlanes := rfl
@[simp] theorem Team.emptyS_vregs (t : Team) (n : Nat) : (t.emptyS n).vregs = t.vregs := rfl
@[simp] theorem Team.emptyS_b (t : Team) (n : Nat) : (t.emptyS n).b = t.b := rfl
@[simp] theorem Team.emptyS_c (t : Team) (n : Nat) : (t.emptyS n).c = t.c := rfl
@[simp] theorem Team.emptyS_v (t : Team) (n : Nat) : (t.emptyS n).v = t.v := rfl
@[simp] theorem Team.emptyS_vcap (t : Team) (n : Nat) : (t.emptyS n).vcap = t.vcap := rfl
@[simp] theorem Team.emptyS_p (t : Team) (n : Nat) : (t.emptyS n).p = t.p := rfl
@[simp] theorem Team.emptyS_m (t : Team) (n : Nat) : (t.emptyS n).m = t.m := rfl
@[simp] theorem Team.emptyS_stack (t : Team) (n : Nat) : (t.emptyS n).stack = t.stack := rfl
@[simp] theorem Team.emptyS_ttimer (t : Team) (n : Nat) : (t.emptyS n).ttimer = t.ttimer := rfl
@[simp] theorem Team.emptyS_fpctl (t : Team) (n : Nat) : (t.emptyS n).fpctl = t.fpctl := rfl
@[simp] theorem Team.emptyS_fpst (t : Team) (n : Nat) : (t.emptyS n).fpst = t.fpst := rfl
@[simp] theorem Team.emptyS_tagrule (t : Team) (n : Nat) : (t.emptyS n).tagrule = t.tagrule := rfl
@[simp] theorem Team.emptyS_abandoned (t : Team) (n : Nat) : (t.emptyS n).abandoned = t.abandoned := rfl
@[simp] theorem Team.emptyS_trapcause (t : Team) (n : Nat) : (t.emptyS n).trapcause = t.trapcause := rfl
@[simp] theorem Team.emptyS_trappc (t : Team) (n : Nat) : (t.emptyS n).trappc = t.trappc := rfl
@[simp] theorem Team.emptyS_trapmask (t : Team) (n : Nat) : (t.emptyS n).trapmask = t.trapmask := rfl
@[simp] theorem Team.emptyS_traptagA (t : Team) (n : Nat) : (t.emptyS n).traptagA = t.traptagA := rfl
@[simp] theorem Team.emptyS_traptagB (t : Team) (n : Nat) : (t.emptyS n).traptagB = t.traptagB := rfl
@[simp] theorem Team.emptyS_traptagC (t : Team) (n : Nat) : (t.emptyS n).traptagC = t.traptagC := rfl
@[simp] theorem Team.emptyS_trapaddr (t : Team) (n : Nat) : (t.emptyS n).trapaddr = t.trapaddr := rfl
@[simp] theorem Team.emptyS_skid (t : Team) (n : Nat) : (t.emptyS n).skid = t.skid := rfl
@[simp] theorem Team.emptyS_frame (t : Team) (n : Nat) : (t.emptyS n).frame = t.frame := rfl
@[simp] theorem Team.emptyS_entry (t : Team) (n : Nat) : (t.emptyS n).entry = t.entry := rfl
@[simp] theorem Team.emptyS_st (t : Team) (n : Nat) : (t.emptyS n).st = t.st := rfl
@[simp] theorem Team.emptyS_wait (t : Team) (n : Nat) : (t.emptyS n).wait = t.wait := rfl
@[simp] theorem Team.emptyS_halted (t : Team) (n : Nat) : (t.emptyS n).halted = t.halted := rfl
@[simp] theorem Team.emptyS_byEvent (t : Team) (n : Nat) : (t.emptyS n).byEvent = t.byEvent := rfl
@[simp] theorem Team.emptyS_outs (t : Team) (n : Nat) : (t.emptyS n).outs = t.outs := rfl
@[simp] theorem Team.emptyS_nextAcc (t : Team) (n : Nat) : (t.emptyS n).nextAcc = t.nextAcc := rfl
@[simp] theorem Team.emptyS_latch (t : Team) (n : Nat) : (t.emptyS n).latch = t.latch := rfl
@[simp] theorem Team.emptyS_cancelPending (t : Team) (n : Nat) : (t.emptyS n).cancelPending = t.cancelPending := rfl
@[simp] theorem Team.emptyS_cancelTaken (t : Team) (n : Nat) : (t.emptyS n).cancelTaken = t.cancelTaken := rfl
@[simp] theorem Team.emptyS_mismatch (t : Team) (n : Nat) : (t.emptyS n).mismatch = t.mismatch := rfl
@[simp] theorem Team.emptyS_killPending (t : Team) (n : Nat) : (t.emptyS n).killPending = t.killPending := rfl
@[simp] theorem Team.emptyS_bpSkip (t : Team) (n : Nat) : (t.emptyS n).bpSkip = t.bpSkip := rfl
@[simp] theorem Team.emptyS_steps (t : Team) (n : Nat) : (t.emptyS n).steps = t.steps := rfl
@[simp] theorem Team.emptyS_stepPending (t : Team) (n : Nat) : (t.emptyS n).stepPending = t.stepPending := rfl
@[simp] theorem Team.emptyS_retired (t : Team) (n : Nat) : (t.emptyS n).retired = t.retired := rfl
@[simp] theorem Team.emptyS_epochUsed (t : Team) (n : Nat) : (t.emptyS n).epochUsed = t.epochUsed := rfl
@[simp] theorem Team.emptyS_lastPc (t : Team) (n : Nat) : (t.emptyS n).lastPc = t.lastPc := rfl
@[simp] theorem Team.emptyS_stalled (t : Team) (n : Nat) : (t.emptyS n).stalled = t.stalled := rfl
@[simp] theorem Team.emptyS_ordered (t : Team) (n : Nat) : (t.emptyS n).ordered = t.ordered := rfl

/-! `Team.setB` changes `b` alone. -/

@[simp] theorem Team.setB_crew (t : Team) (n : Nat) (v : Bool) : (t.setB n v).crew = t.crew := rfl
@[simp] theorem Team.setB_num (t : Team) (n : Nat) (v : Bool) : (t.setB n v).num = t.num := rfl
@[simp] theorem Team.setB_teamid (t : Team) (n : Nat) (v : Bool) : (t.setB n v).teamid = t.teamid := rfl
@[simp] theorem Team.setB_pc (t : Team) (n : Nat) (v : Bool) : (t.setB n v).pc = t.pc := rfl
@[simp] theorem Team.setB_half (t : Team) (n : Nat) (v : Bool) : (t.setB n v).half = t.half := rfl
@[simp] theorem Team.setB_code (t : Team) (n : Nat) (v : Bool) : (t.setB n v).code = t.code := rfl
@[simp] theorem Team.setB_codeReq (t : Team) (n : Nat) (v : Bool) : (t.setB n v).codeReq = t.codeReq := rfl
@[simp] theorem Team.setB_mode (t : Team) (n : Nat) (v : Bool) : (t.setB n v).mode = t.mode := rfl
@[simp] theorem Team.setB_nlanes (t : Team) (n : Nat) (v : Bool) : (t.setB n v).nlanes = t.nlanes := rfl
@[simp] theorem Team.setB_vregs (t : Team) (n : Nat) (v : Bool) : (t.setB n v).vregs = t.vregs := rfl
@[simp] theorem Team.setB_s (t : Team) (n : Nat) (v : Bool) : (t.setB n v).s = t.s := rfl
@[simp] theorem Team.setB_c (t : Team) (n : Nat) (v : Bool) : (t.setB n v).c = t.c := rfl
@[simp] theorem Team.setB_v (t : Team) (n : Nat) (v : Bool) : (t.setB n v).v = t.v := rfl
@[simp] theorem Team.setB_vcap (t : Team) (n : Nat) (v : Bool) : (t.setB n v).vcap = t.vcap := rfl
@[simp] theorem Team.setB_p (t : Team) (n : Nat) (v : Bool) : (t.setB n v).p = t.p := rfl
@[simp] theorem Team.setB_m (t : Team) (n : Nat) (v : Bool) : (t.setB n v).m = t.m := rfl
@[simp] theorem Team.setB_stack (t : Team) (n : Nat) (v : Bool) : (t.setB n v).stack = t.stack := rfl
@[simp] theorem Team.setB_ttimer (t : Team) (n : Nat) (v : Bool) : (t.setB n v).ttimer = t.ttimer := rfl
@[simp] theorem Team.setB_fpctl (t : Team) (n : Nat) (v : Bool) : (t.setB n v).fpctl = t.fpctl := rfl
@[simp] theorem Team.setB_fpst (t : Team) (n : Nat) (v : Bool) : (t.setB n v).fpst = t.fpst := rfl
@[simp] theorem Team.setB_tagrule (t : Team) (n : Nat) (v : Bool) : (t.setB n v).tagrule = t.tagrule := rfl
@[simp] theorem Team.setB_abandoned (t : Team) (n : Nat) (v : Bool) : (t.setB n v).abandoned = t.abandoned := rfl
@[simp] theorem Team.setB_trapcause (t : Team) (n : Nat) (v : Bool) : (t.setB n v).trapcause = t.trapcause := rfl
@[simp] theorem Team.setB_trappc (t : Team) (n : Nat) (v : Bool) : (t.setB n v).trappc = t.trappc := rfl
@[simp] theorem Team.setB_trapmask (t : Team) (n : Nat) (v : Bool) : (t.setB n v).trapmask = t.trapmask := rfl
@[simp] theorem Team.setB_traptagA (t : Team) (n : Nat) (v : Bool) : (t.setB n v).traptagA = t.traptagA := rfl
@[simp] theorem Team.setB_traptagB (t : Team) (n : Nat) (v : Bool) : (t.setB n v).traptagB = t.traptagB := rfl
@[simp] theorem Team.setB_traptagC (t : Team) (n : Nat) (v : Bool) : (t.setB n v).traptagC = t.traptagC := rfl
@[simp] theorem Team.setB_trapaddr (t : Team) (n : Nat) (v : Bool) : (t.setB n v).trapaddr = t.trapaddr := rfl
@[simp] theorem Team.setB_skid (t : Team) (n : Nat) (v : Bool) : (t.setB n v).skid = t.skid := rfl
@[simp] theorem Team.setB_frame (t : Team) (n : Nat) (v : Bool) : (t.setB n v).frame = t.frame := rfl
@[simp] theorem Team.setB_entry (t : Team) (n : Nat) (v : Bool) : (t.setB n v).entry = t.entry := rfl
@[simp] theorem Team.setB_st (t : Team) (n : Nat) (v : Bool) : (t.setB n v).st = t.st := rfl
@[simp] theorem Team.setB_wait (t : Team) (n : Nat) (v : Bool) : (t.setB n v).wait = t.wait := rfl
@[simp] theorem Team.setB_halted (t : Team) (n : Nat) (v : Bool) : (t.setB n v).halted = t.halted := rfl
@[simp] theorem Team.setB_byEvent (t : Team) (n : Nat) (v : Bool) : (t.setB n v).byEvent = t.byEvent := rfl
@[simp] theorem Team.setB_outs (t : Team) (n : Nat) (v : Bool) : (t.setB n v).outs = t.outs := rfl
@[simp] theorem Team.setB_nextAcc (t : Team) (n : Nat) (v : Bool) : (t.setB n v).nextAcc = t.nextAcc := rfl
@[simp] theorem Team.setB_latch (t : Team) (n : Nat) (v : Bool) : (t.setB n v).latch = t.latch := rfl
@[simp] theorem Team.setB_cancelPending (t : Team) (n : Nat) (v : Bool) : (t.setB n v).cancelPending = t.cancelPending := rfl
@[simp] theorem Team.setB_cancelTaken (t : Team) (n : Nat) (v : Bool) : (t.setB n v).cancelTaken = t.cancelTaken := rfl
@[simp] theorem Team.setB_mismatch (t : Team) (n : Nat) (v : Bool) : (t.setB n v).mismatch = t.mismatch := rfl
@[simp] theorem Team.setB_killPending (t : Team) (n : Nat) (v : Bool) : (t.setB n v).killPending = t.killPending := rfl
@[simp] theorem Team.setB_bpSkip (t : Team) (n : Nat) (v : Bool) : (t.setB n v).bpSkip = t.bpSkip := rfl
@[simp] theorem Team.setB_steps (t : Team) (n : Nat) (v : Bool) : (t.setB n v).steps = t.steps := rfl
@[simp] theorem Team.setB_stepPending (t : Team) (n : Nat) (v : Bool) : (t.setB n v).stepPending = t.stepPending := rfl
@[simp] theorem Team.setB_retired (t : Team) (n : Nat) (v : Bool) : (t.setB n v).retired = t.retired := rfl
@[simp] theorem Team.setB_epochUsed (t : Team) (n : Nat) (v : Bool) : (t.setB n v).epochUsed = t.epochUsed := rfl
@[simp] theorem Team.setB_lastPc (t : Team) (n : Nat) (v : Bool) : (t.setB n v).lastPc = t.lastPc := rfl
@[simp] theorem Team.setB_stalled (t : Team) (n : Nat) (v : Bool) : (t.setB n v).stalled = t.stalled := rfl
@[simp] theorem Team.setB_ordered (t : Team) (n : Nat) (v : Bool) : (t.setB n v).ordered = t.ordered := rfl

/-! `Team.setP` changes `p` alone. -/

@[simp] theorem Team.setP_crew (t : Team) (n : Nat) (v : Mask) : (t.setP n v).crew = t.crew := rfl
@[simp] theorem Team.setP_num (t : Team) (n : Nat) (v : Mask) : (t.setP n v).num = t.num := rfl
@[simp] theorem Team.setP_teamid (t : Team) (n : Nat) (v : Mask) : (t.setP n v).teamid = t.teamid := rfl
@[simp] theorem Team.setP_pc (t : Team) (n : Nat) (v : Mask) : (t.setP n v).pc = t.pc := rfl
@[simp] theorem Team.setP_half (t : Team) (n : Nat) (v : Mask) : (t.setP n v).half = t.half := rfl
@[simp] theorem Team.setP_code (t : Team) (n : Nat) (v : Mask) : (t.setP n v).code = t.code := rfl
@[simp] theorem Team.setP_codeReq (t : Team) (n : Nat) (v : Mask) : (t.setP n v).codeReq = t.codeReq := rfl
@[simp] theorem Team.setP_mode (t : Team) (n : Nat) (v : Mask) : (t.setP n v).mode = t.mode := rfl
@[simp] theorem Team.setP_nlanes (t : Team) (n : Nat) (v : Mask) : (t.setP n v).nlanes = t.nlanes := rfl
@[simp] theorem Team.setP_vregs (t : Team) (n : Nat) (v : Mask) : (t.setP n v).vregs = t.vregs := rfl
@[simp] theorem Team.setP_s (t : Team) (n : Nat) (v : Mask) : (t.setP n v).s = t.s := rfl
@[simp] theorem Team.setP_b (t : Team) (n : Nat) (v : Mask) : (t.setP n v).b = t.b := rfl
@[simp] theorem Team.setP_c (t : Team) (n : Nat) (v : Mask) : (t.setP n v).c = t.c := rfl
@[simp] theorem Team.setP_v (t : Team) (n : Nat) (v : Mask) : (t.setP n v).v = t.v := rfl
@[simp] theorem Team.setP_vcap (t : Team) (n : Nat) (v : Mask) : (t.setP n v).vcap = t.vcap := rfl
@[simp] theorem Team.setP_m (t : Team) (n : Nat) (v : Mask) : (t.setP n v).m = t.m := rfl
@[simp] theorem Team.setP_stack (t : Team) (n : Nat) (v : Mask) : (t.setP n v).stack = t.stack := rfl
@[simp] theorem Team.setP_ttimer (t : Team) (n : Nat) (v : Mask) : (t.setP n v).ttimer = t.ttimer := rfl
@[simp] theorem Team.setP_fpctl (t : Team) (n : Nat) (v : Mask) : (t.setP n v).fpctl = t.fpctl := rfl
@[simp] theorem Team.setP_fpst (t : Team) (n : Nat) (v : Mask) : (t.setP n v).fpst = t.fpst := rfl
@[simp] theorem Team.setP_tagrule (t : Team) (n : Nat) (v : Mask) : (t.setP n v).tagrule = t.tagrule := rfl
@[simp] theorem Team.setP_abandoned (t : Team) (n : Nat) (v : Mask) : (t.setP n v).abandoned = t.abandoned := rfl
@[simp] theorem Team.setP_trapcause (t : Team) (n : Nat) (v : Mask) : (t.setP n v).trapcause = t.trapcause := rfl
@[simp] theorem Team.setP_trappc (t : Team) (n : Nat) (v : Mask) : (t.setP n v).trappc = t.trappc := rfl
@[simp] theorem Team.setP_trapmask (t : Team) (n : Nat) (v : Mask) : (t.setP n v).trapmask = t.trapmask := rfl
@[simp] theorem Team.setP_traptagA (t : Team) (n : Nat) (v : Mask) : (t.setP n v).traptagA = t.traptagA := rfl
@[simp] theorem Team.setP_traptagB (t : Team) (n : Nat) (v : Mask) : (t.setP n v).traptagB = t.traptagB := rfl
@[simp] theorem Team.setP_traptagC (t : Team) (n : Nat) (v : Mask) : (t.setP n v).traptagC = t.traptagC := rfl
@[simp] theorem Team.setP_trapaddr (t : Team) (n : Nat) (v : Mask) : (t.setP n v).trapaddr = t.trapaddr := rfl
@[simp] theorem Team.setP_skid (t : Team) (n : Nat) (v : Mask) : (t.setP n v).skid = t.skid := rfl
@[simp] theorem Team.setP_frame (t : Team) (n : Nat) (v : Mask) : (t.setP n v).frame = t.frame := rfl
@[simp] theorem Team.setP_entry (t : Team) (n : Nat) (v : Mask) : (t.setP n v).entry = t.entry := rfl
@[simp] theorem Team.setP_st (t : Team) (n : Nat) (v : Mask) : (t.setP n v).st = t.st := rfl
@[simp] theorem Team.setP_wait (t : Team) (n : Nat) (v : Mask) : (t.setP n v).wait = t.wait := rfl
@[simp] theorem Team.setP_halted (t : Team) (n : Nat) (v : Mask) : (t.setP n v).halted = t.halted := rfl
@[simp] theorem Team.setP_byEvent (t : Team) (n : Nat) (v : Mask) : (t.setP n v).byEvent = t.byEvent := rfl
@[simp] theorem Team.setP_outs (t : Team) (n : Nat) (v : Mask) : (t.setP n v).outs = t.outs := rfl
@[simp] theorem Team.setP_nextAcc (t : Team) (n : Nat) (v : Mask) : (t.setP n v).nextAcc = t.nextAcc := rfl
@[simp] theorem Team.setP_latch (t : Team) (n : Nat) (v : Mask) : (t.setP n v).latch = t.latch := rfl
@[simp] theorem Team.setP_cancelPending (t : Team) (n : Nat) (v : Mask) : (t.setP n v).cancelPending = t.cancelPending := rfl
@[simp] theorem Team.setP_cancelTaken (t : Team) (n : Nat) (v : Mask) : (t.setP n v).cancelTaken = t.cancelTaken := rfl
@[simp] theorem Team.setP_mismatch (t : Team) (n : Nat) (v : Mask) : (t.setP n v).mismatch = t.mismatch := rfl
@[simp] theorem Team.setP_killPending (t : Team) (n : Nat) (v : Mask) : (t.setP n v).killPending = t.killPending := rfl
@[simp] theorem Team.setP_bpSkip (t : Team) (n : Nat) (v : Mask) : (t.setP n v).bpSkip = t.bpSkip := rfl
@[simp] theorem Team.setP_steps (t : Team) (n : Nat) (v : Mask) : (t.setP n v).steps = t.steps := rfl
@[simp] theorem Team.setP_stepPending (t : Team) (n : Nat) (v : Mask) : (t.setP n v).stepPending = t.stepPending := rfl
@[simp] theorem Team.setP_retired (t : Team) (n : Nat) (v : Mask) : (t.setP n v).retired = t.retired := rfl
@[simp] theorem Team.setP_epochUsed (t : Team) (n : Nat) (v : Mask) : (t.setP n v).epochUsed = t.epochUsed := rfl
@[simp] theorem Team.setP_lastPc (t : Team) (n : Nat) (v : Mask) : (t.setP n v).lastPc = t.lastPc := rfl
@[simp] theorem Team.setP_stalled (t : Team) (n : Nat) (v : Mask) : (t.setP n v).stalled = t.stalled := rfl
@[simp] theorem Team.setP_ordered (t : Team) (n : Nat) (v : Mask) : (t.setP n v).ordered = t.ordered := rfl

/-! `Team.setV` changes `v` alone. -/

@[simp] theorem Team.setV_crew (t : Team) (r l : Nat) (e : VElem) : (t.setV r l e).crew = t.crew := rfl
@[simp] theorem Team.setV_num (t : Team) (r l : Nat) (e : VElem) : (t.setV r l e).num = t.num := rfl
@[simp] theorem Team.setV_teamid (t : Team) (r l : Nat) (e : VElem) : (t.setV r l e).teamid = t.teamid := rfl
@[simp] theorem Team.setV_pc (t : Team) (r l : Nat) (e : VElem) : (t.setV r l e).pc = t.pc := rfl
@[simp] theorem Team.setV_half (t : Team) (r l : Nat) (e : VElem) : (t.setV r l e).half = t.half := rfl
@[simp] theorem Team.setV_code (t : Team) (r l : Nat) (e : VElem) : (t.setV r l e).code = t.code := rfl
@[simp] theorem Team.setV_codeReq (t : Team) (r l : Nat) (e : VElem) : (t.setV r l e).codeReq = t.codeReq := rfl
@[simp] theorem Team.setV_mode (t : Team) (r l : Nat) (e : VElem) : (t.setV r l e).mode = t.mode := rfl
@[simp] theorem Team.setV_nlanes (t : Team) (r l : Nat) (e : VElem) : (t.setV r l e).nlanes = t.nlanes := rfl
@[simp] theorem Team.setV_vregs (t : Team) (r l : Nat) (e : VElem) : (t.setV r l e).vregs = t.vregs := rfl
@[simp] theorem Team.setV_s (t : Team) (r l : Nat) (e : VElem) : (t.setV r l e).s = t.s := rfl
@[simp] theorem Team.setV_b (t : Team) (r l : Nat) (e : VElem) : (t.setV r l e).b = t.b := rfl
@[simp] theorem Team.setV_c (t : Team) (r l : Nat) (e : VElem) : (t.setV r l e).c = t.c := rfl
@[simp] theorem Team.setV_vcap (t : Team) (r l : Nat) (e : VElem) : (t.setV r l e).vcap = t.vcap := rfl
@[simp] theorem Team.setV_p (t : Team) (r l : Nat) (e : VElem) : (t.setV r l e).p = t.p := rfl
@[simp] theorem Team.setV_m (t : Team) (r l : Nat) (e : VElem) : (t.setV r l e).m = t.m := rfl
@[simp] theorem Team.setV_stack (t : Team) (r l : Nat) (e : VElem) : (t.setV r l e).stack = t.stack := rfl
@[simp] theorem Team.setV_ttimer (t : Team) (r l : Nat) (e : VElem) : (t.setV r l e).ttimer = t.ttimer := rfl
@[simp] theorem Team.setV_fpctl (t : Team) (r l : Nat) (e : VElem) : (t.setV r l e).fpctl = t.fpctl := rfl
@[simp] theorem Team.setV_fpst (t : Team) (r l : Nat) (e : VElem) : (t.setV r l e).fpst = t.fpst := rfl
@[simp] theorem Team.setV_tagrule (t : Team) (r l : Nat) (e : VElem) : (t.setV r l e).tagrule = t.tagrule := rfl
@[simp] theorem Team.setV_abandoned (t : Team) (r l : Nat) (e : VElem) : (t.setV r l e).abandoned = t.abandoned := rfl
@[simp] theorem Team.setV_trapcause (t : Team) (r l : Nat) (e : VElem) : (t.setV r l e).trapcause = t.trapcause := rfl
@[simp] theorem Team.setV_trappc (t : Team) (r l : Nat) (e : VElem) : (t.setV r l e).trappc = t.trappc := rfl
@[simp] theorem Team.setV_trapmask (t : Team) (r l : Nat) (e : VElem) : (t.setV r l e).trapmask = t.trapmask := rfl
@[simp] theorem Team.setV_traptagA (t : Team) (r l : Nat) (e : VElem) : (t.setV r l e).traptagA = t.traptagA := rfl
@[simp] theorem Team.setV_traptagB (t : Team) (r l : Nat) (e : VElem) : (t.setV r l e).traptagB = t.traptagB := rfl
@[simp] theorem Team.setV_traptagC (t : Team) (r l : Nat) (e : VElem) : (t.setV r l e).traptagC = t.traptagC := rfl
@[simp] theorem Team.setV_trapaddr (t : Team) (r l : Nat) (e : VElem) : (t.setV r l e).trapaddr = t.trapaddr := rfl
@[simp] theorem Team.setV_skid (t : Team) (r l : Nat) (e : VElem) : (t.setV r l e).skid = t.skid := rfl
@[simp] theorem Team.setV_frame (t : Team) (r l : Nat) (e : VElem) : (t.setV r l e).frame = t.frame := rfl
@[simp] theorem Team.setV_entry (t : Team) (r l : Nat) (e : VElem) : (t.setV r l e).entry = t.entry := rfl
@[simp] theorem Team.setV_st (t : Team) (r l : Nat) (e : VElem) : (t.setV r l e).st = t.st := rfl
@[simp] theorem Team.setV_wait (t : Team) (r l : Nat) (e : VElem) : (t.setV r l e).wait = t.wait := rfl
@[simp] theorem Team.setV_halted (t : Team) (r l : Nat) (e : VElem) : (t.setV r l e).halted = t.halted := rfl
@[simp] theorem Team.setV_byEvent (t : Team) (r l : Nat) (e : VElem) : (t.setV r l e).byEvent = t.byEvent := rfl
@[simp] theorem Team.setV_outs (t : Team) (r l : Nat) (e : VElem) : (t.setV r l e).outs = t.outs := rfl
@[simp] theorem Team.setV_nextAcc (t : Team) (r l : Nat) (e : VElem) : (t.setV r l e).nextAcc = t.nextAcc := rfl
@[simp] theorem Team.setV_latch (t : Team) (r l : Nat) (e : VElem) : (t.setV r l e).latch = t.latch := rfl
@[simp] theorem Team.setV_cancelPending (t : Team) (r l : Nat) (e : VElem) : (t.setV r l e).cancelPending = t.cancelPending := rfl
@[simp] theorem Team.setV_cancelTaken (t : Team) (r l : Nat) (e : VElem) : (t.setV r l e).cancelTaken = t.cancelTaken := rfl
@[simp] theorem Team.setV_mismatch (t : Team) (r l : Nat) (e : VElem) : (t.setV r l e).mismatch = t.mismatch := rfl
@[simp] theorem Team.setV_killPending (t : Team) (r l : Nat) (e : VElem) : (t.setV r l e).killPending = t.killPending := rfl
@[simp] theorem Team.setV_bpSkip (t : Team) (r l : Nat) (e : VElem) : (t.setV r l e).bpSkip = t.bpSkip := rfl
@[simp] theorem Team.setV_steps (t : Team) (r l : Nat) (e : VElem) : (t.setV r l e).steps = t.steps := rfl
@[simp] theorem Team.setV_stepPending (t : Team) (r l : Nat) (e : VElem) : (t.setV r l e).stepPending = t.stepPending := rfl
@[simp] theorem Team.setV_retired (t : Team) (r l : Nat) (e : VElem) : (t.setV r l e).retired = t.retired := rfl
@[simp] theorem Team.setV_epochUsed (t : Team) (r l : Nat) (e : VElem) : (t.setV r l e).epochUsed = t.epochUsed := rfl
@[simp] theorem Team.setV_lastPc (t : Team) (r l : Nat) (e : VElem) : (t.setV r l e).lastPc = t.lastPc := rfl
@[simp] theorem Team.setV_stalled (t : Team) (r l : Nat) (e : VElem) : (t.setV r l e).stalled = t.stalled := rfl
@[simp] theorem Team.setV_ordered (t : Team) (r l : Nat) (e : VElem) : (t.setV r l e).ordered = t.ordered := rfl

/-! `Team.setVvalid` changes `vcap` alone. -/

@[simp] theorem Team.setVvalid_crew (t : Team) (r l : Nat) (x : Bool) : (t.setVvalid r l x).crew = t.crew := rfl
@[simp] theorem Team.setVvalid_num (t : Team) (r l : Nat) (x : Bool) : (t.setVvalid r l x).num = t.num := rfl
@[simp] theorem Team.setVvalid_teamid (t : Team) (r l : Nat) (x : Bool) : (t.setVvalid r l x).teamid = t.teamid := rfl
@[simp] theorem Team.setVvalid_pc (t : Team) (r l : Nat) (x : Bool) : (t.setVvalid r l x).pc = t.pc := rfl
@[simp] theorem Team.setVvalid_half (t : Team) (r l : Nat) (x : Bool) : (t.setVvalid r l x).half = t.half := rfl
@[simp] theorem Team.setVvalid_code (t : Team) (r l : Nat) (x : Bool) : (t.setVvalid r l x).code = t.code := rfl
@[simp] theorem Team.setVvalid_codeReq (t : Team) (r l : Nat) (x : Bool) : (t.setVvalid r l x).codeReq = t.codeReq := rfl
@[simp] theorem Team.setVvalid_mode (t : Team) (r l : Nat) (x : Bool) : (t.setVvalid r l x).mode = t.mode := rfl
@[simp] theorem Team.setVvalid_nlanes (t : Team) (r l : Nat) (x : Bool) : (t.setVvalid r l x).nlanes = t.nlanes := rfl
@[simp] theorem Team.setVvalid_vregs (t : Team) (r l : Nat) (x : Bool) : (t.setVvalid r l x).vregs = t.vregs := rfl
@[simp] theorem Team.setVvalid_s (t : Team) (r l : Nat) (x : Bool) : (t.setVvalid r l x).s = t.s := rfl
@[simp] theorem Team.setVvalid_b (t : Team) (r l : Nat) (x : Bool) : (t.setVvalid r l x).b = t.b := rfl
@[simp] theorem Team.setVvalid_c (t : Team) (r l : Nat) (x : Bool) : (t.setVvalid r l x).c = t.c := rfl
@[simp] theorem Team.setVvalid_v (t : Team) (r l : Nat) (x : Bool) : (t.setVvalid r l x).v = t.v := rfl
@[simp] theorem Team.setVvalid_p (t : Team) (r l : Nat) (x : Bool) : (t.setVvalid r l x).p = t.p := rfl
@[simp] theorem Team.setVvalid_m (t : Team) (r l : Nat) (x : Bool) : (t.setVvalid r l x).m = t.m := rfl
@[simp] theorem Team.setVvalid_stack (t : Team) (r l : Nat) (x : Bool) : (t.setVvalid r l x).stack = t.stack := rfl
@[simp] theorem Team.setVvalid_ttimer (t : Team) (r l : Nat) (x : Bool) : (t.setVvalid r l x).ttimer = t.ttimer := rfl
@[simp] theorem Team.setVvalid_fpctl (t : Team) (r l : Nat) (x : Bool) : (t.setVvalid r l x).fpctl = t.fpctl := rfl
@[simp] theorem Team.setVvalid_fpst (t : Team) (r l : Nat) (x : Bool) : (t.setVvalid r l x).fpst = t.fpst := rfl
@[simp] theorem Team.setVvalid_tagrule (t : Team) (r l : Nat) (x : Bool) : (t.setVvalid r l x).tagrule = t.tagrule := rfl
@[simp] theorem Team.setVvalid_abandoned (t : Team) (r l : Nat) (x : Bool) : (t.setVvalid r l x).abandoned = t.abandoned := rfl
@[simp] theorem Team.setVvalid_trapcause (t : Team) (r l : Nat) (x : Bool) : (t.setVvalid r l x).trapcause = t.trapcause := rfl
@[simp] theorem Team.setVvalid_trappc (t : Team) (r l : Nat) (x : Bool) : (t.setVvalid r l x).trappc = t.trappc := rfl
@[simp] theorem Team.setVvalid_trapmask (t : Team) (r l : Nat) (x : Bool) : (t.setVvalid r l x).trapmask = t.trapmask := rfl
@[simp] theorem Team.setVvalid_traptagA (t : Team) (r l : Nat) (x : Bool) : (t.setVvalid r l x).traptagA = t.traptagA := rfl
@[simp] theorem Team.setVvalid_traptagB (t : Team) (r l : Nat) (x : Bool) : (t.setVvalid r l x).traptagB = t.traptagB := rfl
@[simp] theorem Team.setVvalid_traptagC (t : Team) (r l : Nat) (x : Bool) : (t.setVvalid r l x).traptagC = t.traptagC := rfl
@[simp] theorem Team.setVvalid_trapaddr (t : Team) (r l : Nat) (x : Bool) : (t.setVvalid r l x).trapaddr = t.trapaddr := rfl
@[simp] theorem Team.setVvalid_skid (t : Team) (r l : Nat) (x : Bool) : (t.setVvalid r l x).skid = t.skid := rfl
@[simp] theorem Team.setVvalid_frame (t : Team) (r l : Nat) (x : Bool) : (t.setVvalid r l x).frame = t.frame := rfl
@[simp] theorem Team.setVvalid_entry (t : Team) (r l : Nat) (x : Bool) : (t.setVvalid r l x).entry = t.entry := rfl
@[simp] theorem Team.setVvalid_st (t : Team) (r l : Nat) (x : Bool) : (t.setVvalid r l x).st = t.st := rfl
@[simp] theorem Team.setVvalid_wait (t : Team) (r l : Nat) (x : Bool) : (t.setVvalid r l x).wait = t.wait := rfl
@[simp] theorem Team.setVvalid_halted (t : Team) (r l : Nat) (x : Bool) : (t.setVvalid r l x).halted = t.halted := rfl
@[simp] theorem Team.setVvalid_byEvent (t : Team) (r l : Nat) (x : Bool) : (t.setVvalid r l x).byEvent = t.byEvent := rfl
@[simp] theorem Team.setVvalid_outs (t : Team) (r l : Nat) (x : Bool) : (t.setVvalid r l x).outs = t.outs := rfl
@[simp] theorem Team.setVvalid_nextAcc (t : Team) (r l : Nat) (x : Bool) : (t.setVvalid r l x).nextAcc = t.nextAcc := rfl
@[simp] theorem Team.setVvalid_latch (t : Team) (r l : Nat) (x : Bool) : (t.setVvalid r l x).latch = t.latch := rfl
@[simp] theorem Team.setVvalid_cancelPending (t : Team) (r l : Nat) (x : Bool) : (t.setVvalid r l x).cancelPending = t.cancelPending := rfl
@[simp] theorem Team.setVvalid_cancelTaken (t : Team) (r l : Nat) (x : Bool) : (t.setVvalid r l x).cancelTaken = t.cancelTaken := rfl
@[simp] theorem Team.setVvalid_mismatch (t : Team) (r l : Nat) (x : Bool) : (t.setVvalid r l x).mismatch = t.mismatch := rfl
@[simp] theorem Team.setVvalid_killPending (t : Team) (r l : Nat) (x : Bool) : (t.setVvalid r l x).killPending = t.killPending := rfl
@[simp] theorem Team.setVvalid_bpSkip (t : Team) (r l : Nat) (x : Bool) : (t.setVvalid r l x).bpSkip = t.bpSkip := rfl
@[simp] theorem Team.setVvalid_steps (t : Team) (r l : Nat) (x : Bool) : (t.setVvalid r l x).steps = t.steps := rfl
@[simp] theorem Team.setVvalid_stepPending (t : Team) (r l : Nat) (x : Bool) : (t.setVvalid r l x).stepPending = t.stepPending := rfl
@[simp] theorem Team.setVvalid_retired (t : Team) (r l : Nat) (x : Bool) : (t.setVvalid r l x).retired = t.retired := rfl
@[simp] theorem Team.setVvalid_epochUsed (t : Team) (r l : Nat) (x : Bool) : (t.setVvalid r l x).epochUsed = t.epochUsed := rfl
@[simp] theorem Team.setVvalid_lastPc (t : Team) (r l : Nat) (x : Bool) : (t.setVvalid r l x).lastPc = t.lastPc := rfl
@[simp] theorem Team.setVvalid_stalled (t : Team) (r l : Nat) (x : Bool) : (t.setVvalid r l x).stalled = t.stalled := rfl
@[simp] theorem Team.setVvalid_ordered (t : Team) (r l : Nat) (x : Bool) : (t.setVvalid r l x).ordered = t.ordered := rfl

/-! `Team.orFpst` changes `fpst` alone. -/

@[simp] theorem Team.orFpst_crew (t : Team) (e : Exc) : (t.orFpst e).crew = t.crew := rfl
@[simp] theorem Team.orFpst_num (t : Team) (e : Exc) : (t.orFpst e).num = t.num := rfl
@[simp] theorem Team.orFpst_teamid (t : Team) (e : Exc) : (t.orFpst e).teamid = t.teamid := rfl
@[simp] theorem Team.orFpst_pc (t : Team) (e : Exc) : (t.orFpst e).pc = t.pc := rfl
@[simp] theorem Team.orFpst_half (t : Team) (e : Exc) : (t.orFpst e).half = t.half := rfl
@[simp] theorem Team.orFpst_code (t : Team) (e : Exc) : (t.orFpst e).code = t.code := rfl
@[simp] theorem Team.orFpst_codeReq (t : Team) (e : Exc) : (t.orFpst e).codeReq = t.codeReq := rfl
@[simp] theorem Team.orFpst_mode (t : Team) (e : Exc) : (t.orFpst e).mode = t.mode := rfl
@[simp] theorem Team.orFpst_nlanes (t : Team) (e : Exc) : (t.orFpst e).nlanes = t.nlanes := rfl
@[simp] theorem Team.orFpst_vregs (t : Team) (e : Exc) : (t.orFpst e).vregs = t.vregs := rfl
@[simp] theorem Team.orFpst_s (t : Team) (e : Exc) : (t.orFpst e).s = t.s := rfl
@[simp] theorem Team.orFpst_b (t : Team) (e : Exc) : (t.orFpst e).b = t.b := rfl
@[simp] theorem Team.orFpst_c (t : Team) (e : Exc) : (t.orFpst e).c = t.c := rfl
@[simp] theorem Team.orFpst_v (t : Team) (e : Exc) : (t.orFpst e).v = t.v := rfl
@[simp] theorem Team.orFpst_vcap (t : Team) (e : Exc) : (t.orFpst e).vcap = t.vcap := rfl
@[simp] theorem Team.orFpst_p (t : Team) (e : Exc) : (t.orFpst e).p = t.p := rfl
@[simp] theorem Team.orFpst_m (t : Team) (e : Exc) : (t.orFpst e).m = t.m := rfl
@[simp] theorem Team.orFpst_stack (t : Team) (e : Exc) : (t.orFpst e).stack = t.stack := rfl
@[simp] theorem Team.orFpst_ttimer (t : Team) (e : Exc) : (t.orFpst e).ttimer = t.ttimer := rfl
@[simp] theorem Team.orFpst_fpctl (t : Team) (e : Exc) : (t.orFpst e).fpctl = t.fpctl := rfl
@[simp] theorem Team.orFpst_tagrule (t : Team) (e : Exc) : (t.orFpst e).tagrule = t.tagrule := rfl
@[simp] theorem Team.orFpst_abandoned (t : Team) (e : Exc) : (t.orFpst e).abandoned = t.abandoned := rfl
@[simp] theorem Team.orFpst_trapcause (t : Team) (e : Exc) : (t.orFpst e).trapcause = t.trapcause := rfl
@[simp] theorem Team.orFpst_trappc (t : Team) (e : Exc) : (t.orFpst e).trappc = t.trappc := rfl
@[simp] theorem Team.orFpst_trapmask (t : Team) (e : Exc) : (t.orFpst e).trapmask = t.trapmask := rfl
@[simp] theorem Team.orFpst_traptagA (t : Team) (e : Exc) : (t.orFpst e).traptagA = t.traptagA := rfl
@[simp] theorem Team.orFpst_traptagB (t : Team) (e : Exc) : (t.orFpst e).traptagB = t.traptagB := rfl
@[simp] theorem Team.orFpst_traptagC (t : Team) (e : Exc) : (t.orFpst e).traptagC = t.traptagC := rfl
@[simp] theorem Team.orFpst_trapaddr (t : Team) (e : Exc) : (t.orFpst e).trapaddr = t.trapaddr := rfl
@[simp] theorem Team.orFpst_skid (t : Team) (e : Exc) : (t.orFpst e).skid = t.skid := rfl
@[simp] theorem Team.orFpst_frame (t : Team) (e : Exc) : (t.orFpst e).frame = t.frame := rfl
@[simp] theorem Team.orFpst_entry (t : Team) (e : Exc) : (t.orFpst e).entry = t.entry := rfl
@[simp] theorem Team.orFpst_st (t : Team) (e : Exc) : (t.orFpst e).st = t.st := rfl
@[simp] theorem Team.orFpst_wait (t : Team) (e : Exc) : (t.orFpst e).wait = t.wait := rfl
@[simp] theorem Team.orFpst_halted (t : Team) (e : Exc) : (t.orFpst e).halted = t.halted := rfl
@[simp] theorem Team.orFpst_byEvent (t : Team) (e : Exc) : (t.orFpst e).byEvent = t.byEvent := rfl
@[simp] theorem Team.orFpst_outs (t : Team) (e : Exc) : (t.orFpst e).outs = t.outs := rfl
@[simp] theorem Team.orFpst_nextAcc (t : Team) (e : Exc) : (t.orFpst e).nextAcc = t.nextAcc := rfl
@[simp] theorem Team.orFpst_latch (t : Team) (e : Exc) : (t.orFpst e).latch = t.latch := rfl
@[simp] theorem Team.orFpst_cancelPending (t : Team) (e : Exc) : (t.orFpst e).cancelPending = t.cancelPending := rfl
@[simp] theorem Team.orFpst_cancelTaken (t : Team) (e : Exc) : (t.orFpst e).cancelTaken = t.cancelTaken := rfl
@[simp] theorem Team.orFpst_mismatch (t : Team) (e : Exc) : (t.orFpst e).mismatch = t.mismatch := rfl
@[simp] theorem Team.orFpst_killPending (t : Team) (e : Exc) : (t.orFpst e).killPending = t.killPending := rfl
@[simp] theorem Team.orFpst_bpSkip (t : Team) (e : Exc) : (t.orFpst e).bpSkip = t.bpSkip := rfl
@[simp] theorem Team.orFpst_steps (t : Team) (e : Exc) : (t.orFpst e).steps = t.steps := rfl
@[simp] theorem Team.orFpst_stepPending (t : Team) (e : Exc) : (t.orFpst e).stepPending = t.stepPending := rfl
@[simp] theorem Team.orFpst_retired (t : Team) (e : Exc) : (t.orFpst e).retired = t.retired := rfl
@[simp] theorem Team.orFpst_epochUsed (t : Team) (e : Exc) : (t.orFpst e).epochUsed = t.epochUsed := rfl
@[simp] theorem Team.orFpst_lastPc (t : Team) (e : Exc) : (t.orFpst e).lastPc = t.lastPc := rfl
@[simp] theorem Team.orFpst_stalled (t : Team) (e : Exc) : (t.orFpst e).stalled = t.stalled := rfl
@[simp] theorem Team.orFpst_ordered (t : Team) (e : Exc) : (t.orFpst e).ordered = t.ordered := rfl

/-! `Team.setC` changes `c` alone. -/

theorem Team.setC_eq (t : Team) (n : Nat) (v : CReg) : t.setC n v = { t with c := if n = 0 then t.c else t.c.set n v } := by
  unfold Team.setC; split <;> rfl
@[simp] theorem Team.setC_crew (t : Team) (n : Nat) (v : CReg) : (t.setC n v).crew = t.crew := by rw [Team.setC_eq]
@[simp] theorem Team.setC_num (t : Team) (n : Nat) (v : CReg) : (t.setC n v).num = t.num := by rw [Team.setC_eq]
@[simp] theorem Team.setC_teamid (t : Team) (n : Nat) (v : CReg) : (t.setC n v).teamid = t.teamid := by rw [Team.setC_eq]
@[simp] theorem Team.setC_pc (t : Team) (n : Nat) (v : CReg) : (t.setC n v).pc = t.pc := by rw [Team.setC_eq]
@[simp] theorem Team.setC_half (t : Team) (n : Nat) (v : CReg) : (t.setC n v).half = t.half := by rw [Team.setC_eq]
@[simp] theorem Team.setC_code (t : Team) (n : Nat) (v : CReg) : (t.setC n v).code = t.code := by rw [Team.setC_eq]
@[simp] theorem Team.setC_codeReq (t : Team) (n : Nat) (v : CReg) : (t.setC n v).codeReq = t.codeReq := by rw [Team.setC_eq]
@[simp] theorem Team.setC_mode (t : Team) (n : Nat) (v : CReg) : (t.setC n v).mode = t.mode := by rw [Team.setC_eq]
@[simp] theorem Team.setC_nlanes (t : Team) (n : Nat) (v : CReg) : (t.setC n v).nlanes = t.nlanes := by rw [Team.setC_eq]
@[simp] theorem Team.setC_vregs (t : Team) (n : Nat) (v : CReg) : (t.setC n v).vregs = t.vregs := by rw [Team.setC_eq]
@[simp] theorem Team.setC_s (t : Team) (n : Nat) (v : CReg) : (t.setC n v).s = t.s := by rw [Team.setC_eq]
@[simp] theorem Team.setC_b (t : Team) (n : Nat) (v : CReg) : (t.setC n v).b = t.b := by rw [Team.setC_eq]
@[simp] theorem Team.setC_v (t : Team) (n : Nat) (v : CReg) : (t.setC n v).v = t.v := by rw [Team.setC_eq]
@[simp] theorem Team.setC_vcap (t : Team) (n : Nat) (v : CReg) : (t.setC n v).vcap = t.vcap := by rw [Team.setC_eq]
@[simp] theorem Team.setC_p (t : Team) (n : Nat) (v : CReg) : (t.setC n v).p = t.p := by rw [Team.setC_eq]
@[simp] theorem Team.setC_m (t : Team) (n : Nat) (v : CReg) : (t.setC n v).m = t.m := by rw [Team.setC_eq]
@[simp] theorem Team.setC_stack (t : Team) (n : Nat) (v : CReg) : (t.setC n v).stack = t.stack := by rw [Team.setC_eq]
@[simp] theorem Team.setC_ttimer (t : Team) (n : Nat) (v : CReg) : (t.setC n v).ttimer = t.ttimer := by rw [Team.setC_eq]
@[simp] theorem Team.setC_fpctl (t : Team) (n : Nat) (v : CReg) : (t.setC n v).fpctl = t.fpctl := by rw [Team.setC_eq]
@[simp] theorem Team.setC_fpst (t : Team) (n : Nat) (v : CReg) : (t.setC n v).fpst = t.fpst := by rw [Team.setC_eq]
@[simp] theorem Team.setC_tagrule (t : Team) (n : Nat) (v : CReg) : (t.setC n v).tagrule = t.tagrule := by rw [Team.setC_eq]
@[simp] theorem Team.setC_abandoned (t : Team) (n : Nat) (v : CReg) : (t.setC n v).abandoned = t.abandoned := by rw [Team.setC_eq]
@[simp] theorem Team.setC_trapcause (t : Team) (n : Nat) (v : CReg) : (t.setC n v).trapcause = t.trapcause := by rw [Team.setC_eq]
@[simp] theorem Team.setC_trappc (t : Team) (n : Nat) (v : CReg) : (t.setC n v).trappc = t.trappc := by rw [Team.setC_eq]
@[simp] theorem Team.setC_trapmask (t : Team) (n : Nat) (v : CReg) : (t.setC n v).trapmask = t.trapmask := by rw [Team.setC_eq]
@[simp] theorem Team.setC_traptagA (t : Team) (n : Nat) (v : CReg) : (t.setC n v).traptagA = t.traptagA := by rw [Team.setC_eq]
@[simp] theorem Team.setC_traptagB (t : Team) (n : Nat) (v : CReg) : (t.setC n v).traptagB = t.traptagB := by rw [Team.setC_eq]
@[simp] theorem Team.setC_traptagC (t : Team) (n : Nat) (v : CReg) : (t.setC n v).traptagC = t.traptagC := by rw [Team.setC_eq]
@[simp] theorem Team.setC_trapaddr (t : Team) (n : Nat) (v : CReg) : (t.setC n v).trapaddr = t.trapaddr := by rw [Team.setC_eq]
@[simp] theorem Team.setC_skid (t : Team) (n : Nat) (v : CReg) : (t.setC n v).skid = t.skid := by rw [Team.setC_eq]
@[simp] theorem Team.setC_frame (t : Team) (n : Nat) (v : CReg) : (t.setC n v).frame = t.frame := by rw [Team.setC_eq]
@[simp] theorem Team.setC_entry (t : Team) (n : Nat) (v : CReg) : (t.setC n v).entry = t.entry := by rw [Team.setC_eq]
@[simp] theorem Team.setC_st (t : Team) (n : Nat) (v : CReg) : (t.setC n v).st = t.st := by rw [Team.setC_eq]
@[simp] theorem Team.setC_wait (t : Team) (n : Nat) (v : CReg) : (t.setC n v).wait = t.wait := by rw [Team.setC_eq]
@[simp] theorem Team.setC_halted (t : Team) (n : Nat) (v : CReg) : (t.setC n v).halted = t.halted := by rw [Team.setC_eq]
@[simp] theorem Team.setC_byEvent (t : Team) (n : Nat) (v : CReg) : (t.setC n v).byEvent = t.byEvent := by rw [Team.setC_eq]
@[simp] theorem Team.setC_outs (t : Team) (n : Nat) (v : CReg) : (t.setC n v).outs = t.outs := by rw [Team.setC_eq]
@[simp] theorem Team.setC_nextAcc (t : Team) (n : Nat) (v : CReg) : (t.setC n v).nextAcc = t.nextAcc := by rw [Team.setC_eq]
@[simp] theorem Team.setC_latch (t : Team) (n : Nat) (v : CReg) : (t.setC n v).latch = t.latch := by rw [Team.setC_eq]
@[simp] theorem Team.setC_cancelPending (t : Team) (n : Nat) (v : CReg) : (t.setC n v).cancelPending = t.cancelPending := by rw [Team.setC_eq]
@[simp] theorem Team.setC_cancelTaken (t : Team) (n : Nat) (v : CReg) : (t.setC n v).cancelTaken = t.cancelTaken := by rw [Team.setC_eq]
@[simp] theorem Team.setC_mismatch (t : Team) (n : Nat) (v : CReg) : (t.setC n v).mismatch = t.mismatch := by rw [Team.setC_eq]
@[simp] theorem Team.setC_killPending (t : Team) (n : Nat) (v : CReg) : (t.setC n v).killPending = t.killPending := by rw [Team.setC_eq]
@[simp] theorem Team.setC_bpSkip (t : Team) (n : Nat) (v : CReg) : (t.setC n v).bpSkip = t.bpSkip := by rw [Team.setC_eq]
@[simp] theorem Team.setC_steps (t : Team) (n : Nat) (v : CReg) : (t.setC n v).steps = t.steps := by rw [Team.setC_eq]
@[simp] theorem Team.setC_stepPending (t : Team) (n : Nat) (v : CReg) : (t.setC n v).stepPending = t.stepPending := by rw [Team.setC_eq]
@[simp] theorem Team.setC_retired (t : Team) (n : Nat) (v : CReg) : (t.setC n v).retired = t.retired := by rw [Team.setC_eq]
@[simp] theorem Team.setC_epochUsed (t : Team) (n : Nat) (v : CReg) : (t.setC n v).epochUsed = t.epochUsed := by rw [Team.setC_eq]
@[simp] theorem Team.setC_lastPc (t : Team) (n : Nat) (v : CReg) : (t.setC n v).lastPc = t.lastPc := by rw [Team.setC_eq]
@[simp] theorem Team.setC_stalled (t : Team) (n : Nat) (v : CReg) : (t.setC n v).stalled = t.stalled := by rw [Team.setC_eq]
@[simp] theorem Team.setC_ordered (t : Team) (n : Nat) (v : CReg) : (t.setC n v).ordered = t.ordered := by rw [Team.setC_eq]

/-! Entities of another kind read as before. -/

@[simp] theorem State.crewAt_setTeamAt (s : State) (i : Nat) (t : Team) (j : Nat) : (s.setTeamAt i t).crewAt j = s.crewAt j := rfl
@[simp] theorem State.launchAt_setTeamAt (s : State) (i : Nat) (t : Team) (j : Nat) : (s.setTeamAt i t).launchAt j = s.launchAt j := rfl
@[simp] theorem State.ctxAt_setTeamAt (s : State) (i : Nat) (t : Team) (j : Nat) : (s.setTeamAt i t).ctxAt j = s.ctxAt j := rfl
@[simp] theorem State.coreAt_setTeamAt (s : State) (i : Nat) (t : Team) (j : Nat) : (s.setTeamAt i t).coreAt j = s.coreAt j := rfl
@[simp] theorem State.dieAt_setTeamAt (s : State) (i : Nat) (t : Team) (j : Nat) : (s.setTeamAt i t).dieAt j = s.dieAt j := rfl
@[simp] theorem State.cmdAt_setTeamAt (s : State) (i : Nat) (t : Team) (j : Nat) : (s.setTeamAt i t).cmdAt j = s.cmdAt j := rfl
@[simp] theorem State.teamAt_setCrewAt (s : State) (i : Nat) (c : Crew) (j : Nat) : (s.setCrewAt i c).teamAt j = s.teamAt j := rfl
@[simp] theorem State.launchAt_setCrewAt (s : State) (i : Nat) (c : Crew) (j : Nat) : (s.setCrewAt i c).launchAt j = s.launchAt j := rfl
@[simp] theorem State.ctxAt_setCrewAt (s : State) (i : Nat) (c : Crew) (j : Nat) : (s.setCrewAt i c).ctxAt j = s.ctxAt j := rfl
@[simp] theorem State.coreAt_setCrewAt (s : State) (i : Nat) (c : Crew) (j : Nat) : (s.setCrewAt i c).coreAt j = s.coreAt j := rfl
@[simp] theorem State.dieAt_setCrewAt (s : State) (i : Nat) (c : Crew) (j : Nat) : (s.setCrewAt i c).dieAt j = s.dieAt j := rfl
@[simp] theorem State.cmdAt_setCrewAt (s : State) (i : Nat) (c : Crew) (j : Nat) : (s.setCrewAt i c).cmdAt j = s.cmdAt j := rfl
@[simp] theorem State.teamAt_modLaunch (s : State) (i : Nat) (f : Launch → Launch) (j : Nat) : (s.modLaunch i f).teamAt j = s.teamAt j := rfl
@[simp] theorem State.crewAt_modLaunch (s : State) (i : Nat) (f : Launch → Launch) (j : Nat) : (s.modLaunch i f).crewAt j = s.crewAt j := rfl
@[simp] theorem State.ctxAt_modLaunch (s : State) (i : Nat) (f : Launch → Launch) (j : Nat) : (s.modLaunch i f).ctxAt j = s.ctxAt j := rfl
@[simp] theorem State.coreAt_modLaunch (s : State) (i : Nat) (f : Launch → Launch) (j : Nat) : (s.modLaunch i f).coreAt j = s.coreAt j := rfl
@[simp] theorem State.dieAt_modLaunch (s : State) (i : Nat) (f : Launch → Launch) (j : Nat) : (s.modLaunch i f).dieAt j = s.dieAt j := rfl
@[simp] theorem State.cmdAt_modLaunch (s : State) (i : Nat) (f : Launch → Launch) (j : Nat) : (s.modLaunch i f).cmdAt j = s.cmdAt j := rfl
@[simp] theorem State.teamAt_modCtx (s : State) (i : Nat) (f : Context → Context) (j : Nat) : (s.modCtx i f).teamAt j = s.teamAt j := rfl
@[simp] theorem State.crewAt_modCtx (s : State) (i : Nat) (f : Context → Context) (j : Nat) : (s.modCtx i f).crewAt j = s.crewAt j := rfl
@[simp] theorem State.launchAt_modCtx (s : State) (i : Nat) (f : Context → Context) (j : Nat) : (s.modCtx i f).launchAt j = s.launchAt j := rfl
@[simp] theorem State.coreAt_modCtx (s : State) (i : Nat) (f : Context → Context) (j : Nat) : (s.modCtx i f).coreAt j = s.coreAt j := rfl
@[simp] theorem State.dieAt_modCtx (s : State) (i : Nat) (f : Context → Context) (j : Nat) : (s.modCtx i f).dieAt j = s.dieAt j := rfl
@[simp] theorem State.cmdAt_modCtx (s : State) (i : Nat) (f : Context → Context) (j : Nat) : (s.modCtx i f).cmdAt j = s.cmdAt j := rfl
@[simp] theorem State.teamAt_modCmd (s : State) (i : Nat) (f : Cmd → Cmd) (j : Nat) : (s.modCmd i f).teamAt j = s.teamAt j := rfl
@[simp] theorem State.crewAt_modCmd (s : State) (i : Nat) (f : Cmd → Cmd) (j : Nat) : (s.modCmd i f).crewAt j = s.crewAt j := rfl
@[simp] theorem State.launchAt_modCmd (s : State) (i : Nat) (f : Cmd → Cmd) (j : Nat) : (s.modCmd i f).launchAt j = s.launchAt j := rfl
@[simp] theorem State.ctxAt_modCmd (s : State) (i : Nat) (f : Cmd → Cmd) (j : Nat) : (s.modCmd i f).ctxAt j = s.ctxAt j := rfl
@[simp] theorem State.coreAt_modCmd (s : State) (i : Nat) (f : Cmd → Cmd) (j : Nat) : (s.modCmd i f).coreAt j = s.coreAt j := rfl
@[simp] theorem State.dieAt_modCmd (s : State) (i : Nat) (f : Cmd → Cmd) (j : Nat) : (s.modCmd i f).dieAt j = s.dieAt j := rfl
@[simp] theorem State.teamAt_modCore (s : State) (i : Nat) (f : CoreSt → CoreSt) (j : Nat) : (s.modCore i f).teamAt j = s.teamAt j := rfl
@[simp] theorem State.crewAt_modCore (s : State) (i : Nat) (f : CoreSt → CoreSt) (j : Nat) : (s.modCore i f).crewAt j = s.crewAt j := rfl
@[simp] theorem State.launchAt_modCore (s : State) (i : Nat) (f : CoreSt → CoreSt) (j : Nat) : (s.modCore i f).launchAt j = s.launchAt j := rfl
@[simp] theorem State.ctxAt_modCore (s : State) (i : Nat) (f : CoreSt → CoreSt) (j : Nat) : (s.modCore i f).ctxAt j = s.ctxAt j := rfl
@[simp] theorem State.dieAt_modCore (s : State) (i : Nat) (f : CoreSt → CoreSt) (j : Nat) : (s.modCore i f).dieAt j = s.dieAt j := rfl
@[simp] theorem State.cmdAt_modCore (s : State) (i : Nat) (f : CoreSt → CoreSt) (j : Nat) : (s.modCore i f).cmdAt j = s.cmdAt j := rfl
@[simp] theorem State.teamAt_modDie (s : State) (i : Nat) (f : DieSt → DieSt) (j : Nat) : (s.modDie i f).teamAt j = s.teamAt j := rfl
@[simp] theorem State.crewAt_modDie (s : State) (i : Nat) (f : DieSt → DieSt) (j : Nat) : (s.modDie i f).crewAt j = s.crewAt j := rfl
@[simp] theorem State.launchAt_modDie (s : State) (i : Nat) (f : DieSt → DieSt) (j : Nat) : (s.modDie i f).launchAt j = s.launchAt j := rfl
@[simp] theorem State.ctxAt_modDie (s : State) (i : Nat) (f : DieSt → DieSt) (j : Nat) : (s.modDie i f).ctxAt j = s.ctxAt j := rfl
@[simp] theorem State.coreAt_modDie (s : State) (i : Nat) (f : DieSt → DieSt) (j : Nat) : (s.modDie i f).coreAt j = s.coreAt j := rfl
@[simp] theorem State.cmdAt_modDie (s : State) (i : Nat) (f : DieSt → DieSt) (j : Nat) : (s.modDie i f).cmdAt j = s.cmdAt j := rfl
@[simp] theorem State.teamAt_modRun (s : State) (i : Nat) (f : LevelRun → LevelRun) (j : Nat) : (s.modRun i f).teamAt j = s.teamAt j := rfl
@[simp] theorem State.crewAt_modRun (s : State) (i : Nat) (f : LevelRun → LevelRun) (j : Nat) : (s.modRun i f).crewAt j = s.crewAt j := rfl
@[simp] theorem State.launchAt_modRun (s : State) (i : Nat) (f : LevelRun → LevelRun) (j : Nat) : (s.modRun i f).launchAt j = s.launchAt j := rfl
@[simp] theorem State.ctxAt_modRun (s : State) (i : Nat) (f : LevelRun → LevelRun) (j : Nat) : (s.modRun i f).ctxAt j = s.ctxAt j := rfl
@[simp] theorem State.coreAt_modRun (s : State) (i : Nat) (f : LevelRun → LevelRun) (j : Nat) : (s.modRun i f).coreAt j = s.coreAt j := rfl
@[simp] theorem State.dieAt_modRun (s : State) (i : Nat) (f : LevelRun → LevelRun) (j : Nat) : (s.modRun i f).dieAt j = s.dieAt j := rfl
@[simp] theorem State.cmdAt_modRun (s : State) (i : Nat) (f : LevelRun → LevelRun) (j : Nat) : (s.modRun i f).cmdAt j = s.cmdAt j := rfl
@[simp] theorem State.teamAt_modPort (s : State) (i : Nat) (f : Port → Port) (j : Nat) : (s.modPort i f).teamAt j = s.teamAt j := rfl
@[simp] theorem State.crewAt_modPort (s : State) (i : Nat) (f : Port → Port) (j : Nat) : (s.modPort i f).crewAt j = s.crewAt j := rfl
@[simp] theorem State.launchAt_modPort (s : State) (i : Nat) (f : Port → Port) (j : Nat) : (s.modPort i f).launchAt j = s.launchAt j := rfl
@[simp] theorem State.ctxAt_modPort (s : State) (i : Nat) (f : Port → Port) (j : Nat) : (s.modPort i f).ctxAt j = s.ctxAt j := rfl
@[simp] theorem State.coreAt_modPort (s : State) (i : Nat) (f : Port → Port) (j : Nat) : (s.modPort i f).coreAt j = s.coreAt j := rfl
@[simp] theorem State.dieAt_modPort (s : State) (i : Nat) (f : Port → Port) (j : Nat) : (s.modPort i f).dieAt j = s.dieAt j := rfl
@[simp] theorem State.cmdAt_modPort (s : State) (i : Nat) (f : Port → Port) (j : Nat) : (s.modPort i f).cmdAt j = s.cmdAt j := rfl
@[simp] theorem State.teamAt_setReq (s : State) (i : Nat) (r : Req) (j : Nat) : (s.setReq i r).teamAt j = s.teamAt j := rfl
@[simp] theorem State.crewAt_setReq (s : State) (i : Nat) (r : Req) (j : Nat) : (s.setReq i r).crewAt j = s.crewAt j := rfl
@[simp] theorem State.launchAt_setReq (s : State) (i : Nat) (r : Req) (j : Nat) : (s.setReq i r).launchAt j = s.launchAt j := rfl
@[simp] theorem State.ctxAt_setReq (s : State) (i : Nat) (r : Req) (j : Nat) : (s.setReq i r).ctxAt j = s.ctxAt j := rfl
@[simp] theorem State.coreAt_setReq (s : State) (i : Nat) (r : Req) (j : Nat) : (s.setReq i r).coreAt j = s.coreAt j := rfl
@[simp] theorem State.dieAt_setReq (s : State) (i : Nat) (r : Req) (j : Nat) : (s.setReq i r).dieAt j = s.dieAt j := rfl
@[simp] theorem State.cmdAt_setReq (s : State) (i : Nat) (r : Req) (j : Nat) : (s.setReq i r).cmdAt j = s.cmdAt j := rfl
@[simp] theorem State.teamAt_modGroup (s : State) (i : Nat) (f : Group → Group) (j : Nat) : (s.modGroup i f).teamAt j = s.teamAt j := rfl
@[simp] theorem State.crewAt_modGroup (s : State) (i : Nat) (f : Group → Group) (j : Nat) : (s.modGroup i f).crewAt j = s.crewAt j := rfl
@[simp] theorem State.launchAt_modGroup (s : State) (i : Nat) (f : Group → Group) (j : Nat) : (s.modGroup i f).launchAt j = s.launchAt j := rfl
@[simp] theorem State.ctxAt_modGroup (s : State) (i : Nat) (f : Group → Group) (j : Nat) : (s.modGroup i f).ctxAt j = s.ctxAt j := rfl
@[simp] theorem State.coreAt_modGroup (s : State) (i : Nat) (f : Group → Group) (j : Nat) : (s.modGroup i f).coreAt j = s.coreAt j := rfl
@[simp] theorem State.dieAt_modGroup (s : State) (i : Nat) (f : Group → Group) (j : Nat) : (s.modGroup i f).dieAt j = s.dieAt j := rfl
@[simp] theorem State.cmdAt_modGroup (s : State) (i : Nat) (f : Group → Group) (j : Nat) : (s.modGroup i f).cmdAt j = s.cmdAt j := rfl
@[simp] theorem State.teamAt_modSched (s : State) (i : Nat) (f : Sched → Sched) (j : Nat) : (s.modSched i f).teamAt j = s.teamAt j := rfl
@[simp] theorem State.crewAt_modSched (s : State) (i : Nat) (f : Sched → Sched) (j : Nat) : (s.modSched i f).crewAt j = s.crewAt j := rfl
@[simp] theorem State.launchAt_modSched (s : State) (i : Nat) (f : Sched → Sched) (j : Nat) : (s.modSched i f).launchAt j = s.launchAt j := rfl
@[simp] theorem State.ctxAt_modSched (s : State) (i : Nat) (f : Sched → Sched) (j : Nat) : (s.modSched i f).ctxAt j = s.ctxAt j := rfl
@[simp] theorem State.coreAt_modSched (s : State) (i : Nat) (f : Sched → Sched) (j : Nat) : (s.modSched i f).coreAt j = s.coreAt j := rfl
@[simp] theorem State.dieAt_modSched (s : State) (i : Nat) (f : Sched → Sched) (j : Nat) : (s.modSched i f).dieAt j = s.dieAt j := rfl
@[simp] theorem State.cmdAt_modSched (s : State) (i : Nat) (f : Sched → Sched) (j : Nat) : (s.modSched i f).cmdAt j = s.cmdAt j := rfl

/-! Entities of the same kind. -/

theorem State.teamAt_setTeamAt_self (s : State) (i : Nat) (t : Team) (h : i < s.teams.length) : (s.setTeamAt i t).teamAt i = t := by
  simp [State.teamAt, State.setTeamAt, h]
theorem State.teamAt_setTeamAt_ne (s : State) (i j : Nat) (t : Team) (h : i ≠ j) : (s.setTeamAt i t).teamAt j = s.teamAt j := by
  simp [State.teamAt, State.setTeamAt, h]
theorem State.crewAt_setCrewAt_self (s : State) (i : Nat) (c : Crew) (h : i < s.crews.length) : (s.setCrewAt i c).crewAt i = c := by
  simp [State.crewAt, State.setCrewAt, h]
theorem State.crewAt_setCrewAt_ne (s : State) (i j : Nat) (c : Crew) (h : i ≠ j) : (s.setCrewAt i c).crewAt j = s.crewAt j := by
  simp [State.crewAt, State.setCrewAt, h]
theorem State.ctxAt_modCtx_self (s : State) (i : Nat) (f : Context → Context) (h : i < s.contexts.length) :
    (s.modCtx i f).ctxAt i = f (s.ctxAt i) := by
  simp [State.ctxAt, State.modCtx, h]
theorem State.ctxAt_modCtx_ne (s : State) (i j : Nat) (f : Context → Context) (h : i ≠ j) : (s.modCtx i f).ctxAt j = s.ctxAt j := by
  simp [State.ctxAt, State.modCtx, h]
theorem State.team_setTeam (s : State) (t : Team) (h : s.cur < s.teams.length) : (s.setTeam t).team = t :=
  s.teamAt_setTeamAt_self s.cur t h

/-! Registers of a team. -/

theorem Team.sreg_setS_self (t : Team) (n : Nat) (v : Word) (tag : Tag) (h : n < t.s.length) :
    (t.setS n v tag).sreg n = { v := v, tag := tag, full := true } := by
  simp [Team.sreg, Team.setS, h]
theorem Team.sreg_setS_ne (t : Team) (n k : Nat) (v : Word) (tag : Tag) (h : n ≠ k) : (t.setS n v tag).sreg k = t.sreg k := by
  simp [Team.sreg, Team.setS, h]
theorem Team.breg_setB_self (t : Team) (n : Nat) (v : Bool) (h : n < t.b.length) : (t.setB n v).breg n = v := by
  simp [Team.breg, Team.setB, h]
theorem Team.breg_setB_ne (t : Team) (n k : Nat) (v : Bool) (h : n ≠ k) : (t.setB n v).breg k = t.breg k := by
  simp [Team.breg, Team.setB, h]
theorem Team.preg_setP_self (t : Team) (n : Nat) (v : Mask) (h : n < t.p.length) : (t.setP n v).preg n = v := by
  simp [Team.preg, Team.setP, h]
theorem Team.preg_setP_ne (t : Team) (n k : Nat) (v : Mask) (h : n ≠ k) : (t.setP n v).preg k = t.preg k := by
  simp [Team.preg, Team.setP, h]
theorem Team.velem_setV_self (t : Team) (r l : Nat) (e : VElem) (hr : r < t.v.length) (hl : l < (t.v.getD r []).length) :
    (t.setV r l e).velem r l = e := by
  have hl' : l < t.v[r].length := by simpa [hr] using hl
  simp [Team.velem, Team.setV, hr, hl']
theorem Team.velem_setV_ne (t : Team) (r l r' l' : Nat) (e : VElem) (h : r ≠ r' ∨ l ≠ l') : (t.setV r l e).velem r' l' = t.velem r' l' := by
  by_cases hr : r = r'
  · subst hr
    have hl : l ≠ l' := by simpa using h
    by_cases hlen : r < t.v.length
    · simp [Team.velem, Team.setV, hlen, hl]
    · simp [Team.velem, Team.setV, hlen]
  · simp [Team.velem, Team.setV, hr]
@[simp] theorem Team.velem_setVvalid (t : Team) (r l r' l' : Nat) (x : Bool) : (t.setVvalid r l x).velem r' l' = t.velem r' l' := rfl
@[simp] theorem Team.sreg_setV (t : Team) (r l n : Nat) (e : VElem) : (t.setV r l e).sreg n = t.sreg n := rfl
@[simp] theorem Team.sreg_setB (t : Team) (n k : Nat) (v : Bool) : (t.setB n v).sreg k = t.sreg k := rfl
@[simp] theorem Team.sreg_setP (t : Team) (n k : Nat) (v : Mask) : (t.setP n v).sreg k = t.sreg k := rfl
@[simp] theorem Team.breg_setS (t : Team) (n k : Nat) (v : Word) (tag : Tag) : (t.setS n v tag).breg k = t.breg k := rfl
@[simp] theorem Team.preg_setS (t : Team) (n k : Nat) (v : Word) (tag : Tag) : (t.setS n v tag).preg k = t.preg k := rfl
@[simp] theorem Team.velem_setS (t : Team) (n r l : Nat) (v : Word) (tag : Tag) : (t.setS n v tag).velem r l = t.velem r l := rfl
@[simp] theorem Team.creg_setS (t : Team) (n k : Nat) (v : Word) (tag : Tag) : (t.setS n v tag).creg k = t.creg k := rfl

/-- c0 is null whatever has been written (02 R41). -/
theorem Team.creg_zero (t : Team) : t.creg 0 = capNull tagImm := by simp [Team.creg]
/-- A write of c0 is discarded (02 R41). -/
theorem Team.setC_zero (t : Team) (v : CReg) : t.setC 0 v = t := by simp [Team.setC]
theorem Team.creg_setC_self (t : Team) (n : Nat) (v : CReg) (h0 : n ≠ 0) (h31 : n ≠ 31) (h : n < t.c.length) : (t.setC n v).creg n = v := by
  simp [Team.creg, Team.setC, h0, h31, h]
theorem Team.creg_setC_ne (t : Team) (n k : Nat) (v : CReg) (h : n ≠ k) : (t.setC n v).creg k = t.creg k := by
  by_cases h0 : n = 0
  · simp [Team.setC, h0]
  · by_cases h31 : k = 31 <;> simp_all [Team.creg, Team.setC]


end Sys2Proof.Machine
end

