-- ==== Sys2Proof/Laws/Fabric.lean ====
section
/-! SUPPORT. What a request of the firmware and its reads through a sender's export change (17 R339, R341, R352). -/
namespace Sys2Proof.Machine

/-! Sending leaves a port's state as it is. -/

@[simp] theorem sendReady_st (n : Nat) (pt : Port) : (sendReady n pt).st = pt.st := by
  induction n generalizing pt with
  | zero => rfl
  | succ n ih =>
    unfold sendReady
    dsimp only
    split
    · rfl
    · split
      · rfl
      · split
        · rfl
        · exact ih _
@[simp] theorem pump_st (pt : Port) : (pump pt).st = pt.st := by
  unfold pump
  split
  · exact sendReady_st _ _
  · rfl

/-- Only requests, and what the ports hold, have changed. -/
def SentOnly (s t : State) : Prop := ∃ rs ps, t = { s with reqs := rs, ports := ps } ∧ ps.map Port.st = s.ports.map Port.st

theorem sentOnly_refl (s : State) : SentOnly s s := ⟨s.reqs, s.ports, rfl, rfl⟩
theorem sentOnly_trans {s t u : State} (h : SentOnly s t) (k : SentOnly t u) : SentOnly s u := by
  obtain ⟨_, _, rfl, hs⟩ := h
  obtain ⟨rs, ps, rfl, ht⟩ := k
  exact ⟨rs, ps, rfl, ht.trans hs⟩

theorem st_of_map {a b : List Port} (h : a.map Port.st = b.map Port.st) (i : Nat) : (a.getD i {}).st = (b.getD i {}).st := by
  have e := congrArg (fun l => l[i]?) h
  simp only [List.getElem?_map] at e
  rw [List.getD_eq_getElem?_getD, List.getD_eq_getElem?_getD]
  cases ha : a[i]? <;> cases hb : b[i]? <;> rw [ha, hb] at e <;> simp_all
/-- A flow's port hangs on routes and on which ports are UP. -/
theorem sentOnly_portFor {s t : State} (h : SentOnly s t) (src dst : BitVec 12) (exp : BitVec 16) : t.portFor src dst exp = s.portFor src dst exp := by
  obtain ⟨rs, ps, rfl, hs⟩ := h
  have e : ({ s with reqs := rs, ports := ps } : State).portsTo dst = s.portsTo dst := by
    unfold State.portsTo State.portAt
    simp only [st_of_map hs]
  unfold State.portFor
  rw [e]

/-- A request of a context that is in no world and neither recorded nor replayed, over a port that is UP. -/
theorem request_sentOnly {s : State} {r : Req} {op : BitVec 6} {tag : Tag} {obs : BitVec 8} {line : List Byte} {kind : BitVec 2} {scales : BitVec 32}
    (hw : s.worldOf r.ctx = none) (he : s.inEpoch r.ctx = false) (hr : s.replaying r.ctx = false)
    (hp : (s.portFor Config.deviceId r.dst r.exp).isSome = true) : SentOnly s (s.request r op tag obs line kind scales) := by
  obtain ⟨i, hi⟩ := Option.isSome_iff_exists.mp hp
  have hn : ∀ n, s.replayRefuses r.ctx n = false := by
    intro n
    unfold State.replayRefuses
    cases hc : r.ctx with
    | none => rfl
    | some c =>
      rw [hc] at hr
      have hx : (s.ctxAt c).replay = none := by simpa [State.replaying] using hr
      simp [hx]
  unfold State.request
  dsimp only
  have one : ∀ (t : State) (x : Req), t = { s with reqs := s.reqs ++ [x] } → x.ctx = r.ctx → x.dst = r.dst → x.exp = r.exp →
      SentOnly s (match t.send x.ctx { requestPacket x op tag obs line with kind := kind, scales := scales } with | some u => u | none => t.localNack s.reqs.length) := by
    rintro t x rfl h1 h2 h3
    unfold State.send
    rw [h1, show ({ s with reqs := s.reqs ++ [x] } : State).replaying r.ctx = s.replaying r.ctx from rfl, hr]
    simp only [Bool.false_eq_true, if_false, requestPacket, h2, h3]
    rw [show ({ s with reqs := s.reqs ++ [x] } : State).portFor Config.deviceId r.dst r.exp = s.portFor Config.deviceId r.dst r.exp from rfl, hi]
    have quiet : ∀ p : Packet, ({ s with reqs := s.reqs ++ [x] } : State).noteSent r.ctx p = { s with reqs := s.reqs ++ [x] } := by
      intro p
      unfold State.noteSent
      cases hc : r.ctx with
      | none => rfl
      | some c =>
        rw [hc] at he hr
        dsimp only
        rw [show ({ s with reqs := s.reqs ++ [x] } : State).inEpoch (some c) = s.inEpoch (some c) from rfl, he,
          show ({ s with reqs := s.reqs ++ [x] } : State).replaying (some c) = s.replaying (some c) from rfl, hr]
        rfl
    dsimp only
    rw [quiet]
    unfold State.enqueue
    rw [show ({ s with reqs := s.reqs ++ [x] } : State).worldOf r.ctx = s.worldOf r.ctx from rfl, hw]
    refine ⟨s.reqs ++ [x], _, rfl, ?_⟩
    rw [List.map_set]
    simp only [pump_st]
    rw [← List.map_set]
    rcases Nat.lt_or_ge i s.ports.length with hl | hl
    · rw [List.map_set]
      unfold State.portAt
      rw [show ({ s with reqs := s.reqs ++ [x] } : State).ports = s.ports from rfl, List.getD_eq_getElem _ _ hl, ← List.getElem_map Port.st (h := by simpa using hl),
        List.set_getElem_self]
    · rw [List.set_eq_of_length_le hl]
  have hn' : ∀ rs n, ({ s with reqs := rs } : State).replayRefuses r.ctx n = false := fun _ n => hn n
  rw [if_neg (by rw [hn']; exact Bool.false_ne_true)]
  exact one _ { r with xid := s.nextXid r.ctx } rfl rfl rfl rfl

/-- Reads of such a context change nothing else but the counter of free values; whether they come is one of those. -/
theorem readOut_sentOnly {s : State} {c : Nat} {dst : BitVec 12} {exp : BitVec 16} {off n : Nat} (hn : n ≠ 0)
    (hw : s.worldOf (some c) = none) (he : s.inEpoch (some c) = false) (hr : s.replaying (some c) = false)
    (hp : (s.portFor Config.deviceId dst exp).isSome = true) (hc : c < s.contexts.length) :
    (s.readOut (some c) dst exp off n).2 = (!Config.readRefused s.tick) ∧ ∃ t, SentOnly s t ∧ (s.readOut (some c) dst exp off n).1 = { t with tick := s.tick + 1 } := by
  have all : ∀ (ps : List (Nat × Nat)) (t : State), SentOnly s t →
      SentOnly s (ps.foldl (fun (s : State) p => s.request (s.ownReq (some c) dst exp p.1 p.2 0) opREAD 0 0 []) t) := by
    intro ps
    induction ps with
    | nil => exact fun t h => h
    | cons p ps ih =>
      intro t h
      refine ih _ (sentOnly_trans h (request_sentOnly ?_ ?_ ?_ ?_))
      · obtain ⟨_, _, rfl, _⟩ := h; exact hw
      · obtain ⟨_, _, rfl, _⟩ := h; exact he
      · obtain ⟨_, _, rfl, _⟩ := h; exact hr
      · rw [sentOnly_portFor h]; exact hp
  unfold State.readOut
  rw [if_neg hn]
  dsimp only
  rw [hr, hp]
  refine ⟨rfl, ?_⟩
  obtain ⟨rs, ps, h, hs⟩ := all (linePieces (n / 64 + 2) off n) s (sentOnly_refl s)
  rw [h]
  have same : s.contexts.set c { (s.ctxAt c) with held := (s.ctxAt c).held } = s.contexts := by
    unfold State.ctxAt
    rw [List.getD_eq_getElem _ _ hc, List.set_getElem_self]
  let acked : List Req := rs.take s.reqs.length ++ (rs.drop s.reqs.length).map fun (r : Req) => { r with st := .acked }
  refine ⟨{ s with reqs := acked, ports := ps }, ⟨_, ps, rfl, hs⟩, ?_⟩
  exact congrArg (fun l => ({ s with reqs := acked, ports := ps, tick := s.tick + 1, contexts := l } : State)) same

end Sys2Proof.Machine
end

