-- ==== Sys2Proof/Laws/Memory.lean ====
section
/-! SUPPORT. Keyed lists in canonical form, and the operations over memory: each keeps the form; a read after a write. -/
namespace Sys2Proof.Machine

/-! Keyed lists. -/

section
variable {α : Type} [DecidableEq α] {d : α}

theorem awfFrom_mono {l : List (Nat × α)} {lo lo' : Nat} (h : awfFrom d lo l) (hl : lo' ≤ lo) : awfFrom d lo' l := by
  cases l with
  | nil => rfl
  | cons e t => simp only [awfFrom, Bool.and_eq_true, decide_eq_true_eq] at h ⊢; exact ⟨⟨by omega, h.1.2⟩, h.2⟩

theorem awfFrom_cons {lo a : Nat} {x : α} {t : List (Nat × α)} :
    awfFrom d lo ((a, x) :: t) ↔ (lo ≤ a ∧ x ≠ d) ∧ awfFrom d (a + 1) t := by
  simp [awfFrom]

/-- A property of both branches holds of a choice. -/
theorem ite_cases {β : Type} {P : β → Prop} {c : Prop} [Decidable c] {x y : β} (hx : c → P x) (hy : ¬c → P y) : P (if c then x else y) := by
  by_cases h : c
  · rw [if_pos h]; exact hx h
  · rw [if_neg h]; exact hy h

theorem aset_awfFrom {l : List (Nat × α)} : ∀ {lo k : Nat} {v : α}, awfFrom d lo l → lo ≤ k → awfFrom d lo (aset d l k v) := by
  induction l with
  | nil => intro lo k v _ hk; by_cases hv : v = d <;> simp [aset, hv, awfFrom, hk]
  | cons e t ih =>
    intro lo k v h hk
    rw [awfFrom_cons] at h
    have rest := awfFrom_mono h.2 (show lo ≤ e.1 + 1 by omega)
    simp only [aset]
    split_ifs with heq hv hlt hv
    · exact rest
    · exact awfFrom_cons.2 ⟨⟨hk, hv⟩, heq ▸ h.2⟩
    · exact awfFrom_cons.2 h
    · exact awfFrom_cons.2 ⟨⟨hk, hv⟩, awfFrom_cons.2 ⟨⟨hlt, h.1.2⟩, h.2⟩⟩
    · exact awfFrom_cons.2 ⟨h.1, ih h.2 (by omega)⟩

/-- A write of a keyed list keeps the canonical form. -/
theorem aset_awf {l : List (Nat × α)} {k : Nat} {v : α} (h : awf d l) : awf d (aset d l k v) := aset_awfFrom h (Nat.zero_le k)

theorem filter_awfFrom {l : List (Nat × α)} (p : Nat × α → Bool) : ∀ {lo : Nat}, awfFrom d lo l → awfFrom d lo (l.filter p) := by
  induction l with
  | nil => intro lo _; rfl
  | cons e t ih =>
    intro lo h
    rw [awfFrom_cons] at h
    rw [List.filter_cons]
    refine ite_cases (P := fun l => awfFrom d lo l = true) (fun _ => awfFrom_cons.2 ⟨h.1, ih h.2⟩) fun _ => ?_
    exact awfFrom_mono (ih h.2) (show lo ≤ e.1 + 1 by omega)

/-- So does leaving entries out. -/
theorem filter_awf {l : List (Nat × α)} (p : Nat × α → Bool) (h : awf d l) : awf d (l.filter p) := filter_awfFrom p h

theorem aget_below {l : List (Nat × α)} : ∀ {lo k : Nat}, awfFrom d lo l → k < lo → aget d l k = d := by
  induction l with
  | nil => intros; rfl
  | cons e t ih =>
    obtain ⟨a, x⟩ := e
    intro lo k h hk
    rw [awfFrom_cons] at h
    simp only [aget, show a ≠ k by omega, if_false]
    exact ih h.2 (by omega)

theorem aget_asetFrom_self {l : List (Nat × α)} : ∀ {lo k : Nat} {v : α}, awfFrom d lo l → aget d (aset d l k v) k = v := by
  induction l with
  | nil => intro lo k v _; by_cases hv : v = d <;> simp [aset, hv, aget]
  | cons e t ih =>
    intro lo k v h
    rw [awfFrom_cons] at h
    have here : awfFrom d e.1 (e :: t) := awfFrom_cons.2 ⟨⟨le_rfl, h.1.2⟩, h.2⟩
    simp only [aset]
    split_ifs with heq hv hlt hv
    · rw [hv]; exact aget_below h.2 (by omega)
    · simp [aget]
    · rw [hv]; exact aget_below here hlt
    · simp [aget]
    · rw [aget, if_neg heq]; exact ih h.2

/-- A read after a write to the same key. -/
theorem aget_aset_self {l : List (Nat × α)} {k : Nat} {v : α} (h : awf d l) : aget d (aset d l k v) k = v := aget_asetFrom_self h

/-- A read after a write to another key. -/
theorem aget_aset_ne {l : List (Nat × α)} {k j : Nat} {v : α} (h : k ≠ j) : aget d (aset d l k v) j = aget d l j := by
  induction l with
  | nil => by_cases hv : v = d <;> simp [aset, hv, aget, h]
  | cons e t ih =>
    simp only [aset]
    split_ifs with heq
    all_goals simp only [aget, h, if_false]
    · rw [if_neg (heq ▸ h)]
    · rw [if_neg (heq ▸ h)]
    · rw [ih]

/-- Equal reads are equal lists. -/
theorem awfFrom_ext {l : List (Nat × α)} : ∀ {lo lo' : Nat} {l' : List (Nat × α)}, awfFrom d lo l → awfFrom d lo' l' →
    (∀ k, aget d l k = aget d l' k) → l = l' := by
  induction l with
  | nil =>
    intro lo lo' l' _ h' he
    cases l' with
    | nil => rfl
    | cons e t => obtain ⟨a, x⟩ := e; rw [awfFrom_cons] at h'; exact absurd (he a).symm (by simp [aget, h'.1.2])
  | cons e t ih =>
    obtain ⟨a, x⟩ := e
    intro lo lo' l' h h' he
    have h0 := h
    rw [awfFrom_cons] at h
    cases l' with
    | nil => exact absurd (he a) (by simp [aget, h.1.2])
    | cons e' t' =>
      obtain ⟨b, y⟩ := e'
      have h0' := h'
      rw [awfFrom_cons] at h'
      have hab : a = b := by
        by_contra hne
        rcases Nat.lt_or_gt_of_ne hne with hlt | hlt
        · have := he a
          rw [aget_below (lo := b) (l := (b, y) :: t') (by rw [awfFrom_cons]; exact ⟨⟨by omega, h'.1.2⟩, h'.2⟩) hlt] at this
          exact h.1.2 (by simpa [aget] using this)
        · have := he b
          rw [aget_below (lo := a) (l := (a, x) :: t) (by rw [awfFrom_cons]; exact ⟨⟨by omega, h.1.2⟩, h.2⟩) hlt] at this
          exact h'.1.2 (by simpa [aget] using this.symm)
      subst hab
      have hxy : x = y := by simpa [aget] using he a
      subst hxy
      have : t = t' := ih h.2 h'.2 fun k => by
        by_cases hk : a = k
        · subst hk; rw [aget_below h.2 (by omega), aget_below h'.2 (by omega)]
        · simpa [aget, hk] using he k
      rw [this]
end

/-! Bytes, lines, records. -/

theorem Memory.wf_iff (m : Memory) : m.wf ↔ (awf byteZero m.cells ∧ awf sideZero m.lines) ∧ awf ({} : ScopeRec) m.recs := by
  simp [Memory.wf]

theorem Memory.byte_setByte_self {m : Memory} (a : Nat) (v : Byte) (h : m.wf) : (m.setByte a v).byte a = v :=
  aget_aset_self ((m.wf_iff.1 h).1.1)
theorem Memory.byte_setByte_ne (m : Memory) {a b : Nat} (v : Byte) (h : a ≠ b) : (m.setByte a v).byte b = m.byte b := aget_aset_ne h
theorem Memory.line_setLine_self {m : Memory} (l : Nat) (v : Side) (h : m.wf) : (m.setLine l v).line l = v :=
  aget_aset_self ((m.wf_iff.1 h).1.2)
theorem Memory.line_setLine_ne (m : Memory) {l k : Nat} (v : Side) (h : l ≠ k) : (m.setLine l v).line k = m.line k := aget_aset_ne h
theorem Memory.record_setRecord_self {m : Memory} (l : Nat) (v : ScopeRec) (h : m.wf) : (m.setRecord l v).record l = v :=
  aget_aset_self (m.wf_iff.1 h).2
theorem Memory.record_setRecord_ne (m : Memory) {l k : Nat} (v : ScopeRec) (h : l ≠ k) : (m.setRecord l v).record k = m.record k :=
  aget_aset_ne h

@[simp] theorem Memory.byte_setLine (m : Memory) (l : Nat) (v : Side) (a : Nat) : (m.setLine l v).byte a = m.byte a := rfl
@[simp] theorem Memory.byte_setRecord (m : Memory) (l : Nat) (v : ScopeRec) (a : Nat) : (m.setRecord l v).byte a = m.byte a := rfl
@[simp] theorem Memory.line_setByte (m : Memory) (a : Nat) (v : Byte) (l : Nat) : (m.setByte a v).line l = m.line l := rfl
@[simp] theorem Memory.line_setRecord (m : Memory) (l : Nat) (v : ScopeRec) (k : Nat) : (m.setRecord l v).line k = m.line k := rfl
@[simp] theorem Memory.record_setByte (m : Memory) (a : Nat) (v : Byte) (l : Nat) : (m.setByte a v).record l = m.record l := rfl
@[simp] theorem Memory.record_setLine (m : Memory) (l : Nat) (v : Side) (k : Nat) : (m.setLine l v).record k = m.record k := rfl

theorem Memory.setByte_wf {m : Memory} (a : Nat) (v : Byte) (h : m.wf) : (m.setByte a v).wf := by
  rw [Memory.wf_iff] at h ⊢; exact ⟨⟨aset_awf h.1.1, h.1.2⟩, h.2⟩
theorem Memory.setLine_wf {m : Memory} (l : Nat) (v : Side) (h : m.wf) : (m.setLine l v).wf := by
  rw [Memory.wf_iff] at h ⊢; exact ⟨⟨h.1.1, aset_awf h.1.2⟩, h.2⟩
theorem Memory.setRecord_wf {m : Memory} (l : Nat) (v : ScopeRec) (h : m.wf) : (m.setRecord l v).wf := by
  rw [Memory.wf_iff] at h ⊢; exact ⟨h.1, aset_awf h.2⟩

/-- Two memories in canonical form that read alike, and have lost the same ranges, are equal. -/
theorem Memory.ext_of_reads {m n : Memory} (hm : m.wf) (hn : n.wf) (hb : ∀ a, m.byte a = n.byte a) (hl : ∀ l, m.line l = n.line l)
    (hr : ∀ l, m.record l = n.record l) (hlost : m.lost = n.lost) : m = n := by
  rw [Memory.wf_iff] at hm hn
  have h1 := awfFrom_ext hm.1.1 hn.1.1 hb
  have h2 := awfFrom_ext hm.1.2 hn.1.2 hl
  have h3 := awfFrom_ext hm.2 hn.2 hr
  cases m; cases n; simp_all

/-- A fold of an operation that keeps the form keeps it. -/
theorem foldl_wf {β : Type} (f : Memory → β → Memory) (hf : ∀ m b, m.wf → (f m b).wf) (l : List β) :
    ∀ m : Memory, m.wf → (l.foldl f m).wf := by
  induction l with
  | nil => intro m h; exact h
  | cons b t ih => intro m h; exact ih _ (hf m b h)

theorem Memory.setBytes_wf (bs : List Byte) : ∀ (m : Memory) (a : Nat), m.wf → (m.setBytes a bs).wf := by
  induction bs with
  | nil => intro m a h; exact h
  | cons b t ih => intro m a h; exact ih _ _ (Memory.setByte_wf a b h)

theorem storeBytes_wf (m : Memory) (ws : List WByte) (r : ScopeRec) (h : m.wf) : (storeBytes m ws r).wf := by
  unfold storeBytes
  refine foldl_wf _ (fun m l hm => Memory.setRecord_wf _ _ (Memory.setLine_wf _ _ hm)) _ _ ?_
  exact foldl_wf _ (fun m w hm => Memory.setByte_wf _ _ hm) _ _ h

theorem setCtag_wf (m : Memory) (a : Nat) (valid : Bool) (h : m.wf) : (m.setCtag a valid).wf := Memory.setLine_wf _ _ h
theorem storeGranules_wf (m : Memory) (gs : List (Nat × BitVec 128 × Bool × Tag)) (r : ScopeRec) (h : m.wf) : (storeGranules m gs r).wf :=
  foldl_wf _ (fun _ _ hm => setCtag_wf _ _ _ hm) _ _ (storeBytes_wf _ _ _ h)
theorem storeGranule_wf (m : Memory) (a : Nat) (bits : BitVec 128) (valid : Bool) (tag : Tag) (r : ScopeRec) (h : m.wf) :
    (storeGranule m a bits valid tag r).wf := storeGranules_wf _ _ _ h

theorem zeroRegion_wf (m : Memory) (a n : Nat) (h : m.wf) : (zeroRegion m a n).wf := by
  rw [Memory.wf_iff] at h ⊢; exact ⟨⟨filter_awf _ h.1.1, filter_awf _ h.1.2⟩, filter_awf _ h.2⟩

theorem applyStore_wf (m : Memory) (a : Access) (r : ScopeRec) (h : m.wf) : (applyStore m a r).wf := by
  unfold applyStore
  split
  · exact storeGranules_wf _ _ _ h
  · exact storeBytes_wf _ _ _ h

theorem overlay_wf (m : Memory) (es : List Access) (sp : Space) (h : m.wf) : (overlay m es sp).wf := by
  refine foldl_wf _ (fun m e hm => ?_) _ _ h
  split
  · exact applyStore_wf _ _ _ hm
  · exact hm

theorem atomLane_wf (m : Memory) (a : Access) (op : AtomOp) (l : LaneAcc) (r : ScopeRec) (h : m.wf) : (atomLane m a op l r).1.wf := by
  simp only [atomLane]
  split
  · exact h
  · exact storeBytes_wf _ _ _ h

theorem spoil_wf (m : Memory) (ls : List Nat) (h : m.wf) : (m.spoil ls).wf := foldl_wf _ (fun _ _ hm => Memory.setLine_wf _ _ hm) _ _ h
theorem recordLines_wf (m : Memory) (dev : Bool) (r : ScopeRec) (ls : List Nat) (h : m.wf) : (m.recordLines dev r ls).wf :=
  foldl_wf _ (fun _ _ hm => Memory.setRecord_wf _ _ hm) _ _ h
/-- A store with the records that it leaves keeps the form. -/
theorem storeWith_wf (m : Memory) (a : Access) (r : ScopeRec) (h : m.wf) : (storeWith m a r).wf :=
  foldl_wf _ (fun _ _ hm => Memory.setRecord_wf _ _ hm) _ _ (applyStore_wf _ _ _ h)
/-- A request at home counts, and drops copies. -/
theorem noteLine_mem (s : State) (runs : List (Nat × Nat)) (k : HomeReq) (cl : Option Nat) (l : Nat) : (s.noteLine runs k cl l).mem = s.mem :=
  (apply_ite State.mem _ _ _).trans (ite_self s.mem)
/-- So do the writes of the firmware, of engines and of devices. -/
theorem writeRuns_wf (s : State) (runs : List (Nat × Nat)) (bs : List Byte) (tag : Tag) (r : ScopeRec) (cl : Option Nat) (k : HomeReq)
    (h : s.mem.wf) : (s.writeRuns runs bs tag r cl k).mem.wf := by
  have keep : ∀ (ls : List Nat) (f : State → Nat → State), (∀ t l, (f t l).mem = t.mem) → ∀ t : State, (ls.foldl f t).mem = t.mem := by
    intro ls f hf
    induction ls with
    | nil => exact fun _ => rfl
    | cons l r ih => exact fun t => (ih (f t l)).trans (hf t l)
  have h1 : (s.writeRuns runs bs tag r cl k).mem =
      (distinct (linesOf runs)).foldl (fun (m : Memory) l => m.setRecord l ((s.mem.recordLines true r (distinct (linesOf runs))).record l))
        (storeBytes s.mem (laneWrites runs bs tag) {}) := by
    unfold State.writeRuns State.noteRecords State.noteHome
    rw [keep _ _ (fun t l => by split <;> rfl), keep _ (fun s l => s.noteLine runs k cl l) (fun t l => noteLine_mem t runs k cl l)]
  rw [h1]
  exact foldl_wf _ (fun _ _ hm => Memory.setRecord_wf _ _ hm) _ _ (storeBytes_wf _ _ _ h)

theorem sweepMem_wf (here : Nat → Bool) (r : Nat) (m : Memory) (h : m.wf) : (sweepMem here r m).wf :=
  foldl_wf _ (fun _ _ hm => Memory.setLine_wf _ _ hm) _ _ h

theorem fromHost_wf (m : Memory) (frame z : Nat) (bs : List Byte) (h : m.wf) : (m.fromHost frame z bs).wf :=
  foldl_wf _ (fun _ _ hm => Memory.setLine_wf _ _ hm) _ _ (Memory.setBytes_wf _ _ _ (zeroRegion_wf _ _ _ h))

/-! Where a store does not reach. -/

theorem foldl_setByte_byte (ws : List WByte) (a : Nat) : ∀ m : Memory, (∀ w ∈ ws, w.1 ≠ a) →
    (ws.foldl (fun (m : Memory) w => m.setByte w.1 w.2.1) m).byte a = m.byte a := by
  induction ws with
  | nil => intro m _; rfl
  | cons w t ih =>
    intro m h
    rw [List.foldl_cons, ih _ fun x hx => h x (List.mem_cons_of_mem _ hx)]
    exact Memory.byte_setByte_ne _ _ (h w List.mem_cons_self)

/-- A byte that a store does not write reads as before (09 R219). -/
theorem storeBytes_byte_other (m : Memory) (ws : List WByte) (r : ScopeRec) (a : Nat) (h : ∀ w ∈ ws, w.1 ≠ a) :
    (storeBytes m ws r).byte a = m.byte a := by
  unfold storeBytes
  have hl : ∀ (ls : List Nat) (f : Memory → Nat → Memory), (∀ n l, (f n l).byte a = n.byte a) → ∀ n : Memory,
      (ls.foldl f n).byte a = n.byte a := by
    intro ls f hf
    induction ls with
    | nil => intro n; rfl
    | cons l t ih => intro n; rw [List.foldl_cons, ih, hf]
  refine (hl _ _ ?_ _).trans (foldl_setByte_byte ws a m h)
  intro n l
  rfl

/-- The reset memory is in canonical form. -/
theorem reset_mem_wf : State.reset.mem.wf := by decide

/-- So is the scratchpad of every crew at reset. -/
theorem reset_scratch_wf : ∀ c ∈ State.reset.crews, c.scratch.wf := by
  intro c hc
  simp only [State.reset, List.mem_cons, List.not_mem_nil, or_false] at hc
  rcases hc with rfl | rfl | rfl | rfl <;> decide

end Sys2Proof.Machine
end

