-- ==== Sys2Proof/Laws/Registers.lean ====
section
/-! SUPPORT. Writing destinations: what each write leaves, what is read back, and the same of a fold over lanes. -/
namespace Sys2Proof.Machine

/-! What a write of a destination leaves of the team. -/

/-- Two teams differ in registers alone, and have the same register shape. -/
structure SameBut (a b : Team) : Prop where
  rest : Team.rest b = Team.rest a
  pc : b.pc = a.pc
  m : b.m = a.m
  stack : b.stack = a.stack
  fpst : b.fpst = a.fpst
  s : b.s.length = a.s.length
  v : b.v.length = a.v.length
  row : ∀ r, (b.v.getD r []).length = (a.v.getD r []).length

theorem SameBut.refl (a : Team) : SameBut a a := by constructor <;> first | rfl | exact fun _ => rfl
theorem SameBut.trans {a b c : Team} (h : SameBut a b) (k : SameBut b c) : SameBut a c :=
  ⟨k.rest.trans h.rest, k.pc.trans h.pc, k.m.trans h.m, k.stack.trans h.stack, k.fpst.trans h.fpst, k.s.trans h.s, k.v.trans h.v,
   fun r => (k.row r).trans (h.row r)⟩

theorem setS_same (t : Team) (n : Nat) (v : Word) (tag : Tag) : SameBut t (t.setS n v tag) :=
  ⟨rfl, rfl, rfl, rfl, rfl, by simp [Team.setS], rfl, fun _ => rfl⟩
/-- An update outside scalar and lane registers leaves their sizes and the rest. -/
theorem SameBut.update (t : Team) (b : List Bool) (c : List CReg) (p : List Mask) (vcap : List (List Bool)) :
    SameBut t { t with b := b, c := c, p := p, vcap := vcap } := by
  constructor <;> first | rfl | exact fun _ => rfl
theorem setB_same (t : Team) (n : Nat) (v : Bool) : SameBut t (t.setB n v) := SameBut.update t _ _ _ _
theorem setP_same (t : Team) (n : Nat) (v : Mask) : SameBut t (t.setP n v) := SameBut.update t _ _ _ _
theorem setVvalid_same (t : Team) (r l : Nat) (v : Bool) : SameBut t (t.setVvalid r l v) := SameBut.update t _ _ _ _
theorem setC_same (t : Team) (n : Nat) (v : CReg) : SameBut t (t.setC n v) := by
  rw [Team.setC_eq]; exact SameBut.update t _ _ _ _
theorem setV_same (t : Team) (r l : Nat) (e : VElem) : SameBut t (t.setV r l e) := by
  refine ⟨rfl, rfl, rfl, rfl, rfl, rfl, by simp [Team.setV], fun r' => ?_⟩
  by_cases h : r = r'
  · subst h
    by_cases hl : r < t.v.length <;> simp [Team.setV, hl]
  · simp [Team.setV, h]
theorem writeV_same (t : Team) (r l : Nat) (x : BitVec 32) (tag : Tag) : SameBut t (t.writeV r l x tag) :=
  (setV_same t r l _).trans (setVvalid_same _ r l false)

/-- A fold of operations that leave a team so leaves it so. -/
theorem foldl_same {β : Type} (f : Team → β → Team) (h : ∀ t b, SameBut t (f t b)) (l : List β) : ∀ t, SameBut t (l.foldl f t) := by
  induction l with
  | nil => exact SameBut.refl
  | cons b r ih => intro t; exact (h t b).trans (ih _)

theorem writeVs_same (t : Team) (n cnt lane v : Nat) (tag : Tag) : SameBut t (t.writeVs n cnt lane v tag) :=
  foldl_same _ (fun u q => writeV_same u (n + q) lane _ tag) _ t
theorem writeGen_same (t : Team) (ln : Bool) (w : Rows.Wd) (ty : Ty) (n lane v : Nat) (tag : Tag) : SameBut t (t.writeGen ln w ty n lane v tag) := by
  unfold Team.writeGen
  split
  · exact writeVs_same _ _ _ _ _ _
  · dsimp only
    split
    · exact (setS_same _ _ _ _).trans (setS_same _ _ _ _)
    · exact setS_same _ _ _ _
theorem writePred_same (t : Team) (ln : Bool) (n lane : Nat) (v : Bool) : SameBut t (t.writePred ln n lane v) := by
  unfold Team.writePred; split
  · exact setB_same _ _ _
  · exact setP_same _ _ _
theorem writeCap_same (t : Team) (ln : Bool) (n lane : Nat) (c : CReg) : SameBut t (t.writeCap ln n lane c) := by
  unfold Team.writeCap; split
  · exact (foldl_same _ (fun u q => setV_same u (n + q) lane _) _ t).trans (setVvalid_same _ _ _ _)
  · exact setC_same _ _ _

/-! Lane elements. -/

theorem vvalid_setVvalid_self (t : Team) (r l : Nat) : (t.setVvalid r l false).vvalid r l = false := by
  unfold Team.vvalid Team.setVvalid
  by_cases h : r / 4 < t.vcap.length
  · by_cases hl : l < (t.vcap.getD (r / 4) []).length
    · have hl' : l < t.vcap[r / 4].length := by simpa [h] using hl
      simp [h, hl']
    · have hl' : t.vcap[r / 4].length ≤ l := by simpa [h] using hl
      simp [h, hl']
  · simp [h]
theorem vvalid_setVvalid_ne (t : Team) (r l r' l' : Nat) (v : Bool) (h : r / 4 ≠ r' / 4 ∨ l ≠ l') :
    (t.setVvalid r l v).vvalid r' l' = t.vvalid r' l' := by
  unfold Team.vvalid Team.setVvalid
  by_cases hr : r / 4 = r' / 4
  · rw [hr] at h ⊢
    have hl : l ≠ l' := by simpa using h
    by_cases hlen : r' / 4 < t.vcap.length
    · simp [hlen, hl]
    · simp [hlen]
  · simp [hr]
@[simp] theorem vvalid_setV (t : Team) (r l r' l' : Nat) (e : VElem) : (t.setV r l e).vvalid r' l' = t.vvalid r' l' := rfl

theorem writeV_self (t : Team) (r l : Nat) (x : BitVec 32) (tag : Tag) (hr : r < t.v.length) (hl : l < (t.v.getD r []).length) :
    (t.writeV r l x tag).velem r l = { v := x, tag := tag, full := true } := by
  rw [Team.writeV_eq, Team.velem_setVvalid, Team.velem_setV_self _ _ _ _ hr hl]
theorem writeV_ne (t : Team) (r l r' l' : Nat) (x : BitVec 32) (tag : Tag) (h : r ≠ r' ∨ l ≠ l') :
    (t.writeV r l x tag).velem r' l' = t.velem r' l' := by
  rw [Team.writeV_eq, Team.velem_setVvalid, Team.velem_setV_ne _ _ _ _ _ _ h]

/-- The n elements of a lane that `writeVs` writes. -/
theorem writeVs_ne (t : Team) (n cnt lane v : Nat) (tag : Tag) (r l : Nat) (h : ¬ (n ≤ r ∧ r < n + cnt ∧ l = lane)) :
    (t.writeVs n cnt lane v tag).velem r l = t.velem r l := by
  unfold Team.writeVs
  induction cnt with
  | zero => rfl
  | succ k ih =>
    rw [List.range_succ, List.foldl_append, List.foldl_cons, List.foldl_nil, writeV_ne, ih (by omega)]
    by_cases hl : l = lane
    · left; omega
    · right; exact fun e => hl e.symm
theorem writeVs_self (t : Team) (n cnt lane v : Nat) (tag : Tag) (q : Nat) (hq : q < cnt) (hn : n + cnt ≤ t.v.length)
    (hl : ∀ r, n ≤ r → r < n + cnt → lane < (t.v.getD r []).length) :
    (t.writeVs n cnt lane v tag).velem (n + q) lane = { v := BitVec.ofNat 32 (v / 2 ^ (32 * q)), tag := tag, full := true } := by
  induction cnt with
  | zero => omega
  | succ k ih =>
    have hs := writeVs_same t n k lane v tag
    unfold Team.writeVs at hs ih ⊢
    rw [List.range_succ, List.foldl_append, List.foldl_cons, List.foldl_nil]
    by_cases hk : q = k
    · subst hk
      rw [writeV_self]
      · rw [hs.v]; omega
      · rw [hs.row]; exact hl _ (by omega) (by omega)
    · rw [writeV_ne _ _ _ _ _ _ _ (by omega)]
      exact ih (by omega) (by omega) (fun r h1 h2 => hl r h1 (by omega))
theorem writeVs_valid_ne (t : Team) (n cnt lane v : Nat) (tag : Tag) (r l : Nat)
    (h : l ≠ lane ∨ ∀ q < cnt, (n + q) / 4 ≠ r / 4) : (t.writeVs n cnt lane v tag).vvalid r l = t.vvalid r l := by
  unfold Team.writeVs
  induction cnt with
  | zero => rfl
  | succ k ih =>
    rw [List.range_succ, List.foldl_append, List.foldl_cons, List.foldl_nil, Team.writeV_eq, vvalid_setVvalid_ne, vvalid_setV, ih]
    · rcases h with h | h
      · exact Or.inl h
      · exact Or.inr fun q hq => h q (by omega)
    · rcases h with h | h
      · exact Or.inr fun e => h e.symm
      · exact Or.inl (h k (by omega))
theorem writeVs_valid_self (t : Team) (n cnt lane v : Nat) (tag : Tag) (q : Nat) (hq : q < cnt) :
    (t.writeVs n cnt lane v tag).vvalid (n + q) lane = false := by
  unfold Team.writeVs
  induction cnt with
  | zero => omega
  | succ k ih =>
    rw [List.range_succ, List.foldl_append, List.foldl_cons, List.foldl_nil, Team.writeV_eq]
    by_cases hk : (n + k) / 4 = (n + q) / 4
    · have := vvalid_setVvalid_self ((List.foldl (fun t q => t.writeV (n + q) lane (BitVec.ofNat 32 (v / 2 ^ (32 * q))) tag) t
        (List.range k)).setV (n + k) lane { v := BitVec.ofNat 32 (v / 2 ^ (32 * k)), tag := tag, full := true }) (n + k) lane
      unfold Team.vvalid at this ⊢
      rw [← hk]; exact this
    · rw [vvalid_setVvalid_ne _ _ _ _ _ _ (Or.inl hk), vvalid_setV]
      exact ih (by rcases Nat.lt_or_ge q k with h | h; · exact h
                   · exact absurd (by rw [show q = k by omega]) hk)

/-- What no write of an element changes, the writes of a lane's elements do not change. -/
theorem keeps_writeVs {β : Type} (g : Team → β) (hg : ∀ t r l x tag, g (t.writeV r l x tag) = g t) (t : Team) (n cnt lane v : Nat) (tag : Tag) :
    g (t.writeVs n cnt lane v tag) = g t := by
  unfold Team.writeVs
  exact (List.range cnt).foldlRecOn (motive := fun u => g u = g t) _ rfl fun _ hu _ _ => (hg ..).trans hu
@[simp] theorem sreg_writeVs (t : Team) (n cnt lane v : Nat) (tag : Tag) (k : Nat) : (t.writeVs n cnt lane v tag).sreg k = t.sreg k :=
  keeps_writeVs (fun u => u.sreg k) (fun _ _ _ _ _ => rfl) ..
@[simp] theorem breg_writeVs (t : Team) (n cnt lane v : Nat) (tag : Tag) (k : Nat) : (t.writeVs n cnt lane v tag).breg k = t.breg k :=
  keeps_writeVs (fun u => u.breg k) (fun _ _ _ _ _ => rfl) ..
@[simp] theorem preg_writeVs (t : Team) (n cnt lane v : Nat) (tag : Tag) (k : Nat) : (t.writeVs n cnt lane v tag).preg k = t.preg k :=
  keeps_writeVs (fun u => u.preg k) (fun _ _ _ _ _ => rfl) ..
@[simp] theorem c_writeVs (t : Team) (n cnt lane v : Nat) (tag : Tag) : (t.writeVs n cnt lane v tag).c = t.c :=
  keeps_writeVs Team.c (fun _ _ _ _ _ => rfl) ..

end Sys2Proof.Machine
end

