-- ==== Sys2Proof/Laws/Ops.lean ====
section
/-! SUPPORT. What the shared operations can do: issue and its outcomes, retirement, and the shapes that compute lane by lane. -/
namespace Sys2Proof.Machine

/-! Outcomes. -/

theorem conclude_ok (s t : State) : conclude s (.ok t) = .next t := rfl
theorem conclude_wait (s : State) : conclude s (.error .wait) = .next s.stall := rfl

/-- An outcome is always a next state: complete, wait, or trap. -/
theorem conclude_next (s : State) (x : Except Stop State) : ∃ t, conclude s x = .next t := by
  rcases x with (_ | ⟨r, e⟩) | t <;> exact ⟨_, rfl⟩

/-- Issue answers a next state whatever the instruction is. -/
theorem issue_next (i : Instr) (s : State) (body : Team → Except Stop State) : ∃ t, issue i s body = .next t := by
  unfold issue
  dsimp only
  repeat' split
  all_goals first | exact conclude_next _ _ | exact ⟨_, rfl⟩

/-- An instruction that issues takes its own effect. -/
theorem issue_body {i : Instr} {s : State} (h : Issues i s) (body : Team → Except Stop State) : issue i s body = conclude s (body s.team) := by
  unfold issue
  simp [h.2.1, Nat.not_lt.2 h.2.2.1, h.2.2.2.1, h.2.2.2.2]

/-- A word that is not legal for the team's registers traps ILLEGAL; one that its mode may not run traps PRIV (02 R51). -/
theorem issue_illegal {i : Instr} {s : State} (h : Rows.legal s.team.vregs i = false) (body : Team → Except Stop State) :
    issue i s body = conclude s (.error (trapNow s.team cILLEGAL)) := by
  unfold issue; simp [h]
theorem issue_priv {i : Instr} {s : State} (h : Rows.legal s.team.vregs i = true) (hm : modeRank s.team.mode < modeRank (Rows.mode i))
    (body : Team → Except Stop State) : issue i s body = conclude s (.error (trapNow s.team cPRIV)) := by
  unfold issue; simp [h, hm]
/-- A special register that the mode may not touch traps before the guard is read (02 R45, R66). -/
theorem issue_denied {i : Instr} {s : State} {c : BitVec 8} (h : Rows.legal s.team.vregs i = true)
    (hm : modeRank (Rows.mode i) ≤ modeRank s.team.mode) (hc : srCause s.team i = some c) (body : Team → Except Stop State) :
    issue i s body = conclude s (.error (trapNow s.team c)) := by
  unfold issue; simp [h, Nat.not_lt.2 hm, hc]
/-- A guard that is false skips (02 R51). -/
theorem issue_skipped {i : Instr} {s : State} (h : Rows.legal s.team.vregs i = true) (hm : modeRank (Rows.mode i) ≤ modeRank s.team.mode)
    (hc : srCause s.team i = none) (hs : skipped s.team i = true) (body : Team → Except Stop State) : issue i s body = .next (s.retire (Rows.size i)) := by
  unfold issue; simp [h, Nat.not_lt.2 hm, hc, hs]

/-! Retirement. -/

/-- A team after it retires to `pc`, with what it counts. -/
def Team.retiredTo (t : Team) (pc : VAddr) (st : TState) (steps : Nat) (p : Bool) (used : Nat) : Team :=
  { t with pc := pc, lastPc := t.pc, retired := t.retired + 1, wait := none, bpSkip := false, stalled := false, half := none, code := [],
           codeReq := none, epochUsed := used, st := st, steps := steps, stepPending := p }

/-- Retirement is that of the team and, in a replayable context, three counts of its crew. -/
theorem retireAt_cases (s : State) (i : Nat) (pc : VAddr) : ∃ st steps p e,
    s.retireAt i pc = s.setTeamAt i ((s.teamAt i).retiredTo pc st steps p e) ∨
    s.retireAt i pc = (s.setTeamAt i ((s.teamAt i).retiredTo pc st steps p e)).modCrew (s.teamAt i).crew
      fun c => { c with tcyc := c.tcyc + 1, used := c.used + 1, epochUsed := c.epochUsed + 1 } := by
  let k := (s.teamAt i).frame.isNone && (s.teamAt i).mode ≠ .firm && s.comptOf (s.teamAt i) = 0
  refine ⟨match (s.teamAt i).st with | .skid n => .skid (n + 1) | x => x, if k then (s.teamAt i).steps - 1 else (s.teamAt i).steps,
    (s.teamAt i).stepPending || (k && (s.teamAt i).steps = 1),
    if s.replayable (s.ctxOf (s.teamAt i)) then (s.teamAt i).epochUsed + 1 else (s.teamAt i).epochUsed, ?_⟩
  unfold State.retireAt Team.retiredTo
  dsimp only
  exact (ite_eq_or_eq _ _ _).symm

/-- The moving team after it retires to `pc`. -/
theorem retireTo_team (s : State) (pc : VAddr) (h : s.cur < s.teams.length) :
    ∃ st steps p e, (s.retireTo pc).team = s.team.retiredTo pc st steps p e := by
  obtain ⟨st, steps, p, e, he | he⟩ := retireAt_cases s s.cur pc
  all_goals
    refine ⟨st, steps, p, e, ?_⟩
    unfold State.retireTo
    rw [he]
    exact State.teamAt_setTeamAt_self s s.cur _ h

theorem map_set_rest {α β : Type} (f : α → β) (d : α) (l : List α) (i : Nat) (x : α) (h : f x = f (l.getD i d)) :
    (l.set i x).map f = l.map f := by
  rw [List.map_set, h]
  rcases Nat.lt_or_ge i l.length with hl | hl
  · rw [List.getD_eq_getElem l d hl, ← List.getElem_map f (h := by simpa using hl), List.set_getElem_self]
  · exact List.set_eq_of_length_le (by simpa using hl)

/-- Retirement leaves the machine outside the moving team as it was. -/
theorem retireTo_mover (s : State) (pc : VAddr) : OnlyMover s (s.retireTo pc) := by
  obtain ⟨st, steps, p, e, he | he⟩ := retireAt_cases s s.cur pc
  all_goals
    unfold State.retireTo
    rw [he]
    refine ⟨rfl, by simp [State.setTeamAt], fun j hj => ?_, ?_, rfl⟩
  · rw [State.teamAt_setTeamAt_ne _ _ _ _ (Ne.symm hj)]
  · rfl
  · rw [State.modCrew_eq, State.teamAt_setCrewAt, State.teamAt_setTeamAt_ne _ _ _ _ (Ne.symm hj)]
  · exact map_set_rest Crew.rest {} _ _ _ rfl

theorem onlyMover_trans {s t u : State} (h : OnlyMover s t) (k : OnlyMover t u) (hc : t.cur = s.cur) : OnlyMover s u :=
  ⟨k.1.trans h.1, k.2.1.trans h.2.1, fun j hj => (k.2.2.1 j (hc ▸ hj)).trans (h.2.2.1 j hj), k.2.2.2.1.trans h.2.2.2.1,
   k.2.2.2.2.trans h.2.2.2.2⟩

theorem setTeam_mover (s : State) (t : Team) : OnlyMover s (s.setTeam t) :=
  ⟨rfl, by simp [State.setTeamAt], fun j hj => State.teamAt_setTeamAt_ne _ _ _ _ (Ne.symm hj), rfl, rfl⟩
/-- A replay-queue entry changes nothing else of a core. -/
theorem enter_rest (c : CoreSt) (e : Nat × VAddr × Nat) : CoreSt.rest (c.enter e) = CoreSt.rest c := by
  unfold CoreSt.enter; split <;> rfl
theorem shadow_mover (s : State) (mop : Nat) (ln : Bool) : OnlyMover s (s.shadow mop ln) := by
  unfold State.shadow
  dsimp only
  split
  · refine ⟨rfl, rfl, fun _ _ => rfl, rfl, map_set_rest CoreSt.rest {} _ _ _ ?_⟩
    have enters : ∀ (ws : List Nat) (c : CoreSt), CoreSt.rest (ws.foldl (fun c _ => c.enter (s.cur, s.team.pc, s.now)) c) = CoreSt.rest c := by
      intro ws
      induction ws with
      | nil => exact fun _ => rfl
      | cons w r ih => exact fun c => (ih _).trans (enter_rest c _)
    exact enters _ _
  · exact ⟨rfl, rfl, fun _ _ => rfl, rfl, rfl⟩
@[simp] theorem shadow_cur (s : State) (mop : Nat) (ln : Bool) : (s.shadow mop ln).cur = s.cur := by
  unfold State.shadow; dsimp only; split <;> rfl
@[simp] theorem shadow_teams (s : State) (mop : Nat) (ln : Bool) : (s.shadow mop ln).teams = s.teams := by
  unfold State.shadow; dsimp only; split <;> rfl

theorem sameRegs_refl (a : Team) (w : Writes) : SameRegs a a w := by simp [SameRegs]
theorem sameRegs_trans {a b c : Team} {w : Writes} (h : SameRegs a b w) (k : SameRegs b c w) : SameRegs a c w :=
  ⟨fun n hn => (k.1 n hn).trans (h.1 n hn), fun n hn => (k.2.1 n hn).trans (h.2.1 n hn), fun n hn => (k.2.2.1 n hn).trans (h.2.2.1 n hn),
   fun n hn => (k.2.2.2.1 n hn).trans (h.2.2.2.1 n hn), fun r l hn => (k.2.2.2.2.1 r l hn).trans (h.2.2.2.2.1 r l hn),
   fun r l hn => (k.2.2.2.2.2 r l hn).trans (h.2.2.2.2.2 r l hn)⟩

/-- The moving team's registers become those of `u`, and it retires: the frame of every instruction that writes registers alone. -/
theorem finish_retires (s : State) (u : Team) (pc : VAddr) (w : Writes) (s' : State) (h : s.cur < s.teams.length)
    (hm : OnlyMover s s') (hc : s'.cur = s.cur) (ht : s'.team = u) (hrest : Team.rest u = Team.rest s.team) (hregs : SameRegs s.team u w) :
    Retires s (s'.retireTo pc) pc w := by
  have hlen : s'.cur < s'.teams.length := by rw [hc, hm.2.1]; exact h
  obtain ⟨st, steps, p, e, he⟩ := retireTo_team s' pc hlen
  refine ⟨onlyMover_trans hm (retireTo_mover s' pc) hc, ?_, ?_, ?_⟩
  · rw [he, ht]; exact hrest
  · rw [he]; rfl
  · rw [he, ht]; exact hregs

/-! Lane by lane. -/

theorem destOf_genD_regs (t : Team) (ln : Bool) (w : Rows.Wd) (ty : Ty) (d lane v : Nat) (tag : Tag) (lanes : List Nat) (hl : lane ∈ lanes) :
    SameRegs t (t.writeGen ln w ty d lane v tag) (destOf (.genD w) ln ty d lanes) := by
  unfold Team.writeGen destOf
  cases ln
  · dsimp only
    refine ⟨fun n hn => ?_, ?_⟩
    · simp only [Bool.false_eq_true, if_false, not_or, not_and] at hn ⊢
      split
      · rename_i h
        simp only [Bool.and_eq_true, decide_eq_true_eq] at h
        rw [Team.sreg_setS_ne _ _ _ _ _ (by have := hn.2 h.1 h.2; omega), Team.sreg_setS_ne _ _ _ _ _ (by have := hn.1; omega)]
      · rw [Team.sreg_setS_ne _ _ _ _ _ (by have := hn.1; omega)]
    · simp only [Bool.false_eq_true, if_false]
      split <;> exact ⟨fun _ _ => rfl, fun _ _ => rfl, fun _ _ => rfl, fun _ _ _ => rfl, fun _ _ _ => rfl⟩
  · simp only [if_true]
    refine ⟨fun n _ => sreg_writeVs _ _ _ _ _ _ n, fun n _ => breg_writeVs _ _ _ _ _ _ n, fun _ _ => by rw [c_writeVs],
      fun n _ => preg_writeVs _ _ _ _ _ _ n, fun r l hn => ?_, fun r l hn => ?_⟩
    · exact writeVs_ne _ _ _ _ _ _ _ _ (fun h => hn ⟨h.1, h.2.1, h.2.2 ▸ hl⟩)
    · refine writeVs_valid_ne _ _ _ _ _ _ _ _ ?_
      by_cases he : l = lane
      · right
        intro q hq hqr
        exact hn ((d + q) % 4) (by omega) ⟨by omega, by omega, he ▸ hl⟩
      · exact Or.inl he

/-- What a write of a general destination puts there (02 R59, 03 R69). -/
theorem writeGen_holds (t : Team) (ln : Bool) (w : Rows.Wd) (ty : Ty) (d lane v : Nat) (tag : Tag)
    (hs : ln = false → d < t.s.length ∧ (w = .dbl → Rows.width ty = 64 → d + 1 < t.s.length))
    (hv : ln = true → d + Rows.elems w ty ty ≤ t.v.length ∧ ∀ r, d ≤ r → r < d + Rows.elems w ty ty → lane < (t.v.getD r []).length) :
    Holds (t.writeGen ln w ty d lane v tag) ln w ty d lane v tag := by
  unfold Holds Team.writeGen
  cases ln
  · have h := hs rfl
    simp only [Bool.false_eq_true, if_false]
    split
    · rename_i hw
      simp only [Bool.and_eq_true, decide_eq_true_eq] at hw
      have hw' := h.2 hw.1 hw.2
      refine ⟨?_, fun _ _ => ?_⟩
      · rw [Team.sreg_setS_ne _ _ _ _ _ (by omega), Team.sreg_setS_self _ _ _ _ h.1]
      · rw [Team.sreg_setS_self _ _ _ _ (by rw [(setS_same t d _ tag).s]; exact hw')]
    · rename_i hw
      refine ⟨Team.sreg_setS_self _ _ _ _ h.1, fun h1 h2 => ?_⟩
      exact absurd (by simp [h1, h2]) hw
  · have h := hv rfl
    simp only [if_true]
    intro q hq
    exact ⟨writeVs_self _ _ _ _ _ _ _ hq h.1 h.2, writeVs_valid_self _ _ _ _ _ _ _ hq⟩

/-- A write in one lane leaves what another lane holds. -/
theorem writeGen_holds_ne (t : Team) (w : Rows.Wd) (ty : Ty) (d lane lane' v v' : Nat) (tag tag' : Tag) (h : lane ≠ lane')
    (hh : Holds t true w ty d lane' v' tag') : Holds (t.writeGen true w ty d lane v tag) true w ty d lane' v' tag' := by
  unfold Holds Team.writeGen at *
  simp only [if_true] at *
  intro q hq
  rw [writeVs_ne _ _ _ _ _ _ _ _ (fun e => h e.2.2.symm), writeVs_valid_ne _ _ _ _ _ _ _ _ (Or.inl (Ne.symm h))]
  exact hh q hq

/-- The register shape that a general destination needs in these lanes. -/
def Fits (t : Team) (ln : Bool) (w : Rows.Wd) (ty : Ty) (d : Nat) (lanes : List Nat) : Prop :=
  (ln = false → d < t.s.length ∧ (w = .dbl → Rows.width ty = 64 → d + 1 < t.s.length)) ∧
  (ln = true → d + Rows.elems w ty ty ≤ t.v.length ∧
    ∀ lane ∈ lanes, ∀ r, d ≤ r → r < d + Rows.elems w ty ty → lane < (t.v.getD r []).length)

theorem Fits.same {t u : Team} {ln : Bool} {w : Rows.Wd} {ty : Ty} {d : Nat} {lanes : List Nat} (h : Fits t ln w ty d lanes)
    (k : SameBut t u) : Fits u ln w ty d lanes := by
  unfold Fits at *
  rw [k.s, k.v]
  exact ⟨h.1, fun hl => ⟨(h.2 hl).1, fun lane hm r h1 h2 => by rw [k.row]; exact (h.2 hl).2 lane hm r h1 h2⟩⟩

/-- A fold of writes over distinct lanes: each lane holds its own result, and no other register changes. -/
theorem foldGen (ln : Bool) (w : Rows.Wd) (ty : Ty) (d : Nat) (all : List Nat) (xs : List (Nat × Res)) : ∀ (t : Team),
    (∀ x ∈ xs, x.1 ∈ all) → (xs.map (·.1)).Nodup → (ln = false → xs.length ≤ 1) → Fits t ln w ty d all →
    let u := xs.foldl (fun (t : Team) p => t.writeGen ln w ty d p.1 p.2.v p.2.tag) t
    SameBut t u ∧ SameRegs t u (destOf (.genD w) ln ty d all) ∧ ∀ x ∈ xs, Holds u ln w ty d x.1 x.2.v x.2.tag := by
  induction xs with
  | nil => intro t _ _ _ _; exact ⟨SameBut.refl t, sameRegs_refl t _, by simp⟩
  | cons x r ih =>
    intro t hall hnd hone hfit
    have hx := hall x List.mem_cons_self
    have hsame := writeGen_same t ln w ty d x.1 x.2.v x.2.tag
    rw [List.map_cons, List.nodup_cons] at hnd
    have key := ih (t.writeGen ln w ty d x.1 x.2.v x.2.tag) (fun y hy => hall y (List.mem_cons_of_mem _ hy)) hnd.2
      (fun h => by have := hone h; simp only [List.length_cons] at this; omega) (hfit.same hsame)
    refine ⟨hsame.trans key.1, sameRegs_trans (destOf_genD_regs t ln w ty d x.1 x.2.v x.2.tag all hx) key.2.1, ?_⟩
    intro y hy
    rcases List.mem_cons.1 hy with rfl | hy
    · have h0 := writeGen_holds t ln w ty d y.1 y.2.v y.2.tag hfit.1 (fun hl => ⟨(hfit.2 hl).1, (hfit.2 hl).2 _ hx⟩)
      cases ln
      · have : r = [] := by
          have := hone rfl
          simp only [List.length_cons] at this
          exact List.eq_nil_of_length_eq_zero (by omega)
        subst this
        exact h0
      · clear ih key hfit hone
        -- later writes are in other lanes
        have hn : ∀ z ∈ r, z.1 ≠ y.1 := fun z hz e => hnd.1 (e ▸ List.mem_map_of_mem hz)
        rw [List.foldl_cons]
        revert h0
        generalize t.writeGen true w ty d y.1 y.2.v y.2.tag = t1
        clear hsame hall hx hy hnd
        induction r generalizing t1 with
        | nil => exact id
        | cons z q ihq =>
          intro h0
          rw [List.foldl_cons]
          exact ihq (fun z' hz' => hn z' (List.mem_cons_of_mem _ hz')) _
            (writeGen_holds_ne _ _ _ _ _ _ _ _ _ _ (hn z List.mem_cons_self) h0)
    · exact key.2.2 y hy

theorem lanesOf_nodup (m : Mask) (n : Nat) : (lanesOf m n).Nodup := List.Nodup.filter _ List.nodup_range
theorem lanesFor_nodup (t : Team) (row : Rows.RRow) (f : RForm) : (t.lanesFor row f).Nodup := by
  unfold Team.lanesFor; split
  · exact lanesOf_nodup _ _
  · simp
theorem lanesFor_scalar (t : Team) (row : Rows.RRow) (f : RForm) (h : f.ln = false) : t.lanesFor row f = [0] := by
  unfold Team.lanesFor; simp [h]

/-- An F-R instruction that issues and whose operands read computes each lane, and completes where no enabled exception is signalled. -/
theorem mapLanes_eq {i : Instr} {s : State} {mop fn : Nat} {row : Rows.RRow} {src : Ty} {f : RForm} {as bs cs : List Opd} {u : Exc}
    (op : Team → Opd → Opd → Opd → Res) (hv : Rows.view i = .r mop fn row src f) (hi : Issues i s) (hr : Reads s row src f as bs cs)
    (hu : fpDone s.team f.ln (((s.team.lanesFor row f).zip ((as.zip (bs.zip cs)).map fun x => op s.team x.1 x.2.1 x.2.2)).map
      fun p => (p.1, p.2.exc)) = .ok u) :
    mapLanes i s op = .next (((s.setTeam (((s.team.lanesFor row f).zip ((as.zip (bs.zip cs)).map fun x => op s.team x.1 x.2.1 x.2.2)).foldl
      (fun (t : Team) p => t.writeGen f.ln (match row.d with | .genD w => w | .vD w => w | _ => .one) f.ty f.d.toNat p.1 p.2.v p.2.tag)
      (s.team.orFpst u))).shadow mop f.ln).retire 8) := by
  obtain ⟨h0, ha, hb, hc⟩ := hr
  unfold mapLanes
  rw [issue_body hi]
  simp only [hv, h0, ha, hb, hc, hu]
  rfl

end Sys2Proof.Machine
end

