-- ==== Sys2Proof/Tests/Slice0.lean ====
section
/-! SUPPORT. Tests: words of the spec, ill-formed terms, single steps on small states, and for every statement of
Certificates/Slice0/Obligations.lean with hypotheses, states and operands that meet them all, clause by clause. Expected values come from the
spec's text. -/
namespace Sys2Proof.Tests
open Sys2Proof.Machine
set_option Elab.async false

/-- Four facts ahead of the rest. -/
theorem first4 {a b c d e : Prop} (h : a ∧ b ∧ c ∧ d) (k : e) : a ∧ b ∧ c ∧ d ∧ e := ⟨h.1, h.2.1, h.2.2.1, h.2.2.2, k⟩

/-- A team of 32 lanes and 64 lane registers, at address 0 of a page of code. -/
def team : Team := placedTeam 0
/-- One context, one crew of that team. -/
def base : State :=
  { contexts := [placedContext]
    launches := [{ ctx := some 0, root := true, gx := 1, gy := 1, gz := 1, dies := 0xF, cores := BitVec.allOnes 64, regs := 64, state := .taken, crews := [0] }]
    crews := [placedCrew 0 0 0], teams := [team], cores := List.replicate 2 { split := some (1, 0, 63) }, dies := [{}], ports := List.replicate 2 {} }
/-- With another team. -/
def onTeam (t : Team) : State := { base with teams := [t] }
/-- The instruction of a word. -/
def word (w : Nat) : Instr := match decodeWord w 0 with | .ok i => i | .error _ => .nop
/-- The state after an instruction; the state before it where it stops. -/
def run (i : Instr) (s : State) : State := match exec i s with | .next t => t | _ => s
def runW (w : Nat) (s : State) : State := run (word w) s
/-- A team with a scalar register, with a lane register written in every lane. -/
def sr (n v : Nat) (t : Team) : Team := t.setS n (BitVec.ofNat 64 v) 0
def vr (n : Nat) (f : Nat → Nat) (t : Team) : Team := (List.range t.nlanes).foldl (fun (t : Team) l => t.writeV n l (BitVec.ofNat 32 (f l)) 0) t

/-- Forms with nothing set, unguarded (G is 24 in a guarded word, 0 elsewhere). -/
def rf : RForm := { d := 0, a := 0, b := 0, c := 0, g := 24, gn := false, ln := false, ea := false, eb := false, ec := false, ty := .i8, rm := .rne, sat := false, ob := 0 }
def if_ : IForm := { d := 0, a := 0, g := 24, gn := false, ln := false, ea := false, imm := 0 }
def mf : MForm := { data := 0, cap := 0, index := 63, g := 24, gn := false, ln := false, e := false, sz := 0, scl := 0, obs := 0, ord := 0, tg := false, off := 0 }
/-- A packet of device 0x111 to device 0x222. -/
def pk : Packet :=
  { cls := 0, op := 1, first := 0, last := 63, src := 0x111, dst := 0x222, exp := 0, xid := 0, gen := 0, otag := 0, kind := 0, obs := 0, addr := 0
    seq := 0, scales := 0, line := [] }
def ef : EForm := { sf := 16, q := 0, g := 24, gn := false, y := false, bq := 0, cont := 0 }

/-! Words of the spec's examples. -/

theorem test_word_add : word 0x101461C010806000 = .add { rf with d := 5, a := 6, b := 7, g := 2, eb := true, ty := .i64 } := by decide
theorem test_word_addc : word 0x1030A114C0027000 = .addc { rf with d := 12, a := 10, b := 4, c := 20, ty := .n64 } := by decide
theorem test_word_brc : word 0x0319000000000005 = .brc true { cnd := 3, off := 5 } := by decide
theorem test_word_call : word 0x0500000000000005 = .call { cnd := 0, off := 5 } := by decide
theorem test_word_ret : word 0x0600000000000000 = .ret := by decide
theorem test_word_nop : decodeWord 0x0100000000000000 0 = .ok .nop := by decide
theorem test_word_loop : word 0x07240000FFFFFFFF = .loop { if_ with d := 9, g := 0, imm := 0xFFFFFFFF } := by decide
theorem test_word_cbndr : word 0x32145200C0010000 = .cbndr { rf with d := 5, a := 5, b := 8 } := by decide
theorem test_word_fma : word 0x4220928BC200A000 = .fma { rf with d := 8, a := 9, b := 10, c := 11, ln := true, ty := .f32 } := by decide
theorem test_word_fmul : word 0x411031800A008040 = .fmul { rf with d := 4, a := 3, b := 6, g := 1, ln := true, ty := .f16, ob := 2 } := by decide
theorem test_word_fmul_not : word 0x411031800E008040 = .fmul { rf with d := 4, a := 3, b := 6, g := 1, gn := true, ln := true, ty := .f16, ob := 2 } := by decide
theorem test_word_cvt : word 0x60185000C00AC100 = .cvt .f32 { rf with d := 6, a := 5, ty := .e4m3, sat := true } := by decide
theorem test_word_pand : word 0x700C46000A010000 = .pand { rf with d := 3, a := 4, b := 24, g := 1, ln := true } := by decide
theorem test_word_mpush : word 0x7100200002000000 = .mpush { rf with a := 2, g := 0, ln := true } := by decide
theorem test_word_mset : word 0x7100414002040000 = .mset { rf with a := 4, b := 5, g := 0, ln := true } := by decide
theorem test_word_xchi : word 0x79144C20000FFC10 = .xchi { if_ with d := 5, a := 4, ln := true, imm := 0x000FFC10 } := by decide
theorem test_word_ld : word 0x8020816036068002 = .ldG { mf with data := 8, cap := 4, index := 2, sz := 3, scl := 3, obs := 3, ord := 1, off := 2 } := by decide
theorem test_word_st : word 0x810C9FE020070010 = .stG { mf with data := 3, cap := 4, sz := 2, obs := 3, ord := 2, off := 16 } := by decide
theorem test_word_ldS : word 0x8210216124000010 = .ldS { mf with data := 4, cap := 1, index := 2, ln := true, sz := 2, scl := 2, off := 16 } := by decide
theorem test_word_ldsTr : word 0x842021E110000000 = .ldsTr { mf with data := 8, cap := 1, index := 3, ln := true, sz := 1 } := by decide
theorem test_word_atom : word 0x8828BFE030279001 = .atom { mf with data := 10, cap := 5, sz := 3, obs := 0x13, ord := 3, off := 0x1001 } := by decide
theorem test_word_fence : word 0x8B001FE0000F8000 = .fence { mf with obs := 7, ord := 3 } := by decide
theorem test_word_pmap : word 0x8C307FE000000000 = .pmapMap { mf with data := 12, cap := 3 } := by decide
theorem test_word_bar : word 0xA004000000000005 = .bar { if_ with d := 1, g := 0, imm := 5 } := by decide
theorem test_word_tsync : word 0xA108000000000003 = .tsync { if_ with d := 2, g := 0, imm := 3 } := by decide
theorem test_word_twait : word 0xA200700000000004 = .twait { if_ with a := 7, g := 0, imm := 4 } := by decide
theorem test_word_cwait : word 0xA300414000000000 = .cwait { rf with a := 4, b := 5, g := 0 } := by decide
theorem test_word_cancel : word 0xA4004000C0010000 = .cancelGraph { rf with a := 4 } := by decide
theorem test_word_exit : word 0x09000000C0000000 = .exit rf := by decide
theorem test_word_yield : word 0x0A00000000000000 = .yield { rf with g := 0 } := by decide
theorem test_word_push : word 0xB040985000000003 = .push { ef with q := 4, y := true, bq := 2, cont := 3 } := by decide
theorem test_word_start : word 0xB040F80000000000 = .start { ef with q := 7 } := by decide
theorem test_word_trap : word 0xC0000C000000002A = .trap { if_ with imm := 0x2A } := by decide
theorem test_word_eret : word 0xC100000000000000 = .eret { rf with g := 0 } := by decide
theorem test_word_rdsr : word 0xC2140C000000000E = .rdsr { if_ with d := 5, imm := 14 } := by decide
theorem test_word_rdsr_lanes : word 0xC2200C2000000014 = .rdsr { if_ with d := 8, ln := true, imm := 20 } := by decide
theorem test_word_wrsr : word 0xC3006C000000000F = .trappcWrite { if_ with a := 6, imm := 15 } := by decide
theorem test_word_bkpt : word 0xC400000000000003 = .bkpt { if_ with g := 0, imm := 3 } := by decide
theorem test_word_halt : word 0xC500000000000000 = .halt { rf with g := 0 } := by decide
theorem test_word_kat : word 0xC600000000000000 = .kat { rf with g := 0 } := by decide
theorem test_word_csave : word 0xC700900000000000 = .csave { rf with a := 9, g := 0 } := by decide
theorem test_word_crest : word 0xC800900000000000 = .crest { rf with a := 9, g := 0 } := by decide

/-! Words from the rulers of 02 R55 and the rows of Table 2-9. -/

theorem test_word_xred : word (0x7C * 2 ^ 56 + 5 * 2 ^ 50 + 4 * 2 ^ 44 + 24 * 2 ^ 27 + 2 ^ 25 + 1 * 2 ^ 16 + 4 * 2 ^ 12) =
    .xred .min { rf with d := 5, a := 4, ln := true, ty := .i32 } := by decide
theorem test_word_xscan : word (0x7D * 2 ^ 56 + 5 * 2 ^ 50 + 4 * 2 ^ 44 + 24 * 2 ^ 27 + 2 ^ 25 + 8 * 2 ^ 16 + 4 * 2 ^ 12) =
    .xscan .add true { rf with d := 5, a := 4, ln := true, ty := .i32 } := by decide
theorem test_word_tget : word (0xB8 * 2 ^ 56 + 5 * 2 ^ 50 + 4 * 2 ^ 44 + 24 * 2 ^ 27) = .tget { rf with d := 5, a := 4 } := by decide
theorem test_word_addi : word (0x1A * 2 ^ 56 + 5 * 2 ^ 50 + 4 * 2 ^ 44 + 24 * 2 ^ 39 + 0xFFFFFFFE) =
    .addi { if_ with d := 5, a := 4, imm := 0xFFFFFFFE } := by decide
theorem test_word_lit : decodeWord (0x19 * 2 ^ 56 + 5 * 2 ^ 50 + 24 * 2 ^ 39) 0x0123456789ABCDEF = .ok (.lit { if_ with d := 5 } 0x0123456789ABCDEF) := by decide
theorem test_word_crev : word (0x36 * 2 ^ 56 + 5 * 2 ^ 44 + 24 * 2 ^ 27 + 1 * 2 ^ 16) = .crev { rf with a := 5 } := by decide
theorem test_word_launch : word (0xB0 * 2 ^ 56 + 16 * 2 ^ 50 + 6 * 2 ^ 45 + 24 * 2 ^ 40) = .launchRecord { ef with q := 6 } := by decide

/-! Words that are not instructions (02, A decoded word), and ill-formed terms, one for each check of R56-R63. -/

theorem test_illegal_words : [0x101461C010806200, 0x101461C048806000, 0x101461C110806000, 0xD01461C010806000, 0xC100000000000001].all
    (fun w => match decodeWord w 0 with | .ok _ => false | .error _ => true) = true := by decide
theorem test_wf_guard_of_scalar : Instr.wf (.add { rf with g := 9, ty := .i64 }) = false := by decide
theorem test_wf_guard_of_unguarded : Instr.wf (.bar { if_ with g := 3 }) = false := by decide
theorem test_wf_lane_form : Instr.wf (.exit { rf with ln := true }) = false := by decide
theorem test_wf_scalar_form : Instr.wf (.lid rf) = false := by decide
theorem test_wf_type : Instr.wf (.add { rf with ty := .f32 }) = false := by decide
theorem test_wf_rounding : Instr.wf (.add { rf with rm := .rtz }) = false := by decide
theorem test_wf_saturation : Instr.wf (.mulHi { rf with sat := true }) = false := by decide
theorem test_wf_broadcast : Instr.wf (.add { rf with ob := 4 }) = false := by decide
theorem test_wf_policy : Instr.wf (.pand { rf with ea := true }) = false := by decide
theorem test_wf_pair : Instr.wf (.add { rf with d := 5, ln := true, ty := .i64 }) = false := by decide
theorem test_wf_predicate : Instr.wf (.pand { rf with a := 25 }) = false := by decide
theorem test_wf_unused : Instr.wf (.add { rf with c := 1 }) = false := by decide
theorem test_wf_shift : Instr.wf (.shli { if_ with imm := 64 }) = false := by decide
theorem test_wf_size : Instr.wf (.ldG { mf with sz := 5 }) = false := by decide
theorem test_wf_order : Instr.wf (.ldG { mf with ord := 2 }) = false := by decide
theorem test_wf_condition : Instr.wf (.brc true { cnd := 8, off := 0 }) = false := by decide
theorem test_wf_queue : Instr.wf (.push { ef with q := 9 }) = false := by decide
theorem test_wf_continuation : Instr.wf (.push { ef with cont := 1 }) = false := by decide
theorem test_wf_selector : Instr.wf (.rdsr { if_ with imm := 23 }) = false := by decide
theorem test_wf_register_file : Rows.legal 16 (.add { rf with d := 16, ln := true, ty := .i32 }) = false := by decide
theorem test_wf_packet : Packet.wf { pk with first := 9, last := 2 } = false := by decide
theorem test_wf_message : FwMsg.wf { src := 1, code := 1, seq := 1, cid := 0, args := [] } = false := by decide
theorem test_wf_debug : DbgMsg.wf { ctx := 0, code := 1, seq := 1, args := [] } = false := by decide

/-! Single steps: results that the spec's text states. -/

/-- 04 R96: `abs.i32` of −2^31 wraps to −2^31; with SAT it is 2^31 − 1. -/
theorem test_abs_wraps : (run (.abs { rf with d := 5, a := 6, ty := .i32 }) (onTeam (sr 6 0x80000000 team))).team.sreg 5 =
    { v := 0xFFFFFFFF80000000, tag := 0xFFE000, full := true } := by decide +kernel
theorem test_abs_saturates : ((run (.abs { rf with d := 5, a := 6, ty := .i32, sat := true }) (onTeam (sr 6 0x80000000 team))).team.sreg 5).v = 0x7FFFFFFF := by decide +kernel
/-- R96: `neg.n32` of 5 wraps to 2^32 − 5; with SAT it is 0. -/
theorem test_neg_wraps : ((run (.neg { rf with d := 5, a := 6, ty := .n32 }) (onTeam (sr 6 5 team))).team.sreg 5).v = 0xFFFFFFFB := by decide +kernel
theorem test_neg_saturates : ((run (.neg { rf with d := 5, a := 6, ty := .n32, sat := true }) (onTeam (sr 6 5 team))).team.sreg 5).v = 0 := by decide +kernel
/-- R99: `div.i16` of −7 by 2 gives −3, `rem.i16` −1; `div.n8` of 200 by 0 gives 255, `rem.n8` 200. -/
theorem test_div : ((run (.div { rf with d := 5, a := 6, b := 7, ty := .i16 }) (onTeam (sr 6 0xFFF9 (sr 7 2 team)))).team.sreg 5).v = -3 := by decide +kernel
theorem test_rem : ((run (.rem { rf with d := 5, a := 6, b := 7, ty := .i16 }) (onTeam (sr 6 0xFFF9 (sr 7 2 team)))).team.sreg 5).v = -1 := by decide +kernel
theorem test_div_by_zero : ((run (.div { rf with d := 5, a := 6, b := 7, ty := .n8 }) (onTeam (sr 6 200 team))).team.sreg 5).v = 255 := by decide +kernel
theorem test_rem_by_zero : ((run (.rem { rf with d := 5, a := 6, b := 7, ty := .n8 }) (onTeam (sr 6 200 team))).team.sreg 5).v = 200 := by decide +kernel
/-- R105: `cmpi.ltu b1, s3, -1` is true for 0 and false for 2^64 − 1. -/
theorem test_cmpi : (run (.cmpi .ltu { if_ with d := 1, a := 3, imm := 0xFFFFFFFF }) (onTeam (sr 3 0 team))).team.breg 1 = true := by decide +kernel
theorem test_cmpi_top : (run (.cmpi .ltu { if_ with d := 1, a := 3, imm := 0xFFFFFFFF }) (onTeam (sr 3 (2 ^ 64 - 1) team))).team.breg 1 = false := by decide +kernel
/-- R97: the carry of 2^64 − 1 and 1. -/
theorem test_addc : ((run (.addc { rf with d := 5, a := 6, b := 7, c := 8, ty := .n64 }) (onTeam (sr 6 (2 ^ 64 - 1) (sr 7 1 team)))).team.sreg 5).v = 1 := by decide +kernel
/-- R109, R111: targets count in words from the branch. -/
theorem test_brc : (run (.brc true { cnd := 3, off := 5 }) (onTeam { team with pc := 16 })).team.pc = 56 := by decide +kernel
theorem test_loop : (run (word 0x07240000FFFFFFFF) (onTeam { sr 9 2 team with pc := 16 })).team.pc = 8 := by decide +kernel
theorem test_loop_leaves : (run (word 0x07240000FFFFFFFF) (onTeam { sr 9 1 team with pc := 16 })).team.pc = 24 := by decide +kernel
/-- R112: c30 is c31 at the next word, with otype 1. -/
theorem test_call : (let k := (run (word 0x0500000000000005) (onTeam { team with pc := 48 })).team.creg 30
    capCursor k.bits = 56 ∧ capOtype k.bits = 1 ∧ k.valid = true) := by decide +kernel
/-- 05 R137: `fscale.f16.rn` of 1.5 by −25 gives 2^−24 and signals underflow and inexact. -/
theorem test_fscale : (let t := (run (.fscale { rf with d := 5, a := 6, b := 7, ty := .f16 }) (onTeam (sr 6 0x3E00 (sr 7 (2 ^ 32 - 25) team)))).team
    (t.sreg 5).v = 1 ∧ t.fpst = 0x18) := by decide +kernel
/-- R133: −0 orders below +0. -/
theorem test_fmin : ((run (.fmin { rf with d := 5, a := 6, b := 7, ty := .f32 }) (onTeam (sr 6 0 (sr 7 0x80000000 team)))).team.sreg 5).v = 0x80000000 := by decide +kernel
/-- R149: a team 7 at site 0x031 whose s5 holds 3.0: after `tset s5` its tag is 0x031007. -/
theorem test_tset : ((run (.tset { rf with a := 5 }) { onTeam (({ team with teamid := 7 }).setS 5 0x40400000 0x012007) with
      contexts := [{ placedContext with sites := [(0, 0x031)] }] }).team.sreg 5) = { v := 0x40400000, tag := 0x031007, full := true } := by decide +kernel
/-- 06 R166: with lane 19 inactive, lane 3 receives 0 with TAG_INACTIVE and lane 19 nothing. -/
theorem test_xchi : (let t := (run (word 0x79144C20000FFC10) (onTeam (vr 4 (fun l => l + 1) { team with m := 0xFFF7FFFF }))).team
    t.velem 5 3 = { v := 0, tag := 0xFFF002, full := true } ∧ t.velem 5 19 = team.velem 5 19 ∧ (t.velem 5 0).v = 17) := by decide +kernel
/-- R159: `melse` takes the lanes of the scope that the first arm did not. -/
theorem test_melse : (run (.melse { rf with g := 0, ln := true }) (onTeam { team with stack := [(0xFF, 0x0F)], m := 0x0F })).team.m = 0xF0 := by decide +kernel
/-- R169: the sum of the active lanes, in every written lane. -/
theorem test_xred : ((run (.xred .add { rf with d := 5, a := 4, ln := true, ty := .i32 }) (onTeam (vr 4 (fun l => l) { team with m := 0x0000000F }))).team.velem 5 2).v = 6 := by decide +kernel
/-- 14 R310: `trap 0x2A` raises SOFTWARE past itself; with no handler it kills the team. -/
theorem test_trap : (run (word 0xC0000C000000002A) base).team.st = .ended := by decide +kernel
theorem test_trap_handler : (let t := run (word 0xC0000C000000002A) { base with
      contexts := [{ placedContext with h := testCap 0 65536 0x100 1 (pX ||| pLD), hd := testCap 0 65536 0 1 (pLD ||| pST) }] }
    t.team.st = .handler ∧ t.team.mode = .super ∧ t.team.pc = 0x100 ∧ t.team.trappc = 8 ∧ t.team.trapcause = 0x3C ∧ t.team.traptagA = 0x2A) := by decide +kernel
/-- 02 R44: `eret` in user mode traps PRIV, which kills here. -/
theorem test_eret_privileged : (run (word 0xC100000000000000) base).dies.map (·.kills.map (·.cause)) = [[0x02]] := by decide +kernel
/-- 07 R172: the last team that ends ends its crew. -/
theorem test_exit : (let t := run (word 0x09000000C0000000) base; t.team.st = .ended ∧ (t.crewAt 0).state = .ended) := by decide +kernel

/-! Witnesses: states and operands that meet all hypotheses of a statement's clause together. -/

theorem no_skid {x : TState} (h : x = .run) : ∀ n, x ≠ .skid n := by subst h; nofun

theorem witness_DecodeEncode : Rows.isWord (.add { rf with d := 63, a := 63, b := 63, ty := .n64 }) = true ∧
    Instr.wf (.add { rf with d := 63, a := 63, b := 63, ty := .n64 }) = true := by decide +kernel
theorem witness_EncodeDecode : ∃ i, 0x101461C010806000 < 2 ^ 64 ∧ 0 < 2 ^ 64 ∧ decodeWord 0x101461C010806000 0 = .ok i := ⟨_, by decide, by decide, rfl⟩
theorem witness_UnassignedWordsAreIllegal : [0x00, 0x0B, 0x0F, 0x20, 0x2F, 0x37, 0x3F, 0x4A, 0x5F, 0x63, 0x6F, 0x74, 0x77, 0x7E, 0x7F, 0x8D, 0x9F, 0xA5, 0xAF, 0xB1,
    0xB7, 0xBC, 0xBF, 0xC9, 0xFF].all (fun m =>
      m = 0 ∨ (0x0B ≤ m ∧ m ≤ 0x0F) ∨ (0x20 ≤ m ∧ m ≤ 0x2F) ∨ (0x37 ≤ m ∧ m ≤ 0x3F) ∨ (0x4A ≤ m ∧ m ≤ 0x5F) ∨ (0x63 ≤ m ∧ m ≤ 0x6F) ∨
     (0x74 ≤ m ∧ m ≤ 0x77) ∨ m = 0x7E ∨ m = 0x7F ∨ (0x8D ≤ m ∧ m ≤ 0x9F) ∨ (0xA5 ≤ m ∧ m ≤ 0xAF) ∨ (0xB1 ≤ m ∧ m ≤ 0xB7) ∨
     (0xBC ≤ m ∧ m ≤ 0xBF) ∨ 0xC9 ≤ m) = true := by decide
/-- A placed word that the next step runs. -/
def placed : State := base.withFetchWord 64 0x101461C0C0806000
theorem witness_StepRunsDecoded_1 : ∃ i, placed.poweredDown = false ∧ placed.agenda = [{ cycles := 0, act := .team 0 }] ∧
    (let s1 : State := { ({ placed with agenda := [] } : State).before { cycles := 0, act := .team 0 } with cur := 0 }
     let t := s1.team
     0 < s1.teams.length ∧ t.alive ∧ t.killPending = none ∧ (s1.crewAt t.crew).state = .resident ∧ s1.cancelDue 0 = false ∧
     s1.canMove 0 = true ∧ s1.stopDue t = false ∧ t.mismatch = false ∧ t.wait = none ∧ t.stepPending = false ∧
     s1.timerDue t = false ∧ s1.fetch t = .ok (some i) ∧ s1.breakpointAt t = none) :=
  ⟨word 0x101461C0C0806000, by decide +kernel⟩
/-- A word of 8 bytes, and `lit` with its extension word: 16 bytes, 8 of them at the second address. -/
theorem witness_StepRunsDecoded_2 : ∃ i, (let s1 := placed; let t := s1.team
    s1.inRom t = false ∧ s1.ctxOf t = some 0 ∧ t.half = none ∧
    capCheck (s1.codeRoots t) (s1.checker t anyKind) (t.c.getD 31 {}) t.pc.toNat 8 pX true = none ∧
    ∃ r, s1.translate (some 0) { x := true, compt := s1.comptOf t } t.pc.toNat 8 = .ok (r, false) ∧ (∀ l ∈ linesOf r, s1.mem.bad l = false) ∧
      decode (readRuns s1.mem r) = .ok (i, [])) :=
  ⟨word 0x101461C0C0806000, first4 (by decide +kernel) ⟨[(0, 8)], by decide +kernel⟩⟩
def placedLit : State := base.withFetchWord 128 (0x19 * 2 ^ 56 + 5 * 2 ^ 50 + 24 * 2 ^ 39 + 3 * 2 ^ 64)
theorem witness_StepRunsDecoded_3 : ∃ i, (let s1 := placedLit; let t := s1.team; let second := (t.pc.toNat + 8) % 2 ^ 57
    s1.inRom t = false ∧ s1.ctxOf t = some 0 ∧ t.half = none ∧
    capCheck (s1.codeRoots t) (s1.checker t anyKind) (t.c.getD 31 {}) t.pc.toNat 8 pX true = none ∧
    capCheck (s1.codeRoots t) (s1.checker t anyKind) (t.c.getD 31 {}) second 8 pX true = none ∧
    ∃ r1 r2, s1.translate (some 0) { x := true, compt := s1.comptOf t } t.pc.toNat 8 = .ok (r1, false) ∧ (∀ l ∈ linesOf r1, s1.mem.bad l = false) ∧
      s1.translate (some 0) { x := true, compt := s1.comptOf t } second 8 = .ok (r2, false) ∧ (∀ l ∈ linesOf r2, s1.mem.bad l = false) ∧
      (readRuns s1.mem r1).length = 8 ∧ (readRuns s1.mem r2).length = 8 ∧ decode (readRuns s1.mem r1 ++ readRuns s1.mem r2) = .ok (i, [])) :=
  ⟨.lit { if_ with d := 5 } 3, first4 (by decide +kernel) ⟨by decide +kernel, [(0, 8)], [(8, 8)], by decide +kernel⟩⟩
theorem witness_EveryStepIsSafe : base.poweredDown = false ∧ ({ base with poweredDown := true } : State).poweredDown = true := by decide
theorem witness_StepKeepsMemoryCanonical : MemoryCanonical base ∧ ∃ t, Machine.step { base with agenda := [{ cycles := 0, act := .event (.l1CopyExpiry 0 0) }] } = .next t :=
  ⟨by decide +kernel, _, rfl⟩
theorem witness_StepKeepsTeamsShaped : TeamsShaped base ∧ LanesBounded base ∧
    ∃ t, Machine.step { base with agenda := [{ cycles := 0, act := .event (.l1CopyExpiry 0 0) }] } = .next t :=
  ⟨by decide +kernel, by decide +kernel, _, rfl⟩
theorem witness_IllegalAndPrivilegedTrap_1 : base.cur < base.teams.length ∧ Rows.isWord (.add { rf with c := 1 }) = true ∧
    Rows.legal base.team.vregs (.add { rf with c := 1 }) = false := by decide +kernel
theorem witness_IllegalAndPrivilegedTrap_2 : Rows.legal base.team.vregs (.eret { rf with g := 0 }) = true ∧
    modeRank base.team.mode < modeRank (Rows.mode (.eret { rf with g := 0 })) := by decide +kernel
/-- `rdsr` and `wrsr` of registers that user mode may not touch or nobody may write, at the ends of their ranges. -/
theorem witness_IllegalAndPrivilegedTrap_3 : (∀ n ∈ [14, 21], let i : Instr := .rdsr { if_ with d := 5, imm := BitVec.ofNat 32 n }
      base.cur < base.teams.length ∧ Rows.legal base.team.vregs i = true ∧ modeRank (Rows.mode i) ≤ modeRank base.team.mode ∧ base.team.mode = .user) ∧
    (∀ n ∈ [0, 6, 7, 8, 14, 16, 20, 21], let i : Instr := .wrsr { if_ with a := 5, imm := BitVec.ofNat 32 n }
      Rows.legal base.team.vregs i = true ∧ modeRank (Rows.mode i) ≤ modeRank base.team.mode) ∧
    (∀ i ∈ [Instr.lvlWrite { if_ with a := 5, imm := 22 }, .trappcWrite { if_ with a := 5, imm := 15 }],
      Rows.legal base.team.vregs i = true ∧ modeRank (Rows.mode i) ≤ modeRank base.team.mode) := by decide +kernel
theorem witness_FalseGuardSkips : (let i : Instr := .add { rf with g := 2, ty := .i64 }
    base.cur < base.teams.length ∧ Rows.isWord i = true ∧ Rows.legal base.team.vregs i = true ∧ modeRank (Rows.mode i) ≤ modeRank base.team.mode ∧
    srCause base.team i = none ∧ skipped base.team i = true) := by decide +kernel
def frame_ : Frame := { pc := 0, mode := .user, m := 0xFFFFFFFF, stack := [], c29 := {}, c31 := {}, sHigh := List.replicate 8 {}, b := List.replicate 8 false, fpen := 0 }
/-- A context with a trap handler at 0x100 of its code. -/
def handled : State :=
  { base with contexts := [{ placedContext with h := testCap 0 65536 0x100 1 (pX ||| pLD), hd := testCap 0 65536 0 1 (pLD ||| pST) }] }
theorem witness_TakeTrapEntersHandler : (let s := handled; let r : TrapRec := { cause := 0x3C, pc := 8 }
    s.cur < s.teams.length ∧ s.team.st = .run ∧ s.team.frame = none ∧ s.team.mode ≠ .firm ∧ s.comptOf s.team = 0 ∧ routeK r.cause = false ∧
    debugCause r.cause = false ∧ (s.drain s.cur).team.filling = false ∧ r.fault = none ∧ r.latched = false ∧ s.ctxOf s.team = some 0 ∧ (s.ctxAt 0).h.valid = true) := by decide +kernel
theorem witness_TakeTrapEntersHandler_firm : (let s := onTeam { team with mode := .firm }; let r : TrapRec := { cause := 0x3C, pc := 8 }
    s.cur < s.teams.length ∧ s.team.st = .run ∧ s.team.frame = none ∧ s.team.mode = .firm ∧ s.comptOf s.team = 0 ∧ routeK r.cause = false ∧
    debugCause r.cause = false ∧ (s.drain s.cur).team.filling = false ∧ r.fault = none ∧ r.latched = false) := by decide +kernel
/-- The code of compartment 3. -/
def inside : State := { handled with contexts := [{ (handled.ctxAt 0) with roots := [(1, { kind := .loc, state := .live, base := 0, limit := 65536, ceil := 0x7FF, compt := 3 })] }] }
/-- A cause of route K, a compartment, a team in its handler: all with a valid handler. -/
theorem witness_TrapWithoutHandlerKills_each : ∀ p ∈ [(handled, (0x18 : BitVec 8)), (handled, 0x40), (inside, 0x3C), ({ handled with teams := [{ team with frame := some frame_, st := .handler }] }, 0x3C)],
    (let s := p.1
     s.cur < s.teams.length ∧ s.team.crew < s.crews.length ∧ (s.crewAt s.team.crew).die < s.dies.length ∧ (s.team.st = .run ∨ s.team.st = .handler) ∧
     s.team.outs = [] ∧ debugCause p.2 = false ∧ (routeK p.2 = true ∨ s.comptOf s.team ≠ 0 ∨ s.team.frame.isSome) ∧ (s.handlerOf s.team).1.valid = true) := by decide +kernel
theorem witness_TrapWithoutHandlerKills : (let s := base; let r : TrapRec := { cause := 0x3C, pc := 8 }
    s.cur < s.teams.length ∧ s.team.crew < s.crews.length ∧ (s.crewAt s.team.crew).die < s.dies.length ∧ s.team.st = .run ∧ r.fault = none ∧
    r.latched = false ∧ s.team.outs = [] ∧ debugCause r.cause = false ∧ (s.handlerOf s.team).1.valid = false) := by decide +kernel
/-! Integer, tag and floating-point statements. -/

def rowOf (i : Instr) : Rows.RRow := match Rows.view i with | .r _ _ row _ _ => row | _ => {}
def srcOf (i : Instr) : Ty := match Rows.view i with | .r _ _ _ src _ => src | _ => .i8
def irowOf (i : Instr) : Rows.IRow := match Rows.view i with | .i _ _ row _ => row | _ => Rows.imm3
def okOf {α : Type} (x : Except Stop (List α)) : List α := match x with | .ok xs => xs | .error _ => []
theorem reads {α : Type} {x : Except Stop α} (h : (match x with | .ok _ => true | .error _ => false) = true) : ∃ a, x = .ok a := by
  cases x with
  | ok a => exact ⟨a, rfl⟩
  | error _ => cases h
/-- What A, B and C read as. -/
def opA (i : Instr) (f : RForm) (s : State) : List Opd :=
  okOf (readFld s.team (rowOf i).a f.ln (f.ob.getLsbD 2) f.ea f.ty (srcOf i) f.a.toNat (s.team.lanesFor (rowOf i) f))
def opB (i : Instr) (f : RForm) (s : State) : List Opd :=
  okOf (readFld s.team (rowOf i).b f.ln (f.ob.getLsbD 1) f.eb f.ty (srcOf i) f.b.toNat (s.team.lanesFor (rowOf i) f))
def opC (i : Instr) (f : RForm) (s : State) : List Opd :=
  okOf (readFld s.team (rowOf i).c f.ln (f.ob.getLsbD 0) f.ec f.ty (srcOf i) f.c.toNat (s.team.lanesFor (rowOf i) f))
def immA (i : Instr) (f : IForm) (s : State) : List Opd :=
  okOf (readFld s.team (irowOf i).a f.ln false f.ea .i8 .i8 f.a.toNat (s.team.lanesForI (irowOf i) f))
/-- A shaped team issues the instruction, and its operands read. -/
abbrev ReadyR (i : Instr) (f : RForm) (s : State) : Prop :=
  (∃ mop fn, Rows.view i = .r mop fn (rowOf i) (srcOf i) f) ∧
    Shaped s.team ∧ Issues i s ∧ Reads s (rowOf i) (srcOf i) f (opA i f s) (opB i f s) (opC i f s)
abbrev ReadyI (i : Instr) (f : IForm) (s : State) : Prop :=
  (∃ mop fn, Rows.view i = .i mop fn (irowOf i) f) ∧ Shaped s.team ∧ Issues i s ∧ ReadsI s (irowOf i) f (immA i f s)

def rInt : RForm := { rf with d := 5, a := 6, b := 7, ty := .i32 }
def rLane : RForm := { rf with d := 6, a := 8, b := 10, ln := true, ty := .i64 }
def two : State := onTeam (sr 6 0x80000000 (sr 7 0xFFFFFFFF team))

theorem witness_IntegerResults : (exactInt (.add rInt) .i32 0 0 0 0).isSome ∧ ReadyR (.add rInt) rInt two :=
  ⟨by decide, ⟨_, _, rfl⟩, by decide +kernel⟩
theorem witness_IntegerResults_lanes : (exactInt (.mad rLane) .i64 0 0 0 0).isSome ∧ ReadyR (.mad rLane) rLane two :=
  ⟨by decide, ⟨_, _, rfl⟩, by decide +kernel⟩
theorem witness_WideAndCarryResults_1 : ReadyR (.mulw { rInt with d := 10, ty := .n64 }) { rInt with d := 10, ty := .n64 } two := ⟨⟨_, _, rfl⟩, by decide +kernel⟩
theorem witness_WideAndCarryResults_2 : ReadyR (.subc rInt) rInt two ∧ ReadyR (.addc rInt) rInt two := ⟨⟨⟨_, _, rfl⟩, by decide +kernel⟩, ⟨_, _, rfl⟩, by decide +kernel⟩
def iForm : IForm := { if_ with d := 5, a := 6, imm := 0xFFFFFFFF }
theorem witness_ImmediateResults : (exactImm (.addi iForm) 0).isSome ∧ ReadyI (.addi iForm) iForm two := ⟨by decide, ⟨_, _, rfl⟩, by decide +kernel⟩
theorem witness_ImmediateResults_lit : (exactImm (.lit { if_ with d := 6, ln := true } 9) 0).isSome ∧ ReadyI (.lit { if_ with d := 6, ln := true } 9) { if_ with d := 6, ln := true } two :=
  ⟨by decide, ⟨_, _, rfl⟩, by decide +kernel⟩
theorem witness_MovesKeepTags_1 : ReadyR (.mov rLane) { rLane with b := 0 } two ∨ ReadyR (.mov { rLane with b := 0 }) { rLane with b := 0 } two :=
  .inr ⟨⟨_, _, rfl⟩, by decide +kernel⟩
def rSel : RForm := { rLane with c := 3 }
theorem witness_MovesKeepTags_2 : (let s := onTeam (team.setP 3 0xF0F0); let lanes := s.team.lanesFor (rowOf (.sel rSel)) rSel
    (∃ mop fn, Rows.view (.sel rSel) = .r mop fn (rowOf (.sel rSel)) (srcOf (.sel rSel)) rSel) ∧ Shaped s.team ∧ Issues (.sel rSel) s ∧
    destBusy s.team true (rowOf (.sel rSel)).d 6 .i64 lanes = false ∧
    (∃ as, readFld s.team (rowOf (.sel rSel)).a true false false .i64 .i64 8 (lanes.filter fun l => s.team.pred true 3 l) = .ok as) ∧
    ∃ bs, readFld s.team (rowOf (.sel rSel)).b true false false .i64 .i64 10 (lanes.filter fun l => !s.team.pred true 3 l) = .ok bs) :=
  ⟨⟨_, _, rfl⟩, by decide +kernel, by decide +kernel, by decide +kernel, reads (by decide +kernel), reads (by decide +kernel)⟩
def rTmov : RForm := { rf with d := 5, a := 6, b := 7 }
theorem witness_MovesKeepTags_3 : (let s := two; let lanes := s.team.lanesFor (rowOf (.tmov rTmov)) rTmov
    (∃ mop fn, Rows.view (.tmov rTmov) = .r mop fn (rowOf (.tmov rTmov)) (srcOf (.tmov rTmov)) rTmov) ∧ Shaped s.team ∧ Issues (.tmov rTmov) s ∧
    destBusy s.team false (rowOf (.tmov rTmov)).d 5 .i8 lanes = false ∧
    (∃ as, readFld s.team (rowOf (.tmov rTmov)).a false false false .i8 .i8 6 lanes = .ok as) ∧ ∃ bs, readGenTag s.team false false false 7 lanes = .ok bs) :=
  ⟨⟨_, _, rfl⟩, by decide +kernel, by decide +kernel, by decide +kernel, reads (by decide +kernel), reads (by decide +kernel)⟩
def rPred : RForm := { rf with d := 3, a := 4, b := 5, ln := true }
theorem witness_PredicateResults_1 : (exactPred (.pand rPred) 0 0).isSome ∧ ReadyR (.pand rPred) rPred two ∧ (exactPred (.cmp .lt { rInt with d := 1 }) 0 0).isSome ∧
    ReadyR (.cmp .lt { rInt with d := 1 }) { rInt with d := 1 } two ∧
    (∀ o ∈ opA (.cmp .lt { rInt with d := 1 }) { rInt with d := 1 } two ++ opB (.cmp .lt { rInt with d := 1 }) { rInt with d := 1 } two, o.tag ≠ tagPoison) :=
  ⟨by decide, ⟨⟨_, _, rfl⟩, by decide +kernel⟩, by decide, ⟨⟨_, _, rfl⟩, by decide +kernel⟩, by decide +kernel⟩
theorem witness_PredicateResults_2 : ReadyI (.cmpi .gtu { iForm with d := 1 }) { iForm with d := 1 } two ∧
    (∀ o ∈ immA (.cmpi .gtu { iForm with d := 1 }) { iForm with d := 1 } two, o.tag ≠ tagPoison) := ⟨⟨⟨_, _, rfl⟩, by decide +kernel⟩, by decide +kernel⟩
def poisoned6 : State := onTeam (team.setS 6 0 0xFFF000)
theorem witness_SourcesWaitTrapAndPoison_1 : ReadyR (.cmp .lt { rInt with d := 1 }) { rInt with d := 1 } poisoned6 ∧
    (∃ o ∈ opA (.cmp .lt { rInt with d := 1 }) { rInt with d := 1 } poisoned6 ++ opB (.cmp .lt { rInt with d := 1 }) { rInt with d := 1 } poisoned6, o.tag = tagPoison) :=
  ⟨⟨⟨_, _, rfl⟩, by decide +kernel⟩, by decide +kernel⟩
theorem witness_SourcesWaitTrapAndPoison_2 : ReadyI (.cmpi .gtu { iForm with d := 1 }) { iForm with d := 1 } poisoned6 ∧
    (∃ o ∈ immA (.cmpi .gtu { iForm with d := 1 }) { iForm with d := 1 } poisoned6, o.tag = tagPoison) := ⟨⟨⟨_, _, rfl⟩, by decide +kernel⟩, by decide +kernel⟩
def emptyS (n : Nat) (t : Team) : Team := { t with s := t.s.set n { full := false } }
theorem witness_SourcesWaitTrapAndPoison_3 : (∃ mop fn, Rows.view (.add rInt) = .r mop fn (rowOf (.add rInt)) (srcOf (.add rInt)) rInt) ∧
    (exactInt (.add rInt) .i32 0 0 0 0).isSome ∧ Issues (.add rInt) base ∧ rInt.ln = false ∧
    ((onTeam (emptyS 5 team)).team.sreg 5).full = false ∧ Issues (.add rInt) (onTeam (emptyS 5 team)) ∧
    ((onTeam (emptyS 6 team)).team.sreg 5).full = true ∧ ((onTeam (emptyS 6 team)).team.sreg 6).full = false ∧ Issues (.add rInt) (onTeam (emptyS 6 team)) ∧
    rInt.ea = false ∧ Issues (.add { rInt with ea := true }) (onTeam (emptyS 6 team)) ∧ (∀ n, (onTeam (emptyS 6 team)).team.st ≠ .skid n) :=
  ⟨⟨_, _, rfl⟩, first4 (by decide +kernel) (first4 (by decide +kernel) ⟨by decide, by decide +kernel, no_skid (by decide +kernel)⟩)⟩
/-- The element of lane 3 of a lane register is empty. -/
def emptyV (n : Nat) (t : Team) : Team := { t with v := t.v.set n ((t.v.getD n []).set 3 { full := false }) }
def rMad : RForm := { rLane with ty := .i32, d := 6, a := 8, b := 10, c := 12 }
/-- B and C of a lane `mad`, and B of one where it is broadcast from an s register: empty in lane 3, or empty. -/
theorem witness_SourcesWaitTrapAndPoison_lanes : (∃ mop fn, Rows.view (.mad rMad) = .r mop fn (rowOf (.mad rMad)) (srcOf (.mad rMad)) rMad) ∧
    (exactInt (.mad rMad) .i32 0 0 0 0).isSome ∧
    (∀ p ∈ [(rMad, 10), ({ rMad with eb := true }, 10), (rMad, 12), ({ rMad with ec := true }, 12)],
      (let s := onTeam (emptyV p.2 team); let lanes := s.team.lanesFor (rowOf (.mad p.1)) p.1
       Issues (.mad p.1) s ∧ destBusy s.team true (rowOf (.mad p.1)).d 6 .i32 lanes = false ∧ (s.team.velem p.2 3).full = false ∧ 3 ∈ lanes ∧
       (∀ r ∈ [8, 10], r < p.2 → ∀ l ∈ lanes, (s.team.velem r l).full = true) ∧ s.team.st = .run)) ∧
    (let f := { rMad with ob := 2, b := 7 }; let s := onTeam (emptyS 7 team)
     Issues (.mad f) s ∧ Issues (.mad { f with eb := true }) s ∧ f.ob.getLsbD 1 = true ∧ (s.team.sreg 7).full = false) := ⟨⟨_, _, rfl⟩, by decide +kernel⟩
theorem witness_TagResultFollowsRules : (∃ x ∈ ([{ tag := tagPoison, m := 1 }] : List TagIn), x.tag = tagPoison) ∧
    (∀ x ∈ ([{ tag := 1, m := 1, exceptional := true }] : List TagIn), x.tag ≠ tagPoison) ∧
    ([{ tag := 1, m := 1, exceptional := true }] : List TagIn) = [] ++ { tag := 1, m := 1, exceptional := true } :: [] := by decide
theorem witness_TagResultFollowsRules_dominant : ([{ tag := 1, m := 1 }, { tag := 2, m := 5 }, { tag := 3, m := 5 }] : List TagIn) =
      [{ tag := 1, m := 1 }] ++ { tag := 2, m := 5 } :: [{ tag := 3, m := 5 }] ∧
    (∀ y ∈ ([{ tag := 1, m := 1 }] : List TagIn), y.exceptional = true ∨ (y.m : ℚ) * 2 ^ y.e < (5 : ℚ) * 2 ^ (0 : Int)) ∧
    (∀ y ∈ ([{ tag := 3, m := 5 }] : List TagIn), y.exceptional = true ∨ (y.m : ℚ) * 2 ^ y.e ≤ (5 : ℚ) * 2 ^ (0 : Int)) := by
  refine ⟨rfl, ?_, ?_⟩ <;> simp
theorem witness_TagInstructions_1 : (let f : RForm := { rf with d := 5, a := 6 }
    (∃ mop fn, Rows.view (.tget f) = .r mop fn (rowOf (.tget f)) (srcOf (.tget f)) f) ∧ Shaped two.team ∧ Issues (.tget f) two ∧
    destBusy two.team f.ln (rowOf (.tget f)).d 5 f.ty (two.team.lanesFor (rowOf (.tget f)) f) = false ∧
    ∃ as, readGenTag two.team f.ln (f.ob.getLsbD 2) f.ea 6 (two.team.lanesFor (rowOf (.tget f)) f) = .ok as) :=
  ⟨⟨_, _, rfl⟩, by decide +kernel, by decide +kernel, by decide +kernel, reads (by decide +kernel)⟩
theorem witness_TagInstructions_2 : (let f : RForm := { rf with d := 2, a := 6 }
    (∃ mop fn, Rows.view (.ttestPoison f) = .r mop fn (rowOf (.ttestPoison f)) (srcOf (.ttestPoison f)) f) ∧ Issues (.ttestPoison f) two ∧ Issues (.ttestSpecial f) two ∧
    ∃ as, readGenTag two.team f.ln (f.ob.getLsbD 2) f.ea 6 (two.team.lanesFor (rowOf (.ttestPoison f)) f) = .ok as) :=
  ⟨⟨_, _, rfl⟩, by decide +kernel, by decide +kernel, reads (by decide +kernel)⟩
theorem witness_TagInstructions_3 : Issues (.tset { rf with a := 6 }) two ∧ ∃ a, readS two.team 6 false = .ok a := ⟨by decide +kernel, _, rfl⟩

def rFp : RForm := { rf with d := 5, a := 6, b := 7, ty := .f32 }
/-- 1.0 and 3.0 in f32. -/
def floats : State := onTeam (sr 6 0x3F800000 (sr 7 0x40400000 team))
theorem witness_FloatResults : ReadyR (.fadd rFp) rFp floats ∧ (exactFp (.fadd rFp) (fmtOf .f32) .rne (.fin false 0 0) (.fin false 0 0) (.fin false 0 0) 0).isSome ∧
    ∃ r : FRes, exactFp (.fadd rFp) (fmtOf .f32) .rne (readF (fmtOf .f32) 0x3F800000) (readF (fmtOf .f32) 0x40400000) (.fin false 0 0) 0 = some r ∧ r.exc = 0 ∧
      opA (.fadd rFp) rFp floats = [{ v := 0x3F800000, tag := 0 }] ∧ opB (.fadd rFp) rFp floats = [{ v := 0x40400000, tag := 0 }] :=
  ⟨⟨⟨_, _, rfl⟩, by decide +kernel⟩, by decide, _, rfl, by decide +kernel, by decide +kernel, by decide +kernel⟩
/-- 1.0 / 3.0 is inexact, which the team enables. -/
def enabled : State := onTeam { floats.team with fpctl := 0x10 }
/-- 1.0 against a signalling NaN, with invalid enabled. -/
def snans : State := onTeam { (sr 6 0x3F800000 (sr 7 0x7F800001 team)) with fpctl := 1 }
theorem witness_FloatExceptionsTrap_1 : ReadyR (.fdiv rFp) rFp enabled ∧ (∀ n, enabled.team.st ≠ .skid n) ∧ enabled.team.lanesFor (rowOf (.fdiv rFp)) rFp = [0] ∧
    ∃ e : Exc, signals (.fdiv rFp) rFp .rne { v := 0x3F800000 } { v := 0x40400000 } {} = some e ∧
      opA (.fdiv rFp) rFp enabled = [{ v := 0x3F800000, tag := 0 }] ∧ opB (.fdiv rFp) rFp enabled = [{ v := 0x40400000, tag := 0 }] ∧
      (e &&& enabled.team.fpctl.extractLsb' 0 5).getLsbD 4 = true ∧ (∀ b < 4, (e &&& enabled.team.fpctl.extractLsb' 0 5).getLsbD b = false) :=
  ⟨⟨⟨_, _, rfl⟩, by decide +kernel⟩, no_skid (by decide +kernel), by decide +kernel, _, rfl, by decide +kernel⟩
theorem witness_FloatExceptionsTrap_2 : (let i : Instr := .fcmp .eq { rFp with d := 1 }
    ReadyR i { rFp with d := 1 } snans ∧ (∀ n, snans.team.st ≠ .skid n) ∧ (∀ o ∈ opA i { rFp with d := 1 } snans ++ opB i { rFp with d := 1 } snans, o.tag ≠ tagPoison) ∧
    signals i { rFp with d := 1 } .rne { v := 0x3F800000 } { v := 0x7F800001 } {} = some 1 ∧ ((1 : Exc) &&& snans.team.fpctl.extractLsb' 0 5).getLsbD 0 = true) :=
  ⟨⟨⟨_, _, rfl⟩, by decide +kernel⟩, no_skid (by decide +kernel), by decide +kernel, by decide +kernel, by decide +kernel⟩
/-- f32 infinities in every lane but one, whose sum with −∞ is invalid; a block whose slots overflow f32. -/
def lanesEnabled : State := onTeam { (vr 6 (fun l => if l = 0 then 0xFF800000 else 0x7F800000) (vr 8 (fun _ => 0xFFFFFFFF) team)) with fpctl := 0x1F }
def rBlock : RForm := { rf with d := 12, a := 8, ln := true }
theorem witness_FloatExceptionsTrap_3 : (let s := lanesEnabled; let lanes := writtenLanes s.team rBlock.g rBlock.gn
    Shaped s.team ∧ (∀ n, s.team.st ≠ .skid n) ∧ destBusy s.team true (.genD .one) 12 .i8 lanes = false ∧ Issues (.kdec rBlock) s ∧
    (∀ l ∈ lanes, ∀ j < 5, Readable s.team 8 1 (l / 32 * 32 + j)) ∧ Issues (.kenc rBlock) s ∧
    (∀ l ∈ lanes, ∀ i < 32, s.team.m.getLsbD (l / 32 * 32 + i) = true → Readable s.team 8 1 (l / 32 * 32 + i))) :=
  ⟨by decide +kernel, no_skid (by decide +kernel), by decide +kernel, by decide +kernel, by unfold Readable; decide +kernel, by decide +kernel,
    by unfold Readable; decide +kernel⟩
def rRed : RForm := { rf with d := 12, a := 6, ln := true, ty := .f32 }
theorem witness_FloatExceptionsTrap_4 : (let s := lanesEnabled; let lanes := writtenLanes s.team rRed.g rRed.gn
    Shaped s.team ∧ destBusy s.team true (.vD .ty) 12 .f32 lanes = false ∧ (∀ l ∈ lanesOf s.team.m s.team.nlanes, Readable s.team 6 1 l) ∧
    Issues (.xred .add rRed) s ∧ Issues (.xscan .add true rRed) s ∧ ((reduced .add rRed s).2 &&& s.team.fpctl.extractLsb' 0 5).getLsbD 0 = true) := by
  unfold Readable; decide +kernel
theorem witness_RoundingIsNearestOrDirected : fmtF16 ∈ formats ∧ IsNum (readF fmtF16 0x3C00) 1 ∧ IsNum (readF fmtF16 0x4000) 2 ∧
    List.Forall₂ IsNum [readF fmtF32 0x3F800000] [1] ∧ Rows.isInt .i8 = true ∧ (1 : Nat) ≤ 1 := by
  have h : ∀ v : Fv, v = .fin false 1024 (-10) → IsNum v 1 := fun v hv => ⟨false, 1024, -10, hv, by norm_num⟩
  refine ⟨by simp [formats], h _ (by decide +kernel), ⟨false, 1024, -9, by decide +kernel, by norm_num⟩, .cons ⟨false, 2 ^ 23, -23, by decide +kernel, by norm_num⟩ .nil,
    by decide, le_rfl⟩
theorem witness_FloatSelectAndSign_1 : ReadyR (.fmax rFp) rFp floats ∧ ReadyR (.fmin rFp) rFp floats := ⟨⟨⟨_, _, rfl⟩, by decide +kernel⟩, ⟨_, _, rfl⟩, by decide +kernel⟩
theorem witness_FloatSelectAndSign_2 : ReadyR (.fabs { rFp with b := 0 }) { rFp with b := 0 } floats ∧ ReadyR (.fneg { rFp with b := 0 }) { rFp with b := 0 } floats ∧
    ReadyR (.fclass { rFp with b := 0 }) { rFp with b := 0 } floats :=
  ⟨⟨⟨_, _, rfl⟩, by decide +kernel⟩, ⟨⟨_, _, rfl⟩, by decide +kernel⟩, ⟨_, _, rfl⟩, by decide +kernel⟩
theorem witness_FloatCompare : ReadyR (.fcmp .le { rFp with d := 1 }) { rFp with d := 1 } floats ∧
    (∀ o ∈ opA (.fcmp .le { rFp with d := 1 }) { rFp with d := 1 } floats ++ opB (.fcmp .le { rFp with d := 1 }) { rFp with d := 1 } floats, o.tag ≠ tagPoison) :=
  ⟨⟨⟨_, _, rfl⟩, by decide +kernel⟩, by decide +kernel⟩
theorem witness_Conversions : ReadyR (.cvt .f32 { rf with d := 6, a := 6, ty := .e4m3, sat := true }) { rf with d := 6, a := 6, ty := .e4m3, sat := true } floats ∧
    ReadyR (.pack { rf with d := 6, a := 6, b := 7, ty := .f16 }) { rf with d := 6, a := 6, b := 7, ty := .f16 } floats ∧
    ReadyR (.unpack { rf with d := 6, a := 6, b := 7, ty := .f16 }) { rf with d := 6, a := 6, b := 7, ty := .f16 } floats ∧
    (convert .e4m3 .rne true (readVal .f32 0x3F800000)).exc = 0 ∧ (convert .f16 .rne false (readVal (packSrc .f16) 0x3F800000)).exc = 0 ∧ floats.team.fpctl = 0 :=
  by refine ⟨⟨⟨_, _, rfl⟩, ?_⟩, ⟨⟨_, _, rfl⟩, ?_⟩, ⟨⟨_, _, rfl⟩, ?_⟩, ?_⟩ <;> decide +kernel
theorem witness_Ky4Blocks_encode : ((List.replicate 32 (Fv.fin false 1 0)).length = 32 ∧ List.Forall₂ IsNum (List.replicate 32 (Fv.fin false 1 0)) (List.replicate 32 1)) ∧
    (∃ i < 32, (List.replicate 32 (1 : ℝ)).getD i 0 ≠ 0) ∧
    List.Forall₂ IsNum (List.replicate 32 (Fv.fin false 0 0)) (List.replicate 32 0) ∧ (∀ i < 32, (List.replicate 32 (0 : ℝ)).getD i 0 = 0) := by
  have h1 : IsNum (.fin false 1 0) 1 := ⟨false, 1, 0, rfl, by norm_num⟩
  have h0 : IsNum (.fin false 0 0) 0 := ⟨false, 0, 0, rfl, by norm_num⟩
  have all : ∀ (n : Nat) (x : Fv) (y : ℝ), IsNum x y → List.Forall₂ IsNum (List.replicate n x) (List.replicate n y) := by
    intro n x y h; induction n with
    | zero => exact .nil
    | succ n ih => exact .cons h ih
  refine ⟨⟨rfl, all _ _ _ h1⟩, ⟨0, by norm_num, by simp⟩, all _ _ _ h0, fun i _ => by
    rw [List.getD_eq_getElem?_getD, List.getElem?_replicate]; split <;> rfl⟩
/-! Lanes, control and capabilities. -/

/-- No floating-point exception is enabled: whatever is signalled completes. -/
theorem none_enabled (t : Team) (h : t.fpctl = 0) (u : Exc) : u &&& t.fpctl.extractLsb' 0 5 = 0 := by rw [h]; exact BitVec.and_zero
def rKy4 : RForm := { rf with d := 5, a := 6, ln := true }
theorem witness_Ky4Blocks_1 : Shaped base.team ∧ Issues (.kdec rKy4) base ∧
    destBusy base.team true (.genD .one) 5 .i8 (writtenLanes base.team rKy4.g rKy4.gn) = false ∧
    (∀ l ∈ writtenLanes base.team rKy4.g rKy4.gn, ∀ j < 5, Readable base.team 6 1 (l / 32 * 32 + j)) ∧ (∀ u : Exc, u &&& base.team.fpctl.extractLsb' 0 5 = 0) := by
  refine ⟨by decide +kernel, by decide +kernel, by decide +kernel, ?_, none_enabled _ rfl⟩
  unfold Readable; decide +kernel
theorem witness_Ky4Blocks_2 : Shaped base.team ∧ Issues (.kenc rKy4) base ∧
    destBusy base.team true (.genD .one) 5 .i8 (writtenLanes base.team rKy4.g rKy4.gn) = false ∧
    (∀ l ∈ writtenLanes base.team rKy4.g rKy4.gn, ∀ i < 32, base.team.m.getLsbD (l / 32 * 32 + i) = true → Readable base.team 6 1 (l / 32 * 32 + i)) ∧
    (∀ u : Exc, u &&& base.team.fpctl.extractLsb' 0 5 = 0) := by
  refine ⟨by decide +kernel, by decide +kernel, by decide +kernel, ?_, none_enabled _ rfl⟩
  unfold Readable; decide +kernel
theorem witness_Ky4Blocks_broadcast : (let f := { rKy4 with ob := 4 }
    Issues (.kdec f) base ∧ Issues (.kenc f) base ∧ f.ob.getLsbD 2 = true ∧ (base.team.sreg 6).full = true ∧ remoteCause (base.team.sreg 6).tag = none) := by decide +kernel

def rMask : RForm := { rf with g := 0, ln := true }
def deep : State := onTeam { team with stack := List.replicate 16 (0xFF, 0x0F) }
def deep15 : State := onTeam { team with stack := List.replicate 15 (0xFF, 0x0F) }
theorem witness_MaskStack_push : Issues (.mpush rMask) deep15 ∧ deep15.team.stack.length < 16 ∧ Issues (.mpush rMask) deep ∧ 16 ≤ deep.team.stack.length ∧
    Issues (.mall rMask) deep15 ∧ Issues (.mall rMask) deep := by decide +kernel
theorem witness_MaskStack_pop : Issues (.melse rMask) deep ∧ Issues (.mpop rMask) deep ∧ deep.team.stack = (0xFF, 0x0F) :: List.replicate 15 (0xFF, 0x0F) ∧
    Issues (.melse rMask) base ∧ Issues (.mpop rMask) base ∧ base.team.stack = [] := by decide +kernel
theorem witness_MaskStack_mset : (let f : RForm := { rMask with a := 6, b := 7 }
    ∀ w ∈ [0, 1], ∃ a b : Opd, Issues (.mset f) (onTeam (sr 6 w team)) ∧ readS (onTeam (sr 6 w team)).team 6 f.ea = .ok a ∧
      readS (onTeam (sr 6 w team)).team 7 f.eb = .ok b ∧ a.tag ≠ tagPoison ∧ b.tag ≠ tagPoison ∧ (onTeam (sr 6 w team)).team.nlanes ≤ 1024 ∧
      a.v = w ∧ (onTeam (sr 6 w team)).team.nlanes / 32 = 1) := by
  intro f w hw
  simp only [List.mem_cons, List.not_mem_nil, or_false] at hw
  rcases hw with rfl | rfl
  · exact ⟨{ v := 0, tag := 0 }, { v := 0, tag := tagZeroed }, by decide +kernel⟩
  · exact ⟨{ v := 1, tag := 0 }, { v := 0, tag := tagZeroed }, by decide +kernel⟩
def rLid : RForm := { rf with d := 5, ln := true }
theorem witness_LaneIdsAndVotes_1 : Shaped base.team ∧ Issues (.lid rLid) base ∧ destBusy base.team true (.vD .one) 5 .i8 (writtenLanes base.team 24 false) = false := by decide +kernel
def rVote : RForm := { rf with d := 3, a := 4, g := 0, ln := true }
theorem witness_LaneIdsAndVotes_2 : Issues (.voteAny rVote) base ∧ Issues (.voteAll rVote) base ∧ base.team.nlanes ≤ 1024 := by decide +kernel
theorem witness_LaneIdsAndVotes_3 : Issues (.voteBallot { rVote with d := 5, b := 7 }) base ∧ (base.team.sreg 5).full = true ∧
    readS base.team 7 false = .ok { v := 0, tag := tagZeroed } ∧ tagZeroed ≠ tagPoison := by decide +kernel
def iX : IForm := { if_ with d := 5, a := 4, ln := true, imm := 3 }
theorem witness_CrossLaneMoves_1 : Shaped base.team ∧ Issues (.xchi iX) base ∧ Issues (.xup iX) base ∧ Issues (.xdn iX) base ∧ Issues (.xbc iX) base ∧
    destBusy base.team true (.vD .one) 5 .i8 (writtenLanes base.team iX.g iX.gn) = false ∧
    (∀ l ∈ writtenLanes base.team iX.g iX.gn, ∀ k < 32, Readable base.team 4 1 k) := by
  refine ⟨by decide +kernel, by decide +kernel, first4 (by decide +kernel) ?_⟩
  unfold Readable; decide +kernel
def rXch : RForm := { rf with d := 6, a := 8, b := 10, ln := true, ty := .i64 }
theorem witness_CrossLaneMoves_2 : Shaped base.team ∧ Issues (.xch rXch) base ∧
    destBusy base.team true (.vD .ty) 6 .i64 (writtenLanes base.team 24 false) = false ∧
    readGen base.team true (rXch.ob.getLsbD 1) rXch.eb 1 10 (writtenLanes base.team 24 false) = .ok (List.replicate 32 { v := 0, tag := tagZeroed }) ∧
    (∀ k < 32, Readable base.team 8 2 k) := by
  refine first4 (by decide +kernel) ?_
  unfold Readable; decide +kernel
theorem witness_ReductionsAndScans : Shaped base.team ∧ destBusy base.team true (.vD .ty) 6 .i64 (writtenLanes base.team 24 false) = false ∧
    (∀ l ∈ lanesOf base.team.m base.team.nlanes, Readable base.team 8 2 l) ∧ Issues (.xred .add { rXch with b := 0 }) base ∧
    Issues (.xscan .add true { rXch with b := 0 }) base ∧ (∀ u : Exc, u &&& base.team.fpctl.extractLsb' 0 5 = 0) := by
  refine ⟨by decide +kernel, by decide +kernel, ?_, by decide +kernel, by decide +kernel, none_enabled _ rfl⟩
  unfold Readable; decide +kernel

def bf : BForm := { cnd := 3, off := 5 }
theorem witness_BranchesAndLoop_1 : Issues .nop base ∧ Issues (.br { bf with cnd := 0 }) base ∧ Issues (.brc true bf) base ∧ Issues (.brc false bf) base := by decide +kernel
theorem witness_BranchesAndLoop_any : base.team.nlanes ≤ 1024 ∧ Issues (.brany bf) (onTeam (team.setP 3 8)) ∧ Issues (.brall bf) (onTeam (team.setP 3 8)) ∧
    ((onTeam (team.setP 3 8)).team.m.getLsbD 3 = true ∧ ((onTeam (team.setP 3 8)).team.predMask 3).getLsbD 3 = true) ∧
    ((onTeam (team.setP 3 8)).team.m.getLsbD 4 = true ∧ ((onTeam (team.setP 3 8)).team.predMask 3).getLsbD 4 = false) := by decide +kernel
theorem witness_BranchesAndLoop_none : Issues (.brany bf) base ∧ (∀ l < 1024, base.team.m.getLsbD l = true → (base.team.predMask 3).getLsbD l = false) := by decide +kernel
theorem witness_BranchesAndLoop_all : Issues (.brall { bf with cnd := 24 }) base ∧
    (∀ l < 1024, base.team.m.getLsbD l = true → (base.team.predMask 24).getLsbD l = true) := by decide +kernel
theorem witness_BranchesAndLoop_loop : ∀ k ∈ [0, 1, 2 ^ 64 - 1], (let s := onTeam (sr 9 k team)
    Issues (.loop { if_ with d := 9, g := 0, imm := 0xFFFFFFFF }) s ∧ (s.team.sreg 9).full = true ∧ remoteCause (s.team.sreg 9).tag = none ∧
      (s.team.sreg 9).tag ≠ tagPoison ∧ (s.team.sreg 9).v = BitVec.ofNat 64 k) := by decide +kernel
/-- A team with a capability register. -/
def cr (n : Nat) (k : CReg) (t : Team) : Team := { t with c := t.c.set n k }
def code : CReg := testCap 0 65536 0x40 1 (pLD ||| pX)
theorem witness_CallsAndTransfers_1 : Issues (.call { cnd := 0, off := 5 }) base ∧ (base.team.creg 30).busy = false := by decide +kernel
theorem witness_CallsAndTransfers_2 : ∀ o ∈ [0, 1], (let s := onTeam (cr 30 { code with bits := capSetOtype code.bits o } (cr 7 { code with bits := capSetOtype code.bits o } team))
    let k := s.team.creg 30
    let root := rootOf (s.roots (s.ctxOf s.team)) k.bits
    Issues .ret s ∧ Issues (.jmpc { rf with a := 7 }) s ∧ s.team.creg 7 = k ∧ k.busy = false ∧ remoteCause k.tag = none ∧ k.tag ≠ tagPoison ∧
    capCheck (s.roots (s.ctxOf s.team)) { s.checker s.team anyKind with compt := root.compt, fab := false } { k with bits := capSetOtype k.bits 0 }
      (capLo root.base k.bits) 0 pX = none ∧ capOtype k.bits ≤ 1 ∧ root.compt = s.comptOf s.team) := by decide +kernel

/-- c5 with LD, ST and SEAL, c6 as a sealer at cursor 7, c7 sealed by it. -/
def caps : State :=
  let k5 := testCap 0 65536 0x100 1 (pLD ||| pST ||| pSEAL)
  onTeam (cr 5 k5 (cr 6 (testCap 0 65536 7 1 pSEAL) (cr 7 { k5 with bits := capSetOtype k5.bits 7 } (sr 8 0x40 team))))
def rCap : RForm := { rf with d := 9, a := 5, b := 8 }
theorem witness_CapabilityDerivations_cbnd : (∃ mop fn, Rows.view (.cbnd rCap) = .r mop fn (rowOf (.cbnd rCap)) (srcOf (.cbnd rCap)) rCap) ∧ Shaped caps.team ∧
    Issues (.cbnd rCap) caps ∧ destBusy caps.team false (rowOf (.cbnd rCap)).d 9 .i8 [0] = false ∧ caps.team.lanesFor (rowOf (.cbnd rCap)) rCap = [0] ∧
    readCap caps.team false false 5 [0] = .ok [caps.team.creg 5] ∧ readFld caps.team (rowOf (.cbnd rCap)).b false false false .i8 .i8 8 [0] = .ok [{ v := 0x40, tag := 0 }] ∧
    CapAllows (.cbnd rCap) caps (caps.team.creg 5) { v := 0x40, tag := 0 } {} := by
  refine ⟨⟨_, _, rfl⟩, first4 (by decide +kernel) ⟨by decide +kernel, by decide +kernel, ?_⟩⟩
  unfold CapAllows; decide +kernel
theorem witness_CapabilityDerivations_cbndr : Issues (.cbndr rCap) caps ∧ CapAllows (.cbndr rCap) caps (caps.team.creg 5) { v := 0x40, tag := 0 } {} := by
  refine ⟨by decide +kernel, ?_⟩
  unfold CapAllows
  exact ⟨by decide +kernel, by decide, by decide +kernel, by decide +kernel, _, _, _, rfl, by decide +kernel, by decide +kernel⟩
theorem witness_CapabilityDerivations_seal : Issues (.cseal { rCap with b := 6 }) caps ∧ readCap caps.team false false 6 [0] = .ok [caps.team.creg 6] ∧
    CapAllows (.cseal { rCap with b := 6 }) caps (caps.team.creg 5) {} (caps.team.creg 6) ∧ Issues (.cunseal { rCap with a := 7, b := 6 }) caps ∧
    CapAllows (.cunseal { rCap with a := 7, b := 6 }) caps (caps.team.creg 7) {} (caps.team.creg 6) := by
  refine ⟨by decide +kernel, by decide +kernel, ?_, by decide +kernel, ?_⟩ <;> unfold CapAllows <;> decide +kernel
theorem witness_CapabilityDerivations_others : Issues (.cseta rCap) caps ∧ Issues (.cinc rCap) caps ∧ Issues (.cperm rCap) caps ∧ Issues (.cmov { rCap with b := 0 }) caps ∧
    Issues (.cnull { rCap with a := 0, b := 0 }) caps ∧ CapAllows (.cseta rCap) caps (caps.team.creg 5) { v := 0x40, tag := 0 } {} := by
  refine first4 (by decide +kernel) ⟨by decide +kernel, ?_⟩
  unfold CapAllows; decide +kernel
theorem ran {i : Instr} {s : State} (h : (match exec i s with | .next _ => true | _ => false) = true) : exec i s = .next (run i s) := by
  unfold run; split at h
  · rename_i t ht; rw [ht]
  · cases h
theorem witness_DerivationsNeverWiden : (∃ mop fn, Rows.view (.cperm rCap) = .r mop fn (rowOf (.cperm rCap)) (srcOf (.cperm rCap)) rCap) ∧ Shaped caps.team ∧
    (∃ t, exec (.cperm rCap) caps = .next t ∧ t.team.retired = caps.team.retired + 1 ∧ (t.team.c.getD 9 {}).valid = true) ∧ rCap.ln = false ∧ rCap.d ≠ 0 :=
  ⟨⟨_, _, rfl⟩, by decide +kernel, ⟨_, ran (by decide +kernel), by decide +kernel, by decide +kernel⟩, rfl, by decide⟩
def rLaneCap : RForm := { rf with d := 12, a := 8, ln := true }
theorem witness_DerivationsNeverWiden_lanes : (∃ mop fn, Rows.view (.cmov rLaneCap) = .r mop fn (rowOf (.cmov rLaneCap)) (srcOf (.cmov rLaneCap)) rLaneCap) ∧
    (∃ t, exec (.cmov rLaneCap) caps = .next t ∧ t.team.retired = caps.team.retired + 1) ∧ caps.team.lanesFor (rowOf (.cmov rLaneCap)) rLaneCap = List.range 32 :=
  ⟨⟨_, _, rfl⟩, ⟨_, ran (by decide +kernel), by decide +kernel⟩, by decide +kernel⟩
/-- c9 is null; the first check that fails is that for its valid bit. -/
theorem witness_CapabilityChecksTrap_1 : (let f := { rCap with a := 9 }; let i : Instr := .cbnd f
    (∃ mop fn, Rows.view i = .r mop fn (rowOf i) (srcOf i) f) ∧ Issues i caps ∧ caps.team.lanesFor (rowOf i) f = [0] ∧
    destBusy caps.team false (rowOf i).d 9 .i8 [0] = false ∧ readCap caps.team false false 9 [0] = .ok [caps.team.creg 9] ∧
    readFld caps.team (rowOf i).b false false false .i8 .i8 8 [0] = .ok [{ v := 0x40, tag := 0 }] ∧
    capFails i caps (caps.team.creg 9) { v := 0x40, tag := 0 } {} = some 0x10) := ⟨⟨_, _, rfl⟩, by decide +kernel⟩
/-- `croot` at an address that is no multiple of 64 KiB; with a permission word of more bits than there are. -/
theorem witness_CapabilityChecksTrap_2 : (let f : RForm := { rf with d := 9, a := 6, b := 7 }
    ∀ x ∈ [(1, 65536), (65536, 2 ^ 58 + 65536)], (let s := onTeam (sr 6 x.1 (sr 7 x.2 { team with mode := .super }))
      Issues (.croot f) s ∧ (s.team.creg 9).busy = false ∧ readS s.team 6 f.ea = .ok { v := x.1, tag := 0 } ∧ readS s.team 7 f.eb = .ok { v := x.2, tag := 0 })) ∧
    1 % 65536 ≠ 0 ∧ (exactEnc 0 0 65536).isSome ∧ (2 ^ 58 + 65536) % 2 ^ 47 = 65536 ∧ (2 ^ 58 + 65536) / 2 ^ 58 ≠ 0 := by decide +kernel
theorem witness_CapabilityChecksTrap_3 : (let f : RForm := { rf with a := 5 }; let s := onTeam (cr 5 (testCap 0 65536 0 1 pLD) { team with mode := .super })
    let k := s.team.creg 5
    Issues (.crev f) s ∧ k.busy = false ∧ remoteCause k.tag = none ∧
    capCheck (s.roots (s.ctxOf s.team)) { s.checker s.team anyKind with fab := false } k (s.capLoOf (s.ctxOf s.team) k.bits) 0 pSYS = some 0x12) := by decide +kernel
/-- Transfers through a capability without X, through a sealed one, and, not through an entry, into compartment 3. -/
def gates : State :=
  { base with
    contexts := [{ placedContext with roots := aset ({} : Root) placedContext.roots 2 { kind := .loc, state := .live, base := 0, limit := 65536, ceil := pLD ||| pX, compt := 3 } }]
    teams := [cr 7 (testCap 0 65536 0x40 1 pLD) (cr 8 { code with bits := capSetOtype code.bits 2 } (cr 9 (testCap 0 65536 0x40 2 (pLD ||| pX)) team))] }
theorem witness_CapabilityChecksTrap_4 : (let s := gates
    let root (n : Nat) := rootOf (s.roots (s.ctxOf s.team)) (s.team.creg n).bits
    let check (n : Nat) := capCheck (s.roots (s.ctxOf s.team)) { s.checker s.team anyKind with compt := (root n).compt, fab := false }
      { s.team.creg n with bits := capSetOtype (s.team.creg n).bits 0 } (capLo (root n).base (s.team.creg n).bits) 0 pX
    (∀ n ∈ [7, 8, 9], Issues (.jmpc { rf with a := BitVec.ofNat 6 n }) s ∧ (s.team.creg n).busy = false ∧ remoteCause (s.team.creg n).tag = none ∧
      (s.team.creg n).tag ≠ tagPoison) ∧ Issues .ret s ∧
    check 7 = some 0x12 ∧ check 8 = none ∧ capOtype (s.team.creg 8).bits = 2 ∧ check 9 = none ∧ capOtype (s.team.creg 9).bits = 0 ∧
    (root 9).compt = 3 ∧ s.comptOf s.team = 0) := by decide +kernel
theorem witness_CapabilityQueriesAndRoots_1 : (let f : RForm := { rf with d := 9, a := 5 }
    (∃ mop fn, Rows.view (.cget .offset f) = .r mop fn (rowOf (.cget .offset f)) (srcOf (.cget .offset f)) f) ∧ Shaped caps.team ∧ Issues (.cget .offset f) caps ∧
    destBusy caps.team f.ln (rowOf (.cget .offset f)).d 9 f.ty (caps.team.lanesFor (rowOf (.cget .offset f)) f) = false ∧
    readCap caps.team f.ln f.ea 5 (caps.team.lanesFor (rowOf (.cget .offset f)) f) = .ok [caps.team.creg 5]) :=
  ⟨⟨_, _, rfl⟩, by decide +kernel⟩
theorem witness_CapabilityQueriesAndRoots_2 : (let f : RForm := { rf with d := 2, a := 5 }
    (∃ mop fn, Rows.view (.ctest f) = .r mop fn (rowOf (.ctest f)) (srcOf (.ctest f)) f) ∧ Issues (.ctest f) caps ∧
    readCap caps.team f.ln f.ea 5 (caps.team.lanesFor (rowOf (.ctest f)) f) = .ok [caps.team.creg 5]) :=
  ⟨⟨_, _, rfl⟩, by decide +kernel⟩
/-- `croot` of 64 KiB at 64 KiB with LD; roots 1 stands, 2 is free. -/
def rootable : State := onTeam (sr 6 65536 (sr 7 (2 ^ 47 + 65536) { team with mode := .super }))
theorem witness_CapabilityQueriesAndRoots_3 : (let f : RForm := { rf with d := 9, a := 6, b := 7 }; let s := rootable
    Issues (.croot f) s ∧ Issues (.croot { f with d := 0 }) s ∧ (s.team.creg 9).busy = false ∧ readS s.team 6 f.ea = .ok { v := 65536, tag := 0 } ∧
    readS s.team 7 f.eb = .ok { v := 2 ^ 47 + 65536, tag := 0 } ∧ (65536 < 2 ^ 57 ∧ 65536 % 65536 = 0) ∧ (2 ^ 47 + 65536) % 2 ^ 47 ≠ 0 ∧
    (2 ^ 47 + 65536) % 2 ^ 47 % 65536 = 0 ∧ (∃ e l, exactEnc 0 0 65536 = some (e, 0, l)) ∧ (2 ^ 47 + 65536) / 2 ^ 58 = 0 ∧
    awf ({} : Root) (s.roots (s.ctxOf s.team)) = true ∧ (0 < 2 ∧ (aget ({} : Root) (s.roots (s.ctxOf s.team)) 2).state = .free) ∧
    ∀ k < 2, ¬ (0 < k ∧ (aget ({} : Root) (s.roots (s.ctxOf s.team)) k).state = .free)) := by
  exact first4 (by decide +kernel) (first4 (by decide +kernel) ⟨⟨_, _, rfl⟩, by decide +kernel⟩)
def revocable : State := onTeam (cr 5 (testCap 0 65536 0 1 (pLD ||| pSYS)) { team with mode := .super })
theorem witness_CapabilityQueriesAndRoots_4 : (let f : RForm := { rf with a := 5 }; let s := revocable; let k := s.team.creg 5
    Issues (.crev f) s ∧ s.ctxOf s.team = some 0 ∧ 0 < s.contexts.length ∧ k.busy = false ∧ remoteCause k.tag = none ∧
    capCheck (s.roots (some 0)) { s.checker s.team anyKind with fab := false } k (s.capLoOf (some 0) k.bits) 0 pSYS = none ∧
    s.team.held 0x7F false = false) := by decide +kernel

/-! Memory. -/

theorem unobserved {s : State} (h : s.ctxOf s.team = some 0 ∧ (s.ctxAt 0).recorder.dies.getLsbD (s.crewAt s.team.crew).die = false ∧ s.attached s.team = none) :
    Unobserved s := ⟨fun c hc => by rw [h.1] at hc; cases hc; exact h.2.1, h.2.2⟩
def readsOf (s : State) (f : MForm) (op : MemOp) : List Ask :=
  okOf (readAddr s.team f op (s.team.readLanes op (s.team.memLanes f)))
/-- What the lanes of a memory instruction ask for. -/
def asksOf (s : State) (f : MForm) (op : MemOp) : List Ask :=
  okOf (withData s.team f op ((readsOf s f op).map fun x => { x with write := (s.team.memLanes f).contains x.lane }))
theorem asks {s : State} {f : MForm} {op : MemOp} (h : destWaits s.team op (s.team.memLanes f) = false ∧
    readAddr s.team f op (s.team.readLanes op (s.team.memLanes f)) = .ok (readsOf s f op) ∧
    withData s.team f op ((readsOf s f op).map fun x => { x with write := (s.team.memLanes f).contains x.lane }) = .ok (asksOf s f op)) :
    Asks s f op (asksOf s f op) := ⟨h.1, _, h.2.1, h.2.2⟩
def opOf_ (i : Instr) : MemOp := ((memOpOf i).getD (mf, loadOp mf [.loc])).2
/-- c4 with LD, ST, LDC, STC and the atomics' rights over the page. -/
def mems : State := onTeam (cr 4 (testCap 0 65536 0x200 1 0x7FF) (sr 3 0x1122334455667788 team))
def fLd : MForm := { mf with data := 8, cap := 4, sz := 3, off := 2 }
def fSt : MForm := { mf with data := 3, cap := 4, sz := 3, off := 2 }
def fLanes : MForm := { mf with data := 8, cap := 4, index := 12, ln := true, sz := 2, scl := 2 }
theorem witness_LocalAccessesIssue_load : memOpOf (.ldG fLd) = some (fLd, opOf_ (.ldG fLd)) ∧ Shaped mems.team ∧ Issues (.ldG fLd) mems ∧
    Asks mems fLd (opOf_ (.ldG fLd)) (asksOf mems fLd (opOf_ (.ldG fLd))) ∧ Allowed mems fLd (opOf_ (.ldG fLd)) (asksOf mems fLd (opOf_ (.ldG fLd))) ∧
    (∀ y ∈ asksOf mems fLd (opOf_ (.ldG fLd)), askSpace mems mems.team (opOf_ (.ldG fLd)) y = .dev) ∧ fLd.ord = 0 ∧ Unobserved mems := by
  refine ⟨rfl, by decide +kernel, by decide +kernel, asks (by decide +kernel), ?_, by decide +kernel, by decide, unobserved (by decide +kernel)⟩
  unfold Allowed; decide +kernel
theorem witness_LocalAccessesIssue_store : memOpOf (.stG fSt) = some (fSt, opOf_ (.stG fSt)) ∧ Issues (.stG fSt) mems ∧
    Asks mems fSt (opOf_ (.stG fSt)) (asksOf mems fSt (opOf_ (.stG fSt))) ∧ Allowed mems fSt (opOf_ (.stG fSt)) (asksOf mems fSt (opOf_ (.stG fSt))) ∧
    (asksOf mems fSt (opOf_ (.stG fSt))).length = 1 := by
  refine ⟨rfl, by decide +kernel, asks (by decide +kernel), ?_, by decide +kernel⟩
  unfold Allowed; decide +kernel
theorem witness_LocalAccessesIssue_lanes : memOpOf (.ldG fLanes) = some (fLanes, opOf_ (.ldG fLanes)) ∧ Issues (.ldG fLanes) mems ∧
    Asks mems fLanes (opOf_ (.ldG fLanes)) (asksOf mems fLanes (opOf_ (.ldG fLanes))) ∧ Allowed mems fLanes (opOf_ (.ldG fLanes)) (asksOf mems fLanes (opOf_ (.ldG fLanes))) ∧
    (asksOf mems fLanes (opOf_ (.ldG fLanes))).length = 32 := by
  refine ⟨rfl, by decide +kernel, asks (by decide +kernel), ?_, by decide +kernel⟩
  unfold Allowed; decide +kernel
def fAcqRel : MForm := { mf with data := 10, cap := 4, sz := 3, obs := 3, ord := 3, off := 0x1001 }
theorem witness_OrderedAccessesComplete : (let i : Instr := .atom fAcqRel; let op := opOf_ i; let s := mems; let ys := asksOf s fAcqRel op
    memOpOf i = some (fAcqRel, op) ∧ Issues i s ∧ Asks s fAcqRel op ys ∧ Allowed s fAcqRel op ys ∧ Unobserved s ∧
    (s.team.outs.map (·.id)).Nodup ∧
    (let acs := accessesOf s s.team fAcqRel op ys
     let mask := s.releaseMask s.team fAcqRel.obs op acs
     s.team.held mask false = false ∧ s.team.latched mask = none ∧
     let s1 := (s.storesHome s.cur).drain s.cur
     let s2 := acs.foldl (fun (s : State) p => if p.1.isWindow then s else s.drainLines p.1) s1
     acs.flatMap (fun p => scopeFails s2 s.team op p) = [])) := by
  refine ⟨rfl, by decide +kernel, asks (by decide +kernel), ?_, unobserved (by decide +kernel), by decide +kernel, by decide +kernel⟩
  unfold Allowed; decide +kernel
theorem witness_AccessesWaitAndTrap_1 : (let s := onTeam (emptyS 8 mems.team)
    memOpOf (.ldG fLd) = some (fLd, opOf_ (.ldG fLd)) ∧ Issues (.ldG fLd) s ∧ destWaits s.team (opOf_ (.ldG fLd)) (s.team.memLanes fLd) = true) := by decide +kernel
/-- c0 has no valid capability: CAP_TAG, in the scalar and in every lane. -/
theorem witness_AccessesWaitAndTrap_2 : ∀ f ∈ [{ fLd with cap := 1 }, { fLanes with cap := 1 }], (let op := opOf_ (.ldG f)
    memOpOf (.ldG f) = some (f, op) ∧ Issues (.ldG f) mems ∧ Asks mems f op (asksOf mems f op) ∧ (∀ n, mems.team.st ≠ .skid n) ∧
    (∀ y ∈ asksOf mems f op, poisoned mems mems.team op y = false) ∧ ∃ y ∈ asksOf mems f op, askCause mems mems.team op y = some 0x10) := by
  intro f hf
  simp only [List.mem_cons, List.not_mem_nil, or_false] at hf
  rcases hf with rfl | rfl <;>
    exact ⟨rfl, by decide +kernel, asks (by decide +kernel), no_skid (by decide +kernel), by decide +kernel, by decide +kernel⟩
/-- The state after an instruction on `mems`, its access open. -/
def loading : State := run (.ldG fLd) mems
def storing : State := run (.stG fSt) mems
def first (s : State) : Access := (s.team.outs.head?).getD { id := 99, kind := .load, space := .dev, dst := .none, lanes := [], size := 0, time := 0, own := 0, rule := 0 }
theorem witness_FillArrivalPerforms_load : (let s := loading; let a := first s
    0 < s.teams.length ∧ Shaped (s.teamAt 0) ∧ (s.teamAt 0).outs.find? (fun x => x.id = a.id) = some a ∧ a.isStore = false ∧ a.isWindow = false ∧
    canPerform (earlierThan (s.teamAt 0).outs a.id) a = true ∧ a.kind = .load ∧ a.dst = .s 8 1 ∧ a.lanes.length = 1) := by decide +kernel
theorem witness_FillArrivalPerforms_lanes : (let s := run (.ldG fLanes) mems; let a := first s
    (s.teamAt 0).outs.find? (fun x => x.id = a.id) = some a ∧ canPerform (earlierThan (s.teamAt 0).outs a.id) a = true ∧ a.kind = .load ∧ a.dst = .v 8 1 ∧
    (a.lanes.map (·.lane)).Nodup ∧ a.lanes.length = 32) := by decide +kernel
theorem witness_FillArrivalPerforms_atom : (let s := run (.atom { fAcqRel with ord := 0, obs := 0 }) mems; let a := first s
    (s.teamAt 0).outs.find? (fun x => x.id = a.id) = some a ∧ canPerform (earlierThan (s.teamAt 0).outs a.id) a = true ∧ (∃ op, a.kind = .atom op) ∧ a.space = .dev ∧
    a.dst = .s 10 1 ∧ a.size = 8 ∧ ∃ l, a.lanes = [l] ∧ (∃ x, l.runs = [(x, a.size)]) ∧ l.data.length = a.size ∧ s.mem.wf = true) := by
  exact ⟨by decide +kernel, by decide +kernel, ⟨_, rfl⟩, and_assoc.mp ⟨by decide +kernel, by decide +kernel, _, rfl, ⟨_, rfl⟩, by decide +kernel⟩⟩
/-- Root 1 is the crew's scratchpad. -/
def scratchy : State := { mems with contexts := [{ placedContext with roots := [(1, { kind := .scratch, state := .live, base := 0, limit := 65536, ceil := 0x7FF })] }] }
/-- A pair, a v register of 64 bits, a capability in a c register and in quads, a transposed load, an atomic of many lanes; one lane inactive. -/
theorem witness_FillArrivalPerforms_kinds : ∀ p ∈ [(Instr.ldG { fLd with sz := 4 }, mems, AccKind.load, Dest.s 8 2), (.ldG { fLanes with sz := 3 }, mems, .load, .v 8 2),
      (.ldc { mf with data := 8, cap := 4, sz := 4 }, mems, .loadCap, .c 8), (.ldGCap { fLanes with sz := 4, tg := true }, mems, .loadCap, .quad 8),
      (.ldsTr { fLanes with sz := 1 }, scratchy, .loadTr, .v 8 4), (.atom fLanes, mems, .atom .add, .v 8 1)],
    (let s := run p.1 { p.2.1 with teams := [{ mems.team with m := 0xFFFFFFF7 }] }; let u := s.teamAt 0; let a := first s
     u.outs.find? (fun x => x.id = a.id) = some a ∧ a.isStore = false ∧ a.isWindow = false ∧ canPerform (earlierThan u.outs a.id) a = true ∧
     (a.lanes.map (·.lane)).Nodup ∧ (∀ l ∈ a.lanes, l.lane < u.nlanes ∧ l.write = true) ∧ a.kind = p.2.2.1 ∧ a.dst = p.2.2.2 ∧ a.lanes ≠ [] ∧
     (a.isLoad = true ∨ ((s.spaceMem u.crew a.space).wf = true ∧ a.size = 4 ∧ ∀ l ∈ a.lanes, l.runs = [(0x200, 4)] ∧ l.data.length = 4))) := by decide +kernel
theorem witness_StorePerformsAtHome : (let s := storing; let a := first s
    0 < s.teams.length ∧ (s.teamAt 0).outs.find? (fun x => x.id = a.id) = some a ∧ a.kind = .store ∧ a.space = .dev ∧ s.mem.wf = true ∧
    canPerform (earlierThan (s.teamAt 0).outs a.id) a = true ∧ a.writes.length = 8 ∧ a.writes.head?.map (·.2.1) = some 0x88) := by decide +kernel
theorem witness_FenceAndPref : Issues (.fence { mf with obs := 7, ord := 3 }) storing ∧ storing.team.held (normObs 7) (decide ((3 : BitVec 2) = 1)) = false ∧
    storing.team.latched (normObs 7) = none ∧ (storing.team.outs.map (·.id)).Nodup ∧ Issues (.pref { mf with cap := 4 }) mems ∧ Unobserved mems :=
  first4 (by decide +kernel) ⟨by decide +kernel, unobserved (by decide +kernel)⟩
/-- A supervisor with SYS over the first 64 KiB, which are mapped or not. -/
def mapper (x : Nat) (maps : List Mapping) (free : List (Nat × Nat)) : State :=
  { onTeam (cr 3 (testCap 0 65536 0 1 pSYS) (sr 12 x { team with mode := .super })) with
    contexts := [{ placedContext with maps := maps, poolFree := free }] }
def page : Mapping := { va := 0, size := 65536, frame := 0, r := true, w := true, x := true }
def hosted : Mapping := { page with resid := .host }
def fMap : MForm := { mf with data := 12, cap := 3 }
/-- The hypotheses of PageOperations but for what the page is. -/
abbrev Maps (s : State) (i : Instr) (x : Nat) : Prop :=
  s.ctxOf s.team = some 0 ∧ 0 < s.contexts.length ∧ Shaped s.team ∧ Issues i s ∧ (s.team.creg 3).busy = false ∧ remoteCause (s.team.creg 3).tag = none ∧
  (s.team.creg 3).tag ≠ tagPoison ∧ readS s.team 12 false = .ok { v := x, tag := 0 } ∧ x < 256 ∧ x % 8 < 4 ∧ x / 8 % 4 ≠ 3 ∧
  s.check s.team [.loc] (s.team.creg 3) 0 65536 pSYS = none
theorem witness_PageOperations_1 : Maps (mapper 0x60 [] [(65536, 65536)]) (.pmapMap fMap) 0x60 ∧ takeChunk 65536 65536 [(65536, 65536)] = some (65536, []) := by
  decide +kernel
theorem witness_PageOperations_2 : Maps (mapper 0x60 [] []) (.pmapMap fMap) 0x60 ∧ takeChunk 65536 65536 [] = none ∧ Maps (mapper 0x60 [page] []) (.pmapMap fMap) 0x60 := by
  decide +kernel
theorem witness_PageOperations_3 : Maps (mapper 1 [page] []) (.pmapUnmap fMap) 1 ∧ Maps (mapper 1 [] []) (.pmapUnmap fMap) 1 ∧ Maps (mapper 2 [page] []) (.pmapProtect fMap) 2 ∧
    Maps (mapper 3 [page] []) (.pmapMigrateIn fMap) 3 ∧ page.resid = .device ∧
    Maps (mapper 3 [hosted] [(65536, 65536)]) (.pmapMigrateIn fMap) 3 ∧ hosted.away = none ∧ hosted.hold ≤ (mapper 3 [hosted] [(65536, 65536)]).now :=
  first4 ⟨by decide +kernel, by decide +kernel, by decide +kernel, by decide +kernel⟩ ⟨rfl, by decide +kernel, by decide⟩
/-- A page in its hold; none free; and a frame for it. -/
theorem witness_PageOperations_away : Maps (mapper 3 [{ hosted with hold := 7 }] []) (.pmapMigrateIn fMap) 3 ∧ (mapper 3 [{ hosted with hold := 7 }] []).now < 7 ∧
    Maps (mapper 3 [hosted] []) (.pmapMigrateIn fMap) 3 ∧ hosted.resid ≠ .device ∧ takeChunk 65536 65536 [] = none ∧ hosted.away = none := by decide +kernel
theorem witness_PageOperations_mapped : Unobserved (mapper 0x60 [] [(65536, 65536)]) := unobserved (by decide +kernel)
theorem witness_PageOperations_4 : Maps (mapper 1 [{ page with size := 2 ^ 21 }] []) (.pmapUnmap fMap) 1 := by decide +kernel

/-! System instructions, synchronisation, queues. -/

def super_ : Team := { team with mode := .super }
def firm_ : Team := { team with mode := .firm }
/-- A selector: register number, index. -/
def sel_ (n : Nat) (k : Nat := 0) : IForm := { if_ with d := 5, a := 6, imm := BitVec.ofNat 32 (n + 256 * k) }
theorem witness_SpecialRegisters_read : (List.range 23).all (fun n =>
    decide (Issues (.rdsr { sel_ n with a := 0 }) (onTeam super_)) && decide (((onTeam super_).team.sreg 5).full = true)) = true ∧
    Issues (.rdsr { sel_ 16 31 with a := 0 }) (onTeam super_) ∧ Issues (.rdsr { sel_ 9 with a := 0 }) base := by decide +kernel
theorem witness_SpecialRegisters_lanes : Shaped super_ ∧ Issues (.rdsr { if_ with d := 6, ln := true, imm := 20 }) (onTeam super_) ∧
    (∀ l ∈ writtenLanes (onTeam super_).team 24 false, (onTeam super_).team.vempty 6 2 l = false) := by decide +kernel
theorem witness_SpecialRegisters_write : ([9, 10, 11, 12, 14, 17, 18, 19, 21].all fun n => decide (Issues (.wrsr { sel_ n with d := 0 }) (onTeam (sr 6 0x71F super_)))) = true ∧
    readS (onTeam (sr 6 0x400 super_)).team 6 false = .ok { v := 0x400, tag := 0 } ∧ 0x400 / 256 % 8 < 5 ∧ (5 : Nat) ≤ 0x71F / 256 % 8 ∧ (0x71F : Nat) % 4 = 3 ∧ (0x400 : Nat) % 4 ≠ 3 := by
  decide +kernel
theorem witness_SpecialRegisters_tcyc : (let s := onTeam (sr 6 9 firm_)
    Issues (.wrsr { sel_ 7 with d := 0 }) s ∧ s.team.mode = .firm ∧ s.team.crew < s.crews.length ∧ s.replayable (s.ctxOf s.team) = false ∧
    readS s.team 6 false = .ok { v := 9, tag := 0 }) := by decide +kernel
theorem witness_SpecialRegisters_lvl : Issues (.lvlWrite { sel_ 22 with d := 0 }) (onTeam (sr 6 0x1503 firm_)) ∧
    readS (onTeam (sr 6 0x1503 firm_)).team 6 false = .ok { v := 0x1503, tag := 0 } ∧ (0x1503 : Nat) % 4 = 3 ∧ (24 : Nat) ≤ 0x1800 / 256 % 32 ∧
    (0x1701 : Nat) % 4 ≠ 3 ∧ 0x1701 / 256 % 32 < 24 := by decide +kernel
theorem witness_SpecialRegisters_crewst : Issues (.crewstWrite { sel_ 13 with d := 0 }) two ∧ readS two.team 6 false = .ok { v := 0x80000000, tag := 0 } := by decide +kernel
theorem witness_SpecialRegisters_trappc : Issues (.trappcWrite { sel_ 15 with d := 0 }) (onTeam (sr 6 8 super_)) ∧
    readS (onTeam (sr 6 8 super_)).team 6 false = .ok { v := 8, tag := 0 } ∧ readS (onTeam (sr 6 9 super_)).team 6 false = .ok { v := 9, tag := 0 } := by decide +kernel

theorem witness_TrapsAndReturns_1 : Issues (.trap { if_ with imm := 0x2A }) base ∧ Issues (.bkpt { if_ with g := 0, imm := 3 }) base := by decide +kernel
def eretF : RForm := { rf with g := 0 }
theorem witness_TrapsAndReturns_eret : Issues (.eret eretF) (onTeam super_) ∧ (onTeam super_).team.frame = none ∧
    (let s := onTeam { super_ with frame := some frame_, st := .handler, trapcause := 0x3C, trappc := 8 }
     Issues (.eret eretF) s ∧ s.team.frame = some frame_ ∧ s.team.trapcause ≠ 0x48 ∧ s.team.cancelTaken = false ∧ Shaped s.team ∧ frame_.wait = none ∧
       (∀ k < 8, ((s.drain s.cur).team.sreg (56 + k)).full = true) ∧ ((s.drain s.cur).team.c.getD 29 {}).busy = false) ∧
    (let s := onTeam { super_ with frame := some frame_, st := .handler, trapcause := 0x48 }
     Issues (.eret eretF) s ∧ s.team.frame = some frame_ ∧ s.team.trapcause = 0x48 ∧ Shaped s.team ∧ s.team.held (s.exitObs s.team) false = false ∧
       (∀ k < 8, ((s.drain s.cur).team.sreg (56 + k)).full = true) ∧ ((s.drain s.cur).team.c.getD 29 {}).busy = false) := by decide +kernel
def debugged : State := { onTeam super_ with contexts := [{ placedContext with dbg := { attached := true, until_ := 1000, lease := 1000 } }] }
theorem witness_TrapsAndReturns_halt : Issues (.halt eretF) (onTeam super_) ∧ (onTeam super_).attached super_ = none ∧ Issues (.halt eretF) debugged ∧
    debugged.attached debugged.team = some 0 := by decide +kernel
theorem witness_TrapsAndReturns_kat : Issues (.kat eretF) (onTeam firm_) ∧ (onTeam firm_).team.crew < (onTeam firm_).crews.length ∧
    ((onTeam firm_).crewAt (onTeam firm_).team.crew).place < (onTeam firm_).cores.length := by decide +kernel
/-- A firmware team with c9 over a save area at 0, whose header names a size of 64 KiB and the slot of a second crew, on core 1. -/
def saving (st die core slot : Nat) (ready : Bool) : State :=
  let t : Team := cr 9 (testCap 0 131072 0 1 (pLD ||| pST ||| pSYS)) firm_
  let s : State := { onTeam t with
    contexts := [{ placedContext with maps := [{ va := 0, size := 2 ^ 21, frame := 0, r := true, w := true, x := true }], stage2 := [(0, 0, 2 ^ 21)] }]
    crews := [placedCrew 0 0 0, { placedCrew 0 0 1 with core := 1, area := if ready then some 0 else none, state := if ready then .ready else .resident }], teams := [t, { team with crew := 1 }] }
  { s with mem := storeBytes s.mem (laneWrites [(0, 15)] (leBytes 8 131072 ++ leBytes 4 st ++ leBytes 1 die ++ leBytes 1 core ++ leBytes 1 slot) 0) {} }
def fSave : RForm := { rf with a := 9, g := 0 }
theorem witness_TrapsAndReturns_csave : (let s := saving 0 0 1 0 false; let k := s.team.creg 9; let h := s.areaBytes [(0, 4096)]
    s.areaReads (s.ctxOf s.team) [(0, 4096)] = (s, none) ∧ Issues (.csave fSave) s ∧ k.busy = false ∧ remoteCause k.tag = none ∧ k.tag ≠ tagPoison ∧ s.saveArea s.team k = .ok [(0, 4096)] ∧ s.areaRuns s.team k (s.saveSizeOf 1) = .ok [(0, s.saveSizeOf 1)] ∧
    s.crewIn (Machine.field h 12 1) (Machine.field h 13 1) (Machine.field h 14 1) = some 1 ∧ Machine.field h 8 4 = 0 ∧ s.saveSizeOf 1 ≤ Machine.field h 0 8 ∧
    Machine.field h 0 8 ≤ s.capHiOf (s.ctxOf s.team) k.bits - s.capLoOf (s.ctxOf s.team) k.bits ∧ s.saveReady 1 = true) := ⟨rfl, by decide +kernel⟩
theorem witness_TrapsAndReturns_crest : (let s := saving 1 0 1 0 true; let k := s.team.creg 9; let h := s.areaBytes [(0, 4096)]
    s.areaReads (s.ctxOf s.team) [(0, 4096)] = (s, none) ∧ Issues (.crest fSave) s ∧ k.busy = false ∧ remoteCause k.tag = none ∧ k.tag ≠ tagPoison ∧ s.saveArea s.team k = .ok [(0, 4096)] ∧ s.areaRuns s.team k 4104 = .ok [(0, 4104)] ∧
    s.nameIn [(0, 4104)] = 0 ∧ s.areaRuns s.team k (s.saveSizeOf 1) = .ok [(0, s.saveSizeOf 1)] ∧
    (indices s.crews).find? (fun i => (s.crewAt i).area = some 0 && (s.crewAt i).state = .ready) = some 1 ∧ (s.crewAt 1).started = true ∧ Machine.field h 8 4 = 1 ∧
    Machine.field h 0 8 ≤ s.capHiOf (s.ctxOf s.team) k.bits - s.capLoOf (s.ctxOf s.team) k.bits ∧
    s.saveSizeOf 1 ≤ Machine.field h 0 8 ∧ Machine.field h 12 1 < 4 ∧ Machine.field h 13 1 < 64 ∧ Machine.field h 14 1 < 32 ∧ s.crewIn 0 1 0 = none ∧ s.fits (s.crewAt 1).launch 1 none = true ∧
    s.tilesFit 1 1 = true) := ⟨rfl, by decide +kernel⟩

/-- A crew of two teams. -/
def pair (w : Option Wait) : State :=
  { base with crews := [{ placedCrew 0 0 0 with teams := [0, 1] }], teams := [team, { team with num := 1, wait := w }] }
def iBar : IForm := { if_ with d := 1, g := 0, imm := 5 }
theorem witness_Synchronisation_bar : ∀ s ∈ [pair (some (.bar 5 2)), pair none],
    Issues (.bar iBar) s ∧ s.cur ∈ s.crewTeams s.team.crew ∧ s.team.alive = true ∧ s.team.st ≠ .stopped ∧ (∀ j ∈ s.crewTeams s.team.crew, j < s.teams.length) ∧
    s.crewTeams s.team.crew = [0, 1] ∧ (s.teamAt 1).alive = true ∧ (s.teamAt 1).st ≠ .stopped := by decide +kernel
theorem witness_Synchronisation_bar_waits : ((pair (some (.bar 5 2))).teamAt 1).wait = some (.bar 5 2) ∧ ((pair none).teamAt 1).wait = none := by decide +kernel
def iSync : IForm := { if_ with d := 1, g := 0, imm := 3 }
theorem witness_Synchronisation_tsync : (let s := pair (some (.tsync 3 2))
    Issues (.tsync iSync) s ∧ s.cur ∈ s.crewTeams s.team.crew ∧ (3 : BitVec 16) = iSync.imm.setWidth 16 ∧ (3 : BitVec 16).getLsbD s.team.num = true ∧
    (3 : BitVec 16).toNat < 2 ^ (s.crewTeams s.team.crew).length ∧ s.syncConflicts s.cur 3 = [] ∧ (s.teamAt 1).wait = some (.tsync 3 2)) := by decide +kernel
theorem witness_Synchronisation_tsync_traps : Issues (.tsync { iSync with imm := 2 }) (pair none) ∧ (2 : BitVec 32).getLsbD (pair none).team.num = false ∧
    Issues (.tsync { iSync with imm := 4 + 1 }) (pair none) ∧ 2 ^ ((pair none).crewTeams (pair none).team.crew).length ≤ (4 + 1 : BitVec 32).toNat % 2 ^ 16 ∧ (pair none).team.num < 16 := by decide +kernel
/-- Queue 0 has issued 2 commands and completed v. -/
def timed (v : Nat) (fs : List CmdFault) (x : Nat) : State :=
  { onTeam (sr 7 x team) with crews := [{ placedCrew 0 0 0 with timelines := List.replicate 9 { issued := 2, value := v, faults := fs } }] }
def iWait : IForm := { if_ with a := 7, g := 0, imm := 4 }
theorem witness_Synchronisation_twait : ∀ s ∈ [timed 0 [] 1, timed 1 [] 1, timed 2 [{ n := 1, cause := 0x13, addr := 64 }] 1],
    Issues (.twait iWait) s ∧ readS s.team 7 false = .ok { v := 1, tag := 0 } ∧ 1 ≤ (s.timeline s.team.crew 4).issued := by decide +kernel
theorem witness_Synchronisation_twait_cases : ((timed 0 [] 1).timeline 0 4).value < 1 ∧ 1 ≤ ((timed 1 [] 1).timeline 0 4).value ∧
    ((timed 2 [{ n := 1, cause := 0x13, addr := 64 }] 1).timeline 0 4).faults = [{ n := 1, cause := 0x13, addr := 64 }] := by decide +kernel
def rWait : RForm := { rf with a := 4, b := 5, g := 0 }
theorem witness_Synchronisation_cwait : ∀ n ∈ [0, 1], (let s := onTeam (sr 4 0x10002 (sr 5 n team))
    Issues (.cwait rWait) s ∧ readS s.team 4 false = .ok { v := 1 * 2 ^ 16 + 2, tag := 0 } ∧ readS s.team 5 false = .ok { v := n, tag := 0 } ∧
    s.ctxOf s.team = some 0 ∧ leNat (s.mem.bytes ((s.ctxAt 0).levelTable + (1 * 2 ^ 16 + 2) * 32) 8) = 0) := by decide +kernel
def cancels (h : Nat) : State := { onTeam (sr 4 h team) with levelRuns := [{ ctx := 0, level := 1, slot := 2 }, { ctx := 0, level := 2, slot := 2 }] }
def rCancel : RForm := { rf with a := 4 }
theorem witness_Synchronisation_cancel : (∀ h ∈ [1, 0x10002, 0x20002, 0x30000], readS (cancels h).team 4 false = .ok { v := h, tag := 0 }) ∧
    Issues (.cancelLaunch rCancel) (cancels 1) ∧ Issues (.cancelGraph rCancel) (cancels 0x10002) ∧ Issues (.cancelPhase rCancel) (cancels 0x20002) ∧
    Issues (.cancelJob rCancel) (cancels 0x30000) ∧ (cancels 1).ctxOf (cancels 1).team = some 0 := by decide +kernel
theorem witness_Synchronisation_cancel_open : (indices (cancels 1).levelRuns).filter (fun j => ((cancels 1).runAt j).ctx = 0 && ((cancels 1).runAt j).level = 1 &&
      ((cancels 1).runAt j).slot = 2) = [0] ∧ (cancels 1).runOver 0 = false ∧ ((cancels 1).runAt 0).done = false ∧ ((cancels 1).ctxAt 0).hasJob = true ∧
    (0 < (cancels 1).launches.length ∧ ((cancels 1).launchAt 0).ctx = some 0 ∧ ((cancels 1).ctxAt 0).firstLaunch ≤ 0 ∧ (cancels 1).launchOver 0 = false) := by decide +kernel
theorem witness_Synchronisation_cancel_launch : (let s : State := { cancels 1 with launches := [{ ctx := some 0, lslot := 1, state := .taken, crews := [0] }] }
    (indices s.launches).filter (fun j => (s.launchAt j).ctx = some 0 && (s.launchAt j).lslot = 1) = [0] ∧ s.launchOver 0 = false ∧ (s.crewAt 0).started = true ∧
    (s.crewAt 0).state ≠ .ended ∧ (s.crewAt 0).teams = [0] ∧ (s.teamAt 0).alive = true ∧ (s.teamAt 0).cancelTaken = false) := by decide +kernel
theorem witness_Synchronisation_exit : Issues (.exit rf) base ∧ base.team.alive = true ∧ (base.launchAt (base.crewAt base.team.crew).launch).obs = 0 ∧
    base.team.held 0x03 false = false ∧ (base.crewAt base.team.crew).teams = [0] ∧ base.team.crew < base.crews.length := by decide +kernel
theorem witness_Synchronisation_yield : Issues (.yield { rf with g := 0 }) base ∧ base.replayable (base.crewAt 0).ctx = false ∧ (base.crewAt 0).state = .resident := by decide +kernel

/-- s16-s23 hold the words of a command. -/
def words (w : List Nat) (t : Team) : Team := (List.range 8).foldl (fun (t : Team) k => sr (16 + k) (w.getD k 0) t) t
def accepted (x : Except Stop PushRes) : Option State := match x with | .ok (.accepted s _) => some s | _ => none
def isFull (x : Except Stop PushRes) : Bool := match x with | .ok .full => true | _ => false
theorem accepted_ok {x : Except Stop PushRes} (h : (accepted x).isSome = true) : ∃ s n, x = .ok (.accepted s n) := by
  unfold accepted at h; split at h
  · exact ⟨_, _, rfl⟩
  · cases h
theorem full_ok {x : Except Stop PushRes} (h : isFull x = true) : x = .ok .full := by
  unfold isFull at h; split at h
  · rfl
  · cases h
/-- A FILL of 256 bytes through c1 into the scratchpad (11, A staged copy), and a START. -/
def fills (w : List Nat) (t : Team) : State :=
  let t := words w t
  { onTeam (cr 1 (testCap 0 65536 0 1 (pLD ||| pST ||| pENG)) t) with crews := [{ placedCrew 0 0 0 with scrk := 16 }] }
def ready8 (s : State) : Bool := (List.range 8).all fun k =>
  let r := s.team.sreg (16 + k)
  r.full && decide (remoteCause r.tag = none) && decide (r.tag ≠ tagPoison)
def w8 (s : State) : List Word := (List.range 8).map fun k => (s.team.sreg (16 + k)).v
theorem witness_Pushes_accepted : ∃ s' n, (let s := fills [0x4608001000000100] team
    Issues (.push ef) s ∧ Shaped s.team ∧ ready8 s = true ∧ pushEngine 0 (s.release s.cur (queueObs 0)) s.team (w8 s) = .ok (.accepted s' n) ∧ Issues (.push { ef with y := true, cont := 3 }) s) := by
  obtain ⟨s', n, h⟩ := accepted_ok (x := pushEngine 0 ((fills [0x4608001000000100] team).release 0 (queueObs 0)) (fills [0x4608001000000100] team).team (w8 (fills [0x4608001000000100] team)))
    (by decide +kernel)
  exact ⟨s', n, by decide +kernel, by decide +kernel, by decide +kernel, h, by decide +kernel⟩
/-- Sixteen commands stand in queue 7. -/
def fullQueue (s : State) : State := { s with cmds := List.replicate 16 { q := 7, n := 1, crew := 0, team := 0, kind := 0x51, w := [] } }
theorem witness_Pushes_full : (let s := fullQueue (fills [0x5100000000000000] team)
    Issues (.start { ef with q := 7 }) s ∧ ready8 s = true ∧ 16 ≤ s.queueLen 7 0 none ∧ pushStart (s.release s.cur (queueObs 7)) s.team (w8 s) = .ok .full) :=
  ⟨by decide +kernel, by decide +kernel, by decide +kernel, full_ok (by decide +kernel)⟩
theorem witness_Pushes_malformed : (let s := fills [0x5100000000000000] team
    Issues (.start { ef with q := 7 }) s ∧ s.queueLen 7 (s.crewAt 0).die none < 16 ∧ startOk (w8 s) (s.crewAt 0).scrk = false) := by decide +kernel
/-- A LAUNCH of one crew of kernel 0 with the code that c2 names. -/
def launching : State :=
  let s := fills [0x4C * 2 ^ 56 + 2 * 2 ^ 51, 1 + 2 ^ 32 + 2 ^ 48] (cr 2 (testCap 0 65536 0 1 (pX ||| pLD ||| pENG)) team)
  { s with contexts := [{ placedContext with kernels := [{ entry := 0, lanes := 32, regs := 16, teams := 1, h := 0, g := 1, k := 63 }] }] }
theorem witness_Pushes_launch : ∃ s' n, (let s := launching; let w := w8 s
    Issues (.launchRecord { ef with q := 6 }) s ∧ (s.kernelOf (s.ctxOf s.team) (bitsAt (wordAt w 0) 0 32)).isSome = true ∧
    (s.launches.filter fun x => !x.root && x.die = (s.crewAt s.team.crew).die && x.state ≠ .done).length < 256 ∧ bitsAt (wordAt w 0) 56 8 = 0x4C ∧
    launchOk s s.team w (launchOf s s.team w) = true ∧ s.ctxOf s.team ≠ none ∧ pushLaunch s s.team w = .ok (.accepted s' n)) := by
  obtain ⟨s', n, h⟩ := accepted_ok (x := pushLaunch launching launching.team (w8 launching)) (by decide +kernel)
  exact ⟨s', n, first4 (by decide +kernel) ⟨by decide +kernel, by decide +kernel, h⟩⟩
theorem witness_Pushes_badLaunch : (let s := fills [0x4300000000000000] team
    (s.launches.filter fun x => !x.root && x.die = (s.crewAt s.team.crew).die && x.state ≠ .done).length < 256 ∧ bitsAt (wordAt (w8 s) 0) 56 8 ≠ 0x4C) := by decide +kernel

/-! Events of teams, crews and launches. -/

theorem witness_CrewEvents_timer : (let s : State := { onTeam { team with ttimer := 5 } with crews := [{ placedCrew 0 0 0 with tcyc := 9 }] }
    s.canMove s.cur = true ∧ s.timerDue s.team = true ∧ s.team.frame = none ∧ s.team.st = .run) := by decide +kernel
theorem witness_CrewEvents_siblingStop : (let s := onTeam { team with st := .skid 3 }
    (s.teamAt 0).st = .skid 3 ∧ (s.teamAt 0).acquiring = false) := by decide +kernel
/-- A team that is to take CANCELLED. -/
def cancelling (s : State) (t : Team) : State := { s with teams := [{ t with cancelPending := true }] }
theorem witness_CrewEvents_cancelled : (let s := cancelling handled team
    s.cur < s.teams.length ∧ s.team.alive = true ∧ s.team.cancelPending = true ∧ (s.crewAt s.team.crew).state = .resident ∧
    s.team.acquiring = false ∧ s.team.frame = none ∧ s.team.st ≠ .handler ∧ s.comptOf s.team = 0 ∧ (s.handlerOf s.team).1.valid = true ∧ s.team.filling = false) := by decide +kernel
theorem witness_CrewEvents_cancelled_ends : ∀ s ∈ [cancelling base team, cancelling handled { team with st := .handler }],
    s.cur < s.teams.length ∧ s.team.alive = true ∧ s.team.cancelPending = true ∧ (s.crewAt s.team.crew).state = .resident ∧
    s.team.acquiring = false ∧ s.team.held (s.exitObs s.team) false = false ∧ (s.team.st = .handler ∨ (s.comptOf s.team = 0 ∧ (s.handlerOf s.team).1.valid = false)) := by decide +kernel
/-- A launch of two crews of two teams, queued or taken. -/
def record (st : LaunchState) (cs : List Nat) : Launch :=
  { ctx := some 0, gx := 2, gy := 1, gz := 1, dies := 1, cores := 3, regs := 16, teamsPer := 2, state := st, crews := cs, prio := 3, code := testCap 0 65536 0 1 (pX ||| pLD) }
theorem witness_CrewEvents_take : (let s : State := { base with launches := base.launches ++ [record .queued []] }; let r := s.launchAt 1
    1 < s.launches.length ∧ r.state = .queued ∧ s.depOk 1 r.dep0 = true ∧ s.depOk 1 r.dep1 = true ∧ s.earlierQueued 1 = false ∧ r.ctx = some 0 ∧
    (s.ctxAt 0).holdJob = false ∧ s.epochStart r.ctx = true ∧ r.gx * r.gy * r.gz = 2) := by decide +kernel
/-- Its first crew ready, not started. -/
def ready (t : State) (st : Bool) : State :=
  { t with launches := base.launches ++ [record .taken [1, 2]]
           crews := t.crews ++ [{ placedCrew 0 1 0 with started := st, state := .ready, teams := [], prio := 3, level := 3, joined := 1 }] }
theorem witness_CrewEvents_switchIn : ∀ st ∈ [true, false], (let s := ready base st; let c := s.crewAt 1
    s.epochStart c.ctx = true ∧ s.readyHead (fun x => s.eligible 1 none x && s.tilesFit x 1 && s.maySlot 1 x) = some 1 ∧ (c.started = true ∨ (s.claimRoot c.ctx {}).isSome) ∧
    c.started = st ∧ (s.launchAt c.launch).lanes ≤ 1024 ∧ awf ({} : Root) (s.roots c.ctx) = true ∧
    (rootOf (s.roots c.ctx) (s.launchAt c.launch).code.bits).state = .live) := by decide +kernel
/-- A resident crew of the launch, and a ready one that joined at a time. -/
def rivals (at_ : Nat) (c : Crew) : State :=
  { base with launches := base.launches ++ [record .taken [1]]
              cores := List.replicate 2 { split := some (1, 0, 63) }
              crews := [{ c with level := 3, quantumAt := 5 }, { placedCrew 0 1 0 with state := .ready, teams := [], prio := 3, level := 3, joined := at_ }] }
theorem witness_CrewEvents_quantum : (let s := rivals 1 { placedCrew 0 0 0 with used := 4000000 }; let c := s.crewAt 0
    c.ctx = some 0 ∧ c.state = .resident ∧ (s.ctxAt 0).quantum ≤ c.used ∧ s.epochStart c.ctx = true ∧ s.eligible c.place (some 0) 1 = true ∧
    1 < s.crews.length ∧ (s.coreAt c.place).next.contains 1 = false ∧ c.eff ≤ (s.crewAt 1).eff ∧ (s.crewAt 1).joined < c.quantumAt) := by decide +kernel
theorem witness_CrewEvents_quantum_again : (let s := rivals 5 { placedCrew 0 0 0 with used := 4000000 }; let c := s.crewAt 0
    c.ctx = some 0 ∧ c.state = .resident ∧ (s.ctxAt 0).quantum ≤ c.used ∧ s.epochStart c.ctx = true ∧
    ∀ y < s.crews.length, s.eligible c.place (some 0) y = true → c.eff ≤ (s.crewAt y).eff → c.quantumAt ≤ (s.crewAt y).joined) := by decide +kernel
theorem witness_CrewEvents_waits : (let s : State := { rivals 5 (placedCrew 0 0 0) with teams := [{ team with wait := some (.bar 5 2) }] }; let c := s.crewAt 0
    c.state = .resident ∧ (∀ i ∈ c.teams, (s.teamAt i).alive = false ∨ (s.teamAt i).wait ≠ none ∨ (s.teamAt i).halted = true) ∧ c.teams = [0] ∧
    s.epochStart c.ctx = true ∧ c.place < s.cores.length ∧
    ∃ y < s.crews.length, s.eligible c.place (some 0) y = true ∧ (s.coreAt c.place).next.contains y = false) := by decide +kernel
theorem witness_CrewEvents_ageing : (let s : State := { base with crews := [{ placedCrew 0 0 0 with state := .ready, level := 20, ended8 := [(1, 8)] }] }; let c := s.crewAt 0
    s.isReady 0 = true ∧ 8 ≤ aget 0 c.ended8 1 ∧ c.eff = 20) := by decide +kernel
/-- A crew of level 0 on core 0, and a launch of level 3 that only core 0 may run, its split another. -/
def blocked : State :=
  { rivals 1 (placedCrew 0 0 0) with
    launches := base.launches ++ [{ record .taken [1] with cores := 1, g := 2, regs := 64 }]
    crews := [placedCrew 0 0 0, { placedCrew 0 1 0 with state := .ready, teams := [], prio := 3, level := 3 }] }
theorem witness_CrewEvents_vacate : (let s := blocked; let r := s.launchAt 1
    let top (q : Nat) : Nat := (s.crewsOn q).foldl (fun n x => max n (s.crewAt x).eff) 0
    let waits (i : Nat) : Prop := i < s.crews.length ∧ (s.crewAt i).launch = 1 ∧ s.isReady i = true
    let can (q : Nat) : Prop := q ∈ s.allowed 1 ∧ s.crewsOn q ≠ [] ∧ (s.coreAt q).reservedTo = none ∧ top q < (s.crewAt 1).level
    1 < s.launches.length ∧ r.state = .taken ∧ waits 1 ∧ (∀ i < s.crews.length, (s.crewAt i).level ≤ (s.crewAt 1).level) ∧
    (∀ q < 256, (s.coreAt q).reservedTo = some 1 → ∀ x ∈ s.crewsOn q, (s.crewAt x).launch = 1) ∧
    (∀ q ∈ s.allowed 1, s.fits 1 q none = false) ∧ 1 ≤ r.slots ∧ can 0 ∧ s.allowed 1 = [0] ∧ 0 < s.cores.length ∧ s.crewsOn 0 = [0] ∧
    (s.crewAt 0).state = .resident ∧ s.epochStart (s.crewAt 0).ctx = true) := by
  refine ⟨by decide +kernel, rfl, ⟨by decide +kernel, rfl, by decide +kernel⟩, ?_⟩
  refine first4 (by decide +kernel) ⟨⟨?_, ?_, ?_, ?_⟩, ?_⟩ <;> decide +kernel
/-- A crew being saved, with a command in its queue. -/
def saved : State :=
  { base with crews := [{ placedCrew 0 0 0 with state := .saving }], cmds := [{ q := 4, n := 1, crew := 0, team := 0, kind := 0x4D, w := [], entry := true }] }
theorem witness_CrewEvents_save : (saved.crewAt 0).state = .saving ∧ (saved.crewAt 0).area = none ∧ saved.saveReady 0 = true ∧ 0 < saved.cmds.length ∧
    (saved.cmdAt 0).crew = 0 ∧ (saved.cmdAt 0).state = .queued := by decide +kernel
/-- The root launch ended; another of level slot 7, ended. -/
def overs : State :=
  { base with contexts := [{ placedContext with hasJob := false }], launches := base.launches ++ [{ record .taken [1] with lslot := 7 }]
              crews := [placedCrew 0 0 0, { placedCrew 0 1 0 with state := .ended }] }
theorem witness_CrewEvents_complete : (let s := overs; let r := s.launchAt 1
    1 < s.launches.length ∧ r.state = .taken ∧ s.launchOver 1 = true ∧ r.ctx = some 0 ∧ r.lslot ≠ 0 ∧ r.graph = none ∧ r.phase = none ∧
    (s.ctxAt 0).hasJob = false ∧ (s.ctxAt 0).destroying = none ∧ s.mem.wf = true) := by decide +kernel

/-! Engines. -/

/-- The words of a copy command. -/
def cw (kind dims mode n0 : Nat) (soff : Nat := 0) : List Word :=
  [BitVec.ofNat 64 (kind * 2 ^ 56 + dims * 2 ^ 38 + mode * 2 ^ 35 + n0), 0x200, BitVec.ofNat 64 soff, 2 * 2 ^ 40 + 2 * 2 ^ 16, 256, 128, 0, 0]
/-- A running command of queue 0: source root `r`, destination root `d`. -/
def cmd (kind dims mode n0 : Nat) (r d : Nat) : Cmd :=
  let k (x : Nat) : CReg := testCap 0 65536 0x40 x (pLD ||| pST ||| pENG ||| pFAB)
  { q := 0, n := 1, crew := 0, team := 0, kind := kind, w := cw kind dims mode n0, dst := some (k d), src := some (k r), aux := some (k 1), state := .running }
/-- Roots 1 LOCAL, 2 SCRATCH, 3 PEER; a request that is out. -/
def engine (c : Cmd) (st : ReqState := .out) (maps : List Mapping := placedContext.maps) : State :=
  let r (k : RootKind) : Root := { kind := k, state := .live, base := 0, limit := 65536, ceil := 0x7FF, dev := 0x222, exp := 5 }
  { base with
    contexts := [{ placedContext with roots := [(1, r .loc), (2, r .scratch), (3, r .peer)], maps := maps }]
    cmds := [c], reqs := [{ owner := .command 0, xid := 0, dst := 0x222, exp := 5, addr := 0x40, len := 64, kind := 3, own := 0, ctx := some 0, die := 0, host := false, deadline := 9, st := st }] }
abbrev ReadsRow (s : State) (kind : Nat) (a n : Nat) : Prop :=
  Moving s 0 ∧ (s.cmdAt 0).kind = kind ∧ ∃ k, rowRead (s.cmdAt 0) = some (k, a, n) ∧ (s.cmdAt 0).rd < n
def reads_ (s : State) : CReg := ((rowRead (s.cmdAt 0)).getD ({}, 0, 0)).1
/-- Every kind that reads: a COPY's row, a GATHER's index and its row, a line of codes, a row of values. -/
theorem witness_EngineCommands_read : ∀ p ∈ [(0x43, 1, 0x40, 200, none), (0x47, 1, 0x40, 4, none), (0x47, 1, 0x80, 200, some 0x80), (0x55, 0, 0x40, 64, none), (0x50, 0, 0x40, 256, none)],
    (let s := engine { cmd p.1 p.2.1 0 200 1 2 with row := p.2.2.2.2 }; let c := s.cmdAt 0
     Moving s 0 ∧ c.kind = p.1 ∧ rowRead c = some (reads_ s, p.2.2.1, p.2.2.2.1) ∧ c.rd < p.2.2.2.1 ∧ c.req = none ∧
     s.way c (reads_ s) p.2.2.1 (min p.2.2.2.1 64) pLD false = .ok (.mem .dev p.2.2.1)) := by unfold Moving; decide +kernel
theorem witness_EngineCommands_kinds (cmd : Nat) : (0x43, .copy cmd 1) ∈ copyEvents cmd 1 ∧ (0x50, .packKy4 cmd 1) ∈ copyEvents cmd 1 := by simp [copyEvents]
theorem witness_EngineCommands_far : (let s := engine (cmd 0x43 0 0 200 3 2); let c := s.cmdAt 0
    Moving s 0 ∧ rowRead c = some (reads_ s, 0x40, 200) ∧ c.rd < 200 ∧ c.req = none ∧ s.way c (reads_ s) 0x40 64 pLD false = .ok (.far 0x222 5 0x40 false)) := by
  unfold Moving; decide +kernel
theorem witness_EngineCommands_answers : ∀ st ∈ [.out, .data (List.replicate 64 7) 1 1 5, .refused 0x28],
    (let s := engine { cmd 0x43 0 0 200 3 2 with req := some 0 } st; let c := s.cmdAt 0
     Moving s 0 ∧ rowRead c = some (reads_ s, 0x40, 200) ∧ c.rd < 200 ∧ c.req = some 0 ∧ ∃ r, s.reqAt 0 = some r ∧ r.st = st ∧ r.addr % 64 + r.len ≤ 64) := by
  intro st h
  simp only [List.mem_cons, List.not_mem_nil, or_false] at h
  rcases h with rfl | rfl | rfl <;> exact ⟨by unfold Moving; decide +kernel, by decide +kernel, by decide +kernel, rfl, _, rfl, rfl, by decide⟩
theorem witness_EngineCommands_refused : (let s := engine (cmd 0x43 0 0 200 1 2) .out []; let c := s.cmdAt 0
    Moving s 0 ∧ rowRead c = some (reads_ s, 0x40, 200) ∧ c.rd < 200 ∧ c.req = none ∧ s.way c (reads_ s) 0x40 64 pLD false = .error 0x20) := by
  unfold Moving; decide +kernel
def piece (n k : Nat) : SrcPiece := { off := 0, bytes := List.replicate n 1, side := { otag := 3, kind := BitVec.ofNat 4 k } }
theorem witness_EngineCommands_gather : (let s := engine { cmd 0x47 1 0 64 1 2 with buf := [{ piece 4 0 with bytes := [2, 0, 0, 0] }], rd := 4 }; let c := s.cmdAt 0
    let m := copyW c.w
    let a : Int := capCursor c.srcC.bits + m.soff + leNat (c.buf.flatMap (·.bytes)) * m.ss1
    Moving s 0 ∧ c.kind = 0x47 ∧ c.row = none ∧ 4 ≤ c.rd ∧ (∀ p ∈ c.buf, p.side.otag ≠ tagPoison) ∧ 0 ≤ a ∧ a ≤ 2 ^ 57 ∧
    capCheck (s.roots (s.crewAt c.crew).ctx) { crew := c.crew, compt := c.compt } c.srcC a.toNat m.n0 (pLD ||| pENG) = none) := by
  unfold Moving; decide +kernel
/-- Every kind with its row read: whole lines and a partial one, into memory and into the scratchpad. -/
def written : List Cmd :=
  [{ cmd 0x43 0 0 64 1 1 with buf := [piece 64 1], rd := 64 }, { cmd 0x43 0 0 20 1 2 with buf := [piece 20 0], rd := 20 },
   { cmd 0x47 1 0 64 1 2 with buf := [piece 64 0], rd := 64, row := some 0x40 }, cmd 0x46 1 2 64 1 2, cmd 0x5A 2 0 64 1 1,
   { cmd 0x55 0 0 1 1 1 with buf := [piece 64 1], rd := 64 }, { cmd 0x50 0 0 1 1 1 with buf := [piece 256 0], rd := 256 }]
theorem witness_EngineCommands_write : ∀ c ∈ written, (let s := engine c
    let w := rowWritten c
    Moving s 0 ∧ (rowOut c).length = w.2.2 ∧ (∀ x ∈ rowRead c, x.2.2 ≤ c.rd) ∧ (c.kind = 0x47 → c.row ≠ none ∧ (copyW c.w).n0 ≠ 0) ∧
    (c.kind = 0x55 → c.buf = [piece 64 1]) ∧ (piece 64 1).side.kind = 1 ∧ c.req = none ∧
    (s.way c w.1 w.2.1 (min w.2.2 64) pST true = .ok (.mem .dev 0x240) ∨ s.way c w.1 w.2.1 (min w.2.2 64) pST true = .ok (.mem .scratch 0x240)) ∧
    (s.spaceMem c.crew .dev).wf = true ∧ (s.spaceMem c.crew .scratch).wf = true ∧ c.crew < s.crews.length) := by unfold Moving; decide +kernel
theorem witness_EngineCommands_write_fails : (let c := cmd 0x46 1 2 64 1 1; let s := engine c .out []; let w := rowWritten c
    Moving s 0 ∧ (rowOut c).length = w.2.2 ∧ rowRead c = none ∧ c.req = none ∧ s.way c w.1 w.2.1 64 pST true = .error 0x20) := by unfold Moving; decide +kernel
theorem witness_EngineCommands_units : ∃ one more rest t, (copyEvents 0 1)[1]? = some one ∧ (copyEvents 0 (2 + 1))[1]? = some more ∧ (copyEvents 0 2)[1]? = some rest ∧
    exec one.2 (engine (cmd 0x46 1 2 64 1 2)) = .next t := ⟨_, _, _, _, rfl, rfl, rfl, rfl⟩
/-- A command of queue 4 behind another of the crew. -/
def behind (st : CmdState) (x : BitVec 8) : State :=
  { base with cmds := [{ cmd 0x43 0 0 64 1 1 with state := .done, cause := x }, { cmd 0x43 0 0 64 1 1 with q := 1, state := st, behind := [0] }] }
theorem witness_EngineCommands_start : (let s := behind .queued 0; let c := s.cmdAt 1
    1 < s.cmds.length ∧ s.canStart 1 = true ∧ (∀ j < 1, sameUnit (s.cmdAt j) c = true → s.canStart j = false) ∧ c.state = .queued ∧
    c.behind = [0] ∧ (s.cmdAt 0).cause = 0) := by decide +kernel
/-- The one ahead of it failed, while its unit runs another. -/
theorem witness_EngineCommands_heldBehind : (let s := behind .queued 0x50; let c := s.cmdAt 1
    1 < s.cmds.length ∧ c.q ≤ 5 ∧ c.state = .queued ∧ s.queueHead 1 = true ∧ (∀ j ∈ c.behind, (s.cmdAt j).state = .done) ∧
    0 ∈ c.behind ∧ (s.cmdAt 0).cause ≠ 0) := by decide +kernel
theorem witness_EngineCommands_complete : (∀ c ∈ [{ cmd 0x43 0 0 64 1 1 with idx := 4, record := true }, { cmd 0x43 0 0 64 1 1 with cancelled := true }], (let s := engine c
    0 < s.cmds.length ∧ (c.q ≤ 5 ∨ c.q = 8) ∧ c.state = .running ∧ c.req = none ∧ (c.over = true ∨ (c.cancelled = true ∧ c.mid = false)) ∧ c.crew < s.crews.length ∧
    (s.crewAt c.crew).state ≠ .ended ∧ (s.crewAt c.crew).timelines.length = 9 ∧ (s.crewAt c.crew).scratch.wf = true)) := by decide +kernel
/-- A SWEEPWAIT of root 2. -/
def sweepOf (st : RootState) : State :=
  let s := engine { cmd 0x57 0 0 0 1 1 with q := 8, w := [0x57 * 2 ^ 56, 2], state := .queued }
  { s with contexts := [{ placedContext with roots := [(2, { state := st })] }] }
theorem witness_EngineCommands_sweepwait : ∀ st ∈ [RootState.live, .free, .revoked], (let s := sweepOf st; let c := s.cmdAt 0
    0 < s.cmds.length ∧ c.q = 8 ∧ c.state = .queued ∧ s.queueHead 0 = true ∧ (s.rootAt (s.crewAt c.crew).ctx (wordAt c.w 1).toNat).state = st ∧
    (wordAt c.w 1).toNat ≠ 0) := by decide +kernel

/-! The matrix unit. -/

/-- The words of a matrix command of a tile: counts of steps, planes 64 elements wide. -/
def mw (kind tile ty flag count : Nat) (word6 : Nat := 0) : List Word :=
  [BitVec.ofNat 64 (kind * 2 ^ 56 + tile * 2 ^ 37 + ty * 2 ^ 33 + flag * 2 ^ 32 + count), 0, 0, 0, 512 * 2 ^ 48 + 512 * 2 ^ 32, 0, BitVec.ofNat 64 word6, 0]
/-- A running matrix command of a crew with these tiles 0 and 1, its planes in a scratchpad of `hi` bytes. -/
def matrixCmd (c : Cmd) (hi : Nat := 65536) (t0 : Tile := {}) (t1 : Tile := {}) : State :=
  let k : CReg := testCap 0 hi 0 2 (pLD ||| pST ||| pENG)
  let r (k : RootKind) : Root := { kind := k, state := .live, base := 0, limit := 65536, ceil := 0x7FF }
  { base with contexts := [{ placedContext with roots := [(1, r .loc), (2, r .scratch)] }]
              crews := [{ placedCrew 0 0 0 with tiles := some (t0 :: t1 :: List.replicate 6 {}) }], cmds := [{ c with dst := some k, src := some k }] }
def mc (w : List Word) (b : Bool) (i : Nat := 0) : Cmd :=
  { q := 4, n := 1, crew := 0, team := 0, kind := bitsAt (wordAt w 0) 56 8, w := w, state := .running, begun := b, idx := i }
abbrev Works (s : State) (kind : Nat) (m : MatW) : Prop :=
  (0 < s.cmds.length ∧ ((s.cmdAt 0).q = 4 ∨ (s.cmdAt 0).q = 5) ∧ (s.cmdAt 0).kind = kind ∧ (s.cmdAt 0).state = .running ∧ (s.cmdAt 0).cancelled = false) ∧
  (s.cmdAt 0).crew < s.crews.length ∧ (s.crewAt (s.cmdAt 0).crew).state ≠ .saving ∧ (((s.crewAt (s.cmdAt 0).crew).tiles.map List.length) = some 8 ∧ matW (s.cmdAt 0).w = m ∧ m.kind = kind)
abbrev squareB {α : Type} (rows : List (List α)) : Prop := rows.length = 64 ∧ ∀ r ∈ rows, r.length = 64
theorem witness_MatrixCommands_begin_stops :
    (let s := matrixCmd (mc (mw 0x4D 0 10 0 1) false) 65536 { mode := .i32 }; let m := matW (s.cmdAt 0).w
     Works s 0x4D m ∧ (s.cmdAt 0).begun = false ∧ m.flag = false ∧ ((s.crewAt 0).tile 0).mode ≠ .zero ∧ ((s.crewAt 0).tile 0).mode ≠ m.cls) ∧
    (let s := matrixCmd (mc (mw 0x4D 0 0 0 1) false) 65536 { mode := .i32, kcount := 131072 }; let m := matW (s.cmdAt 0).w
     Works s 0x4D m ∧ m.ty = 0 ∧ 131072 < ((s.crewAt 0).tile 0).kcount + 8 * m.count) := by decide +kernel
theorem witness_MatrixCommands_begin : ∀ p ∈ [(0x4D, 0, 1), (0x4E, 8, 2 ^ 63), (0x4D, 12, 0)], (let s := matrixCmd (mc (mw p.1 0 p.2.1 0 1 p.2.2) false); let m := matW (s.cmdAt 0).w
    Works s p.1 m ∧ (s.cmdAt 0).begun = false ∧ m.flag = false ∧ ((s.crewAt 0).tile 0).mode = .zero ∧ (m.ty = 0 → ((s.crewAt 0).tile 0).kcount + 8 * m.count ≤ 131072) ∧
    (p.1 = 0x4D ∨ m.gen ≠ 1)) := by decide +kernel
/-- The sides of its next step. -/
def sides (s : State) : Except (BitVec 8 × Nat) (List (List Elem)) × Except (BitVec 8 × Nat) (List (List Elem)) :=
  let c := s.cmdAt 0; let m := matW c.w
  let side (gen : Bool) (k : CReg) (off inc : Int) (str : Nat) (far : Bool) : Except (BitVec 8 × Nat) (List (List Elem)) :=
    if c.kind = 0x4E ∧ m.gside = gen then .ok (genSide m m.tyOf c.list c.idx (kStep m.ty)) else s.stepSide c k off inc str far m.peer c.idx (codeBytes m.ty) (kStep m.ty)
  (side true c.dstC m.aoff m.ainc m.astr m.arem, side false c.srcC m.boff m.binc m.bstr m.brem)
theorem witness_MatrixCommands_step : ∀ p ∈ [(0x4D, 0, 0), (0x4D, 8, 0), (0x4E, 8, 2 ^ 63)], (let s := matrixCmd (mc (mw p.1 0 p.2.1 0 2 p.2.2) true 1); let m := matW (s.cmdAt 0).w
    Works s p.1 m ∧ (s.cmdAt 0).begun = true ∧ (s.cmdAt 0).idx < m.count ∧ squareB ((s.crewAt 0).tile m.tile).rows ∧
    (sides s).1.isOk = true ∧ (sides s).2.isOk = true) := by decide +kernel
theorem witness_MatrixCommands_step_fails : (let s := matrixCmd (mc (mw 0x4D 0 0 0 1) true) 16; let m := matW (s.cmdAt 0).w
    Works s 0x4D m ∧ (s.cmdAt 0).begun = true ∧ (s.cmdAt 0).idx < m.count ∧ squareB ((s.crewAt 0).tile m.tile).rows ∧ (sides s).1 = .error (0x14, 0)) := by
  decide +kernel
theorem witness_MatrixCommands_slice_begin : ∀ ty ∈ [10, 11], (let s := matrixCmd (mc (mw 0x49 0 ty 0 (2 * 256 + 2)) false); let m := matW (s.cmdAt 0).w
    Works s 0x49 m ∧ (m.ty = 10 ∨ m.ty = 11) ∧ (s.cmdAt 0).begun = false ∧ m.flag = false ∧ m.tile % 2 = 0) := by decide +kernel
theorem witness_MatrixCommands_slice_split : (let s := matrixCmd (mc (mw 0x49 0 11 0 (2 * 256 + 2)) true); let c := s.cmdAt 0; let m := matW c.w
    Works s 0x49 m ∧ c.begun = true ∧ c.idx < m.s * (m.s + 1) / 2 ∧ c.matA = [] ∧ m.k = 2 ∧
    s.boundOk c c.dstC (rowAddr c.dstC m.aoff) (63 * m.astr + codeBytes m.ty * m.k) pLD = true ∧
    s.boundOk c c.srcC (rowAddr c.srcC m.boff) (63 * m.bstr + codeBytes m.ty * m.k) pLD = true) := by decide +kernel
def plane : List (List Elem) := List.replicate 64 [(0, 1), (0, 1)]
theorem witness_MatrixCommands_slice_pair : ∀ fl ∈ [0, 1], (let s := matrixCmd { mc (mw 0x49 0 10 fl (2 * 256 + 2)) true with matA := plane, matB := plane, matC := List.replicate 64 (List.replicate 64 (0, 1)) }
    let c := s.cmdAt 0; let m := matW c.w
    Works s 0x49 m ∧ m.ty = 10 ∧ c.begun = true ∧ c.idx < m.s * (m.s + 1) / 2 ∧ c.matA.length = 64 ∧ c.matB.length = 64 ∧ squareB c.matC ∧
    squareB ((s.crewAt c.crew).elems m.tile false)) := by decide +kernel
theorem witness_MatrixCommands_drain : (let s := matrixCmd (mc (mw 0x44 0 8 0 0) false) 65536 { mode := .i32 }; let m := matW (s.cmdAt 0).w
     Works s 0x44 m ∧ (s.cmdAt 0).begun = false ∧ drainFrom m ((s.crewAt 0).tile m.tile).mode ((s.crewAt 0).tile (m.tile + 1)).mode = none) ∧
    (let s := matrixCmd (mc (mw 0x44 0 0 0 0) false) 65536 { mode := .i32 }; let m := matW (s.cmdAt 0).w
     Works s 0x44 m ∧ (s.cmdAt 0).begun = false ∧ drainFrom m ((s.crewAt 0).tile m.tile).mode ((s.crewAt 0).tile (m.tile + 1)).mode = some .i32) := by decide +kernel
/-- A chunk of each source type, the last of a tile that is zeroed among them, and one beyond the bounds. -/
theorem witness_MatrixCommands_drain_chunk : ∀ p ∈ [(TileMode.i32, 0, Ty.i32, 0, 0, 65536), (.f32, 10, .f32, 2 ^ 28, 4092, 65536), (.f64, 11, .f64, 0, 6, 65536), (.i32, 0, .i32, 0, 0, 8)],
    (let s := matrixCmd (mc (mw 0x44 0 p.2.1 0 p.2.2.2.1) true p.2.2.2.2.1) p.2.2.2.2.2 { mode := p.1 } { mode := p.1 }
     let c := s.cmdAt 0; let m := matW c.w; let cr := s.crewAt c.crew; let w := codeBytes m.ty
     let a := rowAddr c.dstC (m.aoff + (c.idx / 64 * m.astr : Nat) + (w * (c.idx % 64) : Nat))
     let n := min (64 - c.idx % 64) ((16 - a % 16 + w - 1) / w)
     Works s 0x44 m ∧ drainFrom m (cr.tile m.tile).mode (cr.tile (m.tile + 1)).mode = some p.2.2.1 ∧ c.begun = true ∧ c.idx < 4096 ∧ cr.scratch.wf = true ∧
     squareB (cr.elems m.tile (p.2.2.1 = .f64)) ∧ s.boundOk c c.dstC a (w * n) pST = decide (p.2.2.2.2.2 ≠ 8) ∧
     m.count.testBit 28 = (p.2.2.2.1 ≠ 0) ∧ (p.2.2.2.2.1 = 4092 → 4096 ≤ c.idx + n)) := by decide +kernel
theorem witness_MatrixCommands_load : ∀ p ∈ [(65536, true), (16, false)], (let s := matrixCmd (mc (mw 0x41 2 11 0 0) true) p.1; let c := s.cmdAt 0; let m := matW c.w
    Works s 0x41 m ∧ c.idx = 0 ∧ m.ty = 11 ∧ m.tile % 2 = 0 ∧ s.boundOk c c.dstC (rowAddr c.dstC m.aoff) (63 * m.astr + 64 * codeBytes m.ty) pLD = p.2) := by decide +kernel
theorem witness_MatrixCommands_zero : (let s := matrixCmd (mc (mw 0x5C 0 0 0 3) true); Works s 0x5C (matW (s.cmdAt 0).w) ∧ (s.cmdAt 0).idx = 0) := by decide +kernel
theorem witness_MatrixCommands_units : ∃ t u v, exec (.mloop 0 1) base = .next t ∧ exec (.mgen 0 1) base = .next u ∧ exec (.mslice 0 1) base = .next v :=
  ⟨_, _, _, rfl, rfl, rfl⟩

/-! The hardware's own events. -/

theorem witness_HardwareEvents_copies : 1 < base.cores.length := by decide
def revoked : State := { base with contexts := [{ placedContext with roots := [(1, { kind := .loc, state := .revoked, limit := 65536, sweeps := 15 })] }]
                                   cmds := [{ q := 8, n := 1, crew := 0, team := 0, kind := 0x57, w := [0x57 * 2 ^ 56, 1], state := .running }] }
theorem witness_HardwareEvents_sweep : (let s := revoked
    0 < s.contexts.length ∧ (s.rootAt (some 0) 1).state = .revoked ∧ (s.ctxAt 0).destroying = none ∧ awf ({} : Root) (s.ctxAt 0).roots = true ∧
    (s.crewAt (s.teamAt 0).crew).ctx = some 0 ∧ capRoot ((s.teamAt 0).c.getD 31 {}).bits = 1 ∧ (s.cmdAt 0).q = 8 ∧ (s.cmdAt 0).state = .running ∧
    (s.crewAt (s.cmdAt 0).crew).ctx = some 0 ∧ (wordAt (s.cmdAt 0).w 1).toNat = 1 ∧ (∀ i < s.teams.length, (s.teamAt i).outs = []) ∧ s.mem.wf = true) := by
  decide +kernel
/-- A capability of root 1 stands in a lane quad and in the scratchpad. -/
theorem witness_HardwareEvents_sweep_lanes : (let c := testCap 0 65536 0 1 pLD
    let s : State := { revoked with teams := [team.writeCap true 8 3 c], crews := [{ placedCrew 0 0 0 with scratch := { cells := [(0x47, 2)] } }] }
    (s.crewAt (s.teamAt 0).crew).ctx = some 0 ∧ capRoot (BitVec.ofNat 128 ((s.teamAt 0).velems (4 * 2) 4 3).v) = 1 ∧ (s.teamAt 0).vvalid (4 * 2) 3 = true ∧
    (s.crewAt 0).ctx = some 0 ∧ (s.crewAt 0).scratch.wf = true ∧ capRoot (BitVec.ofNat 128 (leNat ((s.crewAt 0).scratch.bytes (64 * 1 + 16 * 0) 16))) = 1) := by decide +kernel
/-- A capability of root 1 stands in the page. -/
theorem witness_HardwareEvents_sweep_memory : (let s : State := { revoked with mem := ({ cells := [(0x47, 2)] } : Memory) }
    (s.ctxAt 0).maps = [page] ∧ page.resid = .device ∧ page.frame ≤ 1 * 64 ∧ 1 * 64 < page.frame + page.size ∧ s.mem.wf = true ∧
    capRoot (BitVec.ofNat 128 (leNat (s.mem.bytes (64 * 1 + 16 * 0) 16))) = 1) := by decide +kernel
def pageOf (m : Mapping) : State := { base with contexts := [{ placedContext with maps := [m] }], now := 9 }
theorem witness_HardwareEvents_hold : ∀ r ∈ [Resid.device, .host, .remote], (let m := { page with hold := 9, resid := r }; let s := pageOf m
    (s.ctxAt 0).maps.find? (fun m => m.va = 0) = some m ∧ m.hold ≠ 0 ∧ m.hold ≤ s.now) := by decide +kernel
theorem witness_HardwareEvents_leaves : ∀ h ∈ [0, 9, 10], (let m := { page with hold := h }; let s := pageOf m
    (s.ctxAt 0).maps.find? (fun m => m.va = 0) = some m ∧ m.resid = .device ∧ (s.now < m.hold ∨ m.hold ≤ s.now)) := by decide +kernel
/-- One of everything that an uncorrectable error can strike. -/
def struck : State :=
  { base with crews := [{ placedCrew 0 0 0 with tiles := some (List.replicate 8 {}) }]
              scheds := [{ die := 0, slot := 0, cmd := 0, group := 0, inst := 0, gen := 0 }]
              worlds := [{ id := 1 }], exports := [(2, { state := .live, ctx := 0 })] }
theorem witness_HardwareEvents_struck : (let s := struck
    0 < s.crews.length ∧ 0 < s.teams.length ∧ 63 < (s.teamAt 0).v.length ∧ 31 < ((s.teamAt 0).v.getD 63 []).length ∧ 63 < (s.teamAt 0).s.length ∧
    (s.teamAt 0).alive = true ∧ s.crewTeams 0 = [0] ∧ 0 < s.scheds.length ∧ (s.schedAt 0).st = .running ∧
    (s.ctxAt 0).world = 1 ∧ (s.ctxAt 0).alive = true ∧ 0 < s.contexts.length ∧ s.worlds.map World.id = [1] ∧ s.exports.map (fun e => e.2.ctx) = [0]) := by decide +kernel
theorem witness_HardwareEvents_struck_tile : ∃ ts, (struck.crewAt 0).tiles = some ts ∧ 7 < ts.length ∧ squareB (ts.getD 7 {}).rows := ⟨_, rfl, by decide +kernel, by decide +kernel⟩
/-- A lane add with half of its word's lanes active stands at the pc. -/
def shadowed : State :=
  { base.withFetchWord 64 ((encode (.add { rf with d := 5, a := 6, b := 7, ln := true, ty := .i32 })).headD 0) with teams := [{ team with m := 0xFFFF }] }
theorem witness_HardwareEvents_shadow : (let s := shadowed
    0 < s.teams.length ∧ (s.teamAt 0).alive = true ∧ (s.crewAt (s.teamAt 0).crew).place < s.cores.length ∧ s.canMove 0 = true ∧ s.shadowedPass 0 = true) := by decide +kernel
theorem witness_HardwareEvents_replay : (let s : State := { base with now := 5000, cores := [{ replayQ := [(0, 8, 7), (0, 0, 2000)] }] }
    0 < s.teams.length ∧ (s.teamAt 0).alive = true ∧ (s.crewAt (s.teamAt 0).crew).place < s.cores.length ∧
    (s.coreAt 0).replayQ.find? (fun e => e.1 = 0) = some (0, 8, 7) ∧ (s.coreAt 0).replayQ = (0, 8, 7) :: [(0, 0, 2000)] ∧
    7 + 4096 ≤ s.now ∧ ¬ 2000 + 4096 ≤ s.now) := by decide +kernel
theorem witness_HardwareEvents_answers : 0 < base.cores.length ∧ base.crewsOn 0 = [0] := by decide +kernel
/-- The same accesses of a crew on die 1; their lines are at home on die 0. -/
def abroad (s : State) : State := { s with crews := [{ placedCrew 0 0 0 with die := 1 }] }
theorem witness_HardwareEvents_dieLink : (let s := abroad loading; let a := first s
     (s.teamAt 0).outs.find? (fun x => x.id = a.id) = some a ∧ a.space = .dev ∧ canPerform (earlierThan (s.teamAt 0).outs a.id) a = true ∧
     a.lanes.length = 1 ∧ (a.lanes.all fun l => (linesOf l.runs).any (crosses (s.crewAt (s.teamAt 0).crew).die)) = true ∧
     a.kind = .load ∧ a.dst = .s 8 1 ∧ 8 < (s.teamAt 0).s.length) ∧
    (let s := abroad storing; let a := first s
     (s.teamAt 0).outs.find? (fun x => x.id = a.id) = some a ∧ a.space = .dev ∧ canPerform (earlierThan (s.teamAt 0).outs a.id) a = true ∧
     (a.lanes.all fun l => (linesOf l.runs).any (crosses (s.crewAt (s.teamAt 0).crew).die)) = true ∧
     a.kind = .store ∧ a.dst = .none ∧ a.lanes.map (fun l => l.runs) = [[(0x210, 8)]] ∧ 0x210 % 64 + 8 ≤ 63 ∧ a.lanes.map (fun l => l.data.length) = [8]) := by decide +kernel
theorem witness_HardwareEvents_sweepLink : homeDie (0 * 64) ≠ 1 := by decide
theorem witness_HardwareEvents_engineLink : (let s := engine { cmd 0x43 0 0 200 1 2 with linkFail := some true, die := 1 }; let c := s.cmdAt 0
    0 < s.cmds.length ∧ c.kind = 0x43 ∧ c.q ≤ 3 ∧ c.state = .running ∧ c.cancelled = false ∧ c.req = none ∧ c.linkFail = some true ∧
    c.idx < (copyW c.w).rows ∧ rowRead c = some (reads_ s, 0x40, 200) ∧ c.rd < 200 ∧
    s.way c (reads_ s) 0x40 64 pLD false = .ok (.mem .dev 0x40) ∧ homeDie (0x40 / 64 * 64) ≠ c.die) := by decide +kernel
theorem witness_HardwareEvents_power : base.poweredOn = false ∧ State.reset.poweredOn = false ∧ 0 < base.dies.length ∧ 1 < base.cores.length ∧ 1 < base.ports.length := by decide +kernel

/-! The fabric. -/

/-- A port to device 0x111 is UP. -/
def linked (s : State) : State := { s with ports := [{ st := .up, peer := 0x111 }, {}], routes := [(0x111, 1)] }
/-- What `Accepted` asks of a packet of a world without a fabric key. -/
abbrev Arrives (s : State) (ctx : Option Nat) (p : Packet) (cls : BitVec 4) (ops : List (BitVec 6)) : Prop :=
  (s.portFrom p.src).isSome = true ∧ listed p = true ∧ p.cls = cls ∧ p.op ∈ ops ∧ s.worldOf ctx = none
theorem arrives {s : State} {ctx : Option Nat} {p : Packet} {cls : BitVec 4} {ops : List (BitVec 6)} (h : Arrives s ctx p cls ops) :
    Accepted s ctx p cls (fun o => decide (o ∈ ops)) := by
  obtain ⟨i, hi⟩ := Option.isSome_iff_exists.mp h.1
  exact ⟨i, s, hi, h.2.1, h.2.2.1, decide_eq_true h.2.2.2.1, by unfold State.runWorld; rw [h.2.2.2.2], by unfold State.authentic; rw [h.2.2.2.2]⟩
/-- Export 0 of the page at 0x8000, for a device. -/
def exported_ (e : Exported) (st : RootState := .live) : State :=
  linked { base with contexts := [{ placedContext with roots := [(1, { kind := .loc, state := st, base := 0, limit := 65536, ceil := 0x7FF })] }]
                     exports := [(0, e)] }
def expo : Exported := { ctx := 0, root := 1, start := 0x8000, length := 4096, perms := 0x7FF, allow := 0x111, state := .live }
theorem witness_FabricRequests_reads : ∀ k ∈ [(Inbound.read false, (0x01 : BitVec 6)), (.read true, 0x02)], (let s := exported_ expo; let p := { pk with op := k.2 }
    ((s.inEpoch (s.exportCtx p) = false ∧ s.replaying (s.exportCtx p) = false) ∧ s.inboundCheck k.1 p = .ok [(0x8000, 64)]) ∧
    Accepted s (s.exportCtx p) p 0 (fun o => decide (o ∈ [k.2]))) :=
  fun k hk => And.imp_right arrives ((show ∀ k ∈ [(Inbound.read false, (0x01 : BitVec 6)), (.read true, 0x02)], (let s := exported_ expo; let p := { pk with op := k.2 }
    ((s.inEpoch (s.exportCtx p) = false ∧ s.replaying (s.exportCtx p) = false) ∧ s.inboundCheck k.1 p = .ok [(0x8000, 64)]) ∧
    Arrives s (s.exportCtx p) p 0 [k.2]) by decide +kernel) k hk)
/-- The page of the export is REMOTE. -/
theorem witness_FabricRequests_relay : (let m : Mapping := { page with resid := .remote }
    let s := { exported_ expo with contexts := [{ ((exported_ expo).ctxAt 0) with maps := [m] }] }
    (s.inEpoch (s.exportCtx pk) = false ∧ s.replaying (s.exportCtx pk) = false) ∧ s.inboundCheck (.read false) pk = .ok [] ∧
    findMap (s.ctxAt 0).maps (0x8000 + pk.addr.toNat + pk.first.toNat) = some m ∧ Arrives s (s.exportCtx pk) pk 0 [0x01]) := by decide +kernel
def writePk (op : BitVec 6) : Packet := { pk with op := op, addr := 64, line := List.replicate 64 7, last := 63 }
theorem witness_FabricRequests_writes : ∀ k ∈ [(Inbound.write false, (0x04 : BitVec 6)), (.write true, 0x05)], (let s := exported_ expo; let p := writePk k.2
    ((s.inEpoch (s.exportCtx p) = false ∧ s.replaying (s.exportCtx p) = false) ∧ s.inboundCheck k.1 p = .ok [(0x8040, 64)] ∧ p.line.length = 64 ∧ s.mem.wf = true ∧
      (s.mem.line (0x8040 / 64)).err = false ∧ s.mem.recs.length < 4096) ∧ Accepted s (s.exportCtx p) p 0 (fun o => decide (o ∈ [k.2]))) :=
  fun k hk => And.imp_right arrives ((show ∀ k ∈ [(Inbound.write false, (0x04 : BitVec 6)), (.write true, 0x05)], (let s := exported_ expo; let p := writePk k.2
    ((s.inEpoch (s.exportCtx p) = false ∧ s.replaying (s.exportCtx p) = false) ∧ s.inboundCheck k.1 p = .ok [(0x8040, 64)] ∧ p.line.length = 64 ∧ s.mem.wf = true ∧
      (s.mem.line (0x8040 / 64)).err = false ∧ s.mem.recs.length < 4096) ∧ Arrives s (s.exportCtx p) p 0 [k.2]) by decide +kernel) k hk)
/-- An ADD and a CAS of 8 bytes, compared with what stands there and with another value. -/
def atomPk (op x : Nat) : Packet :=
  { pk with op := 8, last := 7, line := [BitVec.ofNat 8 x] ++ List.replicate 15 0 ++ [BitVec.ofNat 8 op, 3] ++ List.replicate 46 0 }
abbrev Atom (q : Nat × Nat × AtomOp) : Prop :=
  let s := exported_ expo; let p := atomPk q.1 q.2.1
  (s.inEpoch (s.exportCtx p) = false ∧ s.replaying (s.exportCtx p) = false) ∧ inboundOp p = some q.2.2 ∧ s.inboundCheck .atomic p = .ok [(0x8000, 2 ^ atomLog p)] ∧
  s.mem.wf = true ∧ leNat (s.mem.bytes 0x8000 8) = 0 ∧ leNat (p.line.take 8) % 2 ^ (8 * 2 ^ atomLog p) = q.2.1 ∧
  Arrives s (s.exportCtx p) p 0 [0x08, 0x09, 0x0A, 0x0B]
theorem witness_FabricRequests_atomics : ∀ q ∈ [(0, 1, AtomOp.add), (9, 0, .cas), (9, 5, .cas)], Atom q := by decide +kernel
theorem witness_FabricRequests_refused : ∀ q ∈ [({ expo with state := .free }, RootState.live, 0x10), ({ expo with state := .closed }, .live, 0x14),
      ({ expo with allow := 0x112 }, .live, 0x12), (expo, .revoked, 0x14), ({ expo with perms := 0 }, .live, 0x12), ({ expo with length := 63 }, .live, 0x11)],
    (let s := exported_ q.1 q.2.1
     (s.inEpoch (s.exportCtx pk) = false ∧ s.replaying (s.exportCtx pk) = false) ∧ s.inboundCheck (.read false) pk = .error q.2.2 ∧
     aget ({} : Exported) s.exports pk.exp.toNat = q.1 ∧ (s.rootAt (some q.1.ctx) q.1.root).state = q.2.1 ∧ Arrives s (s.exportCtx pk) pk 0 [0x01] ∧
     (q.1.length ≤ pk.addr.toNat + pk.last.toNat ↔ q.1.length = 63) ∧ ((q.1.perms &&& (Inbound.read false).perms) = (Inbound.read false).perms ↔ q.1.perms ≠ 0)) := by decide +kernel
/-- A request of an access of team 0, or of a command, with xid 4. -/
def asked (o : ReqOwner) : Req := { owner := o, xid := 4, dst := 0x111, exp := 0, addr := 0x40, len := 8, kind := 0, own := 3, ctx := some 0, die := 0, host := false, deadline := 100 }
def window (k : AccKind) : Access := { id := 5, kind := k, size := 8, space := .window 0x111 0, dst := if k = .load then .s 8 1 else .none, reqs := [(0, 0)]
                                       lanes := [{ lane := 0, addr := 0x40, runs := [(0x40, 8)] }] }
def asking (o : ReqOwner) (k : AccKind) (now : Nat) : State := linked { onTeam { team with outs := [window k] } with reqs := [asked o], now := now }
theorem witness_FabricRequests_answers : ∀ o ∈ [ReqOwner.command 0, .access 0 5 0, .relay { pk with src := 0x111, xid := 9 }], ∀ op ∈ [(1 : BitVec 6), 2, 3],
    (let s := asking o .load 9; let p := { pk with cls := 1, op := op, xid := 4 }
     (s.reqAt 0 = some (asked o) ∧ (asked o).st = .out ∧ (s.inEpoch (asked o).ctx = false ∧ s.replaying (asked o).ctx = false) ∧ s.reqOf p = some 0 ∧
       s.now < (asked o).deadline) ∧ Arrives s (asked o).ctx p 1 [op]) := by decide +kernel
theorem witness_FabricRequests_timeout : (let s := asking (.access 0 5 0) .store 100
    s.reqAt 0 = some (asked (.access 0 5 0)) ∧ (asked (.access 0 5 0)).st = .out ∧ (s.inEpoch (some 0) = false ∧ s.replaying (some 0) = false) ∧
    (asked (.access 0 5 0)).deadline ≤ s.now ∧ (s.ctxAt 0).held.contains (.fabricTimeout 0) = false) := by decide +kernel
theorem witness_FabricRequests_access : ∀ k ∈ [AccKind.load, .store], (let s := asking (.access 0 5 0) k 9; let a := window k
    (asked (.access 0 5 0)).owner = .access 0 a.id 0 ∧ 0 < s.teams.length ∧ (s.teamAt 0).outs.find? (fun x => x.id = a.id) = some a ∧ a.reqs = [(0, 0)] ∧
    a.got = [] ∧ a.fails = [] ∧ a.kind = k ∧ (k = .load → a.dst = .s 8 1) ∧ 8 < (s.teamAt 0).s.length ∧ (s.teamAt 0).latch = none) := by decide +kernel
theorem witness_FabricRequests_late : (let p := { pk with cls := 1, op := 1 }; listed p = true ∧ base.reqOf p = none) ∧
    base.portFrom 0x111 = none ∧ (linked base).portFrom 0x111 = some 0 ∧ listed { pk with op := 3 } = false := by decide +kernel

theorem witness_LinkEvents_hello : (let s : State := { base with poweredOn := true }
    1 < 36 ∧ 1 < s.ports.length ∧ s.poweredOn = true ∧ (s.portAt 1).st = .training) ∧
    (∃ x ∈ [(1, 0), (2, 1)], x.1 = 2 ∧ x.2 ≤ 1) ∧ (0x111 : BitVec 12) ≠ 0xFFF ∧ ((∀ x ∈ [(1, 0), (3, 0)], x.1 ≠ 2) ∧ ∃ x ∈ [(1, 0), (3, 0)], x.1 = 1) ∧ ∀ x ∈ [(3, 0)], x.1 ≠ 1 ∧ x.1 ≠ 2 := by decide +kernel
def link (pt : Port) : State := { base with ports := [pt], reqs := [{ asked .firmware with xid := 0 }] }
theorem witness_LinkEvents_credit : ∀ q ∈ [[], [pk]], (let s := link { st := .up, queue := q, credits := [(0, 2)] }; let pt := s.portAt 0
    0 < s.ports.length ∧ awf 0 pt.credits = true ∧ pt.st = .up ∧ pt.queue = q ∧ pk.cls.toNat = 0 ∧ pt.unacked.length < 255 ∧ 1 ≤ aget 0 pt.credits 0 + 1) := by
  decide +kernel
theorem witness_LinkEvents_down : (let s := link { st := .up, queue := [pk], replays := 16 }
    16 ≤ (s.portAt 0).replays ∧ 0 < s.ports.length ∧ (s.portAt 0).st ≠ .down ∧ (s.portAt 0).queue = [pk] ∧ pk.cls = 0 ∧
    s.reqAt 0 = some { asked .firmware with xid := 0 } ∧ (asked .firmware).st = .out ∧ pk.xid = 0 ∧ (s.inEpoch (some 0) = false ∧ s.replaying (some 0) = false)) := by
  decide +kernel
theorem witness_LinkEvents_replay : (let s := link { st := .up, unacked := [pk, { pk with seq := 1 }] }
    0 < s.ports.length ∧ (s.portAt 0).st = .up ∧ (∃ p ∈ (s.portAt 0).unacked, p.seq = 1) ∧
    (s.portAt 0).unacked = [pk] ++ { pk with seq := 1 } :: [] ∧ (∀ y ∈ [pk], y.seq ≠ 1) ∧ (s.portAt 0).queue = []) := by decide +kernel
theorem witness_LinkEvents_retrain : (let s := link { st := .down }; 0 < s.ports.length ∧ (s.portAt 0).st = .down) := by decide +kernel

/-! Firmware commands. -/

/-- A message of device 0x111: fields as (offset, length, value). -/
def argsOf (fs : List (Nat × Nat × Nat)) : List Byte :=
  (List.range 56).map fun i => match fs.find? (fun f => f.1 ≤ i + 8 && i + 8 < f.1 + f.2.1) with | some f => BitVec.ofNat 8 (f.2.2 / 256 ^ (i + 8 - f.1)) | none => 0
def msg (code cid : Nat) (fs : List (Nat × Nat × Nat)) : FwMsg := { src := 0x111, code := BitVec.ofNat 16 code, seq := 7, cid := BitVec.ofNat 32 cid, args := argsOf fs }
abbrev IsFresh (ctx : Option Nat) (i : Instr) (m : FwMsg) (s : State) : Prop :=
  isCommand i = true ∧ (s.portFrom m.src).isSome = true ∧ s.seqHeld m = false ∧ (s.inEpoch ctx = false ∧ s.replaying ctx = false) ∧ (s.sender m.src).replies.find? (fun r => r.1 = m.seq) = none ∧
  (s.sender m.src).waiting.contains m.seq = false ∧ (s.sender m.src).waiting.length < 16
theorem fresh_of {ctx : Option Nat} {i : Instr} {m : FwMsg} {s : State} (h : IsFresh ctx i m s) : Fresh ctx i m s := h
abbrev IsOf (s : State) (m : FwMsg) (c : Nat) : Prop :=
  m.cid.toNat = c + 1 ∧ c < s.contexts.length ∧ (s.ctxAt c).alive = true ∧ (s.ctxAt c).creator = m.src ∧ (s.ctxAt c).destroying = none
theorem of_context {s : State} {m : FwMsg} {c : Nat} (h : IsOf s m c) : OfContext s m c := h
theorem unlocked_of {s : State} {n : Nat} (h : s.worlds = []) : Unlocked s n := by intro w hw; rw [h] at hw; cases hw
/-- Context 0, created by that device, with 4 MB of free frames. -/
def served (x : Context) (ws : List World := []) : State :=
  { linked base with contexts := [{ x with creator := 0x111, levelTable := 2 ^ 30, poolFree := [(65536, 2 ^ 22)] }], worlds := ws, freeMem := [(2 ^ 31, 2 ^ 31)] }
def idle_ : Context := { placedContext with hasJob := false }

theorem witness_ContextsAndJobs_cached : (let m := msg 1 0 [(8, 1, 0)]; let s : State := { served idle_ with senders := [{ dev := 0x111, replies := [(7, [1])] }] }
    isCommand (.deviceQueryId m) = true ∧ (s.portFrom m.src).isSome = true ∧ (s.sender m.src).replies.find? (fun r => r.1 = m.seq) = some (7, [1])) := by decide +kernel
/-- Sixteen requests of the sender wait. -/
theorem witness_ContextsAndJobs_busy : (let m := msg 1 0 [(8, 1, 0)]; let s : State := { served idle_ with senders := [{ dev := 0x111, waiting := List.replicate 16 9 }] }
    isCommand (.deviceQueryId m) = true ∧ (s.portFrom m.src).isSome = true ∧ (s.sender m.src).replies.find? (fun r => r.1 = m.seq) = none ∧
    (s.sender m.src).waiting.contains m.seq = false ∧ 16 ≤ (s.sender m.src).waiting.length ∧ s.replaying (fwCtx m) = false) := by decide +kernel
theorem witness_ContextsAndJobs_malformed : (let s := served idle_
    IsFresh none (.deviceQueryHealth (msg 1 1 [(8, 1, 1)])) (msg 1 1 [(8, 1, 1)]) s ∧ (msg 1 1 []).cid ≠ 0 ∧
    (let m := msg 0x2B 0 [(40 + 8, 1, 1)]; IsFresh none (.routeSet m) m s ∧ m.args.getD 40 0 ≠ 0) ∧
    (let m := msg 0x10 0 [(40 + 8, 1, 1)]; IsFresh none (.contextCreate m) m s) ∧ (let m := msg 2 9 []; IsFresh none (.negotiate m) m s ∧ m.cid ≠ 0)) := by decide +kernel
def logged : State :=
  { served idle_ with dies := [{ kills := [{ ctx := some 0, die := 0, core := 0, crewid := 0, team := 0, cause := 0x12, point := 0, pc := 0, tag := 0 }]
                                 faults := [{ src := 1, exp := 0, addr := 0, cause := 0x10, dcyc := 0 }] }] }
theorem witness_ContextsAndJobs_queries : (let s := logged; let q (k n : Nat) : FwMsg := msg 1 0 [(8, 1, k), (12, 4, n)]
    (q 0 0).cid = 0 ∧ (∀ k < 4, ∀ n < 2, reservedZero (q k n).args [(8, 1), (12, 4)] = true) ∧ IsFresh none (.deviceQueryId (q 0 0)) (q 0 0) s ∧ (q 0 0).code = 1 ∧
    fwArg (q 0 0).args 8 1 = 0 ∧ IsFresh none (.deviceQueryHealth (q 1 0)) (q 1 0) s ∧ (∀ n < 2, IsFresh none (.deviceQueryKillLog (q 2 n)) (q 2 n) s ∧
    IsFresh none (.deviceQueryFaultLog (q 3 n)) (q 3 n) s ∧ fwArg (q 2 n).args 12 4 = n)) := by decide +kernel
theorem witness_ContextsAndJobs_logs : (let s := logged
    (s.dies.flatMap (·.kills)).length ≤ 1 ∧ (s.dies.flatMap (·.kills))[0]?.isSome ∧ (s.dies.flatMap (·.faults)).length ≤ 1 ∧ (s.dies.flatMap (·.faults))[0]?.isSome) ∧
    (let m := msg 0x77 0 []; IsFresh none (.deviceQueryId m) m (served idle_) ∧ m.code ≠ 1 ∧ reservedZero m.args [(8, 1), (12, 4)] = true) := by decide +kernel
/-- A host that speaks the interface 2.0, 2.3 and 1.0; one that speaks 9.0. -/
theorem witness_ContextsAndJobs_negotiate : (let m := msg 2 0 [(8, 1, 2), (9, 1, 3), (12, 2, 2), (16, 2, 2), (18, 2, 3), (20, 2, 1)]; let s := served idle_
    let pair (j : Nat) : Nat × Nat := (fwArg m.args (12 + 4 * j) 2, fwArg m.args (14 + 4 * j) 2)
    IsFresh none (.negotiate m) m s ∧ m.cid = 0 ∧ reservedZero m.args [(8, 2), (12, 48)] = true ∧ (fwArg m.args 8 1, (2, 1)) ∈ [(1, (3, 2)), (2, (2, 1))] ∧
    fwArg m.args 9 1 = 3 ∧ (pair 0).1 = 2 ∧ (pair 0).2 ≤ 1 ∧ ∀ k < 3, (pair k).1 = 2 → (pair k).2 ≤ 1 → (pair k).2 ≤ (pair 0).2) ∧
    (let m := msg 2 0 [(8, 1, 1), (9, 1, 1), (12, 2, 9)]
    IsFresh none (.negotiate m) m (served idle_) ∧ m.cid = 0 ∧ reservedZero m.args [(8, 2), (12, 48)] = true ∧ fwArg m.args 9 1 = 1 ∧ fwArg m.args 12 2 ≠ 3 ∧
    fwArg m.args 12 2 ≠ 1) := by decide +kernel
theorem witness_ContextsAndJobs_route : ∀ ws ∈ [[], [({ id := 1, lock := .locked } : World)]], (let m := msg 0x2B 0 [(8, 2, 0x222), (16, 8, 2 ^ 35 + 1)]; let s := served idle_ ws
    IsFresh none (.routeSet m) m s ∧ m.cid = 0 ∧ reservedZero m.args [(8, 2), (16, 8)] = true ∧ fwArg m.args 8 2 < 0xFFF ∧ 0 < fwArg m.args 16 8 ∧ fwArg m.args 16 8 < 2 ^ 36 ∧
    (ws ≠ [] → ∃ w ∈ s.worlds, w.lock = .locked) ∧ (ws = [] → ∀ w ∈ s.worlds, w.lock ≠ .locked)) := by decide +kernel
theorem witness_ContextsAndJobs_create : (let m := msg 0x10 0 [(8, 2, 5), (12, 4, 7), (32, 4, 2 ^ 32 - 1), (36, 4, 64)]; let s := served idle_
    IsFresh none (.contextCreate m) m s ∧ m.cid = 0 ∧ reservedZero m.args [(8, 32)] = true ∧ fwArg m.args 8 2 = 5 ∧ fwArg m.args 10 2 = 0 ∧ fwArg m.args 12 4 = 7 ∧
    fwArg m.args 16 8 = 0 ∧ fwArg m.args 24 8 = 0 ∧ fwArg m.args 36 4 = 64 ∧ s.worlds = [] ∧ (s.contexts.filter (·.alive)).length < 64 ∧ s.freeMem = [(2 ^ 31, 2 ^ 31)] ∧
    2 ^ 31 % 65536 = 0 ∧ 2 ^ 26 ≤ 2 ^ 31 ∧ s.exports.length < 65535) := by decide +kernel
theorem witness_ContextsAndJobs_destroy : ∀ x ∈ [({ placedContext with firstLaunch := 1 } : Context), idle_, { idle_ with roots := [] }], (let m := msg 0x11 1 []; let s := served x
    IsFresh (fwCtx m) (.contextDestroy m) m s ∧ reservedZero m.args [] = true ∧ IsOf s m 0 ∧
    ((s.ctxAt 0).hasJob = true → ∀ j < s.launches.length, (s.launchAt j).ctx = some 0 → (s.ctxAt 0).firstLaunch ≤ j → s.launchOver j = true) ∧
    ((s.ctxAt 0).roots = [] ∨ ∃ r ∈ (s.ctxAt 0).roots, r.2.state = .live)) := by decide +kernel
theorem witness_ContextsAndJobs_grant : (let m := msg 0x12 1 [(8, 1, 3), (16, 8, 255), (24, 8, 2 ^ 30)]; let s := served idle_
    IsFresh (fwCtx m) (.poolGrant m) m s ∧ reservedZero m.args [(8, 1), (16, 16)] = true ∧ IsOf s m 0 ∧ s.worlds = [] ∧ fwArg m.args 8 1 < 16 ∧
    fwArg m.args 24 8 % 2 ^ 30 = 0 ∧ (s.ctxAt 0).replayable = false ∧ fwArg m.args 24 8 ≤ s.freeMem.foldl (fun n r => n + r.2) 0 ∧
    takeGiB (fwArg m.args 24 8 / 2 ^ 30) s.freeMem = some ([2 ^ 31], [(2 ^ 31 + 2 ^ 30, 2 ^ 30)])) := by decide +kernel
/-- An object of one instruction and one kernel of 32 lanes and 16 registers (01 R33-R36). -/
def object_ : List Byte :=
  let sec (kind off size : Nat) : List Byte := leBytes 4 kind ++ leBytes 4 0 ++ leBytes 8 off ++ leBytes 8 size ++ leBytes 8 0
  leBytes 4 0x004F5954 ++ leBytes 4 1 ++ leBytes 4 2 ++ leBytes 4 0 ++ leBytes 8 64 ++ List.replicate 40 0 ++ sec 1 128 8 ++ sec 5 136 32 ++
    leBytes 8 0x0100000000000000 ++ (leBytes 8 0 ++ leBytes 4 0 ++ leBytes 2 32 ++ [16, 1, 1, 0, 63] ++ List.replicate 13 0)
def kernel_ : Kernel := { entry := 0, lanes := 32, regs := 16, teams := 1, g := 1, h := 0, k := 63 }
def mJob : FwMsg := msg 0x20 1 [(16, 8, 168), (26, 1, 5)]
def jobbing : State := served { idle_ with hentry := 0xFFFFFFFF, hdsize := 64 }
theorem readFor_one {s : State} {c : Nat} {m : FwMsg} {x : BitVec 16 × Nat × Nat} (h : fwSources m = [x]) :
    s.readFor c m = s.readOut (some c) m.src x.1 x.2.1 x.2.2 := by unfold State.readFor; rw [h]; rfl
theorem readFor_two {s : State} {c : Nat} {m : FwMsg} {x y : BitVec 16 × Nat × Nat} (h : fwSources m = [x, y]) (hy : y.2.2 = 0) :
    s.readFor c m = s.readOut (some c) m.src x.1 x.2.1 x.2.2 := by
  have z : ∀ t : State, t.readOut (some c) m.src y.1 y.2.1 y.2.2 = (t, true) := fun t => by unfold State.readOut; rw [hy]; rfl
  unfold State.readFor
  rw [h]
  simp only [List.foldl_cons, List.foldl_nil, if_true, z]
  split <;> rename_i k
  · exact Prod.ext rfl k.symm
  · rfl
theorem jobbing_plain : jobbing.worldOf (some 0) = none ∧ jobbing.inEpoch (some 0) = false ∧ jobbing.replaying (some 0) = false ∧ 0 < jobbing.contexts.length ∧
    jobbing.portsTo 0x111 = [0] := by decide +kernel
theorem one_port {s : State} {src dst : BitVec 12} {exp : BitVec 16} (h : s.portsTo dst = [0]) : (s.portFor src dst exp).isSome = true := by
  unfold State.portFor; rw [h]; simp [Nat.mod_one]
/-- The reads come or are refused as the free value says, and change requests and ports alone; with no route they are refused. -/
theorem witness_ContextsAndJobs_reads : (∃ t, SentOnly jobbing t ∧ jobbing.readFor 0 mJob = ({ t with tick := 1 }, !Config.readRefused 0)) ∧
    ∃ q, ({ jobbing with routes := [] } : State).readFor 0 mJob = (q, false) := by
  have two : fwSources mJob = [(0, 0, 168), (0, 0, 0)] := by decide +kernel
  obtain ⟨hw, he, hr, hc, hp⟩ := jobbing_plain
  constructor
  · rw [readFor_two two rfl]
    obtain ⟨h2, t, ht, h1⟩ := readOut_sentOnly (s := jobbing) (dst := 0x111) (exp := 0) (off := 0) (n := 168) (by decide) hw he hr (one_port hp) hc
    exact ⟨t, ht, Prod.ext h1 h2⟩
  · rw [readFor_two two rfl]; exact ⟨_, rfl⟩
theorem witness_ContextsAndJobs_start : (let m := mJob; let s := jobbing; let x := s.ctxAt 0
    IsFresh (fwCtx m) (.jobStart m object_ []) m s ∧ reservedZero m.args [(8, 19), (28, 16)] = true ∧ IsOf s m 0 ∧ fwArg m.args 26 1 = 5 ∧ fwArg m.args 32 4 = 0 ∧
    x.hasJob = false ∧ s.worldOf (some 0) = none ∧ fwArg m.args 28 4 = 0 ∧ x.hentry = 0xFFFFFFFF ∧ s.grantOf (some 0) 0 1 = true ∧ (s.dieAt 0).usable = true ∧
    (s.coreAt 1).out = false ∧ x.replayable = false ∧ IsFresh (fwCtx m) (.jobStart m object_ []) m { s with routes := [] }) := by decide +kernel
/-- The regions of the job are taken from the context, which its reads leave as it is. -/
theorem witness_ContextsAndJobs_object : ∃ o, objOf (object_.take 168) = some o ∧ o.kernels.find? (fun k => k.entry = 0) = some kernel_ ∧
    (jobbing.loadRegions 0 o (((o.get 3).length + 63) / 64 * 64 + (o.get 6).length) 0).isSome := by
  have h : ((objOf (object_.take 168)).any fun o => o.kernels.find? (fun k => k.entry = 0) = some kernel_ &&
    (jobbing.loadRegions 0 o (((o.get 3).length + 63) / 64 * 64 + (o.get 6).length) 0).isSome) = true := by decide +kernel
  cases ho : objOf (object_.take 168) with
  | none => rw [ho] at h; cases h
  | some o => rw [ho] at h; simp only [Option.any_some, Bool.and_eq_true, decide_eq_true_eq] at h; exact ⟨o, rfl, h.1, h.2⟩
theorem witness_ContextsAndJobs_cancel : (let m := msg 0x21 1 []; let s := served placedContext
    IsFresh (fwCtx m) (.jobCancel m) m s ∧ reservedZero m.args [] = true ∧ IsOf s m 0 ∧ (s.ctxAt 0).hasJob = true ∧
    ∃ j < s.launches.length, (s.launchAt j).ctx = some 0 ∧ (s.ctxAt 0).firstLaunch ≤ j ∧ s.launchOver j = false) := by decide +kernel
theorem witness_ContextsAndJobs_export : (let m := msg 0x28 1 [(8, 4, 1), (16, 8, 0x8000), (24, 8, 0x8000), (32, 2, 1), (34, 2, 0x222)]; let s := served placedContext; let r := s.rootAt (some 0) 1
    IsFresh (fwCtx m) (.windowExport m) m s ∧ reservedZero m.args [(8, 4), (16, 20)] = true ∧ IsOf s m 0 ∧ s.worlds = [] ∧ fwArg m.args 8 4 = 1 ∧
    fwArg m.args 34 2 < 2 ^ 12 ∧ fwArg m.args 24 8 ≤ 2 ^ 56 ∧ r.state = .live ∧ r.kind = .loc ∧ r.compt = 0 ∧ r.base ≤ fwArg m.args 16 8 ∧
    fwArg m.args 16 8 + fwArg m.args 24 8 ≤ r.limit ∧ fwArg m.args 32 2 < 2 ^ 12 ∧ BitVec.ofNat 12 (fwArg m.args 32 2) &&& ~~~r.ceil = 0 ∧ s.exportsOf 0 < 4096 ∧
    s.exports.length < 65535) := by decide +kernel
theorem witness_ContextsAndJobs_import : (let m := msg 0x29 1 [(8, 2, 0x222), (10, 2, 3), (16, 8, 4096), (24, 2, 3), (26, 2, 1023)]; let s := served { placedContext with intake := 2 ^ 20 }
    IsFresh (fwCtx m) (.windowImport m) m s ∧ reservedZero m.args [(8, 4), (16, 12)] = true ∧ IsOf s m 0 ∧ s.worlds = [] ∧ fwArg m.args 8 2 < 0xFFF ∧
    fwArg m.args 26 2 < 1024 ∧ fwArg m.args 16 8 = 4096 ∧ (s.ctxAt 0).intake ≠ 0 ∧ ((s.ctxAt 0).intake + 16 * 1023) % 16 = 0 ∧ exactEnc 0 0 4096 = some (0, 0, 4096) ∧
    (s.claimRoot (some 0) {}).isSome ∧ s.mem.wf = true) := by decide +kernel
theorem witness_ContextsAndJobs_close : (let m := msg 0x2A 1 [(12, 4, 0)]; let n := msg 0x2A 1 [(8, 1, 1), (12, 4, 2)]
    let s : State := { served { placedContext with roots := [(2, { kind := .peer, state := .live })] } with exports := [(0, { expo with ctx := 0 })] }
    reservedZero m.args [(8, 1), (12, 4)] = true ∧ reservedZero n.args [(8, 1), (12, 4)] = true ∧ IsOf s m 0 ∧ IsOf s n 0 ∧ s.worlds = [] ∧
    IsFresh (fwCtx m) (.windowCloseExport m) m s ∧ fwArg m.args 8 1 = 0 ∧ (aget ({} : Exported) s.exports 0).state ≠ .free ∧ (aget ({} : Exported) s.exports 0).ctx = 0 ∧
    IsFresh (fwCtx n) (.windowCloseRoot n) n s ∧ fwArg n.args 12 4 = 2 ∧ (s.rootAt (some 0) 2).state = .live ∧ (s.rootAt (some 0) 2).kind = .peer) := by decide +kernel

/-! Groups and worlds. -/

def me : BitVec 12 := Config.deviceId
/-- This device's successor is another device. -/
theorem nodup_me : [me, me + 1].Nodup := by simp [me]
def gForm : FwMsg := msg 0x30 1 [(8, 2, 9), (10, 1, 1), (11, 1, 2)]
theorem witness_WorldsAndGroups_form : (let s := served idle_
    IsFresh (fwCtx gForm) (.groupForm gForm [me, me + 1]) gForm s ∧ reservedZero gForm.args [(8, 6), (16, 8)] = true ∧ IsOf s gForm 0 ∧ s.worlds = [] ∧ fwArg gForm.args 8 2 = 9 ∧
    fwArg gForm.args 10 1 = 1 ∧ fwArg gForm.args 11 1 = 2 ∧ [me, me + 1].length = 2 ∧ Config.deviceId ∈ [me, me + 1] ∧ s.groupOf 0 9 = none ∧ s.groups = [] ∧
    s.scheds = [] ∧ s.groupMsgs = []) :=
  first4 (by decide +kernel) ⟨by decide +kernel, by decide +kernel, by decide +kernel, rfl, List.mem_cons_self, by decide +kernel⟩
theorem witness_WorldsAndGroups_reads : ((served idle_).readFor 0 gForm).2 = (!Config.readRefused 0) ∧ (({ served idle_ with routes := [] } : State).readFor 0 gForm).2 = false := by
  have one : fwSources gForm = [(0, 0, 4)] := by decide +kernel
  have h : (served idle_).worldOf (some 0) = none ∧ (served idle_).inEpoch (some 0) = false ∧ (served idle_).replaying (some 0) = false ∧
    0 < (served idle_).contexts.length ∧ (served idle_).portsTo 0x111 = [0] := by decide +kernel
  constructor <;> rw [readFor_one one]
  · exact (readOut_sentOnly (by decide) h.1 h.2.1 h.2.2.1 (one_port h.2.2.2.2) h.2.2.2.1).1
  · rfl
/-- A group of three that forms, or re-forms (with a new generation, if one is known); the third member has sent its message. -/
def three : List (BitVec 12) := [me, me + 1, me + 2]
def forming_ (re : Bool) (gen : Option Nat := none) : Forming :=
  { src := 0x111, seq := 8, reform := re, members := three, die := 0, deadline := 50, sent := true, gen := gen }
def third (confirm : Bool) : GroupMsg := { ctx := 0, group := 9, src := me + 2, crc := listCrc three, gen := 3, confirm := confirm }
def grouped (re : Bool) (gen : Option Nat := none) (confirm : Bool := false) : State :=
  { served idle_ with groups := [{ ctx := 0, id := 9, die := 0, members := three, ready := re, forming := some (forming_ re gen) }], now := 50
                      groupMsgs := [third confirm], ports := [{ st := .up, peer := me + 1 }] }
theorem ne_me (k : BitVec 12) (h : k ≠ 0) : me + k ≠ me := by
  intro e; exact h (by simpa using e)
/-- A group forms; it re-forms, first without a new generation, then with it, which the messages confirm. -/
def shapes : List (Bool × Option Nat × Bool) := [(false, none, false), (true, none, false), (true, some 3, true)]
theorem grouped_port (re : Bool) (gen : Option Nat) (confirm : Bool) : ((grouped re gen confirm).portFrom (me + 1)).isSome = true := by
  have h : (List.range 36).find? (fun i => decide (((grouped re gen confirm).portAt i).peer = me + 1) && decide (((grouped re gen confirm).portAt i).st = .up)) = some 0 := by
    have hr : List.range 36 = 0 :: (List.range 35).map Nat.succ := by decide +kernel
    rw [hr, List.find?_cons_of_pos (by simp [grouped, State.portAt])]
  unfold State.portFrom
  rw [h]; rfl
theorem witness_WorldsAndGroups_message : ∀ q ∈ shapes, (let s := grouped q.1 q.2.1 q.2.2; let f := forming_ q.1 q.2.1
    (s.inEpoch (some 0) = false ∧ s.replaying (some 0) = false) ∧ (s.portFrom (me + 1)).isSome ∧ s.groupOf 0 9 = some 0 ∧ (s.groupAt 0).ctx = 0 ∧ (s.groupAt 0).id = 9 ∧
    (s.groupAt 0).forming = some f ∧ f.sent = true ∧ s.instanceOf 0 = none ∧ me + 1 ∈ f.members ∧ me + 1 ≠ Config.deviceId ∧
    f.reform = q.1 ∧ f.gen = q.2.1 ∧ listCrc f.members + 1 ≠ listCrc f.members ∧
    ∀ d ∈ f.members, d ≠ Config.deviceId → d ≠ me + 1 → ∃ x, s.msgOf 0 9 q.2.2 d = some x ∧ x.crc = listCrc f.members ∧ x.gen = 3) := by
  have h : ∀ q ∈ shapes, ((grouped q.1 q.2.1 q.2.2).inEpoch (some 0) = false ∧ (grouped q.1 q.2.1 q.2.2).replaying (some 0) = false) ∧
      (grouped q.1 q.2.1 q.2.2).instanceOf 0 = none := by decide +kernel
  intro q hq
  refine ⟨(h q hq).1, grouped_port _ _ _, rfl, rfl, rfl, rfl, rfl, (h q hq).2, by simp [forming_, three], ne_me 1 (by decide), rfl, rfl, by simp, ?_⟩
  intro d hd h1 h2
  simp only [forming_, three, List.mem_cons, List.not_mem_nil, or_false] at hd
  rcases hd with rfl | rfl | rfl
  · exact absurd rfl h1
  · exact absurd rfl h2
  · exact ⟨third q.2.2, by simp [State.msgOf, grouped, third], rfl, rfl⟩
def gRe : FwMsg := msg 0x31 1 [(8, 2, 9)]
def stood (sc : List Sched) : State := { served idle_ with groups := [{ ctx := 0, id := 9, die := 0, members := three, ready := true }], scheds := sc }
def running_ : Sched := { die := 0, slot := 0, cmd := 0, group := 0, inst := 0, gen := 1 }
theorem witness_WorldsAndGroups_reform : ∀ sc ∈ [[], [running_]], (let s := stood sc
    IsFresh (fwCtx gRe) (.groupReform gRe []) gRe s ∧ reservedZero gRe.args [(8, 6), (16, 8)] = true ∧ IsOf s gRe 0 ∧
    s.groupOf 0 (BitVec.ofNat 16 (fwArg gRe.args 8 2)) = some 0 ∧ fwArg gRe.args 11 1 = 0 ∧ (s.groupAt 0).die < 4 ∧ (s.groupAt 0).ready = true ∧ (s.groupAt 0).forming = none ∧
    s.groupMsgs = [] ∧ (s.instanceOf 0 = if sc = [] then none else some 0) ∧ (running_).st = .running) := by decide +kernel
theorem witness_WorldsAndGroups_members (sc : List Sched) : Config.deviceId ∈ ((stood sc).groupAt 0).members ∧ ∃ d ∈ ((stood sc).groupAt 0).members, d ≠ Config.deviceId :=
  ⟨List.mem_cons_self, me + 1, by simp [stood, State.groupAt, three], ne_me 1 (by decide)⟩
theorem witness_WorldsAndGroups_timeout (re : Bool) : (let s := grouped re; s.groupOf 0 9 = some 0 ∧ (s.groupAt 0).forming = some (forming_ re) ∧
    (forming_ re).deadline ≤ s.now ∧ (forming_ re).reform = re) := by exact ⟨rfl, rfl, by decide +revert, rfl⟩
theorem witness_WorldsAndGroups_evidence : (List.replicate 32 (1 : Byte)).length = 32 := by decide
/-- World 1 of that context. -/
def inWorld (w : World) : State := served idle_ [w]
theorem witness_WorldsAndGroups_attest : (let m := msg 0x40 1 [(40, 2, 5), (48, 8, 64)]; let s := inWorld { id := 1 }
    IsFresh (fwCtx m) (.attest m) m s ∧ reservedZero m.args [(8, 34), (48, 8)] = true ∧ IsOf s m 0 ∧ s.worldOf (some 0) = some { id := 1 }) := by decide +kernel
theorem witness_WorldsAndGroups_rotate : ∀ r ∈ [false, true], (let m := msg 0x41 1 [(12, 1, 0)]; let w : World := { id := 1, keys := [{ compt := 0, rotating := r }] }; let s := inWorld w
    IsFresh (fwCtx m) (.keyRotateRotate m) m s ∧ reservedZero m.args [(8, 1), (12, 1)] = true ∧ IsOf s m 0 ∧ s.worldOf (some 0) = some w ∧ fwArg m.args 8 1 = 0 ∧
    w.key (fwArg m.args 12 1) = some { compt := 0, rotating := r }) := by decide +kernel
theorem witness_WorldsAndGroups_compartment : (let m := msg 0x41 1 [(8, 1, 1), (12, 1, 3), (16, 8, 65536), (40, 8, 8), (52, 2, 2)]
    let s : State := { inWorld { id := 1 } with contexts := [{ idle_ with creator := 0x111, intake := 2 ^ 20, poolFree := [(65536, 2 ^ 22)] }] }
    IsFresh (fwCtx m) (.keyRotateCompartment m []) m s ∧ reservedZero m.args [(8, 1), (12, 1), (16, 10), (32, 22)] = true ∧ IsOf s m 0 ∧ s.worldOf (some 0) = some { id := 1 } ∧
    fwArg m.args 8 1 = 1 ∧ fwArg m.args 12 1 = 3 ∧ fwArg m.args 16 8 = 65536 ∧ fwArg m.args 40 8 ≤ 65536 ∧ fwArg m.args 52 2 < 1024 ∧ (({ id := 1 } : World).key 3) = none ∧
    (s.ctxAt 0).intake ≠ 0 ∧ ((s.ctxAt 0).intake + 16 * 2) % 16 = 0 ∧ (s.region 0 65536 comptPerms 7 false 3).isSome ∧ s.mem.wf = true) := by decide +kernel
theorem witness_WorldsAndGroups_fabric : (let m := msg 0x41 1 [(8, 1, 2), (12, 1, 64)]; let s := inWorld { id := 1 }
    IsFresh (fwCtx m) (.keyRotateFabric m []) m s ∧ reservedZero m.args [(8, 1), (12, 1), (24, 2), (32, 8)] = true ∧ IsOf s m 0 ∧ s.worldOf (some 0) = some { id := 1 } ∧
    fwArg m.args 8 1 = 2 ∧ fwArg m.args 12 1 = 64) := by decide +kernel
/-- Every move of Table 20-5, and requests that it does not list. -/
theorem witness_WorldsAndGroups_lock : ∀ p ∈ [(LockState.unlocked, 1), (.locked, 2), (.locked, 0), (.run, 0), (.error, 0), (.unlocked, 3), (.unlocked, 2), (.locked, 1), (.run, 1)],
    (let m := msg 0x42 1 [(8, 1, p.2)]; let w : World := { id := 1, lock := p.1 }; let s := inWorld w
     IsFresh (fwCtx m) (.lockState m) m s ∧ reservedZero m.args [(8, 1)] = true ∧ IsOf s m 0 ∧ s.worldOf (some 0) = some w ∧ fwArg m.args 8 1 = p.2 ∧
     ∀ x < s.contexts.length, (s.ctxAt x).hasJob = false) := by decide +kernel
theorem witness_WorldsAndGroups_lock_jobs : (let s := served placedContext [{ id := 1, lock := .run }]
    0 < s.contexts.length ∧ (s.ctxAt 0).world = 1 ∧ (s.ctxAt 0).alive = true ∧ (s.ctxAt 0).hasJob = true) := by decide +kernel
/-- A key that rotates or does not, and a port's count under it below and at the threshold. -/
theorem witness_WorldsAndGroups_threshold : ∀ r ∈ [false, true], ∀ n ∈ [2 ^ 31 - 1, 2 ^ 31],
    (let w : World := { id := 1, keys := [{ compt := 0, rotating := r }] }; let k : KeySt := { compt := 0, rotating := r }
     let s : State := { inWorld w with transfers := [(countKey 1 0 1 2, n)] }
     s.worlds.find? (fun w => w.id = 1) = some w ∧ w.key 0 = some k ∧
     ((∃ x ∈ s.transfers, countKey 1 0 k.epoch 0 ≤ x.1 ∧ x.1 < countKey 1 0 (k.epoch + 1) 0 ∧ 2 ^ 31 ≤ x.2) ↔ n = 2 ^ 31)) := by decide +kernel
/-- The same of the fabric key, which the fabric ports count. -/
theorem witness_WorldsAndGroups_fabricThreshold : ∀ r ∈ [false, true], ∀ n ∈ [2 ^ 31 - 1, 2 ^ 31],
    (let k : KeySt := { compt := 256, rotating := r }; let w : World := { id := 1, fabricKey := true, keys := [k], sent := [(3, n)] }; let s := inWorld w
     s.worlds.find? (fun w => w.id = 1) = some w ∧ w.key 256 = some k ∧ ((∃ x ∈ w.sent, 2 ^ 31 ≤ x.2) ↔ n = 2 ^ 31)) := by decide +kernel
theorem witness_WorldsAndGroups_locked : ∀ l ∈ [LockState.locked, .run, .error], (let m := msg 0x12 1 [(8, 1, 3), (16, 8, 255), (24, 8, 2 ^ 30)]; let w : World := { id := 1, lock := l }
    let s := inWorld w
    IsFresh (fwCtx m) (.poolGrant m) m s ∧ reservedZero m.args [(8, 1), (16, 16)] = true ∧ IsOf s m 0 ∧ s.worldOf (some 0) = some w ∧ w.lock ≠ .unlocked) := by decide +kernel

/-! Observation. -/

theorem witness_Observation_areas : 65536 ≤ 262144 ∧ (0xB : BitVec 4).getLsbD 0 = true ∧ (0xB : BitVec 4).getLsbD 3 = true := by decide
/-- A context whose root 1 takes in a region of four stream areas, its pages all on the device. -/
def recorded (x : Context) : State :=
  { served { x with roots := [(1, { kind := .loc, state := .live, base := 0, limit := 2 ^ 21, ceil := 0x7FF })]
                    maps := [{ va := 0, size := 2 ^ 21, frame := 0, r := true, w := true, x := false }] } with now := 2 ^ 22 }
def mRec : FwMsg := msg 0x50 1 [(8, 1, 15), (12, 4, 1), (16, 8, 0), (24, 8, 262144), (32, 1, 10)]
theorem witness_Observation_start : (let s := recorded { idle_ with replayable := true }; let r := s.rootAt (some 0) 1
    IsFresh (fwCtx mRec) (.recordStart mRec) mRec s ∧ reservedZero mRec.args [(8, 2), (12, 21), (36, 4)] = true ∧ IsOf s mRec 0 ∧ fwArg mRec.args 8 1 = 15 ∧
    fwArg mRec.args 9 1 = 0 ∧ fwArg mRec.args 16 8 = 0 ∧ fwArg mRec.args 24 8 = 262144 ∧ fwArg mRec.args 32 1 = 10 ∧ (s.ctxAt 0).recorder.on = false ∧
    (s.ctxAt 0).replayable = true ∧ (s.ctxAt 0).hasJob = false ∧ fwArg mRec.args 12 4 = 1 ∧ r.state = .live ∧ r.kind = .loc ∧ r.compt = 0 ∧ r.base + 262144 ≤ r.limit ∧
    (∀ i < 4, s.runsOf 0 (0 + 64 * i) 64 = some [(0 + 64 * i, 64)]) ∧ s.mem.wf = true) := by decide +kernel
theorem witness_Observation_stop : ∀ o ∈ [true, false], (let m := msg 0x51 1 []; let s := recorded { idle_ with recorder := { on := o } }
    IsFresh (fwCtx m) (.recordStop m) m s ∧ reservedZero m.args [] = true ∧ IsOf s m 0 ∧ (s.ctxAt 0).recorder.on = o) := by decide +kernel
theorem witness_Observation_replay : ∃ log, (let m := msg 0x52 1 [(12, 4, 1), (24, 8, 262144)]; let s := recorded { placedContext with replayable := true, holdJob := true }
    IsFresh (fwCtx m) (.replayStart m) m s ∧ reservedZero m.args [(12, 20)] = true ∧ IsOf s m 0 ∧ fwArg m.args 16 8 % 65536 = 0 ∧ fwArg m.args 24 8 = 262144 ∧
    (s.ctxAt 0).replayable = true ∧ (s.ctxAt 0).hasJob = true ∧ (s.ctxAt 0).holdJob = true ∧ s.regionAt 0 (fwArg m.args 12 4) 0 262144 = some 0 ∧
    s.readLog 0 0 = some log) :=
  ⟨{ log := [], truncated := false }, by decide +kernel⟩
def recording : Recorder := { on := true, what := 15, dies := 0xF, region := 0, areas := streamAreas 15 262144, snap := 1, seen := [0] }
theorem witness_Observation_snapshot : (let s := recorded { placedContext with recorder := recording }; let r := (s.ctxAt 0).recorder
    0 < s.contexts.length ∧ r.on = true ∧ r.what.getLsbD 0 = true ∧ r.snap ≠ 0 ∧ r.since + r.snap * 2 ^ 20 ≤ s.now ∧ r.seen.contains 0 = true ∧ r.dies.getLsbD 0 = true ∧
    s.crewsOn 0 = [0] ∧ (s.crewAt 0).ctx = some 0 ∧ awf ({} : SlotCount) s.slotCounts = true ∧ (s.slotsOf 0 0).leaves.length = 16) := by decide +kernel
theorem witness_Observation_cycles : (let s := recorded { placedContext with recorder := recording }
    (0, 0) ∈ s.countedCores ∧ awf ({} : SlotCount) s.slotCounts = true ∧ (s.slotsOf 0 0).leaves.length = 16 ∧ ∀ o ∈ (s.slotsOf 0 0).owed, ∀ p ∈ o.passes, p.1 < 16) := by decide +kernel
/-- A sampled team that has issued; that waits, is stopped or halted; that has a fetch out, acquires, is held in order, or for a destination;
one that has ended. -/
def sampled : List (Team × List Nat) :=
  [(team, [0]), ({ team with wait := some (.bar 1 1) }, []), ({ team with st := .stopped }, []), ({ team with halted := true }, []), ({ team with codeReq := some 0 }, []),
   ({ team with outs := [{ window .load with ord := 1 }] }, []), ({ team with stalled := true, ordered := true }, []), ({ team with stalled := true }, []), ({ team with st := .ended }, [])]
theorem witness_Observation_sample : ∀ q ∈ sampled,
    (let s : State := { recorded { placedContext with recorder := recording } with teams := [q.1], slotCounts := [(0, { issued := q.2, laneOpen := 3 })] }
     let r := (s.ctxAt 0).recorder
     let teams := ((s.crewsOn 0).filter fun i => (s.crewAt i).ctx = some 0).flatMap s.crewTeams
     0 < s.contexts.length ∧ r.on = true ∧ r.what.getLsbD 2 = true ∧ r.dies.getLsbD 0 = true ∧ (aget (0, 0) r.nextTeam 0).1 < (s.now - r.start) / 2 ^ r.sper ∧
     teams[(aget (0, 0) r.nextTeam 0).2 % teams.length]? = some 0 ∧ s.teamAt 0 = q.1 ∧ ((s.slotsOf 0 0).issued.contains 0 = true ↔ q.2 ≠ []) ∧
     (∀ o ∈ (s.slotsOf 0 0).owed, o.team ≠ 0) ∧ (s.crewAt (s.teamAt 0).crew).ctx = some 0 ∧ ((s.crewAt (s.teamAt 0).crew).state ≠ .saving) ∧ (q.1.alive = true ↔ q.1.st ≠ .ended)) := by decide +kernel
/-- A team with passes still to issue: the lane port is taken and the first of them needs it; it is taken and no pass needs it; it is free. -/
theorem witness_Observation_owed : ∀ q ∈ [(3, 2), (3, 0), (0, 2)],
    (let o : Issue := { team := 0, lane := true, passes := [(0, q.2), (1, 0)] }
     let s : State := { recorded { placedContext with recorder := recording } with slotCounts := [(0, { portBusy := q.1, owed := [o] })] }
     s.team.alive = true ∧ (s.slotsOf 0 0).issued.contains 0 = false ∧ (s.slotsOf 0 0).owed.find? (fun o => o.team = 0) = some o ∧
     (s.slotsOf 0 0).portBusy = q.1 ∧ o.passes.headD (0, 0) = (0, q.2)) := by decide +kernel
/-- Table 9-1a: the cycles of 32 accesses of 4 bytes, by the lane's stride. -/
theorem test_portCycles : [4, 64, 1024, 1040].map (fun d => portCycles 4 ((List.range 32).map (d * ·))) = [1, 2, 32, 1] := by decide +kernel
/-- A cycle of the one team of core 0, and the next begins. -/
def cycle (stalled : Bool) (k : SlotCount) (xs : List Issue) : SlotCount :=
  ((onTeam { team with stalled := stalled }).closeSlots 0 0 (fun _ => 0) (xs.foldl SlotCount.take k)).next fun _ => 0
/-- Table 21-5: FULL 5, LANEPORT 6, LIMIT 19, OPERAND 6. -/
theorem test_sixCycles : (let x (lane : Bool) (ps : List (Nat × Nat)) : List Issue := [{ team := 0, lane := lane, passes := ps }]
    let k := cycle false (cycle false (cycle false {} (x true [(0, 0), (0, 0)])) (x false [(0, 0)])) (x true [(0, 2), (0, 2)])
    (cycle true (cycle false (cycle false k []) []) []).leaves = [5, 0, 0, 0, 0, 0, 0, 6, 6, 0, 19, 0, 0, 0, 0, 0]) := by decide +kernel
/-- A replayable context whose crew waits; an answer is held until the epoch ends. -/
def waiting_ (h : List Instr) : State :=
  { asking (.command 0) .load 9 with contexts := [{ placedContext with replayable := true, held := h }], teams := [{ team with wait := some (.bar 1 1) }] }
theorem witness_Observation_epoch : ∀ h ∈ [[], [Instr.ack { pk with xid := 4 }]], (let s := waiting_ h; let x := s.ctxAt 0
    0 < s.contexts.length ∧ s.inEpoch (some 0) = true ∧ x.replay = none ∧ (∀ d ∈ s.senders, d.queue = []) ∧
    (∀ i < s.crews.length, (s.crewAt i).ctx = some 0 → s.epochDone i = true) ∧ x.held = h ∧ s.reqOf { pk with xid := 4 } = some 0 ∧ s.reqAt 0 = some (asked (.command 0))) := by
  decide +kernel

/-! The debugger. -/

def dmsg (code : Nat) (fs : List (Nat × Nat × Nat)) : DbgMsg := { ctx := 0, code := BitVec.ofNat 16 code, seq := 5, args := argsOf fs }
/-- The command stands in the mailbox at 0x10000. -/
def mailboxed (m : DbgMsg) (on : Bool) (t : Team := team) : State :=
  { onTeam t with
    contexts := [{ placedContext with mailbox := 0x10000, dbg := { attached := on, until_ := 4 } }], now := 4
    mem := storeBytes {} (laneWrites [(0x10000 + 32768, 64)] (leBytes 2 m.code.toNat ++ leBytes 2 m.seq.toNat ++ [0, 0, 0, 0] ++ m.args) 0) {} }
abbrev Stood (s : State) (m : DbgMsg) (code : BitVec 16) : Prop := s.inMailbox m code = true ∧ m.code = code ∧ m.rsv = 0
theorem stands {s : State} {m : DbgMsg} {code : BitVec 16} (h : Stood s m code) : Stands s m code := h
theorem witness_DebuggerCommands_repeated : ({ dmsg 1 [] with seq := 0 } : DbgMsg).seq = (base.ctxAt 0).dbg.seq := by decide
/-- An unlisted code, and a listed one with a reserved byte. -/
theorem witness_DebuggerCommands_malformed : ∀ m ∈ [dmsg 0x55 [], dmsg 1 [(50, 1, 1)]], (let s := mailboxed m true
    s.inMailbox m 0x01 = true ∧ s.mem.wf = true ∧ (m.code ≠ 0x01 ∨ m.rsv ≠ 0 ∨ reservedZero m.args [(8, 4)] = false)) := by decide +kernel
theorem witness_DebuggerCommands_attach : ∀ on ∈ [true, false], (let m := dmsg 1 [(8, 4, 60000)]; let s := mailboxed m on
    Stood s m 0x01 ∧ s.mem.wf = true ∧ reservedZero m.args [(8, 4)] = true ∧ fwArg m.args 8 4 = 60000 ∧ (s.ctxAt m.ctx).dbg.attached = on) := by decide +kernel
/-- Every command that an attached debugger gives without a team. -/
theorem witness_DebuggerCommands_attached : ∀ p ∈ [(0x02, []), (0x03, []), (0x10, [(8, 1), (16, 12)]), (0x11, [(8, 1)]), (0x12, [(8, 3), (16, 16)]), (0x13, [(8, 1)])],
    (let m := dmsg p.1 (if p.2.length < 1 then [] else if p.1 = 0x12 then [(8, 1, 3), (9, 1, 1), (10, 1, 3), (16, 8, 64), (24, 4, 6)] else [(8, 1, 3)]); let s := mailboxed m true
     Stood s m (BitVec.ofNat 16 p.1) ∧ s.mem.wf = true ∧ reservedZero m.args p.2 = true ∧ (s.ctxAt m.ctx).dbg.attached = true ∧ fwArg m.args 8 1 < 4 ∧
     fwArg m.args 9 1 < 2 ∧ fwArg m.args 10 1 < 4 ∧ fwArg m.args 24 4 ≤ 20 ∧ fwArg m.args 16 8 % 2 ^ fwArg m.args 24 4 = 0 ∧ fwArg m.args 16 8 < 2 ^ 57 ∧
     m.ctx < s.contexts.length ∧ (s.ctxAt m.ctx).dbg.until_ ≤ s.now) := by decide +kernel
theorem witness_DebuggerCommands_noTeam : (let m := dmsg 0x20 [(8, 4, 9)]; let s := mailboxed m true
    s.mem.wf = true ∧ (s.ctxAt m.ctx).dbg.attached = true ∧ Stood s m 0x20 ∧ reservedZero m.args [(8, 5)] = true ∧ s.namedTeam m = none) := by decide +kernel
abbrev Named (s : State) (m : DbgMsg) (code : Nat) (fields : List (Nat × Nat)) : Prop :=
  s.mem.wf = true ∧ (s.ctxAt m.ctx).dbg.attached = true ∧ Stood s m (BitVec.ofNat 16 code) ∧ reservedZero m.args fields = true ∧ s.namedTeam m = some 0 ∧
  0 < s.teams.length ∧ Shaped (s.teamAt 0) ∧ s.comptOf (s.teamAt 0) = 0
theorem witness_DebuggerCommands_halt : (∀ t ∈ [team, { team with st := .skid 3 }], Named (mailboxed (dmsg 0x20 []) true t) (dmsg 0x20 []) 0x20 [(8, 5)] ∧ t.alive = true) ∧ (∀ k, team.st ≠ .skid k) ∧
    ∀ t ∈ [team, { team with halted := true, byEvent := true }], (let m := dmsg 0x21 [(16, 4, 1)]; Named (mailboxed m true t) m 0x21 [(8, 5), (16, 4)] ∧ t.alive = true) := ⟨by decide +kernel, nofun, by decide +kernel⟩
/-- A register of each class, of a team that runs and of one that is halted. -/
theorem witness_DebuggerCommands_read : ∀ c ∈ [0, 1, 3], ∀ h ∈ [false, true], (let m := dmsg 0x22 [(13, 1, c), (14, 1, 23), (16, 2, 31)]; let t := { team with halted := h }
    Named (mailboxed m true t) m 0x22 [(8, 7), (16, 2)] ∧ t.halted = h ∧ fwArg m.args 13 1 = c ∧ fwArg m.args 14 1 = 23 ∧ 23 < t.vregs ∧ fwArg m.args 16 2 < t.nlanes) := by decide +kernel
theorem witness_DebuggerCommands_write : ∀ c ∈ [0, 1, 2, 3, 4], ∀ h ∈ [false, true], (let m := dmsg 0x23 [(13, 1, c), (14, 1, 9), (16, 2, 31), (24, 8, 7)]; let t := { team with halted := h }
    Named (mailboxed m true t) m 0x23 [(8, 7), (16, 2), (24, 8)] ∧ t.halted = h ∧ fwArg m.args 13 1 = c ∧ fwArg m.args 14 1 = 9 ∧ 9 < t.vregs ∧ fwArg m.args 16 2 < t.nlanes) := by
  decide +kernel

/-! Schedules. -/

theorem collOf_code (c : Coll) : collOf c.code = some c := by
  have ne : ∀ i j : Nat, i < 7 → j < 7 → i ≠ j → Config.collOp i ≠ Config.collOp j := by
    intro i j hi hj h e
    have e' := congrArg BitVec.toNat (Config.collCode.injective e)
    simp only [BitVec.toNat_ofNat] at e'
    omega
  cases c <;> simp [collOf, Coll.code, ne]
/-- A START of group 9: 4 chunks of 64 bytes, a schedule of 2 operations at 0x100, slot 0 bound to the page. -/
def startW : List Word := [BitVec.ofNat 64 (0x51 * 2 ^ 56 + 4 * 2 ^ 32 + 0x100), 0, 9 * 2 ^ 48, 64 * 2 ^ 32 + 2, 0, 0, 0, 0]
def startC (st : CmdState := .running) : Cmd :=
  let k : CReg := testCap 0 65536 0 1 (pLD ||| pST ||| pENG)
  { q := 7, n := 1, crew := 0, team := 0, kind := 0x51, w := startW, dst := some k, slots := [some k], state := st }
def peers : List (BitVec 12) := [0x111, me]
def schedState (gs : List Group) (xs : List Sched) (c : Cmd) : State := { linked base with groups := gs, scheds := xs, cmds := [c], now := 3000000 }
def nine : Group := { ctx := 0, id := 9, die := 0, members := peers, ready := true }
def formed (re : Bool) : Forming := { src := 0x111, seq := 8, reform := re, members := peers, die := 0, deadline := 50 }
theorem witness_Schedules_begin : ∀ gs ∈ [[], [{ nine with forming := some (formed true) }], [{ nine with ready := false }], [{ nine with die := 1 }], [nine]],
    (let s := schedState gs [] (startC .queued)
     s.canBegin 0 = true ∧ (s.crewAt (s.cmdAt 0).crew).ctx = some 0 ∧ (startC .queued).die = 0 ∧ (gs = [nine] → (s.groupAt 0).held = []) ∧
     s.groupOf 0 (BitVec.ofNat 16 (bitsAt (wordAt (startC .queued).w 2) 48 16)) = (if gs.length = 0 then none else some 0)) := by
  intro gs h
  simp only [List.mem_cons, List.not_mem_nil, or_false] at h
  rcases h with rfl | rfl | rfl | rfl | rfl
  · exact ⟨by decide +kernel, rfl, rfl, nofun, rfl⟩
  · exact ⟨by decide +kernel, rfl, rfl, fun _ => rfl, rfl⟩
  · exact ⟨by decide +kernel, rfl, rfl, fun _ => rfl, rfl⟩
  · exact ⟨by decide +kernel, rfl, rfl, fun _ => rfl, rfl⟩
  · exact ⟨by decide +kernel, rfl, rfl, fun _ => rfl, rfl⟩
/-- A schedule of one line, in the scratchpad, which is read at once; and one behind a window, whose line has to come. -/
theorem witness_Schedules_read : (let s := { schedState [nine] [] (startC .queued) with contexts := scratchy.contexts }; let c := s.cmdAt 0; let k := c.dst.getD {}
    let base := capCursor k.bits + bitsAt (wordAt c.w 0) 0 32; let len := 8 * bitsAt (wordAt c.w 3) 0 16
    (State.readSchedule 0 k base len (len / 16 + 2) s).2 = some none ∧ c.buf = [] ∧ c.rd = 0 ∧ c.req = none ∧ c.linkFail = none ∧ 1 ≤ len ∧ base % 64 + len ≤ 64 ∧
    s.way c k base len pLD false = .ok (.mem .scratch base)) := by decide +kernel
theorem witness_Schedules_read_far : (let k : CReg := testCap 0 65536 0 3 (pLD ||| pST ||| pENG ||| pFAB)
    let s := { schedState [nine] [] { startC .queued with dst := some k, req := some 0 } with contexts := (engine (startC .queued)).contexts, reqs := [asked (.command 0)] }
    s.canBegin 0 = true ∧ (State.readSchedule 0 k 0x100 16 3 s).2 = none) := by decide +kernel
theorem witness_Schedules_events : OpEvent 0 0 1 (.send 0 0) ∧ OpEvent 0 0 2 (.recv 0 0) ∧ OpEvent 0 0 3 (.recvred 0 0) ∧ OpEvent 0 0 4 (.schedCopy 0 0) ∧
    OpEvent 0 0 5 (.reduce 0 0) ∧ OpEvent 0 0 6 (.wait 0 0) ∧ OpEvent 0 0 7 (.signal 0 0) ∧ OpEvent 0 0 10 (.gbar 0 0) := by simp [OpEvent]
def opKinds : List Nat := [1, 2, 3, 4, 5, 6, 7, 10]
def inst (ops : List Word) (is : List SOp) (ls : List SLoop := []) (st : SchedState := .running) : Sched :=
  { die := 0, slot := 0, cmd := 0, group := 0, inst := 0, gen := 1, ops := ops, issued := is, loops := ls, st := st }
def opW (kind : Nat) : Word := BitVec.ofNat 64 (kind * 2 ^ 60 + 4 * 2 ^ 56)
/-- An operation of slot 0. -/
def sop (kind : Nat) (st : SOpState) (a : List SrcPiece := []) (b : List SrcPiece := []) : SOp :=
  { j := 0, w := opW kind, st := st, dst := if kind = 1 then none else some (0, 1, 0x240), srcA := some (0, 0x200), srcB := some (0, 0x280), a := a, b := b }
abbrev Runs_ (s : State) : Prop := 0 < s.scheds.length ∧ (s.schedAt 0).st = .running ∧ (s.cmdAt (s.schedAt 0).cmd).cancelled = false
theorem witness_Schedules_cancelled : (let s := schedState [nine] [inst [opW 1] []] { startC with cancelled := true }
    0 < s.scheds.length ∧ (s.schedAt 0).st = .running ∧ (s.cmdAt (s.schedAt 0).cmd).cancelled = true) := by decide +kernel
theorem witness_Schedules_issue : ∀ kind ∈ opKinds, (let s := schedState [nine] [inst [opW kind] []] startC; let x := s.schedAt 0
    Runs_ s ∧ 0 = x.issued.length ∧ opOf (x.ops.getD x.pc 0) = kind ∧ (x.issued.filter fun o => o.st ≠ .done).length < 64) := by decide +kernel
/-- An operation that can start, and one behind a GBAR. -/
theorem witness_Schedules_ready : ∀ kind ∈ opKinds, (let s := schedState [nine] [inst [] [sop kind .issued]] startC; let t := schedState [nine] [inst [] [sop 10 .started, sop kind .issued]] startC
    Runs_ s ∧ 0 < (s.schedAt 0).issued.length ∧ ((s.schedAt 0).opAt 0).op = kind ∧ ((s.schedAt 0).opAt 0).st = .issued ∧ s.opReady 0 0 = true ∧
    Runs_ t ∧ 1 < (t.schedAt 0).issued.length ∧ ((t.schedAt 0).opAt 1).op = kind ∧ ((t.schedAt 0).opAt 1).st = .issued ∧ t.opReady 0 1 = false) := by decide +kernel
theorem witness_Schedules_started : ∀ kind ∈ opKinds, (let s := schedState [nine] [inst [] [sop kind .started]] startC
    Runs_ s ∧ 0 < (s.schedAt 0).issued.length ∧ ((s.schedAt 0).opAt 0).op = kind ∧ ((s.schedAt 0).opAt 0).st = .started) := by decide +kernel
/-- What it writes has been read, or has arrived. -/
def moving (kind : Nat) : State := schedState [nine] [inst [] [sop kind .started [piece 64 0] [piece 64 0]]] startC
theorem witness_Schedules_writes : ∀ kind ∈ [2, 3, 4, 5], (let s := moving kind; let x := s.schedAt 0; let o := x.opAt 0; let c := s.cmdAt x.cmd
    Runs_ s ∧ o.op = kind ∧ o.st = .started ∧ o.dst = some (0, 1, 0x240) ∧ o.req = none ∧ s.way c (s.slotCap 0 0) (0x240 + o.bytes + o.wr) 64 pST true = .ok (.mem .dev 0x240) ∧
    c.linkFail = none ∧ s.mem.wf = true ∧ o.bytes = 0 ∧ o.wr = 0) := by decide +kernel
/-- The same where the slot is bound to the scratchpad: at its start, and 16 bytes on. -/
theorem witness_Schedules_scratch : ∀ kind ∈ [2, 3, 4, 5], ∀ w ∈ [0, 16],
    (let k : CReg := testCap 0 65536 0 2 (pLD ||| pST ||| pENG)
     let s := { schedState [nine] [inst [] [{ sop kind .started [piece 64 0] [piece 64 0] with wr := w }]] { startC with slots := [some k] } with
       contexts := [{ placedContext with roots := [(2, { kind := .scratch, state := .live, base := 0, limit := 65536, ceil := 0x7FF })] }] }
     let x := s.schedAt 0; let o := x.opAt 0; let c := s.cmdAt x.cmd
     Runs_ s ∧ o.op = kind ∧ o.st = .started ∧ o.req = none ∧ s.way c (s.slotCap 0 0) (0x240 + o.bytes + o.wr) (64 - w) pST true = .ok (.mem .scratch (0x240 + w)) ∧
     c.linkFail = none ∧ (s.crewAt c.crew).scratch.wf = true ∧ c.crew < s.crews.length ∧ o.bytes = 0 ∧ o.wr = w) := by decide +kernel
theorem witness_Schedules_unit_2 : ∃ bs, UnitOf (moving 2) 0 0 bs ∧ min (bs.length - 0) (64 - 0x240 % 64) = 64 := by
  refine ⟨List.replicate 64 (1, 3), ?_, by decide⟩
  have h : bytesIn (sop 2 .started [piece 64 0]).a 0 ((sop 2 .started).unit 64 1) = some (List.replicate 64 (1, 3)) := by decide +kernel
  exact h
theorem witness_Schedules_unit_4 : UnitOf (moving 4) 0 0 (List.replicate 64 (1, 3)) := by
  have h : bytesIn (sop 4 .started [piece 64 0]).a 0 ((sop 4 .started).unit 64 1) = some (List.replicate 64 (1, 3)) := by decide +kernel
  exact h
theorem witness_Schedules_unit_3 : ∃ bs, UnitOf (moving 3) 0 0 bs := by
  have h : bytesIn (sop 3 .started [piece 64 0]).a 0 ((sop 3 .started).unit 64 4) = some (List.replicate 64 (1, 3)) := by decide +kernel
  exact ⟨_, Or.inl rfl, _, _, .i32, h, h, by decide, rfl⟩
theorem witness_Schedules_unit_5 : ∃ bs, UnitOf (moving 5) 0 0 bs := by
  have h : bytesIn (sop 5 .started [piece 64 0]).a 0 ((sop 5 .started).unit 64 4) = some (List.replicate 64 (1, 3)) := by decide +kernel
  exact ⟨_, Or.inr rfl, _, _, .i32, h, h, by decide, rfl⟩
theorem witness_Schedules_copy : (let s := schedState [nine] [inst [] [sop 4 .started]] startC; let x := s.schedAt 0; let o := x.opAt 0; let chunk := s.chunkOf 0
    o.srcA = some (0, 0x200) ∧ (s.cmdAt x.cmd).linkFail = none ∧ bytesIn o.a o.bytes (o.unit chunk 1) = none ∧ o.req = none ∧ chunk = 64 ∧
    (let off := reach o.a o.bytes
     let m := min (o.bytes + o.unit chunk 1 - off) (64 - (0x200 + off) % 64)
     s.way (s.cmdAt x.cmd) (s.slotCap 0 0) (0x200 + off) m pLD false = .ok (.mem .dev 0x200))) := by decide +kernel
/-- A SEND that has its credit, one that has none, one that has sent its chunk. -/
theorem witness_Schedules_send : ∀ p ∈ [([(0, 0)], 0), ([], 0), ([(0, 0)], 64)],
    (let s := schedState [nine] [{ inst [] [{ sop 1 .started [piece 64 0] with bytes := p.2 }] with credits := p.1 }] startC; let x := s.schedAt 0; let o := x.opAt 0
     Runs_ s ∧ o.op = 1 ∧ o.st = .started ∧ o.srcA = some (0, 0x200) ∧ o.bytes = p.2 ∧ (x.credits.contains (o.peer, o.k) = true ↔ p.1 ≠ []) ∧
     (bytesIn o.a o.bytes (min (64 - o.bytes) (64 - (0x200 + o.bytes) % 64))).isSome = true ∧ s.chunkOf 0 = 64) := by decide +kernel
theorem witness_Schedules_control : (let s := schedState [nine] [inst [opW 8] []] startC; Runs_ s ∧ opOf ((s.schedAt 0).ops.getD (s.schedAt 0).pc 0) = 8) ∧
    (∀ l ∈ [({ body := 0, i := 0, count := 2 } : SLoop), { body := 0, i := 1, count := 2 }], (let s := schedState [nine] [inst [opW 9] [] [l]] startC
      Runs_ s ∧ opOf ((s.schedAt 0).ops.getD (s.schedAt 0).pc 0) = 9 ∧ (s.schedAt 0).loops = l :: [])) ∧
    (let s := schedState [nine] [inst [opW 15] [sop 1 .done]] startC
     Runs_ s ∧ opOf ((s.schedAt 0).ops.getD (s.schedAt 0).pc 0) = 15 ∧ (∀ o ∈ (s.schedAt 0).issued, o.st = .done) ∧ (s.schedAt 0).cmd < s.cmds.length ∧
     (s.cmdAt (s.schedAt 0).cmd).state ≠ .done ∧ (s.cmdAt (s.schedAt 0).cmd).cause = 0) := by decide +kernel
theorem witness_Schedules_timeout : (let s := schedState [nine] [inst [] [sop 2 .started]] startC; let o := (s.schedAt 0).opAt 0
    Runs_ s ∧ s.awaits 0 o = some (0, o.lineAddr 0) ∧ o.last + (s.ctxAt (s.groupAt (s.schedAt 0).group).ctx).fabricTimeout ≤ s.now) := by decide +kernel
/-- Votes of all members, and of one at the deadline. -/
theorem witness_Schedules_decide : ∀ vs ∈ [[(0, some (report 0x83 0 1)), (1, none)], [(1, none)]],
    (let s := schedState [nine] [{ inst [] [] [] .aborting with votes := vs }] startC; let x := s.schedAt 0; let g := s.groupAt x.group
     let missing := (List.range g.n).filter fun r => !x.votes.any fun v => v.1 = r
     let reports := x.votes.filterMap (·.2) ++ (missing.head?.map fun m => report 0x82 m 0xFFFF).toList
     0 < s.scheds.length ∧ x.st = .aborting ∧ (missing = [] ∨ x.abortAt + (s.ctxAt g.ctx).fabricTimeout ≤ s.now) ∧ reports ≠ [] ∧ (∀ r ∈ reports, r.code ≠ 0) ∧
     x.cmd < s.cmds.length ∧ (s.cmdAt x.cmd).state ≠ .done) := by decide +kernel
/-- A packet of the first instance. -/
def cpk (c : Coll) : Packet := { pk with cls := 3, op := c.code, src := 0x111, exp := 9, xid := 0, gen := 1, addr := 0 }
theorem coll_accepted (c : Coll) (xs : List Sched) (ctx : Option Nat) : Accepted (schedState [nine] xs startC) ctx (cpk c) 3 (fun _ => true) := by
  refine ⟨0, schedState [nine] xs startC, (by decide +kernel : (linked base).portFrom 0x111 = some 0), ?_, rfl, rfl, ?_, ?_⟩
  · show (collOf c.code).isSome = true
    rw [collOf_code]; rfl
  · have hw : (schedState [nine] xs startC).worldOf ctx = none := by cases ctx <;> rfl
    unfold State.runWorld; rw [hw]
  · have hw : (schedState [nine] xs startC).worldOf ctx = none := by cases ctx <;> rfl
    unfold State.authentic; rw [hw]
theorem for_instance (c : Coll) (xs : List Sched) (st : SchedState) (is : List SOp) (h : xs = [inst [] is [] st]) (hs : st ≠ .free) :
    ForInstance (schedState [nine] xs startC) (cpk c) 0 0 := by
  subst h; cases st
  · exact ⟨rfl, .inl rfl, rfl, Nat.succ_pos 0, rfl, ⟨rfl, rfl⟩, coll_accepted c _ _⟩
  · exact ⟨rfl, .inl rfl, rfl, Nat.succ_pos 0, rfl, ⟨rfl, rfl⟩, coll_accepted c _ _⟩
  · exact absurd rfl hs
theorem witness_Schedules_packets (c : Coll) : ForInstance (schedState [nine] [inst [] [sop 2 .started]] startC) (cpk c) 0 0 ∧ collOf (cpk c).op = some c ∧
    (inst [] [sop 2 .started]).st = .running := ⟨for_instance c _ .running _ rfl nofun, collOf_code c, rfl⟩
theorem witness_Schedules_finds : Finds (inst [] [sop 2 .started]) 0 (fun o => o.receives && o.k = 0 / 64) 0 ∧ 0 % 64 + pktLen (cpk .data) ≤ 64 ∧
    Finds (inst [] [sop 1 .started]) 0 (fun o => o.op = 1 && o.k = 0 / 64) 0 ∧ Finds (inst [] [sop 7 .started]) 0 (fun o => o.op = 7 && o.k = 0) 0 := by
  refine ⟨?_, by decide, ?_, ?_⟩ <;> (unfold Finds; decide +kernel)
theorem witness_Schedules_votes : ForInstance (schedState [nine] [inst [] [] [] .aborting] startC) (cpk .vote) 0 0 ∧ (inst [] [] [] .aborting).st = .aborting ∧
    1 < ((schedState [nine] [inst [] [] [] .aborting] startC).groupAt 0).n := ⟨for_instance .vote _ .aborting _ rfl nofun, rfl, by decide⟩
theorem witness_Schedules_held : (let s := schedState [nine] [] startC; let p := cpk .data
    s.packetGroup p = some 0 ∧ (p.gen = BitVec.ofNat 16 (s.groupAt 0).gen ∨ s.fromS7 p.src = true) ∧ s.instanceOf 0 = none ∧ (s.groupAt 0).count % 65536 = p.xid.toNat ∧
    Live s (s.groupCtx p) ∧ Accepted s (s.groupCtx p) p 3 (fun _ => true) ∧ (s.groupAt 0).held.length < 64) :=
  ⟨rfl, .inl rfl, rfl, rfl, ⟨rfl, rfl⟩, coll_accepted .data _ _, by decide⟩

end Sys2Proof.Tests
end

section
/-! PROOFS. The traps that come before a word has any effect (02 R45, R51, R65, R66): its legality, its mode, the special register it names. -/
namespace Sys2Proof.Machine

/-! The trap itself. -/

@[simp] theorem Team.orFpst_zero (t : Team) : t.orFpst 0 = t := by
  simp [Team.orFpst]

/-- Putting a team back where it stands changes nothing, even where no team stands there. -/
@[simp] theorem State.setTeamAt_teamAt (s : State) (i : Nat) : s.setTeamAt i (s.teamAt i) = s := by
  unfold State.setTeamAt State.teamAt
  rcases Nat.lt_or_ge i s.teams.length with hi | hi
  · rw [List.getD_eq_getElem _ _ hi, List.set_getElem_self]
  · rw [List.set_eq_of_length_le hi]

/-- A trap that signals no exception and refuses no acquire is taken in the state the instruction was issued in. -/
theorem conclude_trapNow (s : State) {c : BitVec 8} (hc : c ≠ cSCOPE) :
    conclude s (.error (trapNow s.team c)) = .next (s.takeTrap s.cur { cause := c, pc := s.team.pc }) := by
  have hs : s.setTeam (s.team.orFpst 0) = s := by
    rw [Team.orFpst_zero]; exact State.setTeamAt_teamAt s s.cur
  simp only [conclude, trapNow, hs, hc, if_false]
  cases s.team.st <;> rfl

/-! The tests before a word's own effect. -/

/-- What `issue` answers where the instruction's own effect has the outcome `x` (02 R51). With only an outcome left open, one statement covers
every word, whatever its effect is. -/
def issueTo (i : Instr) (s : State) (x : Host.Outcome State Fault Refusal) : Host.Outcome State Fault Refusal :=
  if !Rows.legal s.team.vregs i then conclude s (.error (trapNow s.team cILLEGAL))
  else if modeRank s.team.mode < modeRank (Rows.mode i) then conclude s (.error (trapNow s.team cPRIV))
  else
    match srCause s.team i with
    | some c => conclude s (.error (trapNow s.team c))
    | none => if skipped s.team i then .next (s.retire (Rows.size i)) else x

/-- The tests come before the effect of every word; an event has no word. -/
theorem exec_eq_issueTo {i : Instr} (hw : Rows.isWord i = true) (s : State) : ∃ x, exec i s = issueTo i s x := by
  unfold exec
  cases i <;> cases hw <;> exact ⟨_, rfl⟩

section
variable {i : Instr} {s : State} (hw : Rows.isWord i = true)
include hw

theorem exec_illegal (hl : Rows.legal s.team.vregs i = false) :
    exec i s = .next (s.takeTrap s.cur { cause := cILLEGAL, pc := s.team.pc }) := by
  obtain ⟨x, hx⟩ := exec_eq_issueTo hw s
  rw [hx, ← conclude_trapNow s (by decide)]
  simp [issueTo, hl]

theorem exec_priv (hl : Rows.legal s.team.vregs i = true) (hm : modeRank s.team.mode < modeRank (Rows.mode i)) :
    exec i s = .next (s.takeTrap s.cur { cause := cPRIV, pc := s.team.pc }) := by
  obtain ⟨x, hx⟩ := exec_eq_issueTo hw s
  rw [hx, ← conclude_trapNow s (by decide)]
  simp [issueTo, hl, hm]

/-- A word of the team's mode that names a special register which that mode may not touch. -/
theorem exec_denied {c : BitVec 8} (hl : Rows.legal s.team.vregs i = true) (hm : modeRank (Rows.mode i) ≤ modeRank s.team.mode)
    (hd : srCause s.team i = some c) (hc : c ≠ cSCOPE) : exec i s = .next (s.takeTrap s.cur { cause := c, pc := s.team.pc }) := by
  obtain ⟨x, hx⟩ := exec_eq_issueTo hw s
  rw [hx, ← conclude_trapNow s hc]
  simp [issueTo, hl, Nat.not_lt.2 hm, hd]

end

/-- A word that none of the rows decode: no row makes it legal (02 R65). -/
theorem exec_illegalEncoding (w : Word) (s : State) :
    exec (.illegalEncoding w) s = .next (s.takeTrap s.cur { cause := cILLEGAL, pc := s.team.pc }) := by
  show execIllegalEncoding w s = _
  unfold execIllegalEncoding
  rw [issue_illegal rfl, conclude_trapNow s (by decide)]

/-! Which special registers a mode may touch (02 R45, Table 2-3). -/

theorem srCause_rdsr {t : Team} {f : IForm} (hn : 14 ≤ srNum f ∧ srNum f ≤ 21) (hu : t.mode = .user) : srCause t (.rdsr f) = some cPRIV := by
  simp [srCause, trapReg, hn, hu]

/-- A write that a higher mode may do. -/
theorem srDenied_priv {n : Nat} {m : Mode} (h : (14 ≤ n ∧ n ≤ 21 ∧ m = .user) ∨ ((n = 7 ∨ n = 22) ∧ m ≠ .firm)) :
    srDenied n m = some cPRIV := by
  rcases h with ⟨h14, h21, hu⟩ | ⟨rfl | rfl, hf⟩
  · simp [srDenied, trapReg, h14, h21, hu]
  · simp [srDenied, trapReg, hf]
  · simp [srDenied, trapReg, hf]

/-- A write that no mode may do; of a trap register only a mode that may touch it learns so. -/
theorem srDenied_illegal {n : Nat} {m : Mode} (h : n ≤ 6 ∨ n = 8 ∨ ((n = 16 ∨ n = 20) ∧ m ≠ .user)) : srDenied n m = some cILLEGAL := by
  have htrap : (trapReg n && decide (m = .user)) = false := by
    rcases h with h | h | ⟨-, hm⟩
    · simp only [trapReg, Bool.and_eq_false_iff, decide_eq_false_iff_not]; omega
    · simp [trapReg, h]
    · simp [hm]
  have hnone : n ≤ 6 ∨ n = 8 ∨ n = 16 ∨ n = 20 := by omega
  simp only [srDenied, htrap, Bool.false_eq_true, if_false, Bool.or_eq_true, decide_eq_true_eq]
  exact if_pos (by omega)

/-- Settles O10: every word's meaning begins with the tests of issue, which read no source and no guard before these traps. -/
theorem illegalAndPrivilegedTrap : Obligations.IllegalAndPrivilegedTrap := by
  unfold Obligations.IllegalAndPrivilegedTrap
  refine ⟨fun i s _ hw hl => exec_illegal hw hl, fun i s _ hw hl hm => exec_priv hw hl hm,
    fun i s _ hl hm => ⟨?rdsr, ?wrsrPriv, ?wrsrIllegal, ?lvl, ?trappc⟩, fun w s _ => exec_illegalEncoding w s⟩
  case rdsr => rintro f rfl hn hu; exact exec_denied rfl hl hm (srCause_rdsr hn hu) (by decide)
  case wrsrPriv =>
    rintro f rfl h
    exact exec_denied rfl hl hm (srDenied_priv (h.imp_right (And.imp_left .inl))) (by decide)
  case wrsrIllegal => rintro f rfl h; exact exec_denied rfl hl hm (srDenied_illegal h) (by decide)
  case lvl => rintro f rfl hf; exact exec_denied rfl hl hm (srDenied_priv (.inr ⟨.inr rfl, hf⟩)) (by decide)
  case trappc => rintro f rfl hu; exact exec_denied rfl hl hm (srDenied_priv (.inl ⟨by decide, by decide, hu⟩)) (by decide)

end Sys2Proof.Machine
end

section
/-! PROOFS. Integer values (04 R95-R102): what the model computes on numbers is what the exact operations give on bit patterns. -/
namespace Sys2Proof.Machine

/-! Narrowing (R95). -/

theorem width_pos (t : Ty) : 0 < Rows.width t := by cases t <;> decide

/-- The signed reading of a number's low bits is that of its bit pattern. -/
theorem sextN_eq_toInt (x w : Nat) : sextN x w = (BitVec.ofNat w x).toInt := by
  rw [sextN, BitVec.toInt_eq_toNat_cond, BitVec.toNat_ofNat]
  by_cases h : 2 ^ w ≤ 2 * (x % 2 ^ w)
  · rw [if_pos h, if_neg (not_lt.2 h)]; norm_cast
  · rw [if_neg h, if_pos (not_le.1 h)]

theorem readInt_dvd (t : Ty) (x : Nat) : (2 ^ Rows.width t : Int) ∣ readInt t x - x := by
  unfold readInt
  split
  · rw [sextN_eq_toInt, ← BitVec.ofInt_natCast, BitVec.toInt_ofInt]
    exact_mod_cast Int.dvd_bmod_sub_self
  · push_cast
    exact Int.dvd_emod_sub_self

/-- Every reading is in the range of its type (03 R68). -/
theorem readInt_mem_range (t : Ty) (x : Nat) : intMin t ≤ readInt t x ∧ readInt t x ≤ intMax t := by
  unfold readInt intMin intMax
  split
  · rw [sextN_eq_toInt]
    exact ⟨BitVec.le_toInt _, Int.le_sub_one_of_lt BitVec.toInt_lt⟩
  · have : x % 2 ^ Rows.width t < 2 ^ Rows.width t := Nat.mod_lt _ (Nat.two_pow_pos _)
    exact ⟨Int.natCast_nonneg _, Int.le_sub_one_of_lt (by exact_mod_cast this)⟩

theorem intMin_le_intMax (t : Ty) : intMin t ≤ intMax t :=
  (readInt_mem_range t 0).1.trans (readInt_mem_range t 0).2

theorem clampTo_eq (t : Ty) (x : Int) : clampTo t x = max (intMin t) (min (intMax t) x) := by
  have h := intMin_le_intMax t
  unfold clampTo
  split
  · omega
  · split <;> omega

/-- Narrowing is what R95 says: clamped with SAT, else the value of the range that is equal modulo 2^w. -/
theorem narrowed_narrow (t : Ty) (sat : Bool) (x : Int) : Narrowed t sat x (narrow t sat x) := by
  cases sat
  · have hx : ((x % 2 ^ Rows.width t).toNat : Int) = x % 2 ^ Rows.width t := Int.toNat_of_nonneg (Int.emod_nonneg _ (by positivity))
    have hw := (readInt_dvd t (x % 2 ^ Rows.width t).toNat).add (hx ▸ Int.dvd_emod_sub_self (x := x))
    exact ⟨(readInt_mem_range t _).1, (readInt_mem_range t _).2, by simpa [narrow, wrapTo] using hw⟩
  · rw [narrow, if_pos rfl, clampTo_eq]
    exact ⟨le_max_left _ _, max_le (intMin_le_intMax t) (min_le_left _ _), rfl⟩

/-! Bit patterns. -/

theorem toNat_pat (w : Nat) (x : Int) : (pat w x).toNat = bitsOf w x := by
  simp [pat, bitsOf]

/-- The pattern of a reading is that of the content that is read. -/
theorem pat_readInt (t : Ty) (x : Nat) : pat (Rows.width t) (readInt t x) = BitVec.ofNat (Rows.width t) x := by
  apply BitVec.eq_of_toNat_eq
  rw [toNat_pat, bitsOf, Int.emod_eq_emod_iff_emod_sub_eq_zero.2 (Int.emod_eq_zero_of_dvd (readInt_dvd t x)), BitVec.toNat_ofNat]
  norm_cast

/-! Shifts (R101): a count of w or more shifts all bits out. -/

section
variable {w : Nat} (x : BitVec w) (n : Nat)

theorem shiftLeft_min_toNat : (x <<< min n w).toNat = shlN w x.toNat n := by
  rw [BitVec.toNat_shiftLeft, Nat.shiftLeft_eq, shlN]
  split <;> rename_i h
  · rw [min_eq_left h.le]
  · rw [min_eq_right (not_lt.1 h), Nat.mul_mod_left]

theorem ushiftRight_min_toNat : (x >>> min n w).toNat = shrN w x.toNat n := by
  rw [BitVec.toNat_ushiftRight, Nat.shiftRight_eq_div_pow, shrN]
  split <;> rename_i h
  · rw [min_eq_left h.le]
  · rw [min_eq_right (not_lt.1 h), Nat.div_eq_of_lt x.isLt]

theorem sshiftRight_min_toNat : (x.sshiftRight (min n w)).toNat = sarN w x.toNat n := by
  have hk : 2 ^ min n w * 2 ^ (w - min n w) = 2 ^ w := by rw [← pow_add, Nat.add_sub_cancel' (min_le_right n w)]
  unfold sarN
  dsimp only
  cases h : x.msb
  · have hx := BitVec.msb_eq_false_iff_two_mul_lt.1 h
    rw [BitVec.toNat_sshiftRight_of_msb_false h, if_neg (by omega), Nat.shiftRight_eq_div_pow, Nat.add_zero]
  · -- the copies of the sign are the complement of what enters the complement
    have hdiv := Nat.mul_sub_div x.toNat (2 ^ min n w) (2 ^ (w - min n w)) (hk ▸ x.isLt)
    have hq : x.toNat / 2 ^ min n w < 2 ^ (w - min n w) := Nat.div_lt_of_lt_mul (hk ▸ x.isLt)
    have hp : 2 ^ (w - min n w) ≤ 2 ^ w := Nat.pow_le_pow_right two_pos (Nat.sub_le _ _)
    rw [BitVec.toNat_sshiftRight_of_msb_true h, if_pos (BitVec.msb_eq_true_iff_two_mul_ge.1 h), Nat.shiftRight_eq_div_pow,
      Nat.sub_sub (2 ^ w) 1 x.toNat, Nat.add_comm 1, ← hk, hdiv, hk]
    generalize 2 ^ w = M, 2 ^ (w - min n w) = P, x.toNat / 2 ^ min n w = q at hp hq ⊢
    omega

theorem rotateLeft_toNat (hw : 0 < w) : (x.rotateLeft n).toNat = rotN w x.toNat n := by
  have hk : 2 ^ (w - n % w) * 2 ^ (n % w) = 2 ^ w := by rw [← pow_add, Nat.sub_add_cancel (Nat.mod_lt n hw).le]
  have hq : x.toNat / 2 ^ (w - n % w) < 2 ^ (n % w) := Nat.div_lt_of_lt_mul (hk ▸ x.isLt)
  have hsum : (x.rotateLeft n).toNat = x.toNat * 2 ^ (n % w) % 2 ^ w + x.toNat / 2 ^ (w - n % w) := by
    rw [BitVec.toNat_rotateLeft, Nat.shiftLeft_eq, Nat.shiftRight_eq_div_pow, ← hk, Nat.mul_mod_mul_right, Nat.mul_comm,
      Nat.two_pow_add_eq_or_of_lt hq]
  have hlt := (x.rotateLeft n).isLt
  rw [hsum] at hlt ⊢
  rw [rotN, Nat.add_mod, Nat.mod_eq_of_lt (hq.trans_le (Nat.pow_le_pow_right two_pos (Nat.mod_lt n hw).le)), Nat.mod_eq_of_lt hlt]

end

/-! Counts and reversal (R102). -/

theorem clz_toNat {w : Nat} (hw : 0 < w) (x : BitVec w) : x.clz.toNat = clzN w x.toNat := by
  unfold clzN
  split <;> rename_i h
  · obtain rfl : x = 0#w := BitVec.eq_of_toNat_eq h
    simp [BitVec.clz_eq_iff_eq_zero.2 rfl, Nat.mod_eq_of_lt Nat.lt_two_pow_self]
  · have hx : x ≠ 0#w := fun e => h (congrArg BitVec.toNat e)
    have hlt : x.clz.toNat < w := by
      simpa [Nat.mod_eq_of_lt Nat.lt_two_pow_self] using BitVec.lt_def.1 (BitVec.clz_lt_iff_ne_zero.2 hx)
    have hlog : x.toNat.log2 = w - 1 - x.clz.toNat := by
      refine (Nat.log2_eq_iff h).2 ⟨Nat.ge_two_pow_of_testBit (BitVec.getLsbD_true_clz_of_ne_zero hw hx), ?_⟩
      have := BitVec.toNat_lt_two_pow_sub_clz (x := x)
      rwa [show w - 1 - x.clz.toNat + 1 = w - x.clz.toNat by omega]
    omega

theorem popcN_eq (w x : Nat) : popcN w x = ((List.range w).filter x.testBit).length := by
  induction w generalizing x with
  | zero => rfl
  | succ k ih =>
    have hcomp : x.testBit ∘ Nat.succ = (x / 2).testBit := funext fun j => Nat.testBit_succ x j
    rw [popcN, ih, List.range_succ_eq_map, List.filter_cons, List.filter_map, hcomp]
    rcases Nat.mod_two_eq_zero_or_one x with h | h <;> simp [Nat.testBit_zero, h, Nat.add_comm]

theorem popc_toNat {w : Nat} (x : BitVec w) : ((List.range w).filter fun k => x.getLsbD k).length = popcN w x.toNat :=
  (popcN_eq w x.toNat).symm

theorem brevN_lt (w x : Nat) : brevN w x < 2 ^ w := by
  induction w generalizing x with
  | zero => exact Nat.one_pos
  | succ k ih =>
    have := ih (x / 2)
    rw [brevN, pow_succ]
    rcases Nat.mod_two_eq_zero_or_one x with h | h <;> rw [h] <;> omega

theorem testBit_brevN (w x k : Nat) : (brevN w x).testBit k = (decide (k < w) && x.testBit (w - 1 - k)) := by
  induction w generalizing x with
  | zero => simp [brevN]
  | succ n ih =>
    rw [brevN, Nat.mul_comm, Nat.testBit_two_pow_mul_add _ (brevN_lt n _)]
    split <;> rename_i h
    · rw [ih, ← Nat.testBit_succ, show (n - 1 - k).succ = n + 1 - 1 - k by omega]
      simp [h, Nat.lt_succ_of_lt h]
    · rcases (not_lt.1 h).eq_or_lt with rfl | hlt
      · simp [Nat.testBit_zero]
      · have : x % 2 < 2 ^ (k - n) := (Nat.mod_lt x two_pos).trans_le (Nat.le_self_pow (by omega) 2)
        rw [Nat.testBit_lt_two_pow this]
        simp [show ¬ k < n + 1 by omega]

theorem reverse_toNat {w : Nat} (x : BitVec w) : x.reverse.toNat = brevN w x.toNat := by
  apply Nat.eq_of_testBit_eq
  intro k
  rw [testBit_brevN, BitVec.testBit_toNat, BitVec.getLsbD_reverse, BitVec.getMsbD]
  rfl

/-! Bit fields (R102). -/

/-- A sum of distinct powers of two has the bits that it sums. -/
theorem testBit_sum_two_pow (p : Nat → Bool) (w : Nat) :
    (((List.range w).filter p).map fun j => 2 ^ j).sum < 2 ^ w ∧
    ∀ k, (((List.range w).filter p).map fun j => 2 ^ j).sum.testBit k = (decide (k < w) && p k) := by
  induction w with
  | zero => simp
  | succ n ih =>
    obtain ⟨hlt, hbit⟩ := ih
    have hsum : (((List.range (n + 1)).filter p).map fun j => 2 ^ j).sum =
        2 ^ n * (p n).toNat + (((List.range n).filter p).map fun j => 2 ^ j).sum := by
      rw [List.range_succ, List.filter_append, List.map_append, List.sum_append, Nat.add_comm]
      cases h : p n <;> simp [h]
    rw [hsum, pow_succ]
    refine ⟨by cases p n <;> simp <;> omega, fun k => ?_⟩
    rw [Nat.testBit_two_pow_mul_add _ hlt, hbit]
    split <;> rename_i h
    · simp [h, Nat.lt_succ_of_lt h]
    · rcases (not_lt.1 h).eq_or_lt with rfl | hk
      · cases p n <;> simp
      · have : (p n).toNat < 2 ^ (k - n) := (Bool.toNat_lt _).trans_le (Nat.le_self_pow (by omega) 2)
        rw [Nat.testBit_lt_two_pow this]
        simp [show ¬ k < n + 1 by omega]

/-- A number is the sum of the powers of two at its bits. -/
theorem sum_two_pow_eq {p : Nat → Bool} {w x : Nat} (h : ∀ k, x.testBit k = (decide (k < w) && p k)) :
    (((List.range w).filter p).map fun k => (2 ^ k : Int)).sum = x := by
  rw [Nat.eq_of_testBit_eq fun k => (h k).trans ((testBit_sum_two_pow p w).2 k).symm]
  simp [Nat.cast_list_sum, Function.comp_def]

theorem testBit_bfiN (w a b c k : Nat) : (bfiN w a b c).testBit k =
    (decide (k < w) && if b % 64 ≤ k ∧ k < b % 64 + b / 256 % 128 then a.testBit (k - b % 64) else c.testBit k) := by
  unfold bfiN
  dsimp only
  generalize b % 64 = pos
  generalize b / 256 % 128 = len
  split <;> rename_i h
  · rw [Nat.testBit_mod_two_pow]
    by_cases hk : k < w
    · rw [if_neg (by omega)]
    · simp [hk]
  · have hc : c % 2 ^ pos < 2 ^ pos := Nat.mod_lt _ (Nat.two_pow_pos _)
    have ha : 2 ^ pos * (a % 2 ^ (min (pos + len) w - pos)) + c % 2 ^ pos < 2 ^ min (pos + len) w := by
      have hn := Nat.mod_lt a (Nat.two_pow_pos (min (pos + len) w - pos))
      calc _ < 2 ^ pos * (a % 2 ^ (min (pos + len) w - pos) + 1) := Nat.add_lt_add_left hc _
        _ ≤ 2 ^ pos * 2 ^ (min (pos + len) w - pos) := Nat.mul_le_mul_left _ hn
        _ = 2 ^ min (pos + len) w := by rw [← pow_add, Nat.add_sub_cancel' (not_le.1 h).le]
    rw [Nat.add_comm, Nat.mul_comm _ (2 ^ min _ _), Nat.add_comm (c % _), Nat.mul_comm _ (2 ^ pos), Nat.testBit_two_pow_mul_add _ ha,
      Nat.testBit_two_pow_mul_add _ hc]
    simp only [Nat.testBit_mod_two_pow, Nat.testBit_div_two_pow]
    by_cases hkw : k < w
    · by_cases hin : pos ≤ k ∧ k < pos + len
      · rw [if_pos (by omega), if_neg (by omega), if_pos hin]
        simp [hkw, show k - pos < min (pos + len) w - pos by omega]
      · rw [if_neg hin]
        by_cases hk : k < pos
        · rw [if_pos (by omega), if_pos hk]
          simp [hk, hkw]
        · rw [if_neg (by omega), Nat.sub_add_cancel (by omega)]
    · rw [if_neg (by omega), Nat.sub_add_cancel (by omega)]
      simp [hkw]

end Sys2Proof.Machine
end

section
/-! PROOFS. What an F-R instruction that computes lane by lane leaves and writes, from its operation alone (04 R94, R95, 06 R153). -/
namespace Sys2Proof.Machine

/-! Operands: one per lane. -/

theorem readVTag_length {t : Team} {r cnt : Nat} {pol : Bool} {lanes : List Nat} {os : List Opd}
    (h : readVTag t r cnt pol lanes = .ok os) : os.length = lanes.length := by
  unfold readVTag at h
  dsimp only at h
  split at h
  · cases h
  · cases h; exact List.length_map _

theorem remoteLanes_eq {t : Team} {lanes : List Nat} {os os' : List Opd} (h : remoteLanes t lanes os = .ok os') : os' = os := by
  unfold remoteLanes at h
  dsimp only at h
  split at h
  · cases h; rfl
  · cases h

theorem readV_length {t : Team} {r cnt : Nat} {pol : Bool} {lanes : List Nat} {os : List Opd}
    (h : readV t r cnt pol lanes = .ok os) : os.length = lanes.length := by
  unfold readV at h
  split at h
  · cases h
  · next ht => rw [remoteLanes_eq h]; exact readVTag_length ht

theorem readGen_length {t : Team} {ln ob pol : Bool} {cnt n : Nat} {lanes : List Nat} {os : List Opd}
    (h : readGen t ln ob pol cnt n lanes = .ok os) : os.length = lanes.length := by
  unfold readGen at h
  split at h
  · next he => cases h; rw [List.isEmpty_iff.1 he]; rfl
  · split at h
    · split at h
      · cases h
      · cases h; exact List.length_map _
    · exact readV_length h

theorem readFld_length {t : Team} {k : Rows.Fld} {ln ob pol : Bool} {ty src : Ty} {n : Nat} {lanes : List Nat} {os : List Opd}
    (h : readFld t k ln ob pol ty src n lanes = .ok os) : os.length = lanes.length := by
  unfold readFld at h
  split at h
  · exact readGen_length h
  · exact readGen_length h
  · exact readGen_length h
  · cases h; exact List.length_map _
  · cases h; exact List.length_map _

/-- Each lane has its result among the pairs of lanes and results. -/
theorem laneResult_mem {op : Opd → Opd → Opd → Res} {lanes : List Nat} {as bs cs : List Opd} (ha : as.length = lanes.length)
    (hb : bs.length = lanes.length) (hc : cs.length = lanes.length) {k : Nat} (hk : k < lanes.length) :
    (lanes.getD k 0, op (as.getD k {}) (bs.getD k {}) (cs.getD k {})) ∈
      lanes.zip ((as.zip (bs.zip cs)).map fun x => op x.1 x.2.1 x.2.2) := by
  rw [List.mem_iff_getElem]
  refine ⟨k, by simp; omega, ?_⟩
  simp [hk, ha, hb, hc]

/-! Exceptions: an instruction that signals none. -/

theorem fpDone_none {t : Team} {ln : Bool} {excs : List (Nat × Exc)} (h : ∀ e ∈ excs, e.2 = 0) : fpDone t ln excs = .ok 0 := by
  have hfold : excs.foldl (fun (x : Exc) e => x ||| e.2) 0 = 0 :=
    excs.foldlRecOn (motive := (· = 0)) _ rfl fun x hx e he => by rw [hx, h e he]; rfl
  have henabled : t.enabled 0 = 0 := BitVec.zero_and
  simp only [fpDone, hfold, henabled]
  rfl

/-! The destination. -/

theorem lanesFor_lt {t : Team} {row : Rows.RRow} {f : RForm} (hl : f.ln = true) {l : Nat} (h : l ∈ t.lanesFor row f) : l < t.nlanes := by
  unfold Team.lanesFor at h
  rw [if_pos hl] at h
  exact List.mem_range.1 (List.mem_filter.1 h).1

theorem elems_eq {w : Rows.Wd} (hw : w ≠ .src) (ty src src' : Ty) : Rows.elems w ty src = Rows.elems w ty src' := by
  cases w
  case src => exact absurd rfl hw
  all_goals rfl

/-- A legal general destination fits the registers of a shaped team (02 R57). -/
theorem fits_of_fldOk {t : Team} {row : Rows.RRow} {f : RForm} {src : Ty} {w : Rows.Wd} (hs : Shaped t) (hw : w ≠ .src)
    (hd : Rows.fldOk t.vregs (.genD w) f.d f.ln false f.ty src = true) : Fits t f.ln w f.ty f.d.toNat (t.lanesFor row f) := by
  obtain ⟨hslen, -, -, -, hvlen, hrow, -, -⟩ := hs
  have hlt : f.d.toNat < 64 := f.d.isLt
  constructor
  · intro hl
    rw [hslen]
    refine ⟨hlt, fun hdbl h64 => ?_⟩
    have heven : f.d.toNat % 2 = 0 := by simpa [Rows.fldOk, hl, hdbl, h64] using hd
    omega
  · intro hl
    have hfit : f.d.toNat + Rows.elems w f.ty f.ty ≤ t.v.length := by
      rw [elems_eq hw f.ty f.ty src, hvlen]
      simp only [Rows.fldOk, hl, Bool.not_true, Bool.or_self, Bool.false_eq_true, if_false, Bool.and_eq_true, decide_eq_true_eq] at hd
      exact hd.2
    refine ⟨hfit, fun lane hm r _ hr => ?_⟩
    have hr' : r < t.v.length := hr.trans_le hfit
    rw [List.getD_eq_getElem _ _ hr', hrow _ (List.getElem_mem hr')]
    exact lanesFor_lt hl hm

theorem legalR_dest {V : Nat} {row : Rows.RRow} {src : Ty} {f : RForm} (h : Rows.legalR V row src f = true) :
    Rows.fldOk V row.d f.d f.ln false f.ty src = true := by
  simp only [Rows.legalR, Bool.and_eq_true] at h
  tauto

theorem legalR_of_issues {i : Instr} {s : State} {mop fn : Nat} {row : Rows.RRow} {src : Ty} {f : RForm}
    (hv : Rows.view i = .r mop fn row src f) (hi : Issues i s) : Rows.legalR s.team.vregs row src f = true := by
  obtain ⟨-, hl, -⟩ := hi
  rw [Rows.legal, hv, Bool.and_eq_true] at hl
  exact hl.2

/-- The end of every F-R instruction that writes general registers: the moving team's registers become those of `u`, shadowed passes are
noted, and the team retires past its word. -/
theorem retire_after_writes {s : State} {u : Team} {e : Exc} {w : Writes} (mop : Nat) (ln : Bool) (h : s.cur < s.teams.length)
    (hsame : SameBut (s.team.orFpst e) u) (hregs : SameRegs s.team u w) :
    let t := ((s.setTeam u).shadow mop ln).retire 8
    Retires s t (s.team.pc + 8) w ∧ SameMask s t ∧ t.team.fpst = s.team.fpst ||| e.setWidth 64 ∧
      ∃ st steps p n, t.team = u.retiredTo (s.team.pc + 8) st steps p n := by
  intro t
  let s' := (s.setTeam u).shadow mop ln
  have hteam : s'.team = u := by
    rw [← State.team_setTeam s u h]
    unfold State.team State.teamAt
    rw [shadow_cur, shadow_teams]
  have hmover : OnlyMover s s' := onlyMover_trans (setTeam_mover s u) (shadow_mover _ mop ln) rfl
  have hcur : s'.cur = s.cur := shadow_cur _ _ _
  have ht : t = s'.retireTo (s.team.pc + 8) := by
    show s'.retireTo (pcAdd s'.team.pc 8) = _
    rw [hteam, hsame.pc]; rfl
  obtain ⟨st, steps, p, n, hr⟩ := retireTo_team s' (s.team.pc + 8) (by rw [hcur, hmover.2.1]; exact h)
  rw [hteam] at hr
  rw [ht, SameMask, hr]
  exact ⟨finish_retires s u _ w s' h hmover hcur hteam hsame.rest hregs, ⟨hsame.m, hsame.stack⟩, hsame.fpst, st, steps, p, n, rfl⟩

/-- An F-R instruction whose meaning is an operation on each lane completes with that operation's results, where it issues, its operands
read, and no enabled exception is signalled. -/
theorem completes_of_mapLanes {i : Instr} {s : State} {mop fn : Nat} {row : Rows.RRow} {src : Ty} {f : RForm} {as bs cs : List Opd}
    {w : Rows.Wd} {u : Exc} {op : Team → Opd → Opd → Opd → Res} (hx : exec i s = mapLanes i s op)
    (hv : Rows.view i = .r mop fn row src f) (hd : row.d = .genD w) (hw : w ≠ .src) (hs : Shaped s.team) (hi : Issues i s)
    (hr : Reads s row src f as bs cs)
    (hu : fpDone s.team f.ln (((s.team.lanesFor row f).zip ((as.zip (bs.zip cs)).map fun x => op s.team x.1 x.2.1 x.2.2)).map
      fun p => (p.1, p.2.exc)) = .ok u) :
    Completes i s row f w u fun k =>
      ((op s.team (as.getD k {}) (bs.getD k {}) (cs.getD k {})).v, (op s.team (as.getD k {}) (bs.getD k {}) (cs.getD k {})).tag) := by
  have hfits := fits_of_fldOk (row := row) hs hw (hd ▸ legalR_dest (legalR_of_issues hv hi))
  have hrun := mapLanes_eq op hv hi hr hu
  obtain ⟨-, ha, hb, hc⟩ := hr
  have hlanes := List.map_fst_zip (l₁ := s.team.lanesFor row f)
    (l₂ := (as.zip (bs.zip cs)).map fun x => op s.team x.1 x.2.1 x.2.2)
    (by simp [readFld_length ha, readFld_length hb, readFld_length hc])
  obtain ⟨hsame, hregs, hholds⟩ := foldGen f.ln w f.ty f.d.toNat (s.team.lanesFor row f)
    ((s.team.lanesFor row f).zip ((as.zip (bs.zip cs)).map fun x => op s.team x.1 x.2.1 x.2.2)) (s.team.orFpst u)
    (fun x hx => hlanes ▸ List.mem_map_of_mem hx) (by rw [hlanes]; exact lanesFor_nodup _ _ _)
    (fun hl => by simp [lanesFor_scalar _ _ _ hl]) hfits
  simp only [hd] at hrun
  obtain ⟨hret, hmask, hfpst, st, steps, p, n, hteam⟩ := retire_after_writes mop f.ln hi.1 hsame hregs
  refine ⟨_, hx.trans hrun, hd ▸ hret, hmask, hfpst, fun k hk => ?_⟩
  rw [hteam]
  exact hholds _ (laneResult_mem (op := op s.team) (readFld_length ha) (readFld_length hb) (readFld_length hc) hk)

end Sys2Proof.Machine
end

section
/-! PROOFS. The integer instructions of 04 R95-R102: each computes the exact value of its table in every lane, and completes. -/
namespace Sys2Proof.Machine

/-! The exact values as the model writes them. -/

theorem remInt_eq (a b : Int) : (if b = 0 then a else a - b * a.tdiv b) = remInt a b := by
  unfold remInt
  split
  · rfl
  · exact (Int.tmod_def a b).symm

theorem max_eq_ite (a b : Int) : max a b = if b ≤ a then a else b := by
  rw [max_comm, max_def]

/-- The field that `bfx` extracts from a reading is that of the content that was read. -/
theorem bfxN_eq (t : Ty) (a b : Nat) :
    (let x := pat (min (b / 256 % 128) 64) ((pat (Rows.width t) (readInt t a)).toNat >>> (b % 64) : Nat)
     if Rows.isSigned t then x.toInt else x.toNat) = bfxN (Rows.isSigned t) (Rows.width t) a b := by
  unfold bfxN
  dsimp only
  rw [pat_readInt, BitVec.toNat_ofNat, Nat.shiftRight_eq_div_pow, pat, BitVec.ofInt_natCast]
  generalize a % 2 ^ Rows.width t / 2 ^ (b % 64) = y
  generalize min (b / 256 % 128) 64 = len
  by_cases h : len = 0
  · subst h; simp [BitVec.toInt_zero_length]
  · rw [if_neg h, sextN_eq_toInt, ← BitVec.toNat_ofNat, BitVec.ofNat_toNat, BitVec.setWidth_eq]

/-- The bits that `bfi` takes from A and C, as one number. -/
theorem bfiN_eq (t : Ty) (a b c : Nat) :
    (((List.range (Rows.width t)).filter fun k =>
      if b % 64 ≤ k ∧ k < b % 64 + b / 256 % 128 then (pat (Rows.width t) (readInt t a)).getLsbD (k - b % 64)
      else (pat (Rows.width t) (readInt t c)).getLsbD k).map fun k => (2 ^ k : Int)).sum = bfiN (Rows.width t) a b c := by
  refine sum_two_pow_eq fun k => ?_
  rw [testBit_bfiN, pat_readInt, pat_readInt]
  by_cases hk : k < Rows.width t
  · simp only [BitVec.getLsbD_ofNat, hk, show k - b % 64 < Rows.width t by omega, decide_true, Bool.true_and]
  · simp [hk]

/-! The operations. -/

/-- An operation computes the exact value of an instruction from what the sources read as, narrows it, and gives it the tag of the rule. -/
def ComputesExact (i : Instr) (s : State) (f : RForm) (op : Team → Opd → Opd → Opd → Res) : Prop :=
  ∀ (t : Team) (a b c : Opd), ∃ x, exactInt i f.ty (readInt f.ty a.v) (readInt f.ty b.v) (readInt f.ty c.v) b.v = some x ∧
    op t a b c = intRes s t f (intInputs i f.ty a b c) x

/-- Every instruction with an exact integer value is an operation that computes it (Tables 4-1, 4-3, 4-4, 4-5, R102). -/
theorem exec_computesExact {i : Instr} {mop fn : Nat} {row : Rows.RRow} {src : Ty} {f : RForm} (s : State)
    (hv : Rows.view i = .r mop fn row src f) (hx : (exactInt i f.ty 0 0 0 0).isSome) :
    row.d = .genD .ty ∧ ∃ op, exec i s = mapLanes i s op ∧ ComputesExact i s f op := by
  cases i
  case add | sub | mulLo | mulHi | mad | div | neg => cases hv; exact ⟨rfl, _, rfl, fun _ _ _ _ => ⟨_, rfl, rfl⟩⟩
  case rem | min | max | abs =>
    cases hv
    refine ⟨rfl, _, rfl, fun _ _ _ _ => ⟨_, ?_, rfl⟩⟩
    simp only [exactInt, remInt_eq, min_def, max_eq_ite, Int.abs_eq_natAbs]
  case and | or | xor | andn | not =>
    cases hv
    refine ⟨rfl, _, rfl, fun _ _ _ _ => ⟨_, ?_, rfl⟩⟩
    simp only [exactInt, BitVec.toNat_and, BitVec.toNat_or, BitVec.toNat_xor, BitVec.toNat_not, toNat_pat]
    rfl
  case shl | shr | sar | rot | clz | popc | brev =>
    cases hv
    refine ⟨rfl, _, rfl, fun _ _ _ _ => ⟨_, ?_, rfl⟩⟩
    simp only [exactInt, shiftLeft_min_toNat, ushiftRight_min_toNat, sshiftRight_min_toNat, rotateLeft_toNat _ _ (width_pos _),
      clz_toNat (width_pos _), popc_toNat, reverse_toNat, toNat_pat]
    rfl
  -- of these two the named meaning is given, which unification does not find through `exec`
  case bfx f => cases hv; exact ⟨rfl, _, (rfl : execBfx f s = _), fun _ _ _ _ => ⟨_, congrArg some (bfxN_eq ..), rfl⟩⟩
  case bfi f => cases hv; exact ⟨rfl, _, (rfl : execBfi f s = _), fun _ _ _ _ => ⟨_, congrArg some (bfiN_eq ..), rfl⟩⟩
  all_goals cases hx

/-- Settles O14: each lane's result is that of an operation that computes the exact value, and no lane signals an exception. -/
theorem integerResults : Obligations.IntegerResults := by
  unfold Obligations.IntegerResults
  intro i mop fn row src f s as bs cs hv hx hs hi hr
  obtain ⟨hd, op, hexec, hop⟩ := exec_computesExact s hv hx
  choose val hval hres using hop s.team
  have hcompletes := completes_of_mapLanes hexec hv hd (by decide) hs hi hr (fpDone_none fun e he => by
    obtain ⟨p, hp, rfl⟩ := List.mem_map.1 he
    obtain ⟨x, -, hpx⟩ := List.mem_map.1 (List.of_mem_zip hp).2
    rw [← hpx, hres]; rfl)
  simp only [hres] at hcompletes
  exact ⟨fun k => narrow f.ty f.sat (val (as.getD k {}) (bs.getD k {}) (cs.getD k {})),
    fun k _ => ⟨_, hval _ _ _, narrowed_narrow _ _ _⟩, hcompletes⟩

end Sys2Proof.Machine
end
